-- ==== Sys2Proof/Word.lean ====
section
/-! DEFINITION. The words of the block and their plainest arithmetic: bytes, 32-bit registers, 64-bit bus addresses and handles (00_scope.md R8, R10). -/

namespace Sys2Proof

/-- One byte of a descriptor or of memory (R100). -/
abbrev Byte := BitVec 8

/-- A device register or a command word, 32 bits (R8 `REG_WIDTH`, R91). -/
abbrev Word := BitVec 32

/-- A bus address, 64 bits (R8 `ADDR_WIDTH`, R60). -/
abbrev Addr := BitVec 64

/-- An opaque buffer handle, 64 bits, 0 meaning "empty" (R8 `HANDLE_WIDTH`, R60). -/
abbrev Handle := BitVec 64

/-- A descriptor length, 16 bits (R8 `LEN_WIDTH`, R100). -/
abbrev Len := BitVec 16

end Sys2Proof
end

