-- ==== Sys2Proof/Config.lean ====
section
/-! DEFINITION. The configuration record of the block (00_scope.md R8, 92_eei_decisions.md section 8), the values this package names for it, and the one free value the spec leaves to the device. -/

namespace Sys2Proof

/-- `REG_OFFSET`: the byte offset of every named device register (R41); `mta` is the offset of `MTA[0]`. -/
structure RegOffsets where
  ctrl  : Nat
  icr   : Nat
  ims   : Nat
  rctl  : Nat
  tctl  : Nat
  tipg  : Nat
  rdbal : Nat
  rdbah : Nat
  rdlen : Nat
  rdh   : Nat
  rdt   : Nat
  rdtr  : Nat
  radv  : Nat
  tdbal : Nat
  tdbah : Nat
  tdlen : Nat
  tdh   : Nat
  tdt   : Nat
  mta   : Nat
  ra0   : Nat
  ra1   : Nat
  deriving DecidableEq, Repr

/-- Which device stands on the other side of the rings. -/
inductive DeviceModel where
  /-- In-order service of the window from the head up to, not including, the tail (R262, R263, R264). -/
  | inOrder
  /-- Conservative widening: besides, any slot the device owns, whatever head and tail (R278). -/
  | widened
  deriving DecidableEq, Repr

/-- The parameters of R8: "A model takes all of them as one configuration record." No step writes it. -/
structure Config where
  /-- `N`, slots per ring. -/
  n           : Nat
  /-- `DESC_ALIGN`. -/
  descAlign   : Nat
  /-- `RING_LEN_MULT`. -/
  ringLenMult : Nat
  /-- `P`, the number of ordinary command ports. -/
  p           : Nat
  /-- `TX_RING_BASE`. -/
  txRingBase  : Addr
  /-- `RX_RING_BASE`. -/
  rxRingBase  : Addr
  /-- `MAC_ADDR`. -/
  macAddr     : BitVec 48
  /-- `REG_OFFSET`. -/
  regOffset   : RegOffsets
  /-- `MTA_ENTRIES`. -/
  mtaEntries  : Nat
  /-- `RX_BUF_SIZE`. -/
  rxBufSize   : Nat
  /-- `CTRL_RST` (R44, R213). -/
  ctrlRst     : Word
  /-- `IMS_RXDW` (R43, R213). -/
  imsRxdw     : Word
  /-- `RA_VALID` (R47, R213). -/
  raValid     : Word
  /-- `TCTL_INIT` (R48, R213). -/
  tctlInit    : Word
  /-- `TIPG_INIT` (R48, R213). -/
  tipgInit    : Word
  /-- `RCTL_INIT` (R49, R213). -/
  rctlInit    : Word
  /-- `CMD_EOP` (R101). -/
  cmdEop      : Byte
  /-- `CMD_RS` (R101). -/
  cmdRs       : Byte
  /-- In-order or widened device (R263, R278). -/
  device      : DeviceModel
  deriving DecidableEq, Repr

namespace Config

/-- The default offsets of R41's table. -/
def defaultOffsets : RegOffsets where
  ctrl := 0x0000
  icr := 0x00C0
  ims := 0x00D0
  rctl := 0x0100
  tctl := 0x0400
  tipg := 0x0410
  rdbal := 0x2800
  rdbah := 0x2804
  rdlen := 0x2808
  rdh := 0x2810
  rdt := 0x2818
  rdtr := 0x2820
  radv := 0x282C
  tdbal := 0x3800
  tdbah := 0x3804
  tdlen := 0x3808
  tdh := 0x3810
  tdt := 0x3818
  mta := 0x5200
  ra0 := 0x5400
  ra1 := 0x5404

/-- The configuration `State.reset` carries: the values of R8 and R213, and for the OPEN parameters (`P`, the
ring bases, `MAC_ADDR`) those of the test environment of 95_test_vectors.md section 0. DESIGN CHOICE, log entry 1:
unsafe only for a claim about `State.reset` itself; a claim about every state holds for every configuration. -/
def hw : Config where
  n := 16
  descAlign := 16
  ringLenMult := 128
  p := 2
  txRingBase := 0x0000000080001000
  rxRingBase := 0x0000000080002000
  macAddr := 0x563412005452
  regOffset := defaultOffsets
  mtaEntries := 128
  rxBufSize := 2048
  ctrlRst := 0x04000000
  imsRxdw := 0x00000080
  raValid := 0x80000000
  tctlInit := 0x0004010A
  tipgInit := 0x0060200A
  rctlInit := 0x04008002
  cmdEop := 0x01
  cmdRs := 0x08
  device := .inOrder

/-- FREE VALUE: the 32-bit words the device supplies and the spec does not fix, one for each number drawn: what a
read of `CTRL` answers (R261, U11) and what every device register holds after the device reset at `N3b` (R203, U6).
No body, so nothing can be proved of it. Log entry 2. -/
opaque freeWord : Nat → Word

end Config
end Sys2Proof
end

