-- ==== Sys2Proof/Syntax.lean ====
section
/-! DEFINITION. The command set of the block as syntax: one constructor per row of opcode_table.json (30_encoding.md R92). -/

namespace Sys2Proof

/-- The block's instruction set is its command set (R3, R92). The operands `A0` and `A1` are port registers, not
part of the word (R91); `len` is the only field a word carries beside its opcode (R97). -/
inductive Instr where
  /-- `INIT`: reset and program the device, build both rings (R93, R201). -/
  | init
  /-- `XMIT`: put one buffer of `len` bytes in the slot at the TX tail (R94, R151). -/
  | xmit (len : Nat)
  /-- `INTR`: acknowledge the device's interrupt, then drain (R95, R191). -/
  | intr
  /-- `DRAIN`: deliver every completed RX slot and refill it (R96, R171). -/
  | drain
  deriving DecidableEq, Repr

end Sys2Proof
end

