-- ==== Sys2Proof/WellFormed.lean ====
section
/-! DEFINITION. Which terms of `Instr` a command word can carry: the one field, `len`, has 16 bits (30_encoding.md R91, R97). -/

namespace Sys2Proof

/-- `len` is "unsigned, not scaled, range 0 to 65535" (R97); the other commands have no field (R93, R95, R96). -/
def Instr.wf : Instr → Bool
  | .init => true
  | .xmit len => decide (len < 65536)
  | .intr => true
  | .drain => true

end Sys2Proof
end

