-- ==== Sys2Proof/Decode.lean ====
section
/-! DEFINITION. The command word: its decoder, total on all 2^32 words and rejecting by name, and after it the encoder (30_encoding.md R91 to R99). -/

namespace Sys2Proof

/-- Why a command word is illegal (R98). -/
inductive Illegal where
  /-- `opc` is 0x0 or 0x5 to 0xF. -/
  | opcode
  /-- `rsv != 0`. -/
  | reservedBits
  /-- `opc != 0x2` and `CW[31:16] != 0`. -/
  | lengthBits
  deriving DecidableEq, Repr

/-- What the decoder answers: a command, or the name of what makes the word illegal. -/
inductive Decoded where
  | command (i : Instr)
  | illegal (why : Illegal)
  deriving DecidableEq, Repr

/-- Field `opc`, bits 3:0 (R91). -/
def opcOf (w : Word) : BitVec 4 := w.extractLsb' 0 4

/-- Field `rsv`, bits 15:4 (R91). -/
def rsvOf (w : Word) : BitVec 12 := w.extractLsb' 4 12

/-- Field `len`, bits 31:16 (R91). -/
def lenOf (w : Word) : Len := w.extractLsb' 16 16

/-- A command without a length: its `len` field is reserved and must be 0 (R91). -/
def withoutLen (i : Instr) (w : Word) : Decoded :=
  if lenOf w = 0 then .command i else .illegal .lengthBits

/-- The decoder (R92 to R98). -/
def decode (w : Word) : Decoded :=
  if rsvOf w = 0 then
    match (opcOf w).toNat with
    | 1 => withoutLen .init w
    | 2 => .command (.xmit (lenOf w).toNat)
    | 3 => withoutLen .intr w
    | 4 => withoutLen .drain w
    | _ => .illegal .opcode
  else .illegal .reservedBits

/-- The word with fields `len`, `rsv`, `opc` (R91). -/
def assemble (len : Len) (rsv : BitVec 12) (opc : BitVec 4) : Word :=
  (len ++ rsv ++ opc : BitVec 32)

/-- The encoder (R93 to R96); a `len` that does not fit its 16 bits is cut. -/
def encode : Instr → Word
  | .init => assemble 0 0 1
  | .xmit len => assemble (BitVec.ofNat 16 len) 0 2
  | .intr => assemble 0 0 3
  | .drain => assemble 0 0 4

/-- One row of opcode_table.json: a word belongs to it when the bits under `mask` are those of `pattern`. -/
structure OpcodeRow where
  mnemonic : String
  pattern  : Word
  mask     : Word
  deriving DecidableEq, Repr

/-- The four rows of opcode_table.json. -/
def opcodeRows : List OpcodeRow :=
  [⟨"INIT", 0x00000001, 0xFFFFFFFF⟩, ⟨"XMIT", 0x00000002, 0x0000FFFF⟩,
   ⟨"INTR", 0x00000003, 0xFFFFFFFF⟩, ⟨"DRAIN", 0x00000004, 0xFFFFFFFF⟩]

/-- The mnemonic of an instruction, as opcode_table.json spells it. -/
def Instr.mnemonic : Instr → String
  | .init => "INIT"
  | .xmit _ => "XMIT"
  | .intr => "INTR"
  | .drain => "DRAIN"

/-- A word matches a row (R93 to R96). -/
def OpcodeRow.hasWord (r : OpcodeRow) (w : Word) : Bool := decide (w &&& r.mask = r.pattern)

/-- The instruction the decoder reads from an instruction whose bits are `w`, numbered as opcode_table.json numbers
them. Every command is one 32-bit word held in a register (R91, R99), so no byte order enters; bits above `nbits`
are 0, and an instruction longer than 32 bits does not exist. -/
def decodeTableWord (nbits w : Nat) : Option Instr :=
  if nbits ≤ 32 then
    match decode (BitVec.ofNat 32 (w % 2 ^ nbits)) with
    | .command i => some i
    | .illegal _ => none
  else none

end Sys2Proof
end

