-- ==== Sys2Proof/Machine/State.lean ====
section
/-! DEFINITION. The state of the machine as plain data: every element of 10_state.md, the environment's inputs, and the reasons a step can stop. -/

namespace Sys2Proof.Machine

/-! ### Names the state is written in -/

/-- `mode`, 2 bits (R28). -/
inductive Mode where
  | uninit | initing | ready | fatal
  deriving DecidableEq, Repr

/-- The cause of a fatal halt, the values of `fcause` (R29, R295). -/
inductive FatalCause where
  | none | cfgRingSize | cfgRingAlign | nobufInit | nobufDrain
  deriving DecidableEq, Repr

/-- Who issued a command or holds a lock: an ordinary port, or the interrupt port `IRQ` (R21, R32). -/
inductive Source where
  | port (p : Nat)
  | irq
  deriving DecidableEq, Repr

/-- A lock: `FREE` or `HELD(source)` (R31, R32). -/
inductive Lock where
  | free
  | held (by_ : Source)
  deriving DecidableEq, Repr

/-- Which command the RX engine runs (R24 `rx_kind`). -/
inductive RxKind where
  | intr | drain
  deriving DecidableEq, Repr

/-- The ghost owner of a buffer handle (R53); `engine` is the RX engine or the INIT sequencer, between the call that
took the handle from the pool or out of a slot and the step that hands it on. -/
inductive Owner where
  | pool
  | requester (p : Nat)
  | txSlot (i : Nat)
  | rxSlot (i : Nat)
  | engine
  | ingress
  deriving DecidableEq, Repr

/-- `tx_pc` (R23). -/
inductive TxPc where
  | idle | x1 | x2 | x3 | x4 | x5a | x5b | x5c | x5d | x6 | x7 | x8
  deriving DecidableEq, Repr

/-- `rx_pc` (R23). -/
inductive RxPc where
  | idle | i1 | i2 | d0 | d1 | d2 | d3a | d3b | d3c | d4 | d5 | d6a | d6b | d6c | d6d | d7 | dx
  deriving DecidableEq, Repr

/-- `init_pc` (R23). -/
inductive InitPc where
  | idle | n1 | n2 | n3a | n3b | n4 | n5 | n6 | n7
  | n8a | n8b | n8c | n8d | n8e | n8f | n9 | n10
  | n11a | n11b | n11c | n11d | n11e | n11f
  | n12a | n12b | n12c | n13a | n13b | n14 | n15a | n15b | n15c | n16
  deriving DecidableEq, Repr

/-- The device's registers by name (R41). -/
inductive Reg where
  | ctrl | icr | ims | rctl | tctl | tipg
  | rdbal | rdbah | rdlen | rdh | rdt | rdtr | radv
  | tdbal | tdbah | tdlen | tdh | tdt
  | mta (j : Nat) | ra0 | ra1
  deriving DecidableEq, Repr

/-- Which of the two rings (R120). -/
inductive Ring where
  | tx | rx
  deriving DecidableEq, Repr

/-! ### The parts of the state -/

/-- A command accepted and waiting for its engine: what was sampled at acceptance (R231). -/
structure Request where
  instr : Instr
  a0    : Handle
  a1    : Addr
  deriving DecidableEq, Repr

/-- One ordinary command port (R21): its five registers, its outstanding flag (R231), and the sampled command while
it waits at `X1`, `D0` or `I1` (R233). -/
structure Port where
  cw          : Word
  a0          : BitVec 64
  a1          : BitVec 64
  rv          : Word
  rc          : BitVec 4
  outstanding : Bool
  waiting     : Option Request
  deriving DecidableEq, Repr

/-- The TX engine: position and latches (R23, R24). -/
structure TxEngine where
  pc : TxPc
  p  : Nat
  h  : Handle
  a  : Addr
  n  : Len
  i  : Nat
  s  : Byte
  deriving DecidableEq, Repr

/-- The RX engine: position and latches (R23, R24). -/
structure RxEngine where
  pc   : RxPc
  src  : Source
  kind : RxKind
  i    : Nat
  s    : Byte
  b    : Handle
  l    : Len
  nh   : Handle
  na   : Addr
  deriving DecidableEq, Repr

/-- The INIT sequencer: position and latches (R23, R24). `k` is the access within a loop body (R201: "loops run one
micro-step per access") and `h`, `a` the answer of `BufAlloc` held between the micro-steps of `N9`: state R201's
pseudocode implies and R24 does not list. DEDUCED, log entry 9. -/
structure InitSeq where
  pc : InitPc
  p  : Nat
  i  : Nat
  c  : Word
  k  : Nat
  h  : Handle
  a  : Addr
  deriving DecidableEq, Repr

/-- The device's register file (R40 to R50). `tdh` and `rdh` are the heads `txh` and `rxh` of R51 as well. -/
structure DevRegs where
  ctrl  : Word
  icr   : Word
  ims   : Word
  rctl  : Word
  tctl  : Word
  tipg  : Word
  rdbal : Word
  rdbah : Word
  rdlen : Word
  rdh   : Word
  rdt   : Word
  rdtr  : Word
  radv  : Word
  tdbal : Word
  tdbah : Word
  tdlen : Word
  tdh   : Word
  tdt   : Word
  mta   : List Word
  ra0   : Word
  ra1   : Word
  deriving DecidableEq, Repr

/-- The device: its registers, whether its transmitter and receiver are enabled (R262, R264, R267), and
`dev_irq_out` (R52). -/
structure Device where
  regs   : DevRegs
  txOn   : Bool
  rxOn   : Bool
  irqOut : Bool
  deriving DecidableEq, Repr

/-- Bus memory: pairs of an address and its byte, addresses strictly rising; an unlisted address has no value (R55,
U23: not written yet). Log entry 5. -/
abbrev Memory := List Host.Cell

/-- The answer of one `BufAlloc` call: a handle and its data address, or `NONE` (R270). -/
abbrev AllocAnswer := Option (Handle × Addr)

/-- One thing the block did at its bus or its call ports, as the outside sees it (R67, R70, R270 to R273). -/
inductive Act where
  | memRead (a : Addr) (bytes : Nat) (v : Nat)
  | memWrite (a : Addr) (bytes : Nat) (v : Nat)
  | regRead (r : Reg) (a : Addr) (v : Word)
  | regWrite (r : Reg) (a : Addr) (v : Word)
  | fence
  | bufAlloc (ans : AllocAnswer)
  | bufFree (h : Handle)
  | bufSetLen (h : Handle) (n : Len)
  | netRx (h : Handle)
  deriving DecidableEq, Repr

/-- One event of the schedule (R12, R14, R107, R108): which agent moves next, with the values the spec lets that
agent choose. -/
inductive Event where
  /-- `Issue(p)` (R231): the requester on `p` writes its registers and raises its request. -/
  | issue (p : Nat) (cw : Word) (a0 a1 : BitVec 64)
  /-- `Issue(p)` followed at once by every micro-step its command can take: a command line of R107, "agents act one
  at a time". -/
  | call (p : Nat) (cw : Word) (a0 a1 : BitVec 64)
  /-- The waiting XMIT of port `p` takes `tx_lock` (`X1`, R234, R236). -/
  | grantTx (p : Nat)
  /-- The waiting DRAIN or INTR of a source takes `rx_lock` (`D0`, `I1`, R234, R236, R238). -/
  | grantRx (src : Source)
  /-- The TX engine takes its next micro-step. -/
  | tx
  /-- The RX engine takes its next micro-step. -/
  | rx
  /-- The INIT sequencer takes its next micro-step. -/
  | init
  /-- The dispatcher signals the `irq` input (R239, R275): it delivers a raise the device has signalled, or, where none
  is held, a spurious one. -/
  | irq
  /-- The interrupt port's INTR runs through, if it is enabled (R238). -/
  | serveIrq
  /-- `ALLOC -> h, a` or `ALLOC -> NONE` (R108): the allocator's answer to a `BufAlloc` to come. -/
  | alloc (ans : AllocAnswer)
  /-- `DEV.TXDONE` (R262): at the head (`none`), or at any slot the device owns (`some i`, R278). `st` gives the
  status bits 7:1, `cause` the cause it may add. -/
  | devTxDone (at_ : Option Nat) (st : Byte) (cause : Word)
  /-- `DEV.RXFILL n, s` (R264) with the frame's bytes. -/
  | devRxFill (at_ : Option Nat) (frame : List Byte) (st : Byte)
  /-- One byte the device stores, before the status write, in the descriptor of a slot it is serving: a don't-care
  byte, and on RX `length` too (R100, R103, R264). -/
  | devByte (r : Ring) (at_ : Option Nat) (off : Nat) (b : Byte)
  /-- One byte of frame data the device stores in the buffer of a slot it is filling (R264). -/
  | devRxData (at_ : Option Nat) (k : Nat) (b : Byte)
  /-- `DEV.RAISE` (R265). -/
  | devRaise
  /-- A buffer changes hands among the agents outside the block (ghost, R53, R271, R273, R331); `a` is its data address
  where it comes from the pool. -/
  | own (h : Handle) (o : Owner) (a : Addr)
  /-- Block reset (R330). -/
  | reset
  deriving DecidableEq, Repr

/-- The state of the machine. -/
structure State where
  /-- The parameters (R8); no step writes them. -/
  cfg      : Config
  /-- The ordinary ports `0..P-1` (R21). -/
  ports    : List Port
  /-- The port whose command the acceptor is handling (the model's own: `exec` has no port argument). -/
  sel      : Nat
  /-- TX engine (R23, R24). -/
  tx       : TxEngine
  /-- RX engine (R23, R24). -/
  rx       : RxEngine
  /-- INIT sequencer (R23, R24). -/
  ini      : InitSeq
  /-- `mode` (R28). -/
  mode     : Mode
  /-- `fcause` (R29). -/
  fcause   : FatalCause
  /-- `regs_base` (R30). -/
  regsBase : Addr
  /-- `tx_lock` (R31). -/
  txLock   : Lock
  /-- `rx_lock` (R32). -/
  rxLock   : Lock
  /-- `irq_pend` (R33). -/
  irqPend  : Bool
  /-- `tx_shadow[0..N-1]` (R34). -/
  txShadow : List Handle
  /-- `rx_shadow[0..N-1]` (R35). -/
  rxShadow : List Handle
  /-- Bus memory: the two rings (R36, R37) and every other byte address. -/
  mem      : Memory
  /-- The device's registers and hidden state (R40 to R52). -/
  dev      : Device
  /-- Ghost owner of every handle (R53): the pairs in canonical form, an unlisted handle being in the pool. -/
  owner    : List (Nat × Owner)
  /-- The length field of every buffer the block has set (R272). -/
  bufLen   : List (Nat × Len)
  /-- The data address of every buffer the allocator has handed out and not taken back (ghost, R270), each an area of
  `RX_BUF_SIZE` bytes. -/
  areas    : List (Nat × Addr)
  /-- The allocator's answers to come, first first (R270, R108). -/
  allocs   : List AllocAnswer
  /-- The raises the device has signalled and the dispatcher has still to turn into `irq` events (R265, R275). -/
  irqSignals : Nat
  /-- The schedule to come, first first (R14). -/
  script   : List Event
  /-- How many free words have been drawn (the model's own: the argument of `Config.freeWord`). -/
  draws    : Nat
  /-- What the block has done at its bus and call ports, last first (the model's own record). -/
  trace    : List Act
  deriving DecidableEq, Repr

/-! ### Why a step can stop -/

/-- The faults. A recoverable outcome of a command is a response and a fatal halt is a state (R291, R296), so
neither is here. -/
inductive Fault where
  /-- Raised by `memRead`: a byte of the access at this address has never been written (R55: "a model must not assume
  zero"). Safe: no run from reset reaches it, since a READY block reads its rings only and INIT has written every byte
  of both. -/
  | unwrittenByte (a : Nat)
  /-- Raised by `issueCommand`: there is no ordinary port with this number (R21). Safe: no requester exists there. -/
  | noSuchPort (p : Nat)
  deriving DecidableEq, Repr

/-- The refusals. -/
inductive Refusal where
  /-- Raised by an arm of `exec` that has no meaning yet. Safe. -/
  | notModelled (mnemonic : String)
  /-- Raised by an accepted INIT: `regs_base` is not a multiple of 4; "a model refuses it" (R69, U14). Safe. -/
  | misalignedRegsBase
  /-- Raised by an accepted INIT: a premise of R9 on the parameters is broken, or a live buffer lies over the register
  block (U15: `refuse`). Safe. -/
  | brokenPremise
  /-- Raised by a device store: the bytes lie over a ring or over the register block, or run past the address space
  (R9, U15: `refuse`). Safe. -/
  | regionsOverlap
  /-- Raised by `BufAlloc`: the answer given is handle 0, a handle somebody owns, or an area that meets another live
  buffer, a ring or the register block, which R270 rules out (U15: `refuse`). Safe. -/
  | badAllocation
  deriving DecidableEq, Repr

/-- What a step answers. -/
abbrev Result := Host.Outcome State Fault Refusal

/-! ### Reset -/

/-- A port after block reset (R54): `RV`, `RC` and the flag 0. `CW`, `A0`, `A1` are unspecified there: 0, DESIGN
CHOICE, log entry 3. -/
def Port.reset : Port :=
  { cw := 0, a0 := 0, a1 := 0, rv := 0, rc := 0, outstanding := false, waiting := none }

/-- The TX engine after block reset: `IDLE`; latches unspecified (R54): 0, DESIGN CHOICE, log entry 3. -/
def TxEngine.reset : TxEngine := { pc := .idle, p := 0, h := 0, a := 0, n := 0, i := 0, s := 0 }

/-- The RX engine after block reset: `IDLE`; latches unspecified (R54): 0, DESIGN CHOICE, log entry 3. -/
def RxEngine.reset : RxEngine :=
  { pc := .idle, src := .port 0, kind := .intr, i := 0, s := 0, b := 0, l := 0, nh := 0, na := 0 }

/-- The INIT sequencer after block reset: `IDLE`; latches unspecified (R54): 0, DESIGN CHOICE, log entry 3. -/
def InitSeq.reset : InitSeq := { pc := .idle, p := 0, i := 0, c := 0, k := 0, h := 0, a := 0 }

/-- The device before anything is known of it (R55, R267): every register 0 and both engines off. DESIGN CHOICE, log
entry 4. -/
def Device.unknown (cfg : Config) : Device where
  regs :=
    { ctrl := 0, icr := 0, ims := 0, rctl := 0, tctl := 0, tipg := 0, rdbal := 0, rdbah := 0, rdlen := 0, rdh := 0,
      rdt := 0, rdtr := 0, radv := 0, tdbal := 0, tdbah := 0, tdlen := 0, tdh := 0, tdt := 0,
      mta := List.replicate cfg.mtaEntries 0, ra0 := 0, ra1 := 0 }
  txOn := false
  rxOn := false
  irqOut := false

/-- The machine right after reset with a given configuration (R54, R330): "after reset the block waits for an INIT
command". Memory lists nothing (R55). Every buffer is the allocator's, owner `POOL` and no area listed, and the
dispatcher holds no signal: the spec gives the agents outside the block no starting state (R53 gives no owner at reset),
DESIGN CHOICE, log entry 25. -/
def State.resetWith (cfg : Config) : State where
  cfg := cfg
  ports := List.replicate cfg.p Port.reset
  sel := 0
  tx := TxEngine.reset
  rx := RxEngine.reset
  ini := InitSeq.reset
  mode := .uninit
  fcause := .none
  regsBase := 0
  txLock := .free
  rxLock := .free
  irqPend := false
  txShadow := List.replicate cfg.n 0
  rxShadow := List.replicate cfg.n 0
  mem := []
  dev := Device.unknown cfg
  owner := []
  bufLen := []
  areas := []
  allocs := []
  irqSignals := 0
  script := []
  draws := 0
  trace := []

/-- The machine right after reset (R54), with the configuration `Config.hw`. -/
def State.reset : State := State.resetWith Config.hw

end Sys2Proof.Machine
end

