-- ==== Sys2Proof/Machine/Flags.lean ====
section
/-! DEFINITION. Every flag the spec computes: the Descriptor-Done bit (10_state.md R25, 30_encoding.md R102), the response codes `RV`, `RC` (R105, R291), and the numbering of `mode` and `fcause` (R28, R295). -/

namespace Sys2Proof.Machine

/-- `DD(s) = s[0]` (R122): set, the block owns the slot; clear, the device does (R128). -/
def dd (s : Byte) : Bool := s.getLsbD 0

/-- `s & 0xFE`: DD cleared, bits 7:1 as read (R156). -/
def clearDD (s : Byte) : Byte := s &&& 0xFE

/-- The status byte with DD set and bits 7:1 as drawn (R262, R264). -/
def setDD (s : Byte) : Byte := s ||| 0x01

/-- The outcomes a command is answered with (R291). -/
inductive Reason where
  | ok | busy | notReady | badOperand | illegalCmd | alreadyInit
  deriving DecidableEq, Repr

/-- `RC`, 4 bits (R291). -/
def Reason.code : Reason → BitVec 4
  | .ok => 0
  | .busy => 1
  | .notReady => 2
  | .badOperand => 3
  | .illegalCmd => 4
  | .alreadyInit => 5

/-- `RV` (R105): 0 means success, `sext` of -1 anything else. -/
def Reason.rv : Reason → Word
  | .ok => 0x00000000
  | .busy => 0xFFFFFFFF
  | .notReady => 0xFFFFFFFF
  | .badOperand => 0xFFFFFFFF
  | .illegalCmd => 0xFFFFFFFF
  | .alreadyInit => 0xFFFFFFFF

/-- The 2-bit value of `mode` on the status lines (R28). -/
def Mode.code : Mode → BitVec 2
  | .uninit => 0
  | .initing => 1
  | .ready => 2
  | .fatal => 3

/-- The 4-bit value of `fcause` on the status lines (R295). -/
def FatalCause.code : FatalCause → BitVec 4
  | .none => 0
  | .cfgRingSize => 1
  | .cfgRingAlign => 2
  | .nobufInit => 3
  | .nobufDrain => 4

end Sys2Proof.Machine
end

