-- ==== Sys2Proof/Machine/Operands.lean ====
section
/-! DEFINITION. Operand and address assembly: indices from the tail registers (40_ring_and_ownership.md R123 to R126), descriptor addresses (R121), field offsets (30_encoding.md R100), register addresses (20_memory.md R67), and the premises on INIT's operand and on the parameters (R9, R69). -/

namespace Sys2Proof.Machine

/-! ### Descriptor layout (R100) -/

/-- `DESC_SIZE`, bytes of a descriptor (R8, R100). -/
def descSize : Nat := 16

/-- Byte offset of `buffer_address` (R100). -/
def offAddr : Nat := 0

/-- Byte offset of `length` (R100), and of the second 8-byte write of `N6` and `N9` (R65). -/
def offLen : Nat := 8

/-- Byte offset of `command` (R100). -/
def offCmd : Nat := 11

/-- Byte offset of `status` (R100). -/
def offStatus : Nat := 12

/-- `CMD_XMIT = CMD_EOP | CMD_RS` (R101). -/
def cmdXmit (c : Config) : Byte := c.cmdEop ||| c.cmdRs

/-! ### Addresses -/

/-- `TX_RING_BASE` or `RX_RING_BASE` (R8). -/
def ringBase (c : Config) : Ring → Addr
  | .tx => c.txRingBase
  | .rx => c.rxRingBase

/-- `desc(ring, i) = base + 16*i`, in 64 bits (R121). -/
def desc (c : Config) (r : Ring) (i : Nat) : Addr := ringBase c r + BitVec.ofNat 64 (descSize * i)

/-- A field's address: `desc(ring, i)` plus the field's byte offset (R121). -/
def field (c : Config) (r : Ring) (i off : Nat) : Addr := desc c r i + BitVec.ofNat 64 off

/-- `REG_OFFSET(name)` (R41); `MTA[j]` is at `MTA + 4*j`. -/
def regOffsetOf (o : RegOffsets) : Reg → Nat
  | .ctrl => o.ctrl
  | .icr => o.icr
  | .ims => o.ims
  | .rctl => o.rctl
  | .tctl => o.tctl
  | .tipg => o.tipg
  | .rdbal => o.rdbal
  | .rdbah => o.rdbah
  | .rdlen => o.rdlen
  | .rdh => o.rdh
  | .rdt => o.rdt
  | .rdtr => o.rdtr
  | .radv => o.radv
  | .tdbal => o.tdbal
  | .tdbah => o.tdbah
  | .tdlen => o.tdlen
  | .tdh => o.tdh
  | .tdt => o.tdt
  | .mta j => o.mta + 4 * j
  | .ra0 => o.ra0
  | .ra1 => o.ra1

/-- The bus address of a device register: `regs_base + REG_OFFSET(NAME)` (R67). -/
def regAddr (s : State) (r : Reg) : Addr := s.regsBase + BitVec.ofNat 64 (regOffsetOf s.cfg.regOffset r)

/-! ### Indices -/

/-- `Next(i) = (i + 1) mod N` (R123). -/
def nextIndex (c : Config) (i : Nat) : Nat := (i + 1) % c.n

/-- TX slot selection: `i = TDT mod N` (R124). -/
def txSlotOf (c : Config) (tail : Word) : Nat := tail.toNat % c.n

/-- RX slot selection: `i = (RDT + 1) mod N` (R125). -/
def rxSlotOf (c : Config) (tail : Word) : Nat := (tail.toNat + 1) % c.n

/-- The value written to a tail or head register: `zext_32` of the index (R126). -/
def indexWord (i : Nat) : Word := BitVec.ofNat 32 i

/-! ### Values INIT writes -/

/-- `base[31:0]` (R45, R46). -/
def baseLow (a : Addr) : Word := a.extractLsb' 0 32

/-- `base[63:32]` (R45, R46). -/
def baseHigh (a : Addr) : Word := a.extractLsb' 32 32

/-- The ring's length in bytes, `N * 16` (R45). -/
def ringBytes (c : Config) : Nat := c.n * descSize

/-- `RA0 <- MAC_ADDR[31:0]` (R47). -/
def macLow (c : Config) : Word := c.macAddr.extractLsb' 0 32

/-- `RA1 <- zext_32(MAC_ADDR[47:32]) | RA_VALID` (R47). -/
def macHigh (c : Config) : Word := (c.macAddr.extractLsb' 32 16).zeroExtend 32 ||| c.raValid

/-- The size check of `N7` and `N10` (R208): passes when the ring's length is a multiple of `RING_LEN_MULT`. -/
def ringSizeOk (c : Config) : Bool := decide (ringBytes c % c.ringLenMult = 0)

/-- The alignment check of `N7` and `N10` (R208). -/
def ringAligned (c : Config) (r : Ring) : Bool := decide ((ringBase c r).toNat % c.descAlign = 0)

/-! ### Premises (R9, R69): what INIT does not check and the model refuses -/

/-- `regs_base` must be a multiple of 4 (R69). -/
def regsBaseAligned (a : Addr) : Bool := decide (a.toNat % 4 = 0)

/-- Two ranges of bytes, given by base and length, share no byte. -/
def apart (a la b lb : Nat) : Bool := decide (a + la ≤ b) || decide (b + lb ≤ a)

/-- "`N` is a power of two and `N >= 2`" (R9); and the ring's length fits its 32-bit register `TDLEN` (R45: DEDUCED, log
entry 8). -/
def slotsOk (c : Config) : Bool :=
  decide (2 ≤ c.n) && decide (2 ^ Nat.log2 c.n = c.n) && decide (ringBytes c < 2 ^ 32)

/-- "`TX_RING_BASE + N*DESC_SIZE` and `RX_RING_BASE + N*DESC_SIZE` do not exceed `2^64`" (R9). -/
def ringsFit (c : Config) : Bool :=
  decide (c.txRingBase.toNat + ringBytes c ≤ 2 ^ 64) && decide (c.rxRingBase.toNat + ringBytes c ≤ 2 ^ 64)

/-- The two rings are disjoint (R9). -/
def ringsApart (c : Config) : Bool :=
  apart c.txRingBase.toNat (ringBytes c) c.rxRingBase.toNat (ringBytes c)

/-- The offsets of the registers other than the multicast table (R41). -/
def singleOffsets (o : RegOffsets) : List Nat :=
  [o.ctrl, o.icr, o.ims, o.rctl, o.tctl, o.tipg, o.rdbal, o.rdbah, o.rdlen, o.rdh, o.rdt, o.rdtr, o.radv,
   o.tdbal, o.tdbah, o.tdlen, o.tdh, o.tdt, o.ra0, o.ra1]

/-- No offset of a list stands in it twice. -/
def distinct : List Nat → Bool
  | [] => true
  | x :: xs => xs.all (fun y => decide (x ≠ y)) && distinct xs

/-- "The offsets are distinct multiples of 4" (R41). -/
def offsetsOk (c : Config) : Bool :=
  (c.regOffset.mta :: singleOffsets c.regOffset).all (fun x => decide (x % 4 = 0)) &&
    distinct (singleOffsets c.regOffset) &&
    (singleOffsets c.regOffset).all (fun x => apart x 4 c.regOffset.mta (4 * c.mtaEntries))

/-- The number of bytes from `regs_base` to the end of the register block. The spec gives the block no length (R9, R41,
R60): the model takes every byte up to the end of the highest named register or multicast register, gaps included.
DESIGN CHOICE, log entry 26. -/
def regBlockBytes (c : Config) : Nat :=
  (singleOffsets c.regOffset).foldr (fun x m => max (x + 4) m) (c.regOffset.mta + 4 * c.mtaEntries)

/-- The register block at `base` stays inside the address space and meets neither ring (R9). -/
def regBlockOk (c : Config) (base : Addr) : Bool :=
  decide (base.toNat + regBlockBytes c ≤ 2 ^ 64) &&
    apart base.toNat (regBlockBytes c) c.txRingBase.toNat (ringBytes c) &&
    apart base.toNat (regBlockBytes c) c.rxRingBase.toNat (ringBytes c)

/-- The premises on the parameters alone (R9, R41). -/
def paramsOk (c : Config) : Bool := slotsOk c && ringsFit c && ringsApart c && offsetsOk c

/-- The premises of R9 for an INIT with this register block base. -/
def initPremises (c : Config) (base : Addr) : Bool := paramsOk c && regBlockOk c base

/-- A data area of `len` bytes stays inside the address space and meets neither ring (R9, R270). -/
def areaOk (c : Config) (a : Addr) (len : Nat) : Bool :=
  decide (a.toNat + len ≤ 2 ^ 64) &&
    apart a.toNat len c.txRingBase.toNat (ringBytes c) &&
    apart a.toNat len c.rxRingBase.toNat (ringBytes c)

/-- A data area of `len` bytes meets no byte of the register block at `base` (R9, R270). -/
def areaOffRegs (c : Config) (base : Addr) (a : Addr) (len : Nat) : Bool :=
  apart a.toNat len base.toNat (regBlockBytes c)

/-- The same against the register block INIT was given; before INIT the block knows of none (R30), and INIT checks the live
areas against it then (`initAllowed`). DESIGN CHOICE, log entry 13. -/
def regsClear (s : State) (a : Addr) (len : Nat) : Bool :=
  decide (s.mode = .uninit) || areaOffRegs s.cfg s.regsBase a len

/-- The data areas of two buffers, `RX_BUF_SIZE` bytes each, are disjoint (R9, R270). -/
def areasApart (c : Config) (a b : Addr) : Bool := apart a.toNat c.rxBufSize b.toNat c.rxBufSize

/-- A fresh buffer's data area is "disjoint from every other live buffer, from both rings and from the register block"
(R270). -/
def areaFree (s : State) (a : Addr) : Bool :=
  areaOk s.cfg a s.cfg.rxBufSize && regsClear s a s.cfg.rxBufSize &&
    s.areas.all (fun e => areasApart s.cfg a e.2)

/-- What the device may store frame data over: no ring and no byte of the register block (R9). -/
def storeOk (s : State) (a : Addr) (len : Nat) : Bool := areaOk s.cfg a len && regsClear s a len

/-- All the premises of R9 for an INIT with this register block base: those on the parameters, and no live buffer over
the register block. -/
def initAllowed (s : State) (base : Addr) : Bool :=
  initPremises s.cfg base && s.areas.all (fun e => areaOffRegs s.cfg base e.2 s.cfg.rxBufSize)

end Sys2Proof.Machine
end

