-- ==== Sys2Proof/Machine/Ops.lean ====
section
/-! DEFINITION. The named operations over memory, registers, ports, locks, shadow tables and the call ports, the fatal halt and the block reset (20_memory.md, 40_ring_and_ownership.md, 45_arbiter.md, 60_exceptions.md, 70_reset_and_hazards.md). -/

namespace Sys2Proof.Machine

/-- Sequence: go on from a next state, stop at a fault or a refusal. -/
def andThen (r : Result) (f : State → Result) : Result :=
  match r with
  | .next s => f s
  | .fault e => .fault e
  | .refused e => .refused e

/-! ### Tables keyed by a number: memory, ghost owners, buffer lengths -/

/-- The entry of a key. -/
def lookup {α : Type} (k : Nat) : List (Nat × α) → Option α
  | [] => none
  | (j, v) :: rest => if k = j then some v else lookup k rest

/-- The table with the key's entry set, kept in rising order. -/
def store {α : Type} (k : Nat) (v : α) : List (Nat × α) → List (Nat × α)
  | [] => [(k, v)]
  | (j, w) :: rest =>
    if k < j then (k, v) :: (j, w) :: rest
    else if k = j then (k, v) :: rest
    else (j, w) :: store k v rest

/-- The table without the key. -/
def drop {α : Type} (k : Nat) : List (Nat × α) → List (Nat × α)
  | [] => []
  | (j, w) :: rest => if k = j then drop k rest else (j, w) :: drop k rest

/-- The canonical form of a table: keys strictly rising. -/
abbrev Rising {α : Type} (t : List (Nat × α)) : Prop := t.Pairwise (fun x y => x.1 < y.1)

/-- The canonical form of memory: addresses strictly rising and inside the 64-bit bus space (R60). An unlisted address
has no value, so no entry can equal what it reads as. -/
abbrev Memory.wf (m : Memory) : Prop := Rising m ∧ ∀ c ∈ m, c.1 < 2 ^ 64

/-! ### Memory (R63, R66) -/

/-- The byte at a bus address, if one has been written. -/
def byteAt (m : Memory) (a : Addr) : Option Byte := lookup a.toNat m

/-- The little-endian value of `n` bytes from `a` (R63): the lowest address holds the least significant byte. -/
def readBytes (m : Memory) (a : Addr) : Nat → Option Nat
  | 0 => some 0
  | n + 1 =>
    match byteAt m a, readBytes m (a + 1#64) n with
    | some b, some v => some (b.toNat + 256 * v)
    | _, _ => none

/-- Byte `k` of `v` stored at `a + k` for `k < n` (R66); "it changes no other byte". -/
def writeBytes (m : Memory) (a : Addr) : Nat → Nat → Memory
  | 0, _ => m
  | n + 1, v => writeBytes (store a.toNat (BitVec.ofNat 8 v) m) (a + 1#64) n (v / 256)

/-- Put one entry on the record of what the block has done. -/
def note (e : Act) (s : State) : State := { s with trace := e :: s.trace }

/-- `MemRead(a, n)` (R63), one access of the block: goes on with the value read. -/
def memRead (a : Addr) (n : Nat) (s : State) (k : Nat → State → Result) : Result :=
  match readBytes s.mem a n with
  | some v => k v (note (.memRead a n v) s)
  | none => .fault (.unwrittenByte a.toNat)

/-- `MemWrite(a, n, v)` (R66), one access of the block. -/
def memWrite (a : Addr) (n v : Nat) (s : State) : State :=
  note (.memWrite a n v) { s with mem := writeBytes s.mem a n v }

/-- `Fence()` (R76): under the strong order of R75 "it changes no state". -/
def fence (s : State) : State := note .fence s

/-! ### Device registers (R67, R261, R266, R267) -/

/-- The value a register holds. -/
def getReg (d : DevRegs) : Reg → Word
  | .ctrl => d.ctrl
  | .icr => d.icr
  | .ims => d.ims
  | .rctl => d.rctl
  | .tctl => d.tctl
  | .tipg => d.tipg
  | .rdbal => d.rdbal
  | .rdbah => d.rdbah
  | .rdlen => d.rdlen
  | .rdh => d.rdh
  | .rdt => d.rdt
  | .rdtr => d.rdtr
  | .radv => d.radv
  | .tdbal => d.tdbal
  | .tdbah => d.tdbah
  | .tdlen => d.tdlen
  | .tdh => d.tdh
  | .tdt => d.tdt
  | .mta j => d.mta.getD j 0
  | .ra0 => d.ra0
  | .ra1 => d.ra1

/-- The register file with one register set. -/
def putReg (d : DevRegs) (r : Reg) (v : Word) : DevRegs :=
  match r with
  | .ctrl => { d with ctrl := v }
  | .icr => { d with icr := v }
  | .ims => { d with ims := v }
  | .rctl => { d with rctl := v }
  | .tctl => { d with tctl := v }
  | .tipg => { d with tipg := v }
  | .rdbal => { d with rdbal := v }
  | .rdbah => { d with rdbah := v }
  | .rdlen => { d with rdlen := v }
  | .rdh => { d with rdh := v }
  | .rdt => { d with rdt := v }
  | .rdtr => { d with rdtr := v }
  | .radv => { d with radv := v }
  | .tdbal => { d with tdbal := v }
  | .tdbah => { d with tdbah := v }
  | .tdlen => { d with tdlen := v }
  | .tdh => { d with tdh := v }
  | .tdt => { d with tdt := v }
  | .mta j => { d with mta := d.mta.set j v }
  | .ra0 => { d with ra0 := v }
  | .ra1 => { d with ra1 := v }

/-- Every device register at a free value: what the device's reset leaves (R203, U6). -/
def freeRegs (c : Config) (k : Nat) : DevRegs where
  ctrl := Config.freeWord k
  icr := Config.freeWord (k + 1)
  ims := Config.freeWord (k + 2)
  rctl := Config.freeWord (k + 3)
  tctl := Config.freeWord (k + 4)
  tipg := Config.freeWord (k + 5)
  rdbal := Config.freeWord (k + 6)
  rdbah := Config.freeWord (k + 7)
  rdlen := Config.freeWord (k + 8)
  rdh := Config.freeWord (k + 9)
  rdt := Config.freeWord (k + 10)
  rdtr := Config.freeWord (k + 11)
  radv := Config.freeWord (k + 12)
  tdbal := Config.freeWord (k + 13)
  tdbah := Config.freeWord (k + 14)
  tdlen := Config.freeWord (k + 15)
  tdh := Config.freeWord (k + 16)
  tdt := Config.freeWord (k + 17)
  ra0 := Config.freeWord (k + 18)
  ra1 := Config.freeWord (k + 19)
  mta := (List.range c.mtaEntries).map (fun j => Config.freeWord (k + 20 + j))

/-- How many free words `freeRegs` uses. -/
def freeRegsCount (c : Config) : Nat := 20 + c.mtaEntries

/-- The device's reset (R44, R203, R267): its registers hold any value, both engines are off, and no interrupt is out
(95_test_vectors.md S0: `dev_irq_out = 0` after INIT). -/
def deviceReset (s : State) : State :=
  { s with
    dev := { regs := freeRegs s.cfg s.draws, txOn := false, rxOn := false, irqOut := false }
    draws := s.draws + freeRegsCount s.cfg }

/-- What the device does with a register write: it stores the value; the write of `ICR`, which the block only makes
with all ones, clears every cause and `dev_irq_out` (R266); the write of `CTRL`, which the block only makes with
`CTRL_RST` set, resets the device (R44); the writes of `TCTL` and `RCTL` enable its engines (R262, R264, R267). -/
def devWrite (r : Reg) (v : Word) (s : State) : State :=
  match r with
  | .ctrl => deviceReset s
  | .icr => { s with dev := { s.dev with regs := putReg s.dev.regs .icr 0, irqOut := false } }
  | .tctl => { s with dev := { s.dev with regs := putReg s.dev.regs .tctl v, txOn := true } }
  | .rctl => { s with dev := { s.dev with regs := putReg s.dev.regs .rctl v, rxOn := true } }
  | r => { s with dev := { s.dev with regs := putReg s.dev.regs r v } }

/-- `RegWrite(NAME, v)` (R67), one 32-bit access of the block. -/
def regWrite (r : Reg) (v : Word) (s : State) : State := note (.regWrite r (regAddr s r) v) (devWrite r v s)

/-- `RegRead(TDT)` and `RegRead(RDT)` (R67): plain storage, "a read returns the value of the block's last write"
(R261). -/
def regRead (r : Reg) (s : State) (k : Word → State → Result) : Result :=
  k (getReg s.dev.regs r) (note (.regRead r (regAddr s r) (getReg s.dev.regs r)) s)

/-- `RegRead(CTRL)` at `N3a`: "returns some 32-bit value, a draw" (R261): a free value. -/
def regReadCtrl (s : State) (k : Word → State → Result) : Result :=
  k (Config.freeWord s.draws)
    (note (.regRead .ctrl (regAddr s .ctrl) (Config.freeWord s.draws)) { s with draws := s.draws + 1 })

/-! ### Ring primitives (R122) -/

/-- `RdStatus(ring, i)`. -/
def rdStatus (r : Ring) (i : Nat) (s : State) (k : Byte → State → Result) : Result :=
  memRead (field s.cfg r i offStatus) 1 s (fun v t => k (BitVec.ofNat 8 v) t)

/-- `RdLength(ring, i)`. -/
def rdLength (r : Ring) (i : Nat) (s : State) (k : Len → State → Result) : Result :=
  memRead (field s.cfg r i offLen) 2 s (fun v t => k (BitVec.ofNat 16 v) t)

/-- `WrAddr(ring, i, a)`. -/
def wrAddr (r : Ring) (i : Nat) (a : Addr) (s : State) : State := memWrite (field s.cfg r i offAddr) 8 a.toNat s

/-- `WrLen(ring, i, n)`. -/
def wrLen (r : Ring) (i : Nat) (n : Len) (s : State) : State := memWrite (field s.cfg r i offLen) 2 n.toNat s

/-- `WrCmd(ring, i, c)`. -/
def wrCmd (r : Ring) (i : Nat) (c : Byte) (s : State) : State := memWrite (field s.cfg r i offCmd) 1 c.toNat s

/-- `WrStatus(ring, i, v)`. -/
def wrStatus (r : Ring) (i : Nat) (v : Byte) (s : State) : State := memWrite (field s.cfg r i offStatus) 1 v.toNat s

/-- The second 8-byte write of `N6` and `N9`: bytes 8 to 15 of a descriptor (R65, R70). -/
def wrTail8 (r : Ring) (i : Nat) (v : Nat) (s : State) : State := memWrite (field s.cfg r i offLen) 8 v s

/-- The status byte of a slot as it stands in memory (R102), for the device's moves and for statements. -/
def statusAt (s : State) (r : Ring) (i : Nat) : Option Byte := byteAt s.mem (field s.cfg r i offStatus)

/-- The slot is in state `HW`: DD is clear, the device owns it (R128). -/
def deviceOwns (s : State) (r : Ring) (i : Nat) : Bool :=
  match statusAt s r i with
  | some b => !dd b
  | none => false

/-- The slot is in state `SW`: DD is set, the block owns it (R128). -/
def blockOwns (s : State) (r : Ring) (i : Nat) : Bool :=
  match statusAt s r i with
  | some b => dd b
  | none => false

/-! ### Shadow tables (R34, R35, R135) and ghost owners (R53) -/

/-- `tx_shadow[i]`. -/
def txShadowAt (s : State) (i : Nat) : Handle := s.txShadow.getD i 0

/-- `rx_shadow[i]`. -/
def rxShadowAt (s : State) (i : Nat) : Handle := s.rxShadow.getD i 0

/-- `tx_shadow[i] <- h`. -/
def setTxShadow (i : Nat) (h : Handle) (s : State) : State := { s with txShadow := s.txShadow.set i h }

/-- `rx_shadow[i] <- h`. -/
def setRxShadow (i : Nat) (h : Handle) (s : State) : State := { s with rxShadow := s.rxShadow.set i h }

/-- The ghost owner of a handle (R53). -/
def ownerOf (s : State) (h : Handle) : Owner := (lookup h.toNat s.owner).getD .pool

/-- The ghost owner set; the pool is the unlisted owner. -/
def setOwner (h : Handle) (o : Owner) (s : State) : State :=
  { s with owner := if o = .pool then drop h.toNat s.owner else store h.toNat o s.owner }

/-! ### The buffer port and the ingress port (R270 to R273) -/

/-- The data area of a buffer the allocator hands out, recorded (ghost, R270). -/
def setArea (h : Handle) (a : Addr) (s : State) : State := { s with areas := store h.toNat a s.areas }

/-- The data area of a buffer the allocator takes back, forgotten (ghost, R271). -/
def dropArea (h : Handle) (s : State) : State := { s with areas := drop h.toNat s.areas }

/-- The allocator may give this buffer (R270): a handle that is not 0 and that nobody owns, with an area that meets
nothing. -/
abbrev freshBuffer (s : State) (h : Handle) (a : Addr) : Prop := h ≠ 0 ∧ ownerOf s h = .pool ∧ areaFree s a = true

/-- `BufAlloc()` (R270): the next answer of the allocator; with none given it answers `NONE`, which "the model must
allow at any call" (DESIGN CHOICE, log entry 6). An answer R270 rules out is refused (U15; log entry 13). -/
def bufAlloc (s : State) (k : AllocAnswer → State → Result) : Result :=
  match s.allocs with
  | [] => k none (note (.bufAlloc none) s)
  | none :: rest => k none (note (.bufAlloc none) { s with allocs := rest })
  | some (h, a) :: rest =>
    if freshBuffer s h a then
      k (some (h, a)) (note (.bufAlloc (some (h, a))) (setArea h a (setOwner h .engine { s with allocs := rest })))
    else .refused .badAllocation

/-- `BufFree(h)` (R271): the handle goes back to the pool. -/
def bufFree (h : Handle) (s : State) : State := note (.bufFree h) (dropArea h (setOwner h .pool s))

/-- `BufSetLen(h, n)` (R272). -/
def bufSetLen (h : Handle) (n : Len) (s : State) : State :=
  note (.bufSetLen h n) { s with bufLen := store h.toNat n s.bufLen }

/-- `NetRx(h)` (R273): ownership passes to the ingress sink. -/
def netRx (h : Handle) (s : State) : State := note (.netRx h) (setOwner h .ingress s)

/-! ### Ports and responses (R21, R231, R240) -/

/-- One port changed. -/
def updatePort (p : Nat) (f : Port → Port) (s : State) : State := { s with ports := s.ports.modify p f }

/-- The requester writes its operand registers (R22, R231). -/
def writePort (p : Nat) (cw : Word) (a0 a1 : BitVec 64) (s : State) : State :=
  updatePort p (fun q => { q with cw := cw, a0 := a0, a1 := a1 }) s

/-- `Respond(p, rv, rc)` (R240): `RV`, `RC` written and the outstanding flag cleared; "for source `IRQ` it does
nothing". -/
def respond (src : Source) (r : Reason) (s : State) : State :=
  match src with
  | .port p => updatePort p (fun q => { q with rv := r.rv, rc := r.code, outstanding := false }) s
  | .irq => s

/-- A port has no command outstanding, so `Issue(p)` is enabled (R231). -/
def canIssue (s : State) (p : Nat) : Bool :=
  match s.ports[p]? with
  | some q => !q.outstanding
  | none => false

/-! ### Locks (R234, R235) -/

/-- `tx_lock <- HELD(src)`. -/
def holdTx (src : Source) (s : State) : State := { s with txLock := .held src }

/-- `rx_lock <- HELD(src)`. -/
def holdRx (src : Source) (s : State) : State := { s with rxLock := .held src }

/-- `tx_lock <- FREE`. -/
def freeTx (s : State) : State := { s with txLock := .free }

/-- `rx_lock <- FREE`. -/
def freeRx (s : State) : State := { s with rxLock := .free }

/-! ### Exceptions: the fatal halt, the interrupt latch, and the way out (R296, R239, R330) -/

/-- `raise Fatal(cause)` (R296): "`mode <- FATAL` and `fcause <- cause`; nothing else is written". Nothing is saved and
there is no handler (R306, R308): every engine stays at the micro-step it had reached (R241). -/
def raiseFatal (cause : FatalCause) (s : State) : State := { s with mode := .fatal, fcause := cause }

/-- The dispatcher has delivered one raise of the device, if it held one; if not, the `irq` event is spurious (R275). Which
of the two an `irq` event is, is read from the count: DESIGN CHOICE, log entry 30. -/
def deliverSignal (s : State) : State := { s with irqSignals := s.irqSignals - 1 }

/-- An `irq` event (R239): latched in any mode but `FATAL`, merged with one already pending. -/
def latchIrq (s : State) : State := if s.mode = .fatal then s else { s with irqPend := true }

/-- Block reset (R330, R331): every element of the block's internal state to R54's value; nothing outside the block
changes, and the handles in the shadow tables are forgotten without `BufFree`. It is the only way out of `FATAL`. -/
def blockReset (s : State) : State :=
  { s with
    ports := List.replicate s.cfg.p Port.reset
    sel := 0
    tx := TxEngine.reset
    rx := RxEngine.reset
    ini := InitSeq.reset
    mode := .uninit
    fcause := .none
    regsBase := 0
    txLock := .free
    rxLock := .free
    irqPend := false
    txShadow := List.replicate s.cfg.n 0
    rxShadow := List.replicate s.cfg.n 0 }

/-! ### Engine positions (R23, R243) -/

/-- `tx_pc <- pc`. -/
def goTx (pc : TxPc) (s : State) : State := { s with tx := { s.tx with pc := pc } }

/-- `rx_pc <- pc`. -/
def goRx (pc : RxPc) (s : State) : State := { s with rx := { s.rx with pc := pc } }

/-- `init_pc <- pc`. -/
def goInit (pc : InitPc) (s : State) : State := { s with ini := { s.ini with pc := pc } }

/-- `init_pc <- pc` with the loop latches at the first access of the first round (R243 (h)). -/
def goLoop (pc : InitPc) (s : State) : State := { s with ini := { s.ini with pc := pc, i := 0, k := 0 } }

end Sys2Proof.Machine
end

