-- ==== Sys2Proof/Machine/Arbiter.lean ====
section
/-! DEFINITION. The top level: the acceptance decision, what a rejected and an illegal command leave, and the queueing of an accepted one (45_arbiter.md R230 to R236, 30_encoding.md R98). -/

namespace Sys2Proof.Machine

/-- What the arbiter decides about a sampled command (R232). -/
inductive Decision where
  /-- `mode = FATAL`: never accepted and never answered. -/
  | ignore
  /-- Answered with `0xFFFFFFFF` and this reason. -/
  | reject (r : Reason)
  /-- Accepted. -/
  | accept
  deriving DecidableEq, Repr

/-- The acceptance decision for a legal command, in R232's order of priority: fatal mode, `ALREADY_INIT`, `NOT_READY`,
`BAD_OPERAND`, accepted. -/
def decideOn (m : Mode) (i : Instr) (a0 : Handle) : Decision :=
  match m, i with
  | .fatal, _ => .ignore
  | .uninit, .init => .accept
  | _, .init => .reject .alreadyInit
  | .ready, .xmit _ => if a0 = 0 then .reject .badOperand else .accept
  | .ready, .intr => .accept
  | .ready, .drain => .accept
  | _, _ => .reject .notReady

/-- The decision taken on the command of the port the acceptor is handling. -/
def decisionAt (i : Instr) (s : State) : Decision :=
  match s.ports[s.sel]? with
  | some q => decideOn s.mode i q.a0
  | none => .ignore

/-- The port has a command outstanding from `Issue(p)` on (R231). -/
def raiseRequest (p : Nat) (s : State) : State :=
  updatePort p (fun q => { q with outstanding := true, waiting := none }) s

/-- An accepted XMIT, DRAIN or INTR waits for its lock with what was sampled (R231, R233). -/
def queueCommand (p : Nat) (i : Instr) (a0 : Handle) (a1 : Addr) (s : State) : State :=
  updatePort p (fun q => { q with waiting := some { instr := i, a0 := a0, a1 := a1 } }) s

/-- The waiting command of a port leaves the queue: its engine has started it (R233, R234). -/
def unqueue (p : Nat) (s : State) : State := updatePort p (fun q => { q with waiting := none }) s

/-- `Issue(p)` for a legal command, `p` the port the acceptor is handling: acceptance, and what follows from it in the
same event (R231 to R233). `start` is what an accepted command does there: INIT starts its sequencer, the others
queue. -/
def issueCommand (i : Instr) (start : Port → State → Result) (s : State) : Result :=
  match s.ports[s.sel]? with
  | none => .fault (.noSuchPort s.sel)
  | some q =>
    match decideOn s.mode i q.a0 with
    | .ignore => .next (raiseRequest s.sel s)
    | .reject r => .next (respond (.port s.sel) r (raiseRequest s.sel s))
    | .accept => start q (raiseRequest s.sel s)

/-- An accepted command that waits for a lock (R233). -/
def queueStart (i : Instr) (q : Port) (s : State) : Result := .next (queueCommand s.sel i q.a0 q.a1 s)

/-- An illegal word (R98, R232 (2)): "changes no state but its port's response", in any mode but `FATAL`, where it is
never answered. -/
def issueIllegal (p : Nat) (s : State) : State :=
  if s.mode = .fatal then raiseRequest p s else respond (.port p) .illegalCmd (raiseRequest p s)

/-- The command a port waits with. -/
def waitingAt (s : State) (p : Nat) : Option Request :=
  match s.ports[p]? with
  | some q => q.waiting
  | none => none

end Sys2Proof.Machine
end

