-- ==== Sys2Proof/Machine/Initialise.lean ====
section
/-! DEFINITION. The initialisation sequencer: the micro-steps of `INIT` and the command's meaning (44_init.md R200 to R218). -/

namespace Sys2Proof.Machine

/-- `N1` (R202): `mode <- INITING`, `regs_base` latched from `A0`, both locks taken. -/
def stepN1 (p : Nat) (base : Addr) (s : State) : State :=
  holdTx (.port p) (holdRx (.port p)
    { s with mode := .initing, regsBase := base, ini := { s.ini with pc := .n2, p := p } })

/-- An accepted INIT (R233): it "starts the INIT sequencer at `N1` in the same event". A `regs_base` that is no multiple
of 4, parameters that break a premise of R9, and a live buffer over the register block, are refused (R69, U14, U15). -/
def startInit (q : Port) (s : State) : Result :=
  if regsBaseAligned q.a0 = true then
    if initAllowed s q.a0 = true then .next (stepN1 s.sel q.a0 s) else .refused .brokenPremise
  else .refused .misalignedRegsBase

/-- A micro-step that writes one device register (R201). -/
def initWrite (r : Reg) (v : Word) (next : InitPc) (s : State) : Result := .next (goInit next (regWrite r v s))

/-- `N3a` (R203): the read of `CTRL`. -/
def stepN3a (s : State) : Result :=
  regReadCtrl s fun c s => .next { s with ini := { s.ini with c := c, pc := .n3b } }

/-- `N3b` (R203, R44): the device's reset; "all other bits are written back as read". -/
def stepN3b (s : State) : Result := initWrite .ctrl (s.ini.c ||| s.cfg.ctrlRst) .n4 s

/-- The next round of a loop of `count` rounds, or the position after it (R243 (h)). -/
def nextRound (count : Nat) (after : InitPc) (s : State) : State :=
  if s.ini.i + 1 < count then { s with ini := { s.ini with i := s.ini.i + 1, k := 0 } } else goInit after s

/-- The next access of a loop's body. -/
def nextAccess (s : State) : State := { s with ini := { s.ini with k := s.ini.k + 1 } }

/-- `N6` (R206): three writes for each TX slot, the last leaving DD set; the shadow entry is cleared with it. -/
def stepN6 (s : State) : Result :=
  match s.ini.k with
  | 0 => .next (nextAccess (wrAddr .tx s.ini.i 0 s))
  | 1 => .next (nextAccess (wrTail8 .tx s.ini.i 0 s))
  | _ => .next (nextRound s.cfg.n .n7 (setTxShadow s.ini.i 0 (wrStatus .tx s.ini.i 0x01 s)))

/-- `N7`, `N10` (R208): the ring's size, then its base's alignment; a failure is a fatal halt (R295). -/
def ringCheck (r : Ring) (next : InitPc) (s : State) : Result :=
  if ringSizeOk s.cfg = true then
    if ringAligned s.cfg r = true then .next (goInit next s) else .next (raiseFatal .cfgRingAlign s)
  else .next (raiseFatal .cfgRingSize s)

/-- `N9` (R209): for each RX slot an allocation, two writes, and the handle stored with the second. -/
def stepN9 (s : State) : Result :=
  match s.ini.k with
  | 0 =>
    bufAlloc s fun ans s =>
      match ans with
      | some (h, a) => .next (nextAccess { s with ini := { s.ini with h := h, a := a } })
      | none => .next (raiseFatal .nobufInit s)
  | 1 => .next (nextAccess (wrAddr .rx s.ini.i s.ini.a s))
  | _ =>
    .next (nextRound s.cfg.n .n10 (setOwner s.ini.h (.rxSlot s.ini.i) (setRxShadow s.ini.i s.ini.h
      (wrTail8 .rx s.ini.i 0 s))))

/-- `N12b` (R211): the second address-filter register; the multicast loop follows, unless the table has no entry. -/
def stepN12b (s : State) : Result :=
  if s.cfg.mtaEntries = 0 then initWrite .ra1 (macHigh s.cfg) .n13a s
  else .next (goLoop .n12c (regWrite .ra1 (macHigh s.cfg) s))

/-- `N12c` (R211): one multicast register cleared. -/
def stepN12c (s : State) : Result := .next (nextRound s.cfg.mtaEntries .n13a (regWrite (.mta s.ini.i) 0 s))

/-- `N16` (R215): `READY`, both locks free, answered. -/
def stepN16 (s : State) : Result :=
  .next (goInit .idle (respond (.port s.ini.p) .ok (freeRx (freeTx { s with mode := .ready }))))

/-- The next micro-step of the INIT sequencer (R201). `N1` is taken at acceptance (R233), so a sequencer does not rest
there. -/
def initStep (s : State) : Result :=
  match s.ini.pc with
  | .idle => .next s
  | .n1 => .next s
  | .n2 => initWrite .ims 0 .n3a s
  | .n3a => stepN3a s
  | .n3b => stepN3b s
  | .n4 => initWrite .ims 0 .n5 s
  | .n5 => .next (goLoop .n6 (fence s))
  | .n6 => stepN6 s
  | .n7 => ringCheck .tx .n8a s
  | .n8a => .next (goInit .n8b (fence s))
  | .n8b => initWrite .tdbal (baseLow s.cfg.txRingBase) .n8c s
  | .n8c => initWrite .tdbah (baseHigh s.cfg.txRingBase) .n8d s
  | .n8d => initWrite .tdlen (BitVec.ofNat 32 (ringBytes s.cfg)) .n8e s
  | .n8e => initWrite .tdh 0 .n8f s
  | .n8f => .next (goLoop .n9 (regWrite .tdt 0 s))
  | .n9 => stepN9 s
  | .n10 => ringCheck .rx .n11a s
  | .n11a => .next (goInit .n11b (fence s))
  | .n11b => initWrite .rdbal (baseLow s.cfg.rxRingBase) .n11c s
  | .n11c => initWrite .rdbah (baseHigh s.cfg.rxRingBase) .n11d s
  | .n11d => initWrite .rdlen (BitVec.ofNat 32 (ringBytes s.cfg)) .n11e s
  | .n11e => initWrite .rdh 0 .n11f s
  | .n11f => initWrite .rdt (indexWord (s.cfg.n - 1)) .n12a s
  | .n12a => initWrite .ra0 (macLow s.cfg) .n12b s
  | .n12b => stepN12b s
  | .n12c => stepN12c s
  | .n13a => initWrite .tctl s.cfg.tctlInit .n13b s
  | .n13b => initWrite .tipg s.cfg.tipgInit .n14 s
  | .n14 => initWrite .rctl s.cfg.rctlInit .n15a s
  | .n15a => initWrite .rdtr 0 .n15b s
  | .n15b => initWrite .radv 0 .n15c s
  | .n15c => initWrite .ims s.cfg.imsRxdw .n16 s
  | .n16 => stepN16 s

/-- The INIT sequencer's turn: none in `FATAL` (R296). -/
def initTurn (s : State) : Result := if s.mode = .fatal then .next s else initStep s

/-- Micro-steps of the INIT sequencer, one after the other, until it is idle or the block has halted. -/
def runInit : Nat → State → Result
  | 0, s => .next s
  | k + 1, s => if s.ini.pc = .idle ∨ s.mode = .fatal then .next s else andThen (initTurn s) (runInit k)

/-- The micro-steps `N2` to `N16`: `3*N` of `N6`, `3*N` of `N9`, `MTA_ENTRIES` of `N12c`, and 28 others. -/
def initFuel (c : Config) : Nat := 6 * c.n + c.mtaEntries + 28

/-- `Issue(p)` of an `INIT` (R201, R231, R233). -/
def issueInit (s : State) : Result := issueCommand .init startInit s

/-- The sequencer runs through, if it was this command that started it. -/
def serveInit (accepted : Bool) (s : State) : Result :=
  if accepted = true then runInit (initFuel s.cfg) s else .next s

/-- `INIT` (R201): acceptance, then `N1` to `N16`, or the fatal halt of a check or of a failed allocation. -/
def execInit (s : State) : Result :=
  andThen (issueInit s) (serveInit (decide (decisionAt .init s = .accept)))

end Sys2Proof.Machine
end

