-- ==== Sys2Proof/Machine/Receive.lean ====
section
/-! DEFINITION. rx_ring_drainer and the interrupt entry: the micro-steps of `DRAIN` and `INTR`, the grant of `rx_lock`, and the two commands' meanings (42_rx_ring_drainer.md R170 to R185, 43_interrupt_entry.md R190 to R195). -/

namespace Sys2Proof.Machine

/-- `I1` (R191, R238): enabled when `rx_lock = FREE` and, for the interrupt port, `mode = READY`; it takes the lock and,
for the interrupt port, clears `irq_pend`. -/
def stepI1 (s : State) : Result :=
  match s.rxLock, s.rx.src with
  | .free, .irq =>
    if s.mode = .ready then .next (goRx .i2 { holdRx .irq s with irqPend := false }) else .next s
  | .free, .port p => .next (goRx .i2 (holdRx (.port p) s))
  | .held _, _ => .next s

/-- `I2` (R192): the all-ones acknowledgment, before any descriptor is looked at. -/
def stepI2 (s : State) : Result := .next (goRx .d1 (regWrite .icr 0xFFFFFFFF s))

/-- `D0` (R172): enabled only when `rx_lock = FREE`. -/
def stepD0 (s : State) : Result :=
  match s.rxLock with
  | .free => .next (goRx .d1 (holdRx s.rx.src s))
  | .held _ => .next s

/-- `D1` (R173): `i = (RegRead(RDT) + 1) mod N`, read afresh in every round. -/
def stepD1 (s : State) : Result :=
  regRead .rdt s fun t s => .next { s with rx := { s.rx with i := rxSlotOf s.cfg t, pc := .d2 } }

/-- `D2` (R174): DD clear, "no new packet is ready: stop". -/
def stepD2 (s : State) : Result :=
  rdStatus .rx s.rx.i s fun b s => .next { s with rx := { s.rx with s := b, pc := if dd b then .d3a else .dx } }

/-- `D3a` (R175): an empty shadow entry stops the drain; else the handle is taken out of the shadow. -/
def stepD3a (s : State) : Result :=
  if rxShadowAt s s.rx.i = 0 then .next (goRx .dx s)
  else
    .next (setOwner (rxShadowAt s s.rx.i) .engine (setRxShadow s.rx.i 0
      { s with rx := { s.rx with b := rxShadowAt s s.rx.i, pc := .d3b } }))

/-- `D3b` (R175): the length the device reported. -/
def stepD3b (s : State) : Result :=
  rdLength .rx s.rx.i s fun l s => .next { s with rx := { s.rx with l := l, pc := .d3c } }

/-- `D3c` (R175). -/
def stepD3c (s : State) : Result := .next (goRx .d4 (bufSetLen s.rx.b s.rx.l s))

/-- `D4` (R176). -/
def stepD4 (s : State) : Result := .next (goRx .d5 (netRx s.rx.b s))

/-- `D5` (R177, R178): a fresh buffer, or the fatal halt `NOBUF_DRAIN`. -/
def stepD5 (s : State) : Result :=
  bufAlloc s fun ans s =>
    match ans with
    | some (h, a) => .next { s with rx := { s.rx with nh := h, na := a, pc := .d6a } }
    | none => .next (raiseFatal .nobufDrain s)

/-- `D6a` (R177). -/
def stepD6a (s : State) : Result := .next (goRx .d6b (wrAddr .rx s.rx.i s.rx.na s))

/-- `D6b` (R177): `length` cleared. -/
def stepD6b (s : State) : Result := .next (goRx .d6c (wrLen .rx s.rx.i 0 s))

/-- `D6c` (R177): the whole status byte cleared; the slot goes to the device. -/
def stepD6c (s : State) : Result := .next (goRx .d6d (wrStatus .rx s.rx.i 0x00 s))

/-- `D6d` (R177): the fresh buffer is lent to the slot. -/
def stepD6d (s : State) : Result :=
  .next (goRx .d7 (setOwner s.rx.nh (.rxSlot s.rx.i) (setRxShadow s.rx.i s.rx.nh s)))

/-- `D7` (R179): `RDT <- i`, and back to `D1`. -/
def stepD7 (s : State) : Result := .next (goRx .d1 (regWrite .rdt (indexWord s.rx.i) s))

/-- `DX` (R180, R307): release and complete; the interrupt port gets no response. The return from the interrupt is this
step too: "nothing is restored because nothing was saved". -/
def stepDX (s : State) : Result := .next (goRx .idle (respond s.rx.src .ok (freeRx s)))

/-- The next micro-step of the RX engine (R171, R191). -/
def rxStep (s : State) : Result :=
  match s.rx.pc with
  | .idle => .next s
  | .i1 => stepI1 s
  | .i2 => stepI2 s
  | .d0 => stepD0 s
  | .d1 => stepD1 s
  | .d2 => stepD2 s
  | .d3a => stepD3a s
  | .d3b => stepD3b s
  | .d3c => stepD3c s
  | .d4 => stepD4 s
  | .d5 => stepD5 s
  | .d6a => stepD6a s
  | .d6b => stepD6b s
  | .d6c => stepD6c s
  | .d6d => stepD6d s
  | .d7 => stepD7 s
  | .dx => stepDX s

/-- The RX engine's turn: none in `FATAL` (R296). -/
def rxTurn (s : State) : Result := if s.mode = .fatal then .next s else rxStep s

/-- The engine starts a command (R231, R191): source and kind latched, position at its first micro-step. -/
def loadRx (src : Source) (kind : RxKind) (s : State) : State :=
  { s with rx := { s.rx with pc := (match kind with | .intr => .i1 | .drain => .d0), src := src, kind := kind } }

/-- What a source asks of the RX engine: a port's waiting DRAIN or INTR, or the interrupt port's hardwired INTR when
`irq_pend = 1` and `mode = READY` (R238). -/
def rxRequest (s : State) : Source → Option RxKind
  | .port p =>
    match waitingAt s p with
    | some ⟨.intr, _, _⟩ => some .intr
    | some ⟨.drain, _, _⟩ => some .drain
    | _ => none
  | .irq => if s.irqPend = true ∧ s.mode = .ready then some .intr else none

/-- The request of a source, when it can take `rx_lock` now (R234, R238). -/
def rxWaiter (s : State) (src : Source) : Option RxKind :=
  match s.mode, s.rxLock with
  | .fatal, _ => none
  | _, .free => rxRequest s src
  | _, .held _ => none

/-- A port's command leaves the queue when its engine starts it; the interrupt port has no queue but `irq_pend`. -/
def unqueueSource (src : Source) (s : State) : State :=
  match src with
  | .port p => unqueue p s
  | .irq => s

/-- The grant of `rx_lock` to a source: its first micro-step `D0` or `I1` (R234). Not enabled: nothing happens. -/
def grantRx (src : Source) (s : State) : Result :=
  match rxWaiter s src with
  | some kind => rxStep (loadRx src kind (unqueueSource src s))
  | none => .next s

/-- Micro-steps of the RX engine, one after the other, until it is idle or the block has halted. -/
def runRx : Nat → State → Result
  | 0, s => .next s
  | k + 1, s => if s.rx.pc = .idle ∨ s.mode = .fatal then .next s else andThen (rxTurn s) (runRx k)

/-- Enough micro-steps for `I2`, `N` rounds of `D1` to `D7` (12 each), and the failing test that ends the drain (R182:
"at most `N` times plus the final failing test"). -/
def rxFuel (c : Config) : Nat := 12 * c.n + 5

/-- The request of a source runs through, if it can take the lock; else it goes on waiting. -/
def serveRx (src : Source) (s : State) : Result :=
  match rxWaiter s src with
  | some _ => andThen (grantRx src s) (runRx (rxFuel s.cfg))
  | none => .next s

/-- `Issue(p)` of a `DRAIN` (R171, R231). -/
def issueDrain (s : State) : Result := issueCommand .drain (queueStart .drain) s

/-- `Issue(p)` of an `INTR` (R191, R231). -/
def issueIntr (s : State) : Result := issueCommand .intr (queueStart .intr) s

/-- `DRAIN` (R171): acceptance, `D0`, the loop, `DX`; where `rx_lock` is held the command waits. -/
def execDrain (s : State) : Result := andThen (issueDrain s) (serveRx (.port s.sel))

/-- `INTR` on an ordinary port (R191): acceptance, `I1`, `I2`, the body of `DRAIN`, `DX`; where `rx_lock` is held the
command waits. -/
def execIntr (s : State) : Result := andThen (issueIntr s) (serveRx (.port s.sel))

end Sys2Proof.Machine
end

