-- ==== Sys2Proof/Machine/Transmit.lean ====
section
/-! DEFINITION. tx_ring_scheduler: the micro-steps of `XMIT`, the grant of `tx_lock`, and the command's meaning (41_tx_ring_scheduler.md R150 to R164). -/

namespace Sys2Proof.Machine

/-- `X1` (R153): enabled only when `tx_lock = FREE`. -/
def stepX1 (s : State) : Result :=
  match s.txLock with
  | .free => .next (goTx .x2 (holdTx (.port s.tx.p) s))
  | .held _ => .next s

/-- `X2` (R154): `i = RegRead(TDT) mod N`. -/
def stepX2 (s : State) : Result :=
  regRead .tdt s fun t s => .next { s with tx := { s.tx with i := txSlotOf s.cfg t, pc := .x3 } }

/-- The busy exit of `X3` (R154): release, answer busy, idle. -/
def busyExit (s : State) : State := goTx .idle (respond (.port s.tx.p) .busy (freeTx s))

/-- `X3` (R154): the status byte of the slot; DD clear ends the operation busy. -/
def stepX3 (s : State) : Result :=
  rdStatus .tx s.tx.i s fun b s =>
    if dd b then .next { s with tx := { s.tx with s := b, pc := .x4 } }
    else .next (busyExit { s with tx := { s.tx with s := b } })

/-- `X4` (R155): free the slot's previous buffer, if it holds one, and clear the entry. -/
def stepX4 (s : State) : Result :=
  if txShadowAt s s.tx.i = 0 then .next (goTx .x5a s)
  else .next (goTx .x5a (setTxShadow s.tx.i 0 (bufFree (txShadowAt s s.tx.i) s)))

/-- `X5a` (R156). -/
def stepX5a (s : State) : Result := .next (goTx .x5b (wrAddr .tx s.tx.i s.tx.a s))

/-- `X5b` (R156). -/
def stepX5b (s : State) : Result := .next (goTx .x5c (wrLen .tx s.tx.i s.tx.n s))

/-- `X5c` (R156, R101). -/
def stepX5c (s : State) : Result := .next (goTx .x5d (wrCmd .tx s.tx.i (cmdXmit s.cfg) s))

/-- `X5d` (R156): the status byte as read at `X3` with DD cleared; the slot goes to the device. -/
def stepX5d (s : State) : Result := .next (goTx .x6 (wrStatus .tx s.tx.i (clearDD s.tx.s) s))

/-- `X6` (R157): the buffer is lent to the slot. -/
def stepX6 (s : State) : Result :=
  .next (goTx .x7 (setOwner s.tx.h (.txSlot s.tx.i) (setTxShadow s.tx.i s.tx.h s)))

/-- `X7` (R158): `TDT` is written from the index latched at `X2`. -/
def stepX7 (s : State) : Result := .next (goTx .x8 (regWrite .tdt (indexWord (nextIndex s.cfg s.tx.i)) s))

/-- `X8` (R159): release and answer success. -/
def stepX8 (s : State) : Result := .next (goTx .idle (respond (.port s.tx.p) .ok (freeTx s)))

/-- The next micro-step of the TX engine (R151). -/
def txStep (s : State) : Result :=
  match s.tx.pc with
  | .idle => .next s
  | .x1 => stepX1 s
  | .x2 => stepX2 s
  | .x3 => stepX3 s
  | .x4 => stepX4 s
  | .x5a => stepX5a s
  | .x5b => stepX5b s
  | .x5c => stepX5c s
  | .x5d => stepX5d s
  | .x6 => stepX6 s
  | .x7 => stepX7 s
  | .x8 => stepX8 s

/-- The TX engine's turn: none in `FATAL` (R296). -/
def txTurn (s : State) : Result := if s.mode = .fatal then .next s else txStep s

/-- The engine latches loaded from the sample when the engine starts the command (R231). -/
def loadTx (p : Nat) (h : Handle) (a : Addr) (n : Len) (s : State) : State :=
  { s with tx := { s.tx with pc := .x1, p := p, h := h, a := a, n := n } }

/-- The waiting XMIT of port `p`, when it can take `tx_lock` now (R234). -/
def txWaiter (s : State) (p : Nat) : Option (Nat × Handle × Addr) :=
  match s.mode, s.txLock, waitingAt s p with
  | .fatal, _, _ => none
  | _, .free, some ⟨.xmit len, h, a⟩ => some (len, h, a)
  | _, _, _ => none

/-- The grant of `tx_lock` to port `p`: its first micro-step `X1`, "taking it sets the lock to `HELD(source)` and starts
the engine" (R234). Not enabled: nothing happens. -/
def grantTx (p : Nat) (s : State) : Result :=
  match txWaiter s p with
  | some (len, h, a) => txStep (loadTx p h a (BitVec.ofNat 16 len) (unqueue p s))
  | none => .next s

/-- Micro-steps of the TX engine, one after the other, until it is idle. -/
def runTx : Nat → State → Result
  | 0, s => .next s
  | k + 1, s => if s.tx.pc = .idle then .next s else andThen (txTurn s) (runTx k)

/-- `X2` to `X8` are ten micro-steps (R151). -/
def txFuel : Nat := 10

/-- The waiting XMIT of port `p` runs through, if it can take the lock; else it goes on waiting. -/
def serveTx (p : Nat) (s : State) : Result :=
  match txWaiter s p with
  | some _ => andThen (grantTx p s) (runTx txFuel)
  | none => .next s

/-- `Issue(p)` of an `XMIT` (R151, R152, R231). -/
def issueXmit (len : Nat) (s : State) : Result := issueCommand (.xmit len) (queueStart (.xmit len)) s

/-- `XMIT` (R151): acceptance, then `X1` to `X8` or the busy exit; where `tx_lock` is held the command waits. -/
def execXmit (len : Nat) (s : State) : Result := andThen (issueXmit len s) (serveTx s.sel)

end Sys2Proof.Machine
end

