-- ==== Sys2Proof/Machine/Dispatch.lean ====
section
/-! DEFINITION. The meaning of every command: one arm per constructor of Instr. -/

namespace Sys2Proof.Machine

def exec (i : Instr) (s : State) : Host.Outcome State Fault Refusal :=
  match i with
  | .init => Sys2Proof.Machine.execInit s
  | .xmit len => Sys2Proof.Machine.execXmit len s
  | .intr => Sys2Proof.Machine.execIntr s
  | .drain => Sys2Proof.Machine.execDrain s

end Sys2Proof.Machine
end

