-- ==== Sys2Proof/Machine/Device.lean ====
section
/-! DEFINITION. The device's moves and the buffers' moves among the agents outside the block (46_device_environment.md R260 to R278). -/

namespace Sys2Proof.Machine

/-- The device's head in a ring, `txh` or `rxh` (R51): what `TDH` or `RDH` holds (R45, R46). -/
def headOf (s : State) : Ring → Nat
  | .tx => s.dev.regs.tdh.toNat % s.cfg.n
  | .rx => s.dev.regs.rdh.toNat % s.cfg.n

/-- The tail of a ring, `TDT` or `RDT` (R45, R46). -/
def tailOf (s : State) : Ring → Nat
  | .tx => s.dev.regs.tdt.toNat % s.cfg.n
  | .rx => s.dev.regs.rdt.toNat % s.cfg.n

/-- The engine of the device that serves a ring is enabled (R262, R264, R267). -/
def engineOn (s : State) : Ring → Bool
  | .tx => s.dev.txOn
  | .rx => s.dev.rxOn

/-- The slot a move of the device works on: the one at the head while the window `[head, tail)` is not empty (R263), or,
for the widened device, any slot (R278); always a slot the device owns (R268). `none`: the move is not enabled. -/
def deviceSlot (s : State) (r : Ring) (at_ : Option Nat) : Option Nat :=
  match engineOn s r, at_ with
  | false, _ => none
  | true, none =>
    if headOf s r ≠ tailOf s r ∧ deviceOwns s r (headOf s r) = true then some (headOf s r) else none
  | true, some i =>
    if s.cfg.device = .widened ∧ i < s.cfg.n ∧ deviceOwns s r i = true then some i else none

/-- A store the device makes. -/
def devStore (a : Addr) (n v : Nat) (s : State) : State := { s with mem := writeBytes s.mem a n v }

/-- The device's head moves on after it has served the slot there (R262, R264); the widened device works "whatever the
head and the tail" and leaves it. -/
def advanceHead (r : Ring) (at_ : Option Nat) (s : State) : State :=
  match at_, r with
  | some _, _ => s
  | none, .tx =>
    { s with dev := { s.dev with regs := { s.dev.regs with tdh := indexWord (nextIndex s.cfg (headOf s .tx)) } } }
  | none, .rx =>
    { s with dev := { s.dev with regs := { s.dev.regs with rdh := indexWord (nextIndex s.cfg (headOf s .rx)) } } }

/-- A cause is added to `ICR` (R52, R265). -/
def addCause (c : Word) (s : State) : State :=
  { s with dev := { s.dev with regs := { s.dev.regs with icr := s.dev.regs.icr ||| c } } }

/-- `DEV.TXDONE` (R262): the status byte is written with DD set, the head moves on, and a cause other than the receive
one may be added. -/
def devTxDone (at_ : Option Nat) (st : Byte) (cause : Word) (s : State) : State :=
  match deviceSlot s .tx at_ with
  | none => s
  | some i =>
    addCause (cause &&& ~~~s.cfg.imsRxdw)
      (advanceHead .tx at_ (devStore (field s.cfg .tx i offStatus) 1 (setDD st).toNat s))

/-- The buffer address of an RX slot, as the device reads it (R264). -/
def bufferOf (s : State) (i : Nat) : Option Addr :=
  match readBytes s.mem (field s.cfg .rx i offAddr) 8 with
  | some v => some (BitVec.ofNat 64 v)
  | none => none

/-- The frame's bytes stored from an address on. -/
def storeFrame (a : Addr) : List Byte → State → State
  | [], s => s
  | b :: rest, s => storeFrame (a + 1#64) rest (devStore a 1 b.toNat s)

/-- The receive write-back that ends a fill (R264): `length`, then the status byte with DD set, the head, the cause. The
cause is the bit of `ICR` that `IMS_RXDW` has in `IMS`; the spec gives `ICR` no field (R42): DEDUCED, log entry 27. A frame
of 65536 bytes or more, possible only where `RX_BUF_SIZE` is as large, stores its length modulo 65536: the spec gives a
16-bit length and no bound on `RX_BUF_SIZE`: DESIGN CHOICE, log entry 28. -/
def writeBack (at_ : Option Nat) (i n : Nat) (st : Byte) (s : State) : State :=
  addCause s.cfg.imsRxdw (advanceHead .rx at_
    (devStore (field s.cfg .rx i offStatus) 1 (setDD st).toNat (devStore (field s.cfg .rx i offLen) 2 n s)))

/-- `DEV.RXFILL n, s` (R264): the frame goes to the slot's buffer; `n` is at most `RX_BUF_SIZE`. A frame that would lie
over a ring or over the register block is refused (R9, U15; log entry 13). -/
def devRxFill (at_ : Option Nat) (frame : List Byte) (st : Byte) (s : State) : Result :=
  match deviceSlot s .rx at_ with
  | none => .next s
  | some i =>
    match bufferOf s i with
    | none => .next s
    | some a =>
      if frame.length ≤ s.cfg.rxBufSize then
        if storeOk s a frame.length = true then
          .next (writeBack at_ i frame.length st (storeFrame a frame s))
        else .refused .regionsOverlap
      else .next s

/-- The descriptor bytes the device may store in a slot before its status write: on RX `length` (8, 9) and the don't-care
bytes 10, 11, 13, 14, 15 (R264, R103); on TX the don't-care bytes 13, 14, 15 (R100) and 10 (R103, U13; log entry 29). -/
def deviceBytes : Ring → List Nat
  | .tx => [10, 13, 14, 15]
  | .rx => [8, 9, 10, 11, 13, 14, 15]

/-- The device stores one such byte (R262, R264: "separate accesses", the status write being the last). -/
def devByte (r : Ring) (at_ : Option Nat) (off : Nat) (b : Byte) (s : State) : State :=
  match deviceSlot s r at_ with
  | none => s
  | some i => if off ∈ deviceBytes r then devStore (field s.cfg r i off) 1 b.toNat s else s

/-- The device stores one byte of frame data in the slot's buffer (R264). -/
def devRxData (at_ : Option Nat) (k : Nat) (b : Byte) (s : State) : Result :=
  match deviceSlot s .rx at_ with
  | none => .next s
  | some i =>
    match bufferOf s i with
    | none => .next s
    | some a =>
      if k < s.cfg.rxBufSize then
        if storeOk s a (k + 1) = true then .next (devStore (a + BitVec.ofNat 64 k) 1 b.toNat s)
        else .refused .regionsOverlap
      else .next s

/-- `DEV.RAISE` (R265): `ICR` holds a cause `IMS` unmasks (the same bit in both: DEDUCED, log entry 27), no interrupt is
out, and the receiver is enabled (R267). It "signals the platform's interrupt dispatch once", which holds the signal until
it turns it into an `irq` event (R275). -/
def devRaise (s : State) : State :=
  if s.dev.regs.icr &&& s.dev.regs.ims ≠ 0 ∧ s.dev.irqOut = false ∧ s.dev.rxOn = true then
    { s with dev := { s.dev with irqOut := true }, irqSignals := s.irqSignals + 1 }
  else s

/-- The owners outside the block (R53). -/
def outside : Owner → Bool
  | .pool => true
  | .requester _ => true
  | .ingress => true
  | .txSlot _ => false
  | .rxSlot _ => false
  | .engine => false

/-- A handle stands in the command of a port that has an XMIT outstanding, so its requester may not part with it
(R276). -/
def pledged (s : State) (h : Handle) : Bool :=
  s.ports.any (fun q => q.outstanding && decide (opcOf q.cw = 2) && decide (q.a0 = h))

/-- The block has the handle, in a shadow entry or in a latch of an engine that runs (R24, R34, R35). -/
def blockHolds (s : State) (h : Handle) : Bool :=
  decide (h ∈ s.txShadow) || decide (h ∈ s.rxShadow) ||
    (decide (s.rx.pc ≠ .idle) && (decide (s.rx.b = h) || decide (s.rx.nh = h))) ||
    (decide (s.ini.pc ≠ .idle) && decide (s.ini.h = h))

/-- The agents outside may move the buffer: its owner is outside, or block reset has made the block forget it, and "the
platform recovers" it (R331). -/
def movable (s : State) (h : Handle) : Bool := outside (ownerOf s h) || !blockHolds s h

/-- The move itself (log entry 17): a buffer that returns to the pool loses its area, one that leaves the pool is a fresh one (R270). -/
def passBuffer (h : Handle) (o : Owner) (a : Addr) (s : State) : State :=
  if o = .pool then dropArea h (setOwner h .pool s)
  else if ownerOf s h = .pool then
    if freshBuffer s h a then setArea h a (setOwner h o s) else s
  else setOwner h o s

/-- A buffer changes hands outside the block (R53, R271, R273, R331): allocated to or freed by a requester, freed or
passed on by the ingress sink, recovered by the platform after a block reset. Ghost: no rule of the block reads it. -/
def moveBuffer (h : Handle) (o : Owner) (a : Addr) (s : State) : State :=
  if movable s h = true ∧ outside o = true ∧ pledged s h = false then passBuffer h o a s else s

end Sys2Proof.Machine
end

