-- ==== Sys2Proof/Machine/Events.lean ====
section
/-! DEFINITION. The events of the schedule: which agent moves, and what its move does (00_scope.md R12 to R14, 30_encoding.md R107, R108). -/

namespace Sys2Proof.Machine

/-- The requester on `p` presents a command (R231): its registers are written and the acceptor turns to its port. -/
def present (p : Nat) (cw : Word) (a0 a1 : BitVec 64) (s : State) : State :=
  { writePort p cw a0 a1 s with sel := p }

/-- The command word sampled at the port the acceptor is handling (R231, R79), decoded. -/
def fetch (s : State) : Option Decoded :=
  match s.ports[s.sel]? with
  | some q => some (decode q.cw)
  | none => none

/-- `Issue(p)` for a command, by its instruction. -/
def issueBy (i : Instr) (s : State) : Result :=
  match i with
  | .init => issueInit s
  | .xmit len => issueXmit len s
  | .intr => issueIntr s
  | .drain => issueDrain s

/-- `Issue(p)` (R231): enabled only when the port has no command outstanding. -/
def issueEvent (p : Nat) (cw : Word) (a0 a1 : BitVec 64) (s : State) : Result :=
  if canIssue s p = true then
    match fetch (present p cw a0 a1 s) with
    | some (.command i) => issueBy i (present p cw a0 a1 s)
    | some (.illegal _) => .next (issueIllegal p (present p cw a0 a1 s))
    | none => .next s
  else .next s

/-- The allocator's answer to a `BufAlloc` to come (R108). -/
def queueAnswer (ans : AllocAnswer) (s : State) : State := { s with allocs := s.allocs ++ [ans] }

/-- Every event but `call`, which is `step`'s own. An event that is not enabled changes nothing. -/
def agentEvent (e : Event) (s : State) : Result :=
  match e with
  | .issue p cw a0 a1 => issueEvent p cw a0 a1 s
  | .call _ _ _ _ => .next s
  | .grantTx p => grantTx p s
  | .grantRx src => grantRx src s
  | .tx => txTurn s
  | .rx => rxTurn s
  | .init => initTurn s
  | .irq => .next (latchIrq (deliverSignal s))
  | .serveIrq => serveRx .irq s
  | .alloc ans => .next (queueAnswer ans s)
  | .devTxDone at_ st cause => .next (devTxDone at_ st cause s)
  | .devRxFill at_ frame st => devRxFill at_ frame st s
  | .devByte r at_ off b => .next (devByte r at_ off b s)
  | .devRxData at_ k b => devRxData at_ k b s
  | .devRaise => .next (devRaise s)
  | .own h o a => .next (moveBuffer h o a s)
  | .reset => .next (blockReset s)

/-- The port's requester is ready to issue: no command of its port is outstanding. -/
def clearRequest (p : Nat) (s : State) : State :=
  updatePort p (fun q => { q with outstanding := false, waiting := none }) s

/-- The operand registers a port holds. -/
def operandsAt (s : State) (p : Nat) : BitVec 64 × BitVec 64 :=
  match s.ports[p]? with
  | some q => (q.a0, q.a1)
  | none => (0, 0)

/-- The command line that issues a word on port 0 with the operands its registers hold. -/
def callOnPort0 (w : Word) (s : State) : Event := .call 0 w (operandsAt s 0).1 (operandsAt s 0).2

end Sys2Proof.Machine
end

