-- ==== Sys2Proof/Machine/Step.lean ====
section
/-! DEFINITION. One step: the next event of the schedule (00_scope.md R12, R14). A command line fetches the word at its port and runs the command; with no event left the block waits. -/

namespace Sys2Proof.Machine

/-- A command line of R107: `Issue(p)`, and the command's micro-steps at once. -/
def callEvent (p : Nat) (cw : Word) (a0 a1 : BitVec 64) (s : State) : Host.Outcome State Fault Refusal :=
  if canIssue s p = true then
    match fetch (present p cw a0 a1 s) with
    | some (.command i) => exec i (present p cw a0 a1 s)
    | some (.illegal _) => .next (issueIllegal p (present p cw a0 a1 s))
    | none => .next s
  else .next s

/-- One step of the machine: the first event of the schedule. -/
def step (s : State) : Host.Outcome State Fault Refusal :=
  match s.script with
  | [] => .next s
  | .call p cw a0 a1 :: rest => callEvent p cw a0 a1 { s with script := rest }
  | e :: rest => agentEvent e { s with script := rest }

/-- The state with a command word where `step` fetches its next command: a command line on port 0, first in the
schedule, with the operands port 0 holds, and no command outstanding there. -/
def State.withFetchWord (s : State) (nbits w : Nat) : State :=
  { clearRequest 0 s with script := callOnPort0 (BitVec.ofNat 32 (w % 2 ^ nbits)) s :: s.script }

end Sys2Proof.Machine
end

