-- ==== Sys2Proof/Safety.lean ====
section
/-! DEFINITION. What counts as a safe run: quiescence and the fatal halt (00_scope.md R15, 60_exceptions.md R296), the invariants of the machine (40_ring_and_ownership.md R128 to R136), the ownership and the data areas of buffers (10_state.md R53, 46_device_environment.md R270), the duties of the agents outside it (46_device_environment.md R268, R276), and fairness (45_arbiter.md R236). -/

namespace Sys2Proof.Machine

/-! ### The end of a run -/

/-- The block is quiescent (R15). A state with `mode = FATAL` never is. -/
def quiescent (s : State) : Bool :=
  decide (s.mode = .ready) && decide (s.tx.pc = .idle) && decide (s.rx.pc = .idle) && decide (s.ini.pc = .idle) &&
    decide (s.txLock = .free) && decide (s.rxLock = .free) && decide (s.irqPend = false) &&
    s.ports.all (fun q => !q.outstanding)

/-! ### Groups of events -/

/-- The moves of the device (R262 to R265, R278). -/
def deviceMove : Event → Bool
  | .devTxDone _ _ _ => true
  | .devRxFill _ _ _ => true
  | .devByte _ _ _ _ => true
  | .devRxData _ _ _ => true
  | .devRaise => true
  | .issue _ _ _ _ => false
  | .call _ _ _ _ => false
  | .grantTx _ => false
  | .grantRx _ => false
  | .tx => false
  | .rx => false
  | .init => false
  | .irq => false
  | .serveIrq => false
  | .alloc _ => false
  | .own _ _ _ => false
  | .reset => false

/-- The moves of the block's own engines: grants and micro-steps (R12, R13). -/
def engineMove : Event → Bool
  | .grantTx _ => true
  | .grantRx _ => true
  | .tx => true
  | .rx => true
  | .init => true
  | .serveIrq => true
  | .issue _ _ _ _ => false
  | .call _ _ _ _ => false
  | .irq => false
  | .alloc _ => false
  | .devTxDone _ _ _ => false
  | .devRxFill _ _ _ => false
  | .devByte _ _ _ _ => false
  | .devRxData _ _ _ => false
  | .devRaise => false
  | .own _ _ _ => false
  | .reset => false

/-! ### The invariant -/

/-- The plain facts about tables and lists. -/
structure Shaped (s : State) : Prop where
  mem      : Memory.wf s.mem
  owner    : Rising s.owner
  bufLen   : Rising s.bufLen
  ports    : s.ports.length = s.cfg.p
  txShadow : s.txShadow.length = s.cfg.n
  rxShadow : s.rxShadow.length = s.cfg.n

/-- `tx_lock` is `HELD(p)` exactly while the TX engine runs the command of port `p` (R31, R234, R235). -/
def TxLockOk (s : State) : Prop :=
  (s.tx.pc = .idle ∧ s.txLock = .free) ∨ (s.tx.pc ≠ .idle ∧ s.tx.pc ≠ .x1 ∧ s.txLock = .held (.port s.tx.p))

/-- `rx_lock` is `HELD(source)` exactly while the RX engine runs that source's command (R32, R234, R235). -/
def RxLockOk (s : State) : Prop :=
  (s.rx.pc = .idle ∧ s.rxLock = .free) ∨
    (s.rx.pc ≠ .idle ∧ s.rx.pc ≠ .i1 ∧ s.rx.pc ≠ .d0 ∧ s.rxLock = .held s.rx.src)

/-- Mode, positions and locks agree (R28, R202, R233 to R237): nothing runs before INIT, INIT runs alone holding both
locks, and afterwards each lock is held by its own engine's command. A fatal halt has a cause (R296). -/
def EnginesOk (s : State) : Prop :=
  match s.mode with
  | .uninit =>
    s.fcause = .none ∧ s.tx.pc = .idle ∧ s.rx.pc = .idle ∧ s.ini.pc = .idle ∧ s.txLock = .free ∧ s.rxLock = .free ∧
      ∀ p, waitingAt s p = none
  | .initing =>
    s.fcause = .none ∧ s.tx.pc = .idle ∧ s.rx.pc = .idle ∧ s.ini.pc ≠ .idle ∧ s.ini.pc ≠ .n1 ∧
      s.txLock = .held (.port s.ini.p) ∧ s.rxLock = .held (.port s.ini.p)
  | .ready => s.fcause = .none ∧ s.ini.pc = .idle ∧ TxLockOk s ∧ RxLockOk s
  | .fatal => s.fcause ≠ .none

/-- The positions of XMIT at which the slot's index is latched. -/
def txHasSlot : TxPc → Bool
  | .x3 | .x4 | .x5a | .x5b | .x5c | .x5d | .x6 | .x7 | .x8 => true
  | .idle | .x1 | .x2 => false

/-- The positions of XMIT from the test of DD to the write that clears it: the slot is the block's (R136 (f)). -/
def txOwnsSlot : TxPc → Bool
  | .x4 | .x5a | .x5b | .x5c | .x5d => true
  | .idle | .x1 | .x2 | .x3 | .x6 | .x7 | .x8 => false

/-- The positions of the drain at which the slot's index is latched. -/
def rxHasSlot : RxPc → Bool
  | .d2 | .d3a | .d3b | .d3c | .d4 | .d5 | .d6a | .d6b | .d6c | .d6d | .d7 => true
  | .idle | .i1 | .i2 | .d0 | .d1 | .dx => false

/-- The positions of the drain from the test of DD to the write that clears it (R136 (f)). -/
def rxOwnsSlot : RxPc → Bool
  | .d3a | .d3b | .d3c | .d4 | .d5 | .d6a | .d6b | .d6c => true
  | .idle | .i1 | .i2 | .d0 | .d1 | .d2 | .d6d | .d7 | .dx => false

/-- A running engine works on a slot of its ring, and between the test of DD and the write that clears it the slot
stays the block's (R130, R136 (f)); for XMIT the latch holds the status byte it read, DD set (R136 (d)), and for the
drain the same (R136 (e)). -/
structure SlotsOk (s : State) : Prop where
  txIndex : s.mode = .ready → txHasSlot s.tx.pc = true → s.tx.i < s.cfg.n
  txOwns  : s.mode = .ready → txOwnsSlot s.tx.pc = true → blockOwns s .tx s.tx.i = true
  txRead  : s.mode = .ready → txOwnsSlot s.tx.pc = true → dd s.tx.s = true
  rxIndex : s.mode = .ready → rxHasSlot s.rx.pc = true → s.rx.i < s.cfg.n
  rxOwns  : s.mode = .ready → rxOwnsSlot s.rx.pc = true → blockOwns s .rx s.rx.i = true
  rxRead  : s.mode = .ready → rxOwnsSlot s.rx.pc = true → dd s.rx.s = true

/-- Bytes `lo` to `hi - 1` of a descriptor have been written. -/
def SlotWritten (s : State) (r : Ring) (i hi : Nat) : Prop :=
  ∀ k < hi, (byteAt s.mem (field s.cfg r i k)).isSome = true

/-- The descriptors of slots below `j` have been written whole. -/
def RingWritten (s : State) (r : Ring) (j : Nat) : Prop := ∀ i < j, SlotWritten s r i 16

/-- The order of the positions of INIT (R201), by number. -/
def initRank : InitPc → Nat
  | .idle => 0
  | .n1 => 1
  | .n2 => 2
  | .n3a => 3
  | .n3b => 4
  | .n4 => 5
  | .n5 => 6
  | .n6 => 7
  | .n7 => 8
  | .n8a => 9
  | .n8b => 10
  | .n8c => 11
  | .n8d => 12
  | .n8e => 13
  | .n8f => 14
  | .n9 => 15
  | .n10 => 16
  | .n11a => 17
  | .n11b => 18
  | .n11c => 19
  | .n11d => 20
  | .n11e => 21
  | .n11f => 22
  | .n12a => 23
  | .n12b => 24
  | .n12c => 25
  | .n13a => 26
  | .n13b => 27
  | .n14 => 28
  | .n15a => 29
  | .n15b => 30
  | .n15c => 31
  | .n16 => 32

/-- How far INIT has come (R206, R209, R214). -/
structure InitProgress (s : State) : Prop where
  txLoop : s.ini.pc = .n6 → s.ini.i < s.cfg.n ∧ s.ini.k ≤ 2 ∧ RingWritten s .tx s.ini.i ∧
    SlotWritten s .tx s.ini.i (8 * s.ini.k)
  rxLoop : s.ini.pc = .n9 → s.ini.i < s.cfg.n ∧ s.ini.k ≤ 2 ∧ RingWritten s .rx s.ini.i ∧
    SlotWritten s .rx s.ini.i (8 * (s.ini.k - 1))
  txDone : 8 ≤ initRank s.ini.pc → RingWritten s .tx s.cfg.n
  rxDone : 16 ≤ initRank s.ini.pc → RingWritten s .rx s.cfg.n
  tdt    : 15 ≤ initRank s.ini.pc → s.dev.regs.tdt.toNat < s.cfg.n
  rdt    : 23 ≤ initRank s.ini.pc → s.dev.regs.rdt.toNat < s.cfg.n

/-- Both rings are written and both tails are indices (R136 (a), R214). -/
structure RingsReady (s : State) : Prop where
  txDone : RingWritten s .tx s.cfg.n
  rxDone : RingWritten s .rx s.cfg.n
  tdt    : s.dev.regs.tdt.toNat < s.cfg.n
  rdt    : s.dev.regs.rdt.toNat < s.cfg.n

/-- The buffers with a data area are the live ones, those out of the pool, and the areas are disjoint from each other,
from both rings and, once INIT has been given it, from the register block (R9, R270). -/
structure AreasOk (s : State) : Prop where
  live   : ∀ h : Handle, (lookup h.toNat s.areas).isSome = true ↔ ownerOf s h ≠ .pool
  rising : Rising s.areas
  rings  : ∀ e ∈ s.areas, areaOk s.cfg e.2 s.cfg.rxBufSize = true
  regs   : ∀ e ∈ s.areas, regsClear s e.2 s.cfg.rxBufSize = true
  apart  : s.areas.Pairwise (fun x y => areasApart s.cfg x.2 y.2 = true)

/-- The invariant of the machine: it holds at reset and every step keeps it. -/
structure Inv (s : State) : Prop where
  shaped   : Shaped s
  engines  : EnginesOk s
  slots    : SlotsOk s
  params   : s.mode = .initing ∨ s.mode = .ready → paramsOk s.cfg = true
  progress : s.mode = .initing → InitProgress s
  rings    : s.mode = .ready → RingsReady s

/-! ### Words claims are stated in -/

/-- The ports after the command of port `p` has been answered (R240): its response registers and its flag, nothing
else. -/
def answeredPorts (p : Nat) (r : Reason) (s : State) : List Port :=
  s.ports.modify p (fun q => { q with rv := r.rv, rc := r.code, outstanding := false, waiting := none })

/-- The ports after the command of port `p` has been accepted and has left the queue, unanswered (R231). -/
def runningPorts (p : Nat) (s : State) : List Port :=
  s.ports.modify p (fun q => { q with outstanding := true, waiting := none })

/-- The handles given to the ingress sink, last first (R273). -/
def delivered : List Act → List Handle
  | [] => []
  | .netRx h :: rest => h :: delivered rest
  | .memRead _ _ _ :: rest => delivered rest
  | .memWrite _ _ _ :: rest => delivered rest
  | .regRead _ _ _ :: rest => delivered rest
  | .regWrite _ _ _ :: rest => delivered rest
  | .fence :: rest => delivered rest
  | .bufAlloc _ :: rest => delivered rest
  | .bufFree _ :: rest => delivered rest
  | .bufSetLen _ _ :: rest => delivered rest

/-- The slot round `j` of a drain looks at (R181): `(RDT + 1 + j) mod N`. -/
def drainSlot (s : State) (j : Nat) : Nat := (s.dev.regs.rdt.toNat + 1 + j) % s.cfg.n

/-- The first `k` slots a drain looks at hold a received frame (R133: `RX_FILLED`). -/
def Filled (s : State) (k : Nat) : Prop :=
  ∀ j < k, blockOwns s .rx (drainSlot s j) = true ∧ rxShadowAt s (drainSlot s j) ≠ 0

/-- The allocator's next answers are these buffers (R270): each a fresh one, no two with one handle, and no two whose
areas meet. -/
def AllocReady (s : State) (bufs : List (Handle × Addr)) : Prop :=
  (∃ rest, s.allocs = bufs.map some ++ rest) ∧ (bufs.map Prod.fst).Nodup ∧
    bufs.Pairwise (fun x y => areasApart s.cfg x.2 y.2 = true) ∧ ∀ b ∈ bufs, freshBuffer s b.1 b.2

/-- The bytes of a TX descriptor an XMIT stores to: `buffer_address`, `length`, `command`, `status` (R156). -/
def xmitBytes : List Nat := [0, 1, 2, 3, 4, 5, 6, 7, 8, 9, 11, 12]

/-- The bytes of an RX descriptor a drain stores to: `buffer_address`, `length`, `status` (R177). -/
def drainBytes : List Nat := [0, 1, 2, 3, 4, 5, 6, 7, 8, 9, 12]

/-! ### Who owns which buffer (R53, R136 (b), (c)) -/

/-- An XMIT stands outstanding at a port with this handle. -/
def HasXmit (q : Port) (h : Handle) : Prop := q.outstanding = true ∧ opcOf q.cw = 2 ∧ q.a0 = h ∧ h ≠ 0

/-- The port a running RX command came from (R231): outstanding, no XMIT, and out of the queue. The interrupt port has
none of this. -/
def RunsFor (s : State) : Source → Prop
  | .port p => ∃ q, s.ports[p]? = some q ∧ q.outstanding = true ∧ opcOf q.cw ≠ 2 ∧ q.waiting = none
  | .irq => True

/-- The ghost owner of every handle the block holds is the place the block holds it at (R53, R136 (c)), and every port
with a command in an engine or in the queue is outstanding with that command (R231). -/
structure Owned (s : State) : Prop where
  txSlots  : ∀ i < s.cfg.n, txShadowAt s i ≠ 0 → ownerOf s (txShadowAt s i) = .txSlot i
  rxSlots  : ∀ i < s.cfg.n, rxShadowAt s i ≠ 0 → ownerOf s (rxShadowAt s i) = .rxSlot i
  taken    : s.rx.pc = .d3b ∨ s.rx.pc = .d3c ∨ s.rx.pc = .d4 → ownerOf s s.rx.b = .engine
  fresh    : s.rx.pc = .d6a ∨ s.rx.pc = .d6b ∨ s.rx.pc = .d6c ∨ s.rx.pc = .d6d →
    s.rx.nh ≠ 0 ∧ ownerOf s s.rx.nh = .engine
  initial  : s.ini.pc = .n9 → s.ini.k ≠ 0 → s.ini.h ≠ 0 ∧ ownerOf s s.ini.h = .engine
  sending  : s.tx.pc ≠ .idle → s.tx.pc ≠ .x7 → s.tx.pc ≠ .x8 →
    ownerOf s s.tx.h = .requester s.tx.p
  sender   : s.tx.pc ≠ .idle → ∃ q, s.ports[s.tx.p]? = some q ∧ HasXmit q s.tx.h ∧ q.waiting = none
  receiver : s.rx.pc ≠ .idle → RunsFor s s.rx.src
  starter  : s.ini.pc ≠ .idle → RunsFor s (.port s.ini.p)
  queued   : ∀ (p : Nat) (q : Port) (len : Nat) (h : Handle) (a : Addr), s.ports[p]? = some q → q.waiting = some ⟨.xmit len, h, a⟩ →
    HasXmit q h ∧ ownerOf s h = .requester p
  queuedRx : ∀ (p : Nat) (q : Port) (i : Instr) (h : Handle) (a : Addr), s.ports[p]? = some q → q.waiting = some ⟨i, h, a⟩ → i = .drain ∨ i = .intr →
    q.outstanding = true ∧ opcOf q.cw ≠ 2

/-- No handle is in two shadow entries, nor twice in one table (R136 (b)). -/
def NoSharedBuffer (s : State) : Prop :=
  (∀ i < s.cfg.n, ∀ j < s.cfg.n, txShadowAt s i ≠ 0 → txShadowAt s i = txShadowAt s j → i = j) ∧
  (∀ i < s.cfg.n, ∀ j < s.cfg.n, rxShadowAt s i ≠ 0 → rxShadowAt s i = rxShadowAt s j → i = j) ∧
  (∀ i < s.cfg.n, ∀ j < s.cfg.n, txShadowAt s i ≠ 0 → txShadowAt s i ≠ rxShadowAt s j)

/-- The duty of a requester (R276 (b)): it owns the buffer it submits. -/
def RequesterDuty (s : State) : Prop :=
  ∀ p cw a0 a1 len rest, s.script = .issue p cw a0 a1 :: rest ∨ s.script = .call p cw a0 a1 :: rest →
    decode cw = .command (.xmit len) → ownerOf s a0 = .requester p

/-! ### Infinite runs and fairness (R182, R236, R265, R275) -/

/-- A run under a schedule: at every instant the machine takes the one event the schedule names there. -/
def Follows (run : Nat → State) (sched : Nat → Event) : Prop :=
  ∀ n, step { run n with script := [sched n] } = .next (run (n + 1))

/-- `tx_lock` is free and a waiter for it is enabled (R234). -/
def TxWaiting (s : State) : Prop := ∃ p, (txWaiter s p).isSome = true

/-- `rx_lock` is free and a waiter for it is enabled (R234, R238). -/
def RxWaiting (s : State) : Prop := ∃ src, (rxWaiter s src).isSome = true

/-- A command line is accepted at this instant (R232), its command one of a kind. -/
def CallAccepted (s : State) (e : Event) (kind : Instr → Prop) : Prop :=
  ∃ p cw a0 a1 i, e = .call p cw a0 a1 ∧ canIssue s p = true ∧ decode cw = .command i ∧ kind i ∧
    decideOn s.mode i a0 = .accept

/-- `tx_lock`, free, is taken at this instant (R234): by the waiter it is granted to, or by an XMIT accepted then, which
runs at once. -/
def TxTaken (s : State) (e : Event) : Prop :=
  (∃ p, (txWaiter s p).isSome = true ∧ e = .grantTx p) ∨
    (s.txLock = .free ∧ CallAccepted s e (fun i => ∃ len, i = .xmit len))

/-- `rx_lock`, free, is taken at this instant (R234, R238): by the waiter it is granted to, or by a DRAIN or INTR accepted
then, which runs at once. -/
def RxTaken (s : State) (e : Event) : Prop :=
  (∃ src, (rxWaiter s src).isSome = true ∧ (e = .grantRx src ∨ src = .irq ∧ e = .serveIrq)) ∨
    (s.rxLock = .free ∧ CallAccepted s e (fun i => i = .drain ∨ i = .intr))

/-- The weak fairness the block guarantees (R236): a lock that stays free with a waiter enabled is taken by some waiter,
whichever. -/
def WeaklyFair (run : Nat → State) (sched : Nat → Event) : Prop :=
  ∀ n, ((∀ m, n ≤ m → TxWaiting (run m)) → ∃ m, n ≤ m ∧ TxTaken (run m) (sched m)) ∧
    ((∀ m, n ≤ m → RxWaiting (run m)) → ∃ m, n ≤ m ∧ RxTaken (run m) (sched m))

/-- Every drain ends: "a fairness assumption on the device, not a property of the block" (R182). -/
def DrainsEnd (run : Nat → State) : Prop := ∀ n, ∃ m, n ≤ m ∧ ((run m).rx.pc = .idle ∨ (run m).mode = .fatal)

/-- The device may raise its interrupt (R265, R267): a cause is latched and unmasked, no interrupt is out, and the receiver
is enabled. -/
def CanRaise (s : State) : Prop :=
  s.dev.regs.icr &&& s.dev.regs.ims ≠ 0 ∧ s.dev.irqOut = false ∧ s.dev.rxOn = true

/-- The device raises in the end where it may (R265: no bound on the time; U26: "unbounded but finite"). -/
def DeviceFair (run : Nat → State) (sched : Nat → Event) : Prop :=
  ∀ n, (∀ m, n ≤ m → CanRaise (run m)) → ∃ m, n ≤ m ∧ sched m = .devRaise

/-- The dispatcher delivers (R275): while it holds a signal of the device, an `irq` event comes in the end. -/
def DispatcherFair (run : Nat → State) (sched : Nat → Event) : Prop :=
  ∀ n, (∀ m, n ≤ m → 0 < (run m).irqSignals) → ∃ m, n ≤ m ∧ sched m = .irq

end Sys2Proof.Machine
end

