-- ==== Sys2Proof/Certificates/Slice0/Obligations.lean ====
section
/-! DEFINITION. The statements about this machine, for the provers. -/

open Sys2Proof Sys2Proof.Machine

/-! ### The command word -/

/-- Decode and encode agree (R91 to R97): every well-formed command, with every `len`, decodes from its own word. -/
def Obligations.DecodeOfEncode : Prop :=
  ∀ i : Instr, i.wf = true → decode (encode i) = .command i

/-- The other direction: a word that decodes to a command is that command's word, and the command is well formed. -/
def Obligations.EncodeOfDecode : Prop :=
  ∀ (w : Word) (i : Instr), decode w = .command i → encode i = w ∧ i.wf = true

/-- The decoder reads opcode_table.json: a word decodes to a command of a mnemonic exactly when it lies in the row of
that mnemonic, and no word lies in two rows (R93 to R96). -/
def Obligations.DecodeIsTheTable : Prop :=
  (∀ (w : Word) (m : String),
    (∃ i, decode w = .command i ∧ i.mnemonic = m) ↔ ∃ r ∈ opcodeRows, r.mnemonic = m ∧ r.hasWord w = true) ∧
  ∀ (w : Word), ∀ r ∈ opcodeRows, ∀ r' ∈ opcodeRows, r.hasWord w = true → r'.hasWord w = true → r = r'

/-- Words written out from the spec's encodings decode to the commands they stand for (R93 to R96). -/
def Obligations.WordsDecode : Prop :=
  decode 0b00000000000000000000000000000001#32 = .command .init ∧
  decode 0b00000000010000000000000000000010#32 = .command (.xmit 64) ∧
  decode 0b00000000000000000000000000000011#32 = .command .intr ∧
  decode 0b00000000000000000000000000000100#32 = .command .drain

/-- R98. Which words are illegal, and that such a command changes its port's response and nothing else, in any mode but
`FATAL`. The first event of the schedule is the requester writing its three registers and raising its request; what the
block does with the word is the rest. -/
def Obligations.IllegalWords : Prop :=
  (∀ w : Word, (∃ why, decode w = .illegal why) ↔
    ((w.extractLsb' 0 4).toNat = 0 ∨ 5 ≤ (w.extractLsb' 0 4).toNat) ∨ w.extractLsb' 4 12 ≠ 0 ∨
      (w.extractLsb' 0 4 ≠ 2 ∧ w.extractLsb' 16 16 ≠ 0)) ∧
  ∀ (s : State) (p : Nat) (cw : Word) (a0 a1 : BitVec 64) (why : Illegal) (rest : List Event),
    s.script = .call p cw a0 a1 :: rest ∨ s.script = .issue p cw a0 a1 :: rest →
    canIssue s p = true → decode cw = .illegal why → s.mode ≠ .fatal →
    step s = .next { s with
      script := rest
      sel := p
      ports := s.ports.modify p (fun q =>
        { q with cw := cw, a0 := a0, a1 := a1, rv := 0xFFFFFFFF, rc := 4, outstanding := false, waiting := none }) }

/-! ### One step -/

/-- A step runs the decoded command: when the next event is a command line, its port has no command outstanding and the
word decodes to `i`, the step is `exec i` in the state with the word and operands in the port's registers. That one step
takes one event of the schedule, and that a command line runs its whole command in that step, is the model's choice (log
entry 10); R231 and R92 give what is sampled and decoded. -/
def Obligations.StepRunsCommand : Prop :=
  ∀ (s : State) (p : Nat) (cw : Word) (a0 a1 : BitVec 64) (rest : List Event) (i : Instr),
    s.script = .call p cw a0 a1 :: rest → canIssue s p = true → decode cw = .command i →
    step s = exec i (present p cw a0 a1 { s with script := rest })

/-- The state `withFetchWord` makes runs that word as the very next step, on port 0, with the operands port 0 holds. The
port, and that the command runs whole in that step, are the model's choice (log entries 16 and 10). -/
def Obligations.FetchWordRuns : Prop :=
  ∀ (s : State) (nbits w : Nat) (q : Port) (i : Instr),
    s.ports[0]? = some q → decodeTableWord nbits w = some i →
    step (s.withFetchWord nbits w) =
      exec i (present 0 (BitVec.ofNat 32 (w % 2 ^ nbits)) q.a0 q.a1 (clearRequest 0 s))

/-- A step takes the next event of the schedule; with none left the block waits. The schedule as a list the step consumes
is the model's choice (log entry 10). -/
def Obligations.StepTakesEvent : Prop :=
  (∀ s : State, s.script = [] → step s = .next s) ∧
  ∀ (s : State) (e : Event) (rest : List Event), s.script = e :: rest →
    (∀ p cw a0 a1, e ≠ .call p cw a0 a1) → step s = agentEvent e { s with script := rest }

/-! ### Reset -/

/-- R54. The values after block reset, for every element the rule gives a value. -/
def Obligations.ResetValues : Prop :=
  ∀ (s : State) (rest : List Event), s.script = .reset :: rest →
    ∃ t, step s = .next t ∧ t.mode = .uninit ∧ t.fcause = .none ∧ t.txLock = .free ∧ t.rxLock = .free ∧
      t.irqPend = false ∧ (∀ i, txShadowAt t i = 0 ∧ rxShadowAt t i = 0) ∧
      t.txShadow.length = s.cfg.n ∧ t.rxShadow.length = s.cfg.n ∧
      t.tx.pc = .idle ∧ t.rx.pc = .idle ∧ t.ini.pc = .idle ∧ t.ports.length = s.cfg.p ∧
      ∀ q ∈ t.ports, q.rv = 0 ∧ q.rc = 0 ∧ q.outstanding = false

/-- Block reset touches nothing outside the block (R331): no byte of memory, no device register, no buffer, no signal the
dispatcher holds. The handles the shadow tables held are forgotten, and the platform may recover each of them: after the
reset a move of any handle but 0 to the pool puts it there (how the platform recovers a buffer is log entry 17). -/
def Obligations.ResetOutside : Prop :=
  ∀ (s : State) (rest : List Event), s.script = .reset :: rest →
    ∃ t, step s = .next t ∧ t.mem = s.mem ∧ t.dev = s.dev ∧ t.owner = s.owner ∧ t.bufLen = s.bufLen ∧
      t.areas = s.areas ∧ t.allocs = s.allocs ∧ t.irqSignals = s.irqSignals ∧ t.cfg = s.cfg ∧ t.trace = s.trace ∧
      ∀ (h : Handle) (a : Addr), h ≠ 0 →
        ownerOf (moveBuffer h .pool a t) h = .pool ∧ lookup h.toNat (moveBuffer h .pool a t).areas = none

/-! ### Acceptance, responses, the fatal halt -/

/-- R293. The four rejections change no state but the response; `RV` is -1 in each, as it is for `BUSY`, and `RC` tells
them apart. -/
def Obligations.Rejections : Prop :=
  (∀ (s : State) (q : Port), s.ports[s.sel]? = some q →
    ((s.mode = .initing ∨ s.mode = .ready) →
      exec .init s = .next { s with ports := answeredPorts s.sel .alreadyInit s }) ∧
    ((s.mode = .uninit ∨ s.mode = .initing) →
      exec .drain s = .next { s with ports := answeredPorts s.sel .notReady s } ∧
      exec .intr s = .next { s with ports := answeredPorts s.sel .notReady s } ∧
      ∀ len, exec (.xmit len) s = .next { s with ports := answeredPorts s.sel .notReady s }) ∧
    (s.mode = .ready → q.a0 = 0 →
      ∀ len, exec (.xmit len) s = .next { s with ports := answeredPorts s.sel .badOperand s }) ∧
    (s.mode ≠ .fatal →
      issueIllegal s.sel s = { s with ports := answeredPorts s.sel .illegalCmd s })) ∧
  (∀ r : Reason, r ≠ .ok → r.rv = 0xFFFFFFFF) ∧
  ∀ r r' : Reason, r.code = r'.code → r = r'

/-- `Respond(p, rv, rc)` (R240): the port's `RV`, `RC` are written and its flag is cleared; every other port is as it
was; for source `IRQ` nothing happens. The numbers (R105, R291): success is `RV = 0`, `RC = 0`; the codes of busy, not
ready, bad operand, illegal command and already initialised are 1 to 5, each with `RV = 0xFFFFFFFF`. -/
def Obligations.RespondWrites : Prop :=
  (∀ (s : State) (p : Nat) (r : Reason) (q : Port), s.ports[p]? = some q →
    (respond (.port p) r s).ports[p]? = some { q with rv := r.rv, rc := r.code, outstanding := false } ∧
    (∀ j, j ≠ p → (respond (.port p) r s).ports[j]? = s.ports[j]?) ∧
    { respond (.port p) r s with ports := s.ports } = s) ∧
  (∀ (s : State) (r : Reason), respond .irq r s = s) ∧
  (Reason.ok.rv = 0 ∧ Reason.ok.code = 0) ∧
  (Reason.busy.rv = 0xFFFFFFFF ∧ Reason.busy.code = 1) ∧
  (Reason.notReady.rv = 0xFFFFFFFF ∧ Reason.notReady.code = 2) ∧
  (Reason.badOperand.rv = 0xFFFFFFFF ∧ Reason.badOperand.code = 3) ∧
  (Reason.illegalCmd.rv = 0xFFFFFFFF ∧ Reason.illegalCmd.code = 4) ∧
  Reason.alreadyInit.rv = 0xFFFFFFFF ∧ Reason.alreadyInit.code = 5

/-- A command accepted while its lock is held waits, and nothing else happens (R233); a held lock is granted to nobody; and
where a command waits and its lock is free, the grant takes the lock as `HELD(source)`, loads the engine's latches from
the sample, takes the command out of the queue and puts the engine at the micro-step after `X1`, `D0` or `I1` (R234); for
the interrupt port it clears `irq_pend` (R238). -/
def Obligations.HeldLockWaits : Prop :=
  (∀ (s : State) (q : Port) (src : Source), s.ports[s.sel]? = some q → s.mode = .ready →
    (s.txLock = .held src → q.a0 ≠ 0 → ∀ len, exec (.xmit len) s = .next { s with
      ports := s.ports.modify s.sel (fun q =>
        { q with outstanding := true, waiting := some ⟨.xmit len, q.a0, q.a1⟩ }) }) ∧
    (s.rxLock = .held src → ∀ i, i = .drain ∨ i = .intr → exec i s = .next { s with
      ports := s.ports.modify s.sel (fun q => { q with outstanding := true, waiting := some ⟨i, q.a0, q.a1⟩ }) }) ∧
    (s.txLock = .held src → ∀ p, grantTx p s = .next s) ∧
    (s.rxLock = .held src → ∀ src', grantRx src' s = .next s)) ∧
  ∀ (s : State) (p : Nat) (h : Handle) (a : Addr), s.mode ≠ .fatal →
    (s.txLock = .free → ∀ len, waitingAt s p = some ⟨.xmit len, h, a⟩ → grantTx p s = .next { s with
      ports := s.ports.modify p (fun q => { q with waiting := none })
      tx := { s.tx with pc := .x2, p := p, h := h, a := a, n := BitVec.ofNat 16 len }
      txLock := .held (.port p) }) ∧
    (s.rxLock = .free → waitingAt s p = some ⟨.drain, h, a⟩ → grantRx (.port p) s = .next { s with
      ports := s.ports.modify p (fun q => { q with waiting := none })
      rx := { s.rx with pc := .d1, src := .port p, kind := .drain }
      rxLock := .held (.port p) }) ∧
    (s.rxLock = .free → waitingAt s p = some ⟨.intr, h, a⟩ → grantRx (.port p) s = .next { s with
      ports := s.ports.modify p (fun q => { q with waiting := none })
      rx := { s.rx with pc := .i2, src := .port p, kind := .intr }
      rxLock := .held (.port p) }) ∧
    (s.rxLock = .free → s.mode = .ready → s.irqPend = true → grantRx .irq s = .next { s with
      irqPend := false
      rx := { s.rx with pc := .i2, src := .irq, kind := .intr }
      rxLock := .held .irq })

/-- R241. In `FATAL` nothing is accepted, granted or answered, every engine stays where it is, locks stay held and
`irq` events are ignored: such an event changes nothing of the block. That it has used up a signal the dispatcher held
all the same is the model's choice, log entry 30. That a command line or an issue still writes the port's registers and
leaves the port outstanding for ever is the model's reading of R231 and R232 (1), log entry 24. -/
def Obligations.FatalFrozen : Prop :=
  ∀ (s : State) (e : Event) (rest : List Event), s.mode = .fatal → s.script = e :: rest →
    (engineMove e = true → step s = .next { s with script := rest }) ∧
    (e = .irq → step s = .next { s with script := rest, irqSignals := s.irqSignals - 1 }) ∧
    ∀ p cw a0 a1, e = .call p cw a0 a1 ∨ e = .issue p cw a0 a1 →
      (canIssue s p = false → step s = .next { s with script := rest }) ∧
      (canIssue s p = true → step s = .next { s with
        script := rest
        sel := p
        ports := s.ports.modify p (fun q =>
          { q with cw := cw, a0 := a0, a1 := a1, outstanding := true, waiting := none }) })

/-- The legal changes of mode (R28, R310), for one step from a state of the machine: `FATAL` is left only by block reset,
with its cause kept; `READY` is left only by a fatal halt or block reset; `INITING` goes on to `READY` or `FATAL`; only
an INIT leaves `UNINIT`. -/
def Obligations.ModeTransitions : Prop :=
  ∀ (s t : State) (e : Event) (rest : List Event), Inv s → s.script = e :: rest → step s = .next t →
    e ≠ .reset →
    (s.mode = .fatal → t.mode = .fatal ∧ t.fcause = s.fcause) ∧
    (s.mode = .ready → t.mode = .ready ∨ t.mode = .fatal) ∧
    (s.mode = .initing → t.mode = .initing ∨ t.mode = .ready ∨ t.mode = .fatal) ∧
    (s.mode = .uninit → t.mode ≠ .uninit →
      ∃ p cw a0 a1, (e = .call p cw a0 a1 ∨ e = .issue p cw a0 a1) ∧ decode cw = .command .init)

/-! ### XMIT -/

/-- An XMIT that is accepted, finds `tx_lock` free and DD set in the slot at `TDT` sends (R151, R156 to R159): it answers
success, the descriptor holds the buffer's address, the length, the command byte and the status as read with DD cleared,
the shadow entry holds the handle, and `TDT` is the next index. -/
def Obligations.XmitSends : Prop :=
  ∀ (s : State) (q : Port) (len : Nat) (b : Byte), s.ports[s.sel]? = some q → s.mode = .ready → q.a0 ≠ 0 →
    s.txLock = .free → statusAt s .tx (s.dev.regs.tdt.toNat % s.cfg.n) = some b → b.getLsbD 0 = true →
    ∃ t, exec (.xmit len) s = .next t ∧
      readBytes t.mem (field s.cfg .tx (s.dev.regs.tdt.toNat % s.cfg.n) 0) 8 = some q.a1.toNat ∧
      readBytes t.mem (field s.cfg .tx (s.dev.regs.tdt.toNat % s.cfg.n) 8) 2 = some (len % 65536) ∧
      byteAt t.mem (field s.cfg .tx (s.dev.regs.tdt.toNat % s.cfg.n) 11) = some (s.cfg.cmdEop ||| s.cfg.cmdRs) ∧
      byteAt t.mem (field s.cfg .tx (s.dev.regs.tdt.toNat % s.cfg.n) 12) = some (b &&& 0xFE) ∧
      t.txShadow = s.txShadow.set (s.dev.regs.tdt.toNat % s.cfg.n) q.a0 ∧
      ownerOf t q.a0 = .txSlot (s.dev.regs.tdt.toNat % s.cfg.n) ∧
      t.dev = { s.dev with
        regs := { s.dev.regs with tdt := BitVec.ofNat 32 ((s.dev.regs.tdt.toNat % s.cfg.n + 1) % s.cfg.n) } } ∧
      t.ports = answeredPorts s.sel .ok s ∧ t.txLock = .free ∧ t.tx.pc = .idle

/-- The accesses of such an XMIT, in their order (R75, R131, R151, R156): the tail read, the status read, the release of
the slot's previous buffer where there is one, address, length, command, status, and last the tail write. -/
def Obligations.XmitAccesses : Prop :=
  ∀ (s t : State) (q : Port) (len : Nat) (b : Byte), s.ports[s.sel]? = some q → s.mode = .ready → q.a0 ≠ 0 →
    s.txLock = .free → statusAt s .tx (s.dev.regs.tdt.toNat % s.cfg.n) = some b → b.getLsbD 0 = true →
    exec (.xmit len) s = .next t →
    t.trace =
      .regWrite .tdt (regAddr s .tdt) (BitVec.ofNat 32 ((s.dev.regs.tdt.toNat % s.cfg.n + 1) % s.cfg.n)) ::
      .memWrite (field s.cfg .tx (s.dev.regs.tdt.toNat % s.cfg.n) 12) 1 (b &&& 0xFE).toNat ::
      .memWrite (field s.cfg .tx (s.dev.regs.tdt.toNat % s.cfg.n) 11) 1 (s.cfg.cmdEop ||| s.cfg.cmdRs).toNat ::
      .memWrite (field s.cfg .tx (s.dev.regs.tdt.toNat % s.cfg.n) 8) 2 (len % 65536) ::
      .memWrite (field s.cfg .tx (s.dev.regs.tdt.toNat % s.cfg.n) 0) 8 q.a1.toNat ::
      ((if txShadowAt s (s.dev.regs.tdt.toNat % s.cfg.n) = 0 then []
        else [.bufFree (txShadowAt s (s.dev.regs.tdt.toNat % s.cfg.n))]) ++
      .memRead (field s.cfg .tx (s.dev.regs.tdt.toNat % s.cfg.n) 12) 1 b.toNat ::
      .regRead .tdt (regAddr s .tdt) s.dev.regs.tdt :: s.trace)

/-- R160. Busy changes nothing: where DD of the slot at `TDT` is clear, an accepted XMIT answers busy; no byte of memory,
no shadow entry, no device register and no owner changes, `TDT` and the status byte are only read, and the lock is
released. The same XMIT again meets the same slot and changes nothing but the record of its two reads. -/
def Obligations.XmitBusy : Prop :=
  ∀ (s : State) (q : Port) (len : Nat) (b : Byte), s.ports[s.sel]? = some q → s.mode = .ready → q.a0 ≠ 0 →
    s.txLock = .free → statusAt s .tx (s.dev.regs.tdt.toNat % s.cfg.n) = some b → b.getLsbD 0 = false →
    ∃ t, exec (.xmit len) s = .next t ∧
      t = { s with ports := answeredPorts s.sel .busy s, tx := t.tx, trace := t.trace } ∧ t.tx.pc = .idle ∧
      t.trace = .memRead (field s.cfg .tx (s.dev.regs.tdt.toNat % s.cfg.n) 12) 1 b.toNat ::
        .regRead .tdt (regAddr s .tdt) s.dev.regs.tdt :: s.trace ∧
      ∃ u, exec (.xmit len) t = .next u ∧ u = { t with trace := u.trace }

/-- The frame of XMIT, in every case that ends in a next state: the RX side, the control registers, the other ports, the
port's operand registers, every device register but `TDT`, every shadow entry but the slot's, every owner but those of
the handle sent and of the handle the slot held, every data area but the latter's, and every byte of memory but those
XMIT stores to are unchanged. -/
def Obligations.XmitFrame : Prop :=
  ∀ (s t : State) (q : Port) (len : Nat), s.ports[s.sel]? = some q → exec (.xmit len) s = .next t →
    t = { s with ports := t.ports, tx := t.tx, txShadow := t.txShadow, mem := t.mem, dev := t.dev, owner := t.owner,
                 areas := t.areas, trace := t.trace } ∧
    t.dev = { s.dev with regs := { s.dev.regs with tdt := t.dev.regs.tdt } } ∧
    (∀ j, j ≠ s.sel → t.ports[j]? = s.ports[j]?) ∧
    (∃ q', t.ports[s.sel]? = some q' ∧ q'.cw = q.cw ∧ q'.a0 = q.a0 ∧ q'.a1 = q.a1) ∧
    (∀ j, j ≠ s.dev.regs.tdt.toNat % s.cfg.n → txShadowAt t j = txShadowAt s j) ∧
    (∀ h, h ≠ q.a0 → h ≠ txShadowAt s (s.dev.regs.tdt.toNat % s.cfg.n) → ownerOf t h = ownerOf s h) ∧
    (∀ h : Handle, h ≠ txShadowAt s (s.dev.regs.tdt.toNat % s.cfg.n) →
      lookup h.toNat t.areas = lookup h.toNat s.areas) ∧
    ∀ a : Addr, (∀ off ∈ xmitBytes, a ≠ field s.cfg .tx (s.dev.regs.tdt.toNat % s.cfg.n) off) →
      byteAt t.mem a = byteAt s.mem a

/-- R155. At `X4`, reached only when `X3` read DD set, the slot's previous buffer is released and the entry cleared, in
one micro-step; an empty entry makes it do nothing; no other micro-step of XMIT releases a buffer. -/
def Obligations.XmitReleases : Prop :=
  (∀ s t : State, txTurn s = .next t → t.tx.pc = .x4 → s.tx.pc ≠ .x4 →
    s.tx.pc = .x3 ∧ blockOwns s .tx s.tx.i = true) ∧
  (∀ s : State, s.mode ≠ .fatal → s.tx.pc = .x4 → txShadowAt s s.tx.i ≠ 0 → s.tx.i < s.txShadow.length →
    ∃ t, txTurn s = .next t ∧ t.trace = .bufFree (txShadowAt s s.tx.i) :: s.trace ∧
      t.txShadow = s.txShadow.set s.tx.i 0 ∧ txShadowAt t s.tx.i = 0 ∧
      ownerOf t (txShadowAt s s.tx.i) = .pool ∧ lookup (txShadowAt s s.tx.i).toNat t.areas = none ∧
      t.tx.pc = .x5a) ∧
  (∀ s : State, s.mode ≠ .fatal → s.tx.pc = .x4 → txShadowAt s s.tx.i = 0 →
    txTurn s = .next { s with tx := { s.tx with pc := .x5a } }) ∧
  ∀ (s t : State) (h : Handle), txTurn s = .next t → t.trace = .bufFree h :: s.trace →
    s.tx.pc = .x4 ∧ h = txShadowAt s s.tx.i ∧ h ≠ 0

/-- R156. `X5a` to `X5d`: the four writes, in the order address, length, command, status, the status byte as `X3` read it
with bit 0 cleared; each is one access and writes no other byte. -/
def Obligations.XmitProgramsSlot : Prop :=
  ∀ s : State, s.mode ≠ .fatal →
    (s.tx.pc = .x5a → txTurn s = .next { memWrite (field s.cfg .tx s.tx.i 0) 8 s.tx.a.toNat s with
      tx := { s.tx with pc := .x5b } }) ∧
    (s.tx.pc = .x5b → txTurn s = .next { memWrite (field s.cfg .tx s.tx.i 8) 2 s.tx.n.toNat s with
      tx := { s.tx with pc := .x5c } }) ∧
    (s.tx.pc = .x5c → txTurn s = .next { memWrite (field s.cfg .tx s.tx.i 11) 1 (s.cfg.cmdEop ||| s.cfg.cmdRs).toNat s with
      tx := { s.tx with pc := .x5d } }) ∧
    (s.tx.pc = .x5d → txTurn s = .next { memWrite (field s.cfg .tx s.tx.i 12) 1 (s.tx.s &&& 0xFE).toNat s with
      tx := { s.tx with pc := .x6 } }) ∧
    ∀ j < 8, (s.tx.s &&& 0xFE).getLsbD j = (decide (j ≠ 0) && s.tx.s.getLsbD j)

/-- R158. `X7` advances the tail by one modulo `N`, from the index latched at `X2`: one register write and no read. -/
def Obligations.XmitAdvancesTail : Prop :=
  ∀ s : State, s.mode ≠ .fatal → s.tx.pc = .x7 →
    ∃ t, txTurn s = .next t ∧ t.dev.regs.tdt = BitVec.ofNat 32 ((s.tx.i + 1) % s.cfg.n) ∧
      t.trace = .regWrite .tdt (regAddr s .tdt) (BitVec.ofNat 32 ((s.tx.i + 1) % s.cfg.n)) :: s.trace ∧
      t = { s with tx := { s.tx with pc := .x8 }, dev := t.dev, trace := t.trace } ∧
      t.dev = { s.dev with regs := { s.dev.regs with tdt := t.dev.regs.tdt } }

/-! ### DRAIN and INTR -/

/-- R174. `D2`: a slot whose DD is clear ends the loop. A DRAIN on a ring with no completed slot does `D0`, `D1`, `D2`,
`DX` and no more: it answers success, reads the tail and one status byte, and leaves `RDT`, memory, shadow tables and
owners as they are, with no ingress call. -/
def Obligations.DrainEmpty : Prop :=
  (∀ (s : State) (b : Byte), s.mode ≠ .fatal → s.rx.pc = .d2 → statusAt s .rx s.rx.i = some b →
    rxTurn s = .next { s with
      rx := { s.rx with s := b, pc := if b.getLsbD 0 = true then .d3a else .dx }
      trace := .memRead (field s.cfg .rx s.rx.i 12) 1 b.toNat :: s.trace }) ∧
  ∀ (s : State) (q : Port) (b : Byte), s.ports[s.sel]? = some q → s.mode = .ready → s.rxLock = .free →
    statusAt s .rx (drainSlot s 0) = some b → b.getLsbD 0 = false →
    ∃ t, exec .drain s = .next t ∧
      t = { s with ports := answeredPorts s.sel .ok s, rx := t.rx, trace := t.trace } ∧ t.rx.pc = .idle ∧
      t.trace = .memRead (field s.cfg .rx (drainSlot s 0) 12) 1 b.toNat ::
        .regRead .rdt (regAddr s .rdt) s.dev.regs.rdt :: s.trace

/-- A spurious INTR is harmless (R195): with no RX slot done it writes `ICR` and changes nothing else but what the
acknowledgment clears. -/
def Obligations.IntrSpurious : Prop :=
  ∀ (s : State) (q : Port) (b : Byte), s.ports[s.sel]? = some q → s.mode = .ready → s.rxLock = .free →
    statusAt s .rx (drainSlot s 0) = some b → b.getLsbD 0 = false →
    ∃ t, exec .intr s = .next t ∧
      t = { s with ports := answeredPorts s.sel .ok s, rx := t.rx, trace := t.trace,
                   dev := { s.dev with regs := { s.dev.regs with icr := 0 }, irqOut := false } } ∧
      t.rx.pc = .idle ∧
      t.trace = .memRead (field s.cfg .rx (drainSlot s 0) 12) 1 b.toNat ::
        .regRead .rdt (regAddr s .rdt) s.dev.regs.rdt ::
        .regWrite .icr (regAddr s .icr) 0xFFFFFFFF :: s.trace

/-- A malformed slot stops the drain (R175, R294): with DD set and an empty shadow entry the command answers success and
nothing is written. -/
def Obligations.DrainMalformed : Prop :=
  ∀ (s : State) (q : Port), s.ports[s.sel]? = some q → s.mode = .ready → s.rxLock = .free →
    blockOwns s .rx (drainSlot s 0) = true → rxShadowAt s (drainSlot s 0) = 0 →
    ∃ t, exec .drain s = .next t ∧
      t = { s with ports := answeredPorts s.sel .ok s, rx := t.rx, trace := t.trace } ∧ t.rx.pc = .idle

/-- A drain delivers every completed slot and refills it (R171, R177, R179, R181 to R183): where the first `k` slots from
`(RDT + 1) mod N` hold a frame, the next one does not or `k = N`, and the allocator has a buffer for each, the command
answers success, the handles go to the ingress sink in index order, each of those slots is armed with its fresh buffer,
its length and status 0, and `RDT` has moved by `k`. INTR does the same after its acknowledgment (R191). -/
def Obligations.DrainDelivers : Prop :=
  ∀ (s : State) (q : Port) (i : Instr) (bufs : List (Handle × Addr)), Inv s → Owned s → i = .drain ∨ i = .intr →
    s.ports[s.sel]? = some q → s.mode = .ready → s.rxLock = .free → AllocReady s bufs → Filled s bufs.length →
    (bufs.length = s.cfg.n ∨ bufs.length < s.cfg.n ∧ deviceOwns s .rx (drainSlot s bufs.length) = true) →
    ∃ t, exec i s = .next t ∧ t.mode = .ready ∧ t.rxLock = .free ∧ t.rx.pc = .idle ∧
      t.ports = answeredPorts s.sel .ok s ∧
      t.dev.regs.rdt = BitVec.ofNat 32 ((s.dev.regs.rdt.toNat + bufs.length) % s.cfg.n) ∧
      (i = .intr → t.dev.regs.icr = 0 ∧ t.dev.irqOut = false) ∧
      delivered t.trace =
        ((List.range bufs.length).map (fun j => rxShadowAt s (drainSlot s j))).reverse ++ delivered s.trace ∧
      ∀ (j : Nat) (h : Handle) (a : Addr), bufs[j]? = some (h, a) →
        rxShadowAt t (drainSlot s j) = h ∧ ownerOf t h = .rxSlot (drainSlot s j) ∧
        lookup h.toNat t.areas = some a ∧
        ownerOf t (rxShadowAt s (drainSlot s j)) = .ingress ∧
        (lookup (rxShadowAt s (drainSlot s j)).toNat t.bufLen).map BitVec.toNat =
          readBytes s.mem (field s.cfg .rx (drainSlot s j) 8) 2 ∧
        readBytes t.mem (field s.cfg .rx (drainSlot s j) 0) 8 = some a.toNat ∧
        readBytes t.mem (field s.cfg .rx (drainSlot s j) 8) 2 = some 0 ∧
        byteAt t.mem (field s.cfg .rx (drainSlot s j) 12) = some 0

/-- The frame of DRAIN and INTR, in every case that ends in a next state: the TX side, the other ports, every device
register but `RDT` (and, for INTR, what the acknowledgment clears), every shadow entry of a slot whose DD was clear, and
every byte of memory but those of a slot whose DD was set are unchanged. -/
def Obligations.DrainFrame : Prop :=
  ∀ (s t : State) (q : Port) (i : Instr), Inv s → i = .drain ∨ i = .intr → s.ports[s.sel]? = some q →
    exec i s = .next t →
    t = { s with ports := t.ports, rx := t.rx, mode := t.mode, fcause := t.fcause, rxLock := t.rxLock,
                 rxShadow := t.rxShadow, mem := t.mem, dev := t.dev, owner := t.owner, bufLen := t.bufLen,
                 areas := t.areas, allocs := t.allocs, trace := t.trace } ∧
    t.dev.regs = { s.dev.regs with rdt := t.dev.regs.rdt, icr := t.dev.regs.icr } ∧
    t.dev.txOn = s.dev.txOn ∧ t.dev.rxOn = s.dev.rxOn ∧
    (i = .drain → t.dev.regs.icr = s.dev.regs.icr ∧ t.dev.irqOut = s.dev.irqOut) ∧
    (∀ j, j ≠ s.sel → t.ports[j]? = s.ports[j]?) ∧
    (∃ q', t.ports[s.sel]? = some q' ∧ q'.cw = q.cw ∧ q'.a0 = q.a0 ∧ q'.a1 = q.a1) ∧
    (∀ j, (∀ k < s.cfg.n, blockOwns s .rx k = true → j ≠ k) → rxShadowAt t j = rxShadowAt s j) ∧
    ∀ a : Addr,
      (∀ k < s.cfg.n, blockOwns s .rx k = true → ∀ off ∈ drainBytes, a ≠ field s.cfg .rx k off) →
      byteAt t.mem a = byteAt s.mem a

/-- R178. An allocation that fails at `D5`, in any round, is a fatal halt with cause `NOBUF_DRAIN` and writes nothing else.
Of a whole DRAIN whose first slot is filled: the old buffer has been delivered, the shadow entry is empty, the
descriptor (DD still set) and `RDT` are as they were, the lock stays held and the port stays unanswered. -/
def Obligations.DrainNoBuffer : Prop :=
  (∀ (s : State) (rest : List AllocAnswer), s.mode ≠ .fatal → s.rx.pc = .d5 → s.allocs = none :: rest →
    rxTurn s = .next { s with mode := .fatal, fcause := .nobufDrain, allocs := rest,
                              trace := .bufAlloc none :: s.trace }) ∧
  ∀ (s : State) (q : Port), Inv s → s.ports[s.sel]? = some q → s.mode = .ready → s.rxLock = .free → Filled s 1 →
    s.allocs.head? = some none →
    ∃ t, exec .drain s = .next t ∧ t.mode = .fatal ∧ t.fcause = .nobufDrain ∧ t.rx.pc = .d5 ∧
      t.rxLock = .held (.port s.sel) ∧ t.ports = runningPorts s.sel s ∧
      t.mem = s.mem ∧ t.dev = s.dev ∧ t.txShadow = s.txShadow ∧
      t.rxShadow = s.rxShadow.set (drainSlot s 0) 0 ∧
      ownerOf t (rxShadowAt s (drainSlot s 0)) = .ingress ∧
      delivered t.trace = rxShadowAt s (drainSlot s 0) :: delivered s.trace

/-- R173. `D1`: the slot is `(RDT + 1) mod N`, with `RDT` read afresh. -/
def Obligations.DrainSelectsSlot : Prop :=
  ∀ s : State, s.mode ≠ .fatal → s.rx.pc = .d1 →
    ∃ t, rxTurn s = .next t ∧ t.rx.i = (s.dev.regs.rdt.toNat + 1) % s.cfg.n ∧ t.rx.pc = .d2 ∧
      t.trace = .regRead .rdt (regAddr s .rdt) s.dev.regs.rdt :: s.trace ∧
      t = { s with rx := { s.rx with i := t.rx.i, pc := .d2 }, trace := t.trace }

/-- The refill and the tail (R177, R179): address, length 0, status 0, the shadow entry, and only then `RDT <- i`. -/
def Obligations.DrainRefills : Prop :=
  ∀ s : State, s.mode ≠ .fatal →
    (s.rx.pc = .d6a → rxTurn s = .next { memWrite (field s.cfg .rx s.rx.i 0) 8 s.rx.na.toNat s with
      rx := { s.rx with pc := .d6b } }) ∧
    (s.rx.pc = .d6b → rxTurn s = .next { memWrite (field s.cfg .rx s.rx.i 8) 2 0 s with
      rx := { s.rx with pc := .d6c } }) ∧
    (s.rx.pc = .d6c → rxTurn s = .next { memWrite (field s.cfg .rx s.rx.i 12) 1 0 s with
      rx := { s.rx with pc := .d6d } }) ∧
    (s.rx.pc = .d6d → ∃ t, rxTurn s = .next t ∧
      t = { s with rxShadow := s.rxShadow.set s.rx.i s.rx.nh, rx := { s.rx with pc := .d7 }, owner := t.owner } ∧
      ∀ h, ownerOf t h = if h = s.rx.nh then .rxSlot s.rx.i else ownerOf s h) ∧
    (s.rx.pc = .d7 → ∃ t, rxTurn s = .next t ∧ t.rx.pc = .d1 ∧
      t.dev = { s.dev with regs := { s.dev.regs with rdt := BitVec.ofNat 32 s.rx.i } } ∧
      t.trace = .regWrite .rdt (regAddr s .rdt) (BitVec.ofNat 32 s.rx.i) :: s.trace ∧
      t = { s with rx := { s.rx with pc := .d1 }, dev := t.dev, trace := t.trace })

/-- R192. The acknowledgment comes first and once: of the accesses an INTR makes, from a port or from the interrupt
port, the first is the all-ones write of `ICR`, and no other is an access to `ICR`. The same by micro-steps, for an INTR
that waited for its lock and was granted it later: at `I2` the engine writes all ones to `ICR`, that one access, and goes
on at `D1`; from no other position does a micro-step access `ICR`, and none but `I1` leads to `I2`. -/
def Obligations.IntrAcknowledges : Prop :=
  (∀ (s t : State) (q : Port), s.ports[s.sel]? = some q → s.mode = .ready → s.rxLock = .free →
    exec .intr s = .next t ∨ (s.irqPend = true ∧ serveRx .irq s = .next t) →
    ∃ l : List Act, t.trace = l ++ .regWrite .icr (regAddr s .icr) 0xFFFFFFFF :: s.trace ∧
      ∀ e ∈ l, ∀ a v, e ≠ .regWrite .icr a v ∧ e ≠ .regRead .icr a v) ∧
  (∀ s : State, s.mode ≠ .fatal → s.rx.pc = .i2 →
    rxTurn s = .next { s with
      rx := { s.rx with pc := .d1 }
      dev := { s.dev with regs := { s.dev.regs with icr := 0 }, irqOut := false }
      trace := .regWrite .icr (regAddr s .icr) 0xFFFFFFFF :: s.trace }) ∧
  ∀ s t : State, s.mode ≠ .fatal → rxTurn s = .next t →
    (∀ (a : Addr) (v : Word), t.trace = .regWrite .icr a v :: s.trace ∨ t.trace = .regRead .icr a v :: s.trace →
      s.rx.pc = .i2) ∧
    (t.rx.pc = .i2 → s.rx.pc = .i1)

/-! ### The interrupt -/

/-- An `irq` event is latched in any mode but `FATAL`, merges with one already pending, and changes nothing else of the
block (R239); it uses up a signal of the device where the dispatcher holds one, and is spurious where it holds none
(R275; log entry 30); it is held until the mode is `READY` and `rx_lock` is free (R238). -/
def Obligations.IrqLatched : Prop :=
  (∀ (s : State) (rest : List Event), s.script = .irq :: rest → s.mode ≠ .fatal →
    step s = .next { s with script := rest, irqPend := true, irqSignals := s.irqSignals - 1 }) ∧
  ∀ s : State, s.mode ≠ .ready ∨ s.irqPend = false ∨ (∃ src, s.rxLock = .held src) →
    grantRx .irq s = .next s ∧ serveRx .irq s = .next s

/-- R191's example: with `irq_pend = 1`, `mode = READY`, `rx_lock` free and no RX slot done, the interrupt port's INTR
clears `irq_pend`, acknowledges, finds nothing, and releases the lock; no port is answered. -/
def Obligations.IrqServed : Prop :=
  ∀ (s : State) (rest : List Event) (b : Byte), s.script = .serveIrq :: rest → s.irqPend = true → s.mode = .ready →
    s.rxLock = .free → statusAt s .rx (drainSlot s 0) = some b → b.getLsbD 0 = false →
    ∃ t, step s = .next t ∧
      t = { s with script := rest, irqPend := false, rx := t.rx, trace := t.trace,
                   dev := { s.dev with regs := { s.dev.regs with icr := 0 }, irqOut := false } } ∧
      t.rx.pc = .idle ∧
      t.trace = .memRead (field s.cfg .rx (drainSlot s 0) 12) 1 b.toNat ::
        .regRead .rdt (regAddr s .rdt) s.dev.regs.rdt ::
        .regWrite .icr (regAddr s .icr) 0xFFFFFFFF :: s.trace

/-! ### INIT -/

/-- The state after a completed INIT (R214), with the values of R43 to R50: accepted in `UNINIT` with an aligned register
block, the premises of R9 and both checks of R208 met, and the allocator able to give `N` buffers off the register block,
INIT answers success, with the device's transmitter and receiver enabled (R212, R264, R267). That no interrupt of the
device is out then is read by inference (log entry 15). -/
def Obligations.InitCompletes : Prop :=
  ∀ (s : State) (q : Port) (bufs : List (Handle × Addr)), Inv s → s.mode = .uninit → s.ports[s.sel]? = some q →
    q.a0.toNat % 4 = 0 → initAllowed s q.a0 = true → 16 * s.cfg.n % s.cfg.ringLenMult = 0 →
    s.cfg.txRingBase.toNat % s.cfg.descAlign = 0 → s.cfg.rxRingBase.toNat % s.cfg.descAlign = 0 →
    AllocReady s bufs → (∀ b ∈ bufs, areaOffRegs s.cfg q.a0 b.2 s.cfg.rxBufSize = true) → bufs.length = s.cfg.n →
    ∃ t, exec .init s = .next t ∧ t.mode = .ready ∧ t.fcause = .none ∧ t.regsBase = q.a0 ∧
      t.txLock = .free ∧ t.rxLock = .free ∧ t.ini.pc = .idle ∧ t.ports = answeredPorts s.sel .ok s ∧
      (∀ i < s.cfg.n, txShadowAt t i = 0 ∧
        readBytes t.mem (field s.cfg .tx i 0) 8 = some 0 ∧
        readBytes t.mem (field s.cfg .tx i 8) 8 = some 0x0000000100000000) ∧
      (∀ (i : Nat) (h : Handle) (a : Addr), bufs[i]? = some (h, a) →
        rxShadowAt t i = h ∧ ownerOf t h = .rxSlot i ∧ lookup h.toNat t.areas = some a ∧
        readBytes t.mem (field s.cfg .rx i 0) 8 = some a.toNat ∧
        readBytes t.mem (field s.cfg .rx i 8) 8 = some 0) ∧
      t.dev.regs.tdh = 0 ∧ t.dev.regs.tdt = 0 ∧ t.dev.regs.rdh = 0 ∧
      t.dev.regs.rdt = BitVec.ofNat 32 (s.cfg.n - 1) ∧
      t.dev.regs.tdbal = s.cfg.txRingBase.extractLsb' 0 32 ∧ t.dev.regs.tdbah = s.cfg.txRingBase.extractLsb' 32 32 ∧
      t.dev.regs.rdbal = s.cfg.rxRingBase.extractLsb' 0 32 ∧ t.dev.regs.rdbah = s.cfg.rxRingBase.extractLsb' 32 32 ∧
      t.dev.regs.tdlen = BitVec.ofNat 32 (16 * s.cfg.n) ∧ t.dev.regs.rdlen = BitVec.ofNat 32 (16 * s.cfg.n) ∧
      t.dev.regs.ra0 = s.cfg.macAddr.extractLsb' 0 32 ∧
      t.dev.regs.ra1 = (s.cfg.macAddr.extractLsb' 32 16).zeroExtend 32 ||| s.cfg.raValid ∧
      (∀ j < s.cfg.mtaEntries, getReg t.dev.regs (.mta j) = 0) ∧
      t.dev.regs.tctl = s.cfg.tctlInit ∧ t.dev.regs.tipg = s.cfg.tipgInit ∧ t.dev.regs.rctl = s.cfg.rctlInit ∧
      t.dev.regs.rdtr = 0 ∧ t.dev.regs.radv = 0 ∧ t.dev.regs.ims = s.cfg.imsRxdw ∧
      t.dev.txOn = true ∧ t.dev.rxOn = true ∧ t.dev.irqOut = false

/-- The frame of INIT, in every case that ends in a next state: both other engines, `irq_pend`, the other ports, the
port's operand registers and every byte of memory outside the two rings are unchanged. -/
def Obligations.InitFrame : Prop :=
  ∀ (s t : State) (q : Port), Inv s → s.ports[s.sel]? = some q → exec .init s = .next t →
    t = { s with ports := t.ports, ini := t.ini, mode := t.mode, fcause := t.fcause, regsBase := t.regsBase,
                 txLock := t.txLock, rxLock := t.rxLock, txShadow := t.txShadow, rxShadow := t.rxShadow, mem := t.mem,
                 dev := t.dev, owner := t.owner, areas := t.areas, allocs := t.allocs, draws := t.draws,
                 trace := t.trace } ∧
    (∀ j, j ≠ s.sel → t.ports[j]? = s.ports[j]?) ∧
    (∃ q', t.ports[s.sel]? = some q' ∧ q'.cw = q.cw ∧ q'.a0 = q.a0 ∧ q'.a1 = q.a1) ∧
    ∀ a : Addr, (∀ r, ∀ i < s.cfg.n, ∀ off < 16, a ≠ field s.cfg r i off) → byteAt t.mem a = byteAt s.mem a

/-- An INIT whose register block is no multiple of 4 is refused (R69: "a model refuses it"), and so is one where a premise
of R9 that INIT does not check is broken, by the parameters or by a live buffer over the register block (U15); both are
this model's stops, log entry 7, and how far the register block reaches is log entry 26. -/
def Obligations.InitRefused : Prop :=
  ∀ (s : State) (q : Port), s.mode = .uninit → s.ports[s.sel]? = some q →
    (q.a0.toNat % 4 ≠ 0 → exec .init s = .refused .misalignedRegsBase) ∧
    (q.a0.toNat % 4 = 0 → initAllowed s q.a0 = false → exec .init s = .refused .brokenPremise)

/-- The configuration checks (R208, R295), the size first: a failure sets `mode` and `fcause` and nothing else, at `N7`
and at `N10`. -/
def Obligations.InitChecks : Prop :=
  ∀ (s : State) (r : Ring) (next : InitPc), s.mode ≠ .fatal →
    (s.ini.pc = .n7 ∧ r = .tx ∧ next = .n8a) ∨ (s.ini.pc = .n10 ∧ r = .rx ∧ next = .n11a) →
    (16 * s.cfg.n % s.cfg.ringLenMult ≠ 0 →
      initTurn s = .next { s with mode := .fatal, fcause := .cfgRingSize }) ∧
    (16 * s.cfg.n % s.cfg.ringLenMult = 0 → (ringBase s.cfg r).toNat % s.cfg.descAlign ≠ 0 →
      initTurn s = .next { s with mode := .fatal, fcause := .cfgRingAlign }) ∧
    (16 * s.cfg.n % s.cfg.ringLenMult = 0 → (ringBase s.cfg r).toNat % s.cfg.descAlign = 0 →
      initTurn s = .next { s with ini := { s.ini with pc := next } })

/-- A failed allocation at `N9` halts with `NOBUF_INIT` (R209, R295): nothing is written, and the buffers of the slots
before stay in `rx_shadow`. -/
def Obligations.InitNoBuffer : Prop :=
  ∀ (s : State) (rest : List AllocAnswer), s.mode ≠ .fatal → s.ini.pc = .n9 → s.ini.k = 0 → s.allocs = none :: rest →
    initTurn s = .next { s with mode := .fatal, fcause := .nobufInit, allocs := rest,
                                trace := .bufAlloc none :: s.trace }

/-- The device's reset (R44, R203): `CTRL` is read, and the value read is written back with `CTRL_RST` set, whatever the
value is. After it the device neither sends nor receives and no interrupt of it is out: read from R217 (e) and R267 by
inference, log entry 15. -/
def Obligations.InitResetsDevice : Prop :=
  ∀ s : State, s.mode ≠ .fatal → s.ini.pc = .n3a →
    ∃ t u v, initTurn s = .next t ∧ initTurn t = .next u ∧ u.ini.pc = .n4 ∧
      u.trace = .regWrite .ctrl (regAddr s .ctrl) (v ||| s.cfg.ctrlRst) ::
        .regRead .ctrl (regAddr s .ctrl) v :: s.trace ∧
      u.dev.txOn = false ∧ u.dev.rxOn = false ∧ u.dev.irqOut = false

/-- The mask is written by INIT alone (R301): in `READY` and in `FATAL` no step changes `IMS`. -/
def Obligations.MaskOnlyByInit : Prop :=
  ∀ s t : State, Inv s → s.mode = .ready ∨ s.mode = .fatal → step s = .next t → t.dev.regs.ims = s.dev.regs.ims

/-! ### The two engines and the device -/

/-- The TX engine touches nothing of the RX side (R61, R162, R237). -/
def Obligations.TxLeavesRx : Prop :=
  ∀ (s t : State) (p : Nat), Inv s → txTurn s = .next t ∨ grantTx p s = .next t →
    t.rx = s.rx ∧ t.rxLock = s.rxLock ∧ t.rxShadow = s.rxShadow ∧ t.irqPend = s.irqPend ∧ t.mode = s.mode ∧
    t.dev.regs.rdt = s.dev.regs.rdt ∧ t.dev.regs.icr = s.dev.regs.icr ∧
    (s.mode = .ready → ∀ i < s.cfg.n, ∀ k < 16,
      byteAt t.mem (field s.cfg .rx i k) = byteAt s.mem (field s.cfg .rx i k))

/-- The RX engine touches nothing of the TX side (R61, R162, R237). -/
def Obligations.RxLeavesTx : Prop :=
  ∀ (s t : State) (src : Source), Inv s → rxTurn s = .next t ∨ grantRx src s = .next t →
    t.tx = s.tx ∧ t.txLock = s.txLock ∧ t.txShadow = s.txShadow ∧ t.dev.regs.tdt = s.dev.regs.tdt ∧
    (s.mode = .ready → ∀ i < s.cfg.n, ∀ k < 16,
      byteAt t.mem (field s.cfg .tx i k) = byteAt s.mem (field s.cfg .tx i k))

/-- Never touch a slot the device owns (R128, R130, R343): in `READY`, no step but a move of the device changes any byte
of a descriptor whose DD is clear. -/
def Obligations.BlockRespectsDevice : Prop :=
  ∀ (s t : State) (e : Event) (rest : List Event), Inv s → s.mode = .ready → s.script = e :: rest →
    deviceMove e = false → step s = .next t →
    ∀ r, ∀ i < s.cfg.n, deviceOwns s r i = true → ∀ k < 16,
      byteAt t.mem (field s.cfg r i k) = byteAt s.mem (field s.cfg r i k)

/-- What the device never does (R268): a move of the device leaves the block's internal state, the tails, and every byte
of a descriptor whose DD is set; so it never clears a DD bit. Beside memory and its own registers it changes only the
signals the dispatcher holds (log entry 30), and those only by a raise. -/
def Obligations.DeviceRespectsBlock : Prop :=
  ∀ (s t : State) (e : Event) (rest : List Event), paramsOk s.cfg = true → s.script = e :: rest →
    deviceMove e = true → step s = .next t →
    t = { s with script := rest, mem := t.mem, dev := t.dev, irqSignals := t.irqSignals } ∧
    (e ≠ .devRaise → t.irqSignals = s.irqSignals) ∧
    t.dev.regs = { s.dev.regs with tdh := t.dev.regs.tdh, rdh := t.dev.regs.rdh, icr := t.dev.regs.icr } ∧
    ∀ r, ∀ i < s.cfg.n, blockOwns s r i = true → blockOwns t r i = true ∧
      ∀ k < 16, byteAt t.mem (field s.cfg r i k) = byteAt s.mem (field s.cfg r i k)

/-- `BufFree` is called only at `X4`, on a handle taken from a TX slot whose DD this XMIT has read set (the latch `tx_s`
holds the byte `X3` read) and is still set: the slot stays the block's from that read on (R136 (d), R271). -/
def Obligations.FreesOnlySentBuffers : Prop :=
  ∀ (s t : State) (e : Event) (rest : List Event) (h : Handle), Inv s → s.script = e :: rest →
    e = .tx ∨ e = .rx ∨ e = .init ∨ (∃ p, e = .grantTx p) ∨ (∃ src, e = .grantRx src) →
    step s = .next t → t.trace = .bufFree h :: s.trace →
    e = .tx ∧ s.tx.pc = .x4 ∧ s.tx.i < s.cfg.n ∧ s.tx.s.getLsbD 0 = true ∧ blockOwns s .tx s.tx.i = true ∧
      h = txShadowAt s s.tx.i ∧ h ≠ 0

/-- `NetRx` is called only at `D4`, on the handle the drain holds, whose RX slot's DD this round has read set (the latch
`rx_s` holds the byte `D2` read) and is still set (R136 (e)). -/
def Obligations.DeliversOnlyFilledSlots : Prop :=
  ∀ (s t : State) (e : Event) (rest : List Event) (h : Handle), Inv s → s.script = e :: rest →
    e = .tx ∨ e = .rx ∨ e = .init ∨ (∃ p, e = .grantTx p) ∨ (∃ src, e = .grantRx src) →
    step s = .next t → t.trace = .netRx h :: s.trace →
    e = .rx ∧ s.rx.pc = .d4 ∧ s.rx.i < s.cfg.n ∧ s.rx.s.getLsbD 0 = true ∧ blockOwns s .rx s.rx.i = true ∧
      h = s.rx.b

/-- `DEV.TXDONE` (R262): the slot at the head, inside the window and the device's, gets a status byte with DD set and
bits 7:1 as drawn; the head moves on by one; nothing else of memory changes. -/
def Obligations.DeviceCompletesTx : Prop :=
  ∀ (s : State) (st : Byte) (cause : Word), s.dev.txOn = true → headOf s .tx ≠ tailOf s .tx →
    deviceOwns s .tx (headOf s .tx) = true →
    ∃ t, devTxDone none st cause s = t ∧
      (∃ b, byteAt t.mem (field s.cfg .tx (headOf s .tx) 12) = some b ∧ b.getLsbD 0 = true ∧
        ∀ j, 1 ≤ j → j < 8 → b.getLsbD j = st.getLsbD j) ∧
      t.dev.regs.tdh = BitVec.ofNat 32 ((headOf s .tx + 1) % s.cfg.n) ∧
      (∀ a, a ≠ field s.cfg .tx (headOf s .tx) 12 → byteAt t.mem a = byteAt s.mem a) ∧
      t = { s with mem := t.mem, dev := t.dev }

/-- `DEV.RXFILL n` (R264): the slot at the head gets `length = n`, a status byte with DD set, its buffer the frame; the
head moves on and the receive cause is added. That the cause is the bit `IMS_RXDW` of `ICR` is read by inference (log entry
27); a frame of 65536 bytes or more is left out (log entry 28). -/
def Obligations.DeviceFillsRx : Prop :=
  ∀ (s : State) (frame : List Byte) (st : Byte) (a : Addr), paramsOk s.cfg = true → s.dev.rxOn = true →
    headOf s .rx ≠ tailOf s .rx → deviceOwns s .rx (headOf s .rx) = true → bufferOf s (headOf s .rx) = some a →
    frame.length ≤ s.cfg.rxBufSize → frame.length < 65536 → storeOk s a frame.length = true →
    ∃ t, devRxFill none frame st s = .next t ∧
      readBytes t.mem (field s.cfg .rx (headOf s .rx) 8) 2 = some frame.length ∧
      blockOwns t .rx (headOf s .rx) = true ∧
      (∀ (k : Nat) (b : Byte), frame[k]? = some b → byteAt t.mem (a + BitVec.ofNat 64 k) = some b) ∧
      t.dev.regs.rdh = BitVec.ofNat 32 ((headOf s .rx + 1) % s.cfg.n) ∧
      t.dev.regs.icr = s.dev.regs.icr ||| s.cfg.imsRxdw ∧
      t = { s with mem := t.mem, dev := t.dev }

/-- The interrupt of the device (R265, R266): raised only for an unmasked cause and while none is out, with one signal to
the dispatcher (R275); the all-ones write of `ICR` at `I2` clears every cause and the output, and a cause that comes later
can raise again. That a cause and its mask are the same bit is read by inference (log entry 27). -/
def Obligations.DeviceRaises : Prop :=
  (∀ s : State, s.dev.rxOn = true → s.dev.irqOut = false → s.dev.regs.icr &&& s.dev.regs.ims ≠ 0 →
    devRaise s = { s with dev := { s.dev with irqOut := true }, irqSignals := s.irqSignals + 1 }) ∧
  (∀ s : State, s.dev.irqOut = true ∨ s.dev.regs.icr &&& s.dev.regs.ims = 0 → devRaise s = s) ∧
  ∀ (s : State) (c : Word), s.mode ≠ .fatal → s.rx.pc = .i2 →
    ∃ t, rxTurn s = .next t ∧ t.dev.regs.icr = 0 ∧ t.dev.irqOut = false ∧
      (s.dev.rxOn = true → c &&& s.dev.regs.ims ≠ 0 → (devRaise (addCause c t)).dev.irqOut = true)

/-- A completely filled TX ring looks empty to the in-order device (R347): with the head and the tail equal it completes
nothing, whatever it owns; the widened device (R278) can. -/
def Obligations.FullRingLooksEmpty : Prop :=
  (∀ (s : State) (st : Byte) (cause : Word), headOf s .tx = tailOf s .tx → devTxDone none st cause s = s) ∧
  ∀ (s : State) (i : Nat) (st : Byte) (cause : Word), s.cfg.device = .widened → s.dev.txOn = true → i < s.cfg.n →
    deviceOwns s .tx i = true → blockOwns (devTxDone (some i) st cause s) .tx i = true

/-! ### Memory -/

/-- R66. `MemWrite(addr, n, v)`, `n` in 1, 2, 8: byte `k` of `v` is stored at `addr + k`, bits above `8n - 1` are ignored,
and no other byte changes. -/
def Obligations.MemWriteLaw : Prop :=
  ∀ (s : State) (a : Addr) (n v : Nat), n = 1 ∨ n = 2 ∨ n = 8 →
    (∀ k < n, byteAt (memWrite a n v s).mem (a + BitVec.ofNat 64 k) = some (BitVec.ofNat 8 (v / 256 ^ k))) ∧
    (memWrite a n (v % 256 ^ n) s).mem = (memWrite a n v s).mem ∧
    (∀ x, (∀ k < n, x ≠ a + BitVec.ofNat 64 k) → byteAt (memWrite a n v s).mem x = byteAt s.mem x) ∧
    { memWrite a n v s with mem := s.mem, trace := s.trace } = s

/-- R63. `MemRead(addr, n)`, `n` in 1, 2, 8, of bytes that have been written: the value whose byte `k` is the byte at
`addr + k`; little-endian. -/
def Obligations.MemReadLaw : Prop :=
  ∀ (s : State) (a : Addr) (n : Nat) (next : Nat → State → Result), n = 1 ∨ n = 2 ∨ n = 8 →
    (∀ k < n, (byteAt s.mem (a + BitVec.ofNat 64 k)).isSome = true) →
    ∃ v, memRead a n s next = next v { s with trace := .memRead a n v :: s.trace } ∧ v < 256 ^ n ∧
      ∀ k < n, byteAt s.mem (a + BitVec.ofNat 64 k) = some (BitVec.ofNat 8 (v / 256 ^ k))

/-! ### Invariants -/

/-- The invariant of Safety.lean holds after reset, whatever the configuration, and so do the ownership of buffers and the
disjointness of their areas, in the starting state of the agents outside that log entry 25 chooses. -/
def Obligations.InvAtReset : Prop :=
  (∀ c : Config, Inv (State.resetWith c) ∧ Owned (State.resetWith c) ∧ AreasOk (State.resetWith c)) ∧ Inv State.reset

/-- Every step keeps the invariant: memory and the ghost tables keep their canonical form, mode, positions and locks
agree, a running engine's slot stays the block's, and in `READY` both rings are written and both tails are indices
(R31, R32, R128, R136 (a), R234 to R237). -/
def Obligations.InvKept : Prop :=
  ∀ s t : State, Inv s → step s = .next t → Inv t

/-- From a state of the machine no step faults: the block never reads a byte that has not been written, and it stops only
where the environment breaks a premise (R9, R69, R270); these stops are log entries 7 and 13. -/
def Obligations.NeverFaults : Prop :=
  ∀ s : State, Inv s →
    (∃ t, step s = .next t) ∨ step s = .refused .misalignedRegsBase ∨ step s = .refused .brokenPremise ∨
      step s = .refused .regionsOverlap ∨ step s = .refused .badAllocation

/-- Every step keeps the ownership of buffers (R53, R136 (c)), where the requester owns the buffer it submits
(R276 (b)). -/
def Obligations.OwnedKept : Prop :=
  ∀ s t : State, Inv s → Owned s → RequesterDuty s → step s = .next t → Owned t

/-- So no buffer is in two places (R136 (b)): no handle is in two shadow entries, nor twice in one table. -/
def Obligations.NoBufferShared : Prop :=
  ∀ s : State, Owned s → NoSharedBuffer s

/-- A command of one port leaves the registers of every other port (R22), and no step writes the configuration (R14). -/
def Obligations.PortsApart : Prop :=
  (∀ (s t : State) (p : Nat) (cw : Word) (a0 a1 : BitVec 64) (rest : List Event), s.script = .call p cw a0 a1 :: rest →
    step s = .next t → ∀ j, j ≠ p → t.ports[j]? = s.ports[j]?) ∧
  ∀ s t : State, step s = .next t → t.cfg = s.cfg

/-- Every step keeps the data areas of the live buffers disjoint from each other, from both rings and from the register
block (R9, R270), and keeps them the areas of just the buffers out of the pool, where the requester owns the buffer it
submits (R276 (b)). What is checked where, and how far the register block reaches, are log entries 13 and 26. -/
def Obligations.AreasKept : Prop :=
  ∀ s t : State, Inv s → Owned s → AreasOk s → RequesterDuty s → step s = .next t → AreasOk t

/-- What fairness gives (R236, R182, R265, R275). In a run under a weakly fair schedule a free lock with a waiter is taken in
the end, by some waiter, unless the block is reset or halts; if every drain ends, so is `rx_lock` where a command of a
`READY` block waits for it while it is held; a device that is fair raises in the end for a cause that may be raised, with
one signal to the dispatcher, unless something else puts an end to that first; and a dispatcher that is fair turns a
signal it holds into an `irq` event in the end. That a command line accepted while its lock is free counts as taking it
is log entry 22. -/
def Obligations.FairGrants : Prop :=
  ∀ (run : Nat → State) (sched : Nat → Event), Follows run sched → (∀ m, Inv (run m) ∧ Owned (run m)) → ∀ n,
    (WeaklyFair run sched →
      (TxWaiting (run n) → ∃ m, n ≤ m ∧ (TxTaken (run m) (sched m) ∨ sched m = .reset ∨ (run m).mode = .fatal)) ∧
      (RxWaiting (run n) → ∃ m, n ≤ m ∧ (RxTaken (run m) (sched m) ∨ sched m = .reset ∨ (run m).mode = .fatal)) ∧
      (DrainsEnd run → (run n).mode = .ready →
        (∃ p h a, waitingAt (run n) p = some ⟨.drain, h, a⟩ ∨ waitingAt (run n) p = some ⟨.intr, h, a⟩) →
        ∃ m, n ≤ m ∧ (RxTaken (run m) (sched m) ∨ sched m = .reset ∨ (run m).mode = .fatal))) ∧
    (DeviceFair run sched → CanRaise (run n) → ∃ m, n ≤ m ∧ CanRaise (run m) ∧
      (sched m = .devRaise ∧ (run (m + 1)).irqSignals = (run m).irqSignals + 1 ∨
        sched m ≠ .devRaise ∧ ¬CanRaise (run (m + 1)))) ∧
    (DispatcherFair run sched → 0 < (run n).irqSignals → ∃ m, n ≤ m ∧ sched m = .irq ∧ 0 < (run m).irqSignals)
end

