-- ==== Sys2Proof/Laws/Keeps.lean ====
section
/-! SUPPORT. One induction for all: a property kept by every micro-step and by every move of the environment is kept by every step of the machine. -/

namespace Sys2Proof.Machine

/-! ### Sequences -/

@[simp] theorem andThen_next (s : State) (f : State → Result) : andThen (.next s) f = f s := rfl
@[simp] theorem andThen_fault (e : Fault) (f : State → Result) : andThen (.fault e) f = .fault e := rfl
@[simp] theorem andThen_refused (e : Refusal) (f : State → Result) : andThen (.refused e) f = .refused e := rfl

/-- A sequence answers a next state exactly when both parts do. -/
theorem andThen_eq_next {r : Result} {f : State → Result} {t : State} :
    andThen r f = .next t ↔ ∃ s, r = .next s ∧ f s = .next t := by
  cases r <;> simp

/-! ### Properties kept -/

/-- A move keeps a property: from a state that has it, a next state has it. -/
def Keeps (P : State → Prop) (f : State → Result) : Prop := ∀ s t, P s → f s = .next t → P t

/-- A change of the state keeps a property. -/
def KeepsFn (P : State → Prop) (f : State → State) : Prop := ∀ s, P s → P (f s)

theorem Keeps.of_fn {P : State → Prop} {f : State → State} (h : KeepsFn P f) : Keeps P (fun s => .next (f s)) := by
  intro s t hs he
  cases he
  exact h s hs

theorem Keeps.andThen {P : State → Prop} {f g : State → Result} (hf : Keeps P f) (hg : Keeps P g) :
    Keeps P (fun s => andThen (f s) g) := by
  intro s t hs he
  obtain ⟨u, hu, ht⟩ := andThen_eq_next.mp he
  exact hg u t (hf s u hs hu) ht

theorem Keeps.next {P : State → Prop} : Keeps P (fun s => .next s) := by
  intro s t hs he
  cases he
  exact hs

/-! ### Runs of one engine -/

theorem Keeps.runTx {P : State → Prop} (h : Keeps P txTurn) : ∀ k, Keeps P (runTx k)
  | 0 => Keeps.next
  | k + 1 => by
    intro s t hs he
    rw [Machine.runTx] at he
    split at he
    · cases he; exact hs
    · exact Keeps.andThen h (Keeps.runTx h k) s t hs he

theorem Keeps.runRx {P : State → Prop} (h : Keeps P rxTurn) : ∀ k, Keeps P (runRx k)
  | 0 => Keeps.next
  | k + 1 => by
    intro s t hs he
    rw [Machine.runRx] at he
    split at he
    · cases he; exact hs
    · exact Keeps.andThen h (Keeps.runRx h k) s t hs he

theorem Keeps.runInit {P : State → Prop} (h : Keeps P initTurn) : ∀ k, Keeps P (runInit k)
  | 0 => Keeps.next
  | k + 1 => by
    intro s t hs he
    rw [Machine.runInit] at he
    split at he
    · cases he; exact hs
    · exact Keeps.andThen h (Keeps.runInit h k) s t hs he

/-! ### Commands as acceptance and a run -/

theorem Keeps.serveTx {P : State → Prop} (hg : ∀ p, Keeps P (grantTx p)) (h : Keeps P txTurn) (p : Nat) :
    Keeps P (serveTx p) := by
  intro s t hs he
  rw [Machine.serveTx] at he
  split at he
  · exact Keeps.andThen (hg p) (Keeps.runTx h _) s t hs he
  · cases he; exact hs

theorem Keeps.serveRx {P : State → Prop} (hg : ∀ src, Keeps P (grantRx src)) (h : Keeps P rxTurn) (src : Source) :
    Keeps P (serveRx src) := by
  intro s t hs he
  rw [Machine.serveRx] at he
  split at he
  · exact Keeps.andThen (hg src) (Keeps.runRx h _) s t hs he
  · cases he; exact hs

theorem Keeps.serveInit {P : State → Prop} (h : Keeps P initTurn) (b : Bool) : Keeps P (serveInit b) := by
  intro s t hs he
  rw [Machine.serveInit] at he
  split at he
  · exact Keeps.runInit h _ s t hs he
  · cases he; exact hs

/-- What a command line does after its `Issue(p)`: the run of its own command. -/
def Served (p : Nat) (i : Instr) (u t : State) : Prop :=
  match i with
  | .init => ∃ b, Machine.serveInit b u = .next t
  | .xmit _ => Machine.serveTx p u = .next t
  | .intr => Machine.serveRx (.port p) u = .next t
  | .drain => Machine.serveRx (.port p) u = .next t

/-- A command line is `Issue(p)` and then, where the word is a command, the run of that command. -/
theorem callEvent_eq {p : Nat} {cw : Word} {a0 a1 : BitVec 64} {s t : State}
    (h : callEvent p cw a0 a1 s = .next t) :
    issueEvent p cw a0 a1 s = .next t ∨
      ∃ i u, canIssue s p = true ∧ decode cw = .command i ∧ issueEvent p cw a0 a1 s = .next u ∧ Served p i u t := by
  by_cases hc : canIssue s p = true
  · rw [callEvent, if_pos hc] at h
    rw [issueEvent, if_pos hc]
    cases hf : fetch (present p cw a0 a1 s) with
    | none => rw [hf] at h; left; exact h
    | some d =>
      rw [hf] at h
      cases d with
      | illegal why => left; exact h
      | command i =>
        have hd : decode cw = .command i := by
          unfold fetch at hf
          split at hf
          · rename_i q hq
            have hcw : q.cw = cw := by
              simp only [present, writePort, updatePort, List.getElem?_modify, if_true, Option.map_eq_map,
                Option.map_eq_some_iff] at hq
              obtain ⟨q', _, rfl⟩ := hq
              rfl
            rw [hcw] at hf
            exact Option.some.inj hf
          · cases hf
        right
        cases i with
        | init =>
          obtain ⟨u, hu, ht⟩ := andThen_eq_next.mp h
          exact ⟨.init, u, hc, hd, hu, _, ht⟩
        | xmit len =>
          obtain ⟨u, hu, ht⟩ := andThen_eq_next.mp h
          exact ⟨.xmit len, u, hc, hd, hu, ht⟩
        | intr =>
          obtain ⟨u, hu, ht⟩ := andThen_eq_next.mp h
          exact ⟨.intr, u, hc, hd, hu, ht⟩
        | drain =>
          obtain ⟨u, hu, ht⟩ := andThen_eq_next.mp h
          exact ⟨.drain, u, hc, hd, hu, ht⟩
  · rw [callEvent, if_neg hc] at h
    rw [issueEvent, if_neg hc]
    exact .inl h

/-! ### Every step -/

/-- What a property must survive to be kept by every step but a block reset. -/
structure StableMoves (P : State → Prop) : Prop where
  script  : ∀ s l, P s → P { s with script := l }
  grantTx : ∀ p, Keeps P (grantTx p)
  grantRx : ∀ src, Keeps P (grantRx src)
  tx      : Keeps P txTurn
  rx      : Keeps P rxTurn
  init    : Keeps P initTurn
  irq     : KeepsFn P (fun s => latchIrq (deliverSignal s))
  alloc   : ∀ ans, KeepsFn P (queueAnswer ans)
  txDone  : ∀ at_ st cause, KeepsFn P (devTxDone at_ st cause)
  rxFill  : ∀ at_ frame st, Keeps P (devRxFill at_ frame st)
  devByte : ∀ r at_ off b, KeepsFn P (devByte r at_ off b)
  rxData  : ∀ at_ k b, Keeps P (devRxData at_ k b)
  raise   : KeepsFn P devRaise
  own     : ∀ h o a, KeepsFn P (moveBuffer h o a)

/-- What a property must survive to be kept by every step. -/
structure Stable (P : State → Prop) : Prop extends StableMoves P where
  reset   : KeepsFn P blockReset

/-- A property kept by every move is kept by a step whose `Issue` or block reset, if it is one, keeps it. -/
theorem StableMoves.step_of_issue {P : State → Prop} (h : StableMoves P) {s t : State} (hs : P s)
    (hi : ∀ p cw a0 a1 rest, s.script = .issue p cw a0 a1 :: rest ∨ s.script = .call p cw a0 a1 :: rest →
      ∀ u, issueEvent p cw a0 a1 { s with script := rest } = .next u → P u)
    (hr : ∀ rest, s.script = .reset :: rest → P (blockReset { s with script := rest }))
    (he : step s = .next t) : P t := by
  unfold step at he
  split at he
  · cases he; exact hs
  · rename_i p cw a0 a1 rest heq
    rcases callEvent_eq he with h1 | ⟨i, u, _, _, hu, ht⟩
    · exact hi _ _ _ _ rest (.inr heq) _ h1
    · have hu' := hi _ _ _ _ rest (.inr heq) _ hu
      cases i with
      | init => obtain ⟨b, ht⟩ := ht; exact Keeps.serveInit h.init b u t hu' ht
      | xmit len => exact Keeps.serveTx h.grantTx h.tx p u t hu' ht
      | intr => exact Keeps.serveRx h.grantRx h.rx (.port p) u t hu' ht
      | drain => exact Keeps.serveRx h.grantRx h.rx (.port p) u t hu' ht
  · rename_i e rest hne heq
    have hs' := h.script s rest hs
    cases e with
    | issue p cw a0 a1 => exact hi _ _ _ _ rest (.inl heq) _ he
    | call p cw a0 a1 => exact absurd rfl (hne p cw a0 a1)
    | grantTx p => exact h.grantTx p _ _ hs' he
    | grantRx src => exact h.grantRx src _ _ hs' he
    | tx => exact h.tx _ _ hs' he
    | rx => exact h.rx _ _ hs' he
    | init => exact h.init _ _ hs' he
    | irq => cases he; exact h.irq _ hs'
    | serveIrq => exact Keeps.serveRx h.grantRx h.rx .irq _ _ hs' he
    | alloc ans => cases he; exact h.alloc ans _ hs'
    | devTxDone at_ st cause => cases he; exact h.txDone at_ st cause _ hs'
    | devRxFill at_ frame st => exact h.rxFill at_ frame st _ _ hs' he
    | devByte r at_ off b => cases he; exact h.devByte r at_ off b _ hs'
    | devRxData at_ k b => exact h.rxData at_ k b _ _ hs' he
    | devRaise => cases he; exact h.raise _ hs'
    | own hd o a => cases he; exact h.own hd o a _ hs'
    | reset => cases he; exact hr rest heq

/-- A stable property is kept by a step whose `Issue`, if it is one, keeps it. -/
theorem Stable.step_of_issue {P : State → Prop} (h : Stable P) {s t : State} (hs : P s)
    (hi : ∀ p cw a0 a1 rest, s.script = .issue p cw a0 a1 :: rest ∨ s.script = .call p cw a0 a1 :: rest →
      ∀ u, issueEvent p cw a0 a1 { s with script := rest } = .next u → P u)
    (he : Machine.step s = .next t) : P t :=
  h.toStableMoves.step_of_issue hs hi (fun rest _ => h.reset _ (h.script s rest hs)) he

/-- A stable property that `Issue` keeps is kept by every step. -/
theorem Stable.step {P : State → Prop} (h : Stable P) (hi : ∀ p cw a0 a1, Keeps P (issueEvent p cw a0 a1))
    {s t : State} (hs : P s) (he : Machine.step s = .next t) : P t :=
  h.step_of_issue hs (fun p cw a0 a1 rest _ u hu => hi p cw a0 a1 _ u (h.script s rest hs) hu) he

end Sys2Proof.Machine
end

