-- ==== Sys2Proof/Laws/Layout.lean ====
section
/-! SUPPORT. Where the descriptors lie: the fields of two different slots, or of the two rings, never share a byte (00_scope.md R9, 40_ring_and_ownership.md R121). -/

namespace Sys2Proof.Machine

theorem paramsOk_slots {c : Config} (h : paramsOk c = true) :
    2 ≤ c.n ∧ 2 ^ Nat.log2 c.n = c.n ∧ 16 * c.n < 2 ^ 32 := by
  simp only [paramsOk, slotsOk, Bool.and_eq_true, decide_eq_true_eq] at h
  obtain ⟨⟨⟨⟨⟨h1, h2⟩, h3⟩, _⟩, _⟩, _⟩ := h
  simp only [ringBytes, descSize] at h3
  exact ⟨h1, h2, by omega⟩

theorem paramsOk_fit {c : Config} (h : paramsOk c = true) (r : Ring) :
    (ringBase c r).toNat + 16 * c.n ≤ 2 ^ 64 := by
  simp only [paramsOk, ringsFit, Bool.and_eq_true, decide_eq_true_eq] at h
  obtain ⟨⟨⟨_, h1, h2⟩, _⟩, _⟩ := h
  simp only [ringBytes, descSize] at h1 h2
  cases r
  · show c.txRingBase.toNat + 16 * c.n ≤ 2 ^ 64; omega
  · show c.rxRingBase.toNat + 16 * c.n ≤ 2 ^ 64; omega

theorem paramsOk_apart {c : Config} (h : paramsOk c = true) :
    c.txRingBase.toNat + 16 * c.n ≤ c.rxRingBase.toNat ∨ c.rxRingBase.toNat + 16 * c.n ≤ c.txRingBase.toNat := by
  simp only [paramsOk, ringsApart, apart, Bool.and_eq_true, Bool.or_eq_true, decide_eq_true_eq] at h
  simp only [ringBytes, descSize] at h
  omega

/-- The address of byte `k` of descriptor `i`, as a number: nothing wraps. -/
theorem field_toNat {c : Config} (h : paramsOk c = true) (r : Ring) {i k : Nat} (hi : i < c.n) (hk : k < 16) :
    (field c r i k).toNat = (ringBase c r).toNat + 16 * i + k := by
  have hf := paramsOk_fit h r
  have hs := (paramsOk_slots h).2.2
  simp only [field, desc, descSize, BitVec.toNat_add, BitVec.toNat_ofNat]
  omega

/-- Different bytes of the descriptors have different addresses. -/
theorem field_inj {c : Config} (h : paramsOk c = true) {r r' : Ring} {i i' k k' : Nat} (hi : i < c.n) (hi' : i' < c.n)
    (hk : k < 16) (hk' : k' < 16) (he : field c r i k = field c r' i' k') : r = r' ∧ i = i' ∧ k = k' := by
  have h1 := field_toNat h r hi hk
  have h2 := field_toNat h r' hi' hk'
  have ha := paramsOk_apart h
  rw [he, h2] at h1
  cases r <;> cases r' <;> simp only [ringBase] at h1 <;> (try exact ⟨rfl, by omega, by omega⟩) <;> omega

/-- The bytes that follow a field's address inside its descriptor. -/
theorem field_add (c : Config) (r : Ring) (i off k : Nat) :
    field c r i off + BitVec.ofNat 64 k = field c r i (off + k) := by
  simp only [field, BitVec.add_assoc, BitVec.ofNat_add]

/-- A number reduced modulo the ring's size is an index. -/
theorem mod_lt_n {c : Config} (h : paramsOk c = true) (x : Nat) : x % c.n < c.n :=
  Nat.mod_lt _ (by have := (paramsOk_slots h).1; omega)

/-- An index fits its register (R104). -/
theorem indexWord_toNat {c : Config} (h : paramsOk c = true) {i : Nat} (hi : i < c.n) : (indexWord i).toNat = i := by
  have := (paramsOk_slots h).2.2
  simp only [indexWord, BitVec.toNat_ofNat]
  omega

end Sys2Proof.Machine
end

