-- ==== Sys2Proof/Laws/Tables.lean ====
section
/-! SUPPORT. The laws of the tables keyed by a number: what `lookup` finds after `store` and `drop`, and that both keep the canonical form. -/

namespace Sys2Proof.Machine

variable {α : Type}

@[simp] theorem lookup_store_same (k : Nat) (v : α) (t : List (Nat × α)) : lookup k (store k v t) = some v := by
  induction t with
  | nil => simp [store, lookup]
  | cons e rest ih =>
    obtain ⟨j, w⟩ := e
    by_cases h1 : k < j
    · simp [store, lookup, h1]
    · by_cases h2 : k = j
      · simp [store, lookup, h2]
      · simp [store, lookup, h1, h2, ih]

/-- A key has an entry exactly when it is listed. -/
theorem lookup_isSome_iff (k : Nat) (t : List (Nat × α)) : (lookup k t).isSome = true ↔ k ∈ t.map Prod.fst := by
  induction t with
  | nil => simp [lookup]
  | cons e rest ih =>
    obtain ⟨j, w⟩ := e
    by_cases h : k = j <;> simp [lookup, h, ih]

theorem mem_of_lookup {k : Nat} {v : α} {t : List (Nat × α)} (h : lookup k t = some v) : (k, v) ∈ t := by
  induction t with
  | nil => cases h
  | cons e rest ih =>
    obtain ⟨j, w⟩ := e
    by_cases hk : k = j
    · subst hk
      simp only [lookup, if_true, Option.some.injEq] at h
      simp [h]
    · simp only [lookup, if_neg hk] at h
      exact List.mem_cons_of_mem _ (ih h)

theorem lookup_store_ne {k j : Nat} (h : j ≠ k) (v : α) (t : List (Nat × α)) :
    lookup j (store k v t) = lookup j t := by
  induction t with
  | nil => simp [store, lookup, h]
  | cons e rest ih =>
    obtain ⟨i, w⟩ := e
    by_cases h1 : k < i
    · simp [store, lookup, h1, h]
    · by_cases h2 : k = i
      · subst h2; simp [store, lookup, h]
      · simp [store, lookup, h1, h2, ih]

theorem lookup_store (j k : Nat) (v : α) (t : List (Nat × α)) :
    lookup j (store k v t) = if j = k then some v else lookup j t := by
  by_cases h : j = k
  · subst h; simp
  · simp [lookup_store_ne h, h]

@[simp] theorem lookup_drop_same (k : Nat) (t : List (Nat × α)) : lookup k (drop k t) = none := by
  induction t with
  | nil => rfl
  | cons e rest ih =>
    obtain ⟨j, w⟩ := e
    by_cases h : k = j <;> simp [drop, lookup, h, ih]
    simpa [h] using ih

theorem lookup_drop_ne {k j : Nat} (h : j ≠ k) (t : List (Nat × α)) : lookup j (drop k t) = lookup j t := by
  induction t with
  | nil => rfl
  | cons e rest ih =>
    obtain ⟨i, w⟩ := e
    by_cases h2 : k = i
    · subst h2; simp [drop, lookup, h, ih]
    · simp [drop, lookup, h2, ih]

theorem lookup_drop (j k : Nat) (t : List (Nat × α)) :
    lookup j (drop k t) = if j = k then none else lookup j t := by
  by_cases h : j = k
  · subst h; simp
  · simp [lookup_drop_ne h, h]

/-- Every key of the table after `store` is the stored one or an old one. -/
theorem mem_store {k : Nat} {v : α} {t : List (Nat × α)} {e : Nat × α} (h : e ∈ store k v t) :
    e = (k, v) ∨ e ∈ t := by
  induction t with
  | nil => simpa [store] using h
  | cons x rest ih =>
    obtain ⟨j, w⟩ := x
    by_cases h1 : k < j
    · simpa [store, h1] using h
    · by_cases h2 : k = j
      · simp only [store, h2, if_true, if_false, lt_self_iff_false, List.mem_cons] at h
        rcases h with h | h
        · left; rw [h2]; exact h
        · right; exact List.mem_cons_of_mem _ h
      · simp only [store, h1, h2, if_false, List.mem_cons] at h
        rcases h with h | h
        · right; rw [h]; exact List.mem_cons_self
        · rcases ih h with h | h
          · exact .inl h
          · exact .inr (List.mem_cons_of_mem _ h)

theorem mem_drop {k : Nat} {t : List (Nat × α)} {e : Nat × α} (h : e ∈ drop k t) : e ∈ t := by
  induction t with
  | nil => exact h
  | cons x rest ih =>
    obtain ⟨j, w⟩ := x
    by_cases h1 : k = j
    · exact List.mem_cons_of_mem _ (ih (by simpa [drop, h1] using h))
    · simp only [drop, h1, if_false, List.mem_cons] at h
      rcases h with h | h
      · rw [h]; exact List.mem_cons_self
      · exact List.mem_cons_of_mem _ (ih h)

/-- `store` keeps the keys strictly rising. -/
theorem rising_store (k : Nat) (v : α) {t : List (Nat × α)} (h : Rising t) : Rising (store k v t) := by
  induction t with
  | nil => simp [store]
  | cons e rest ih =>
    obtain ⟨j, w⟩ := e
    obtain ⟨hj, hr⟩ := List.pairwise_cons.mp h
    by_cases h1 : k < j
    · simp only [store, h1, if_true]
      refine List.pairwise_cons.mpr ⟨fun y hy => ?_, h⟩
      rcases List.mem_cons.mp hy with rfl | hy
      · exact h1
      · exact lt_trans h1 (hj y hy)
    · by_cases h2 : k = j
      · subst h2
        simpa [store] using (List.pairwise_cons.mpr ⟨hj, hr⟩ : Rising ((k, v) :: rest))
      · simp only [store, h1, h2, if_false]
        refine List.pairwise_cons.mpr ⟨fun y hy => ?_, ih hr⟩
        rcases mem_store hy with rfl | hy
        · show j < k; omega
        · exact hj y hy

/-- A relation between the values survives `store` of a value that stands in it to every other, both ways. -/
theorem pairwise_store {R : α → α → Prop} (k : Nat) (v : α) {t : List (Nat × α)}
    (h : t.Pairwise (fun x y => R x.2 y.2)) (hl : ∀ e ∈ t, R v e.2) (hr : ∀ e ∈ t, R e.2 v) :
    (store k v t).Pairwise (fun x y => R x.2 y.2) := by
  induction t with
  | nil => simp [store]
  | cons e rest ih =>
    obtain ⟨j, w⟩ := e
    obtain ⟨hj, hp⟩ := List.pairwise_cons.mp h
    have hl' : ∀ e ∈ rest, R v e.2 := fun e he => hl e (List.mem_cons_of_mem _ he)
    have hr' : ∀ e ∈ rest, R e.2 v := fun e he => hr e (List.mem_cons_of_mem _ he)
    unfold store
    split
    · exact List.pairwise_cons.mpr ⟨hl, h⟩
    · split
      · exact List.pairwise_cons.mpr ⟨hl', hp⟩
      · refine List.pairwise_cons.mpr ⟨fun y hy => ?_, ih hp hl' hr'⟩
        rcases mem_store hy with rfl | hy
        · exact hr _ List.mem_cons_self
        · exact hj y hy

/-- A relation between the values survives `drop`. -/
theorem pairwise_drop {R : Nat × α → Nat × α → Prop} (k : Nat) {t : List (Nat × α)} (h : t.Pairwise R) :
    (drop k t).Pairwise R := by
  induction t with
  | nil => exact h
  | cons e rest ih =>
    obtain ⟨j, w⟩ := e
    obtain ⟨hj, hp⟩ := List.pairwise_cons.mp h
    unfold drop
    split
    · exact ih hp
    · exact List.pairwise_cons.mpr ⟨fun y hy => hj y (mem_drop hy), ih hp⟩

/-- `drop` keeps the keys strictly rising. -/
theorem rising_drop (k : Nat) {t : List (Nat × α)} (h : Rising t) : Rising (drop k t) := pairwise_drop k h

end Sys2Proof.Machine
end

