-- ==== Sys2Proof/Laws/Memory.lean ====
section
/-! SUPPORT. The laws of bus memory: a read after a write, every other byte left alone, and the canonical form kept (20_memory.md R63, R66). -/

namespace Sys2Proof.Machine

/-- The next address, and from there. -/
theorem addr_succ (a : Addr) (k : Nat) : a + BitVec.ofNat 64 (k + 1) = a + 1#64 + BitVec.ofNat 64 k := by
  rw [BitVec.ofNat_add, BitVec.add_comm (BitVec.ofNat 64 k), BitVec.add_assoc]

/-- One byte stored: that address holds it, every other is as before. -/
theorem byteAt_store (m : Memory) (a x : Addr) (b : Byte) :
    byteAt (store a.toNat b m) x = if x = a then some b else byteAt m x := by
  simp only [byteAt, lookup_store, BitVec.toNat_inj]

/-- A write leaves every byte outside its range alone (R66: "it changes no other byte"). -/
theorem byteAt_writeBytes_outside (n : Nat) : ∀ (m : Memory) (a x : Addr) (v : Nat),
    (∀ k < n, x ≠ a + BitVec.ofNat 64 k) → byteAt (writeBytes m a n v) x = byteAt m x := by
  induction n with
  | zero => intro m a x v _; rfl
  | succ n ih =>
    intro m a x v h
    have h0 : x ≠ a := by simpa using h 0 (by omega)
    rw [writeBytes, ih, byteAt_store, if_neg h0]
    intro k hk he
    apply h (k + 1) (by omega)
    rw [he, addr_succ a k]

/-- A write puts byte `k` of the value at the address plus `k` (R66), for a range that does not wrap onto itself. -/
theorem byteAt_writeBytes_inside (n : Nat) : ∀ (m : Memory) (a : Addr) (v k : Nat), n ≤ 2 ^ 64 → k < n →
    byteAt (writeBytes m a n v) (a + BitVec.ofNat 64 k) = some (BitVec.ofNat 8 (v / 256 ^ k)) := by
  induction n with
  | zero => intro m a v k _ h; omega
  | succ n ih =>
    intro m a v k hn hk
    rcases k with _ | k
    · rw [writeBytes, byteAt_writeBytes_outside]
      · simp [byteAt_store]
      · intro j hj he
        have h1 : (a + 0#64).toNat = (a + 1#64 + BitVec.ofNat 64 j).toNat := congrArg _ he
        simp only [BitVec.toNat_add, BitVec.toNat_ofNat] at h1
        have ha := a.isLt
        omega
    · rw [writeBytes, addr_succ a k, ih _ _ _ _ (by omega) (by omega), Nat.div_div_eq_div_mul, pow_succ, Nat.mul_comm]

/-- A byte that has been written stays written. -/
theorem byteAt_writeBytes_isSome (n : Nat) : ∀ (m : Memory) (a x : Addr) (v : Nat),
    (byteAt m x).isSome → (byteAt (writeBytes m a n v) x).isSome := by
  induction n with
  | zero => intro m a x v h; exact h
  | succ n ih =>
    intro m a x v h
    rw [writeBytes]
    apply ih
    rw [byteAt_store]
    split
    · rfl
    · exact h

/-- Reads see only the bytes of their range. -/
theorem readBytes_congr (n : Nat) : ∀ (m m' : Memory) (a : Addr),
    (∀ k < n, byteAt m (a + BitVec.ofNat 64 k) = byteAt m' (a + BitVec.ofNat 64 k)) →
    readBytes m a n = readBytes m' a n := by
  induction n with
  | zero => intro m m' a _; rfl
  | succ n ih =>
    intro m m' a h
    have h0 : byteAt m a = byteAt m' a := by simpa using h 0 (by omega)
    have h1 : readBytes m (a + 1#64) n = readBytes m' (a + 1#64) n := by
      apply ih
      intro k hk
      have := h (k + 1) (by omega)
      rwa [addr_succ a k] at this
    simp only [readBytes, h0, h1]

/-- A read of written bytes answers. -/
theorem readBytes_isSome (n : Nat) : ∀ (m : Memory) (a : Addr),
    (∀ k < n, (byteAt m (a + BitVec.ofNat 64 k)).isSome) → (readBytes m a n).isSome := by
  induction n with
  | zero => intro m a _; rfl
  | succ n ih =>
    intro m a h
    have h0 : (byteAt m a).isSome := by simpa using h 0 (by omega)
    have h1 : (readBytes m (a + 1#64) n).isSome := by
      apply ih
      intro k hk
      have := h (k + 1) (by omega)
      rwa [addr_succ a k] at this
    obtain ⟨b, hb⟩ := Option.isSome_iff_exists.mp h0
    obtain ⟨v, hv⟩ := Option.isSome_iff_exists.mp h1
    simp only [readBytes, hb, hv, Option.isSome_some]

/-- A one-byte read. -/
theorem readBytes_one (m : Memory) (a : Addr) : readBytes m a 1 = (byteAt m a).map BitVec.toNat := by
  simp only [readBytes]
  cases byteAt m a <;> simp

/-- A read after a write of the same range gives the value written, cut to the range (R63, R66). -/
theorem readBytes_writeBytes_same (n : Nat) : ∀ (m : Memory) (a : Addr) (v : Nat), n ≤ 2 ^ 64 →
    readBytes (writeBytes m a n v) a n = some (v % 256 ^ n) := by
  intro m a v hn
  suffices h : ∀ (j : Nat) (m' : Memory) (a' : Addr) (v' : Nat),
      (∀ k < j, byteAt m' (a' + BitVec.ofNat 64 k) = some (BitVec.ofNat 8 (v' / 256 ^ k))) →
      readBytes m' a' j = some (v' % 256 ^ j) by
    exact h n _ a v (fun k hk => byteAt_writeBytes_inside n m a v k hn hk)
  intro j
  induction j with
  | zero => intro m' a' v' _; simp [readBytes, Nat.mod_one]
  | succ j ih =>
    intro m' a' v' h
    have h0 : byteAt m' a' = some (BitVec.ofNat 8 v') := by simpa using h 0 (by omega)
    have h1 : readBytes m' (a' + 1#64) j = some (v' / 256 % 256 ^ j) := by
      apply ih
      intro k hk
      have := h (k + 1) (by omega)
      rw [addr_succ a' k] at this
      rw [this, Nat.div_div_eq_div_mul, pow_succ, Nat.mul_comm]
    simp only [readBytes, h0, h1, BitVec.toNat_ofNat, Option.some.injEq, show (2 : Nat) ^ 8 = 256 from rfl]
    rw [Nat.pow_succ, Nat.mul_comm (256 ^ j) 256, Nat.mod_mul]

/-- The canonical form is kept by every write. -/
theorem wf_writeBytes (n : Nat) : ∀ (m : Memory) (a : Addr) (v : Nat), Memory.wf m → Memory.wf (writeBytes m a n v) := by
  induction n with
  | zero => intro m a v h; exact h
  | succ n ih =>
    intro m a v h
    rw [writeBytes]
    apply ih
    refine ⟨rising_store _ _ h.1, fun c hc => ?_⟩
    rcases mem_store hc with rfl | hc
    · exact a.isLt
    · exact h.2 c hc

end Sys2Proof.Machine
end

