-- ==== Sys2Proof/Laws/State.lean ====
section
/-! SUPPORT. One lemma per field per update: what each named operation leaves in each field of the state, so that no later proof unfolds a record update. -/

namespace Sys2Proof.Machine

/-! ### `note` -/

@[simp] theorem note_cfg (e : Act) (s : State) : (note e s).cfg = s.cfg := rfl
@[simp] theorem note_ports (e : Act) (s : State) : (note e s).ports = s.ports := rfl
@[simp] theorem note_sel (e : Act) (s : State) : (note e s).sel = s.sel := rfl
@[simp] theorem note_tx (e : Act) (s : State) : (note e s).tx = s.tx := rfl
@[simp] theorem note_rx (e : Act) (s : State) : (note e s).rx = s.rx := rfl
@[simp] theorem note_ini (e : Act) (s : State) : (note e s).ini = s.ini := rfl
@[simp] theorem note_mode (e : Act) (s : State) : (note e s).mode = s.mode := rfl
@[simp] theorem note_fcause (e : Act) (s : State) : (note e s).fcause = s.fcause := rfl
@[simp] theorem note_regsBase (e : Act) (s : State) : (note e s).regsBase = s.regsBase := rfl
@[simp] theorem note_txLock (e : Act) (s : State) : (note e s).txLock = s.txLock := rfl
@[simp] theorem note_rxLock (e : Act) (s : State) : (note e s).rxLock = s.rxLock := rfl
@[simp] theorem note_irqPend (e : Act) (s : State) : (note e s).irqPend = s.irqPend := rfl
@[simp] theorem note_txShadow (e : Act) (s : State) : (note e s).txShadow = s.txShadow := rfl
@[simp] theorem note_rxShadow (e : Act) (s : State) : (note e s).rxShadow = s.rxShadow := rfl
@[simp] theorem note_mem (e : Act) (s : State) : (note e s).mem = s.mem := rfl
@[simp] theorem note_dev (e : Act) (s : State) : (note e s).dev = s.dev := rfl
@[simp] theorem note_owner (e : Act) (s : State) : (note e s).owner = s.owner := rfl
@[simp] theorem note_bufLen (e : Act) (s : State) : (note e s).bufLen = s.bufLen := rfl
@[simp] theorem note_areas (e : Act) (s : State) : (note e s).areas = s.areas := rfl
@[simp] theorem note_irqSignals (e : Act) (s : State) : (note e s).irqSignals = s.irqSignals := rfl
@[simp] theorem note_allocs (e : Act) (s : State) : (note e s).allocs = s.allocs := rfl
@[simp] theorem note_script (e : Act) (s : State) : (note e s).script = s.script := rfl
@[simp] theorem note_draws (e : Act) (s : State) : (note e s).draws = s.draws := rfl
@[simp] theorem note_trace (e : Act) (s : State) : (note e s).trace = e :: s.trace := rfl

/-! ### `memWrite` -/

@[simp] theorem memWrite_cfg (a : Addr) (n v : Nat) (s : State) : (memWrite a n v s).cfg = s.cfg := rfl
@[simp] theorem memWrite_ports (a : Addr) (n v : Nat) (s : State) : (memWrite a n v s).ports = s.ports := rfl
@[simp] theorem memWrite_sel (a : Addr) (n v : Nat) (s : State) : (memWrite a n v s).sel = s.sel := rfl
@[simp] theorem memWrite_tx (a : Addr) (n v : Nat) (s : State) : (memWrite a n v s).tx = s.tx := rfl
@[simp] theorem memWrite_rx (a : Addr) (n v : Nat) (s : State) : (memWrite a n v s).rx = s.rx := rfl
@[simp] theorem memWrite_ini (a : Addr) (n v : Nat) (s : State) : (memWrite a n v s).ini = s.ini := rfl
@[simp] theorem memWrite_mode (a : Addr) (n v : Nat) (s : State) : (memWrite a n v s).mode = s.mode := rfl
@[simp] theorem memWrite_fcause (a : Addr) (n v : Nat) (s : State) : (memWrite a n v s).fcause = s.fcause := rfl
@[simp] theorem memWrite_regsBase (a : Addr) (n v : Nat) (s : State) : (memWrite a n v s).regsBase = s.regsBase := rfl
@[simp] theorem memWrite_txLock (a : Addr) (n v : Nat) (s : State) : (memWrite a n v s).txLock = s.txLock := rfl
@[simp] theorem memWrite_rxLock (a : Addr) (n v : Nat) (s : State) : (memWrite a n v s).rxLock = s.rxLock := rfl
@[simp] theorem memWrite_irqPend (a : Addr) (n v : Nat) (s : State) : (memWrite a n v s).irqPend = s.irqPend := rfl
@[simp] theorem memWrite_txShadow (a : Addr) (n v : Nat) (s : State) : (memWrite a n v s).txShadow = s.txShadow := rfl
@[simp] theorem memWrite_rxShadow (a : Addr) (n v : Nat) (s : State) : (memWrite a n v s).rxShadow = s.rxShadow := rfl
@[simp] theorem memWrite_mem (a : Addr) (n v : Nat) (s : State) : (memWrite a n v s).mem = writeBytes s.mem a n v := rfl
@[simp] theorem memWrite_dev (a : Addr) (n v : Nat) (s : State) : (memWrite a n v s).dev = s.dev := rfl
@[simp] theorem memWrite_owner (a : Addr) (n v : Nat) (s : State) : (memWrite a n v s).owner = s.owner := rfl
@[simp] theorem memWrite_bufLen (a : Addr) (n v : Nat) (s : State) : (memWrite a n v s).bufLen = s.bufLen := rfl
@[simp] theorem memWrite_areas (a : Addr) (n v : Nat) (s : State) : (memWrite a n v s).areas = s.areas := rfl
@[simp] theorem memWrite_irqSignals (a : Addr) (n v : Nat) (s : State) : (memWrite a n v s).irqSignals = s.irqSignals := rfl
@[simp] theorem memWrite_allocs (a : Addr) (n v : Nat) (s : State) : (memWrite a n v s).allocs = s.allocs := rfl
@[simp] theorem memWrite_script (a : Addr) (n v : Nat) (s : State) : (memWrite a n v s).script = s.script := rfl
@[simp] theorem memWrite_draws (a : Addr) (n v : Nat) (s : State) : (memWrite a n v s).draws = s.draws := rfl
@[simp] theorem memWrite_trace (a : Addr) (n v : Nat) (s : State) : (memWrite a n v s).trace = .memWrite a n v :: s.trace := rfl

/-! ### `fence` -/

@[simp] theorem fence_cfg (s : State) : (fence s).cfg = s.cfg := rfl
@[simp] theorem fence_ports (s : State) : (fence s).ports = s.ports := rfl
@[simp] theorem fence_sel (s : State) : (fence s).sel = s.sel := rfl
@[simp] theorem fence_tx (s : State) : (fence s).tx = s.tx := rfl
@[simp] theorem fence_rx (s : State) : (fence s).rx = s.rx := rfl
@[simp] theorem fence_ini (s : State) : (fence s).ini = s.ini := rfl
@[simp] theorem fence_mode (s : State) : (fence s).mode = s.mode := rfl
@[simp] theorem fence_fcause (s : State) : (fence s).fcause = s.fcause := rfl
@[simp] theorem fence_regsBase (s : State) : (fence s).regsBase = s.regsBase := rfl
@[simp] theorem fence_txLock (s : State) : (fence s).txLock = s.txLock := rfl
@[simp] theorem fence_rxLock (s : State) : (fence s).rxLock = s.rxLock := rfl
@[simp] theorem fence_irqPend (s : State) : (fence s).irqPend = s.irqPend := rfl
@[simp] theorem fence_txShadow (s : State) : (fence s).txShadow = s.txShadow := rfl
@[simp] theorem fence_rxShadow (s : State) : (fence s).rxShadow = s.rxShadow := rfl
@[simp] theorem fence_mem (s : State) : (fence s).mem = s.mem := rfl
@[simp] theorem fence_dev (s : State) : (fence s).dev = s.dev := rfl
@[simp] theorem fence_owner (s : State) : (fence s).owner = s.owner := rfl
@[simp] theorem fence_bufLen (s : State) : (fence s).bufLen = s.bufLen := rfl
@[simp] theorem fence_areas (s : State) : (fence s).areas = s.areas := rfl
@[simp] theorem fence_irqSignals (s : State) : (fence s).irqSignals = s.irqSignals := rfl
@[simp] theorem fence_allocs (s : State) : (fence s).allocs = s.allocs := rfl
@[simp] theorem fence_script (s : State) : (fence s).script = s.script := rfl
@[simp] theorem fence_draws (s : State) : (fence s).draws = s.draws := rfl
@[simp] theorem fence_trace (s : State) : (fence s).trace = .fence :: s.trace := rfl

/-! ### `regWrite` -/

@[simp] theorem regWrite_cfg (r : Reg) (v : Word) (s : State) : (regWrite r v s).cfg = s.cfg := by cases r <;> rfl
@[simp] theorem regWrite_ports (r : Reg) (v : Word) (s : State) : (regWrite r v s).ports = s.ports := by cases r <;> rfl
@[simp] theorem regWrite_sel (r : Reg) (v : Word) (s : State) : (regWrite r v s).sel = s.sel := by cases r <;> rfl
@[simp] theorem regWrite_tx (r : Reg) (v : Word) (s : State) : (regWrite r v s).tx = s.tx := by cases r <;> rfl
@[simp] theorem regWrite_rx (r : Reg) (v : Word) (s : State) : (regWrite r v s).rx = s.rx := by cases r <;> rfl
@[simp] theorem regWrite_ini (r : Reg) (v : Word) (s : State) : (regWrite r v s).ini = s.ini := by cases r <;> rfl
@[simp] theorem regWrite_mode (r : Reg) (v : Word) (s : State) : (regWrite r v s).mode = s.mode := by cases r <;> rfl
@[simp] theorem regWrite_fcause (r : Reg) (v : Word) (s : State) : (regWrite r v s).fcause = s.fcause := by cases r <;> rfl
@[simp] theorem regWrite_regsBase (r : Reg) (v : Word) (s : State) : (regWrite r v s).regsBase = s.regsBase := by cases r <;> rfl
@[simp] theorem regWrite_txLock (r : Reg) (v : Word) (s : State) : (regWrite r v s).txLock = s.txLock := by cases r <;> rfl
@[simp] theorem regWrite_rxLock (r : Reg) (v : Word) (s : State) : (regWrite r v s).rxLock = s.rxLock := by cases r <;> rfl
@[simp] theorem regWrite_irqPend (r : Reg) (v : Word) (s : State) : (regWrite r v s).irqPend = s.irqPend := by cases r <;> rfl
@[simp] theorem regWrite_txShadow (r : Reg) (v : Word) (s : State) : (regWrite r v s).txShadow = s.txShadow := by cases r <;> rfl
@[simp] theorem regWrite_rxShadow (r : Reg) (v : Word) (s : State) : (regWrite r v s).rxShadow = s.rxShadow := by cases r <;> rfl
@[simp] theorem regWrite_mem (r : Reg) (v : Word) (s : State) : (regWrite r v s).mem = s.mem := by cases r <;> rfl
@[simp] theorem regWrite_owner (r : Reg) (v : Word) (s : State) : (regWrite r v s).owner = s.owner := by cases r <;> rfl
@[simp] theorem regWrite_bufLen (r : Reg) (v : Word) (s : State) : (regWrite r v s).bufLen = s.bufLen := by cases r <;> rfl
@[simp] theorem regWrite_areas (r : Reg) (v : Word) (s : State) : (regWrite r v s).areas = s.areas := by cases r <;> rfl
@[simp] theorem regWrite_irqSignals (r : Reg) (v : Word) (s : State) : (regWrite r v s).irqSignals = s.irqSignals := by cases r <;> rfl
@[simp] theorem regWrite_allocs (r : Reg) (v : Word) (s : State) : (regWrite r v s).allocs = s.allocs := by cases r <;> rfl
@[simp] theorem regWrite_script (r : Reg) (v : Word) (s : State) : (regWrite r v s).script = s.script := by cases r <;> rfl
@[simp] theorem regWrite_trace (r : Reg) (v : Word) (s : State) : (regWrite r v s).trace = .regWrite r (regAddr s r) v :: s.trace := by cases r <;> rfl

/-! ### `setTxShadow` -/

@[simp] theorem setTxShadow_cfg (i : Nat) (h : Handle) (s : State) : (setTxShadow i h s).cfg = s.cfg := rfl
@[simp] theorem setTxShadow_ports (i : Nat) (h : Handle) (s : State) : (setTxShadow i h s).ports = s.ports := rfl
@[simp] theorem setTxShadow_sel (i : Nat) (h : Handle) (s : State) : (setTxShadow i h s).sel = s.sel := rfl
@[simp] theorem setTxShadow_tx (i : Nat) (h : Handle) (s : State) : (setTxShadow i h s).tx = s.tx := rfl
@[simp] theorem setTxShadow_rx (i : Nat) (h : Handle) (s : State) : (setTxShadow i h s).rx = s.rx := rfl
@[simp] theorem setTxShadow_ini (i : Nat) (h : Handle) (s : State) : (setTxShadow i h s).ini = s.ini := rfl
@[simp] theorem setTxShadow_mode (i : Nat) (h : Handle) (s : State) : (setTxShadow i h s).mode = s.mode := rfl
@[simp] theorem setTxShadow_fcause (i : Nat) (h : Handle) (s : State) : (setTxShadow i h s).fcause = s.fcause := rfl
@[simp] theorem setTxShadow_regsBase (i : Nat) (h : Handle) (s : State) : (setTxShadow i h s).regsBase = s.regsBase := rfl
@[simp] theorem setTxShadow_txLock (i : Nat) (h : Handle) (s : State) : (setTxShadow i h s).txLock = s.txLock := rfl
@[simp] theorem setTxShadow_rxLock (i : Nat) (h : Handle) (s : State) : (setTxShadow i h s).rxLock = s.rxLock := rfl
@[simp] theorem setTxShadow_irqPend (i : Nat) (h : Handle) (s : State) : (setTxShadow i h s).irqPend = s.irqPend := rfl
@[simp] theorem setTxShadow_txShadow (i : Nat) (h : Handle) (s : State) : (setTxShadow i h s).txShadow = s.txShadow.set i h := rfl
@[simp] theorem setTxShadow_rxShadow (i : Nat) (h : Handle) (s : State) : (setTxShadow i h s).rxShadow = s.rxShadow := rfl
@[simp] theorem setTxShadow_mem (i : Nat) (h : Handle) (s : State) : (setTxShadow i h s).mem = s.mem := rfl
@[simp] theorem setTxShadow_dev (i : Nat) (h : Handle) (s : State) : (setTxShadow i h s).dev = s.dev := rfl
@[simp] theorem setTxShadow_owner (i : Nat) (h : Handle) (s : State) : (setTxShadow i h s).owner = s.owner := rfl
@[simp] theorem setTxShadow_bufLen (i : Nat) (h : Handle) (s : State) : (setTxShadow i h s).bufLen = s.bufLen := rfl
@[simp] theorem setTxShadow_areas (i : Nat) (h : Handle) (s : State) : (setTxShadow i h s).areas = s.areas := rfl
@[simp] theorem setTxShadow_irqSignals (i : Nat) (h : Handle) (s : State) : (setTxShadow i h s).irqSignals = s.irqSignals := rfl
@[simp] theorem setTxShadow_allocs (i : Nat) (h : Handle) (s : State) : (setTxShadow i h s).allocs = s.allocs := rfl
@[simp] theorem setTxShadow_script (i : Nat) (h : Handle) (s : State) : (setTxShadow i h s).script = s.script := rfl
@[simp] theorem setTxShadow_draws (i : Nat) (h : Handle) (s : State) : (setTxShadow i h s).draws = s.draws := rfl
@[simp] theorem setTxShadow_trace (i : Nat) (h : Handle) (s : State) : (setTxShadow i h s).trace = s.trace := rfl

/-! ### `setRxShadow` -/

@[simp] theorem setRxShadow_cfg (i : Nat) (h : Handle) (s : State) : (setRxShadow i h s).cfg = s.cfg := rfl
@[simp] theorem setRxShadow_ports (i : Nat) (h : Handle) (s : State) : (setRxShadow i h s).ports = s.ports := rfl
@[simp] theorem setRxShadow_sel (i : Nat) (h : Handle) (s : State) : (setRxShadow i h s).sel = s.sel := rfl
@[simp] theorem setRxShadow_tx (i : Nat) (h : Handle) (s : State) : (setRxShadow i h s).tx = s.tx := rfl
@[simp] theorem setRxShadow_rx (i : Nat) (h : Handle) (s : State) : (setRxShadow i h s).rx = s.rx := rfl
@[simp] theorem setRxShadow_ini (i : Nat) (h : Handle) (s : State) : (setRxShadow i h s).ini = s.ini := rfl
@[simp] theorem setRxShadow_mode (i : Nat) (h : Handle) (s : State) : (setRxShadow i h s).mode = s.mode := rfl
@[simp] theorem setRxShadow_fcause (i : Nat) (h : Handle) (s : State) : (setRxShadow i h s).fcause = s.fcause := rfl
@[simp] theorem setRxShadow_regsBase (i : Nat) (h : Handle) (s : State) : (setRxShadow i h s).regsBase = s.regsBase := rfl
@[simp] theorem setRxShadow_txLock (i : Nat) (h : Handle) (s : State) : (setRxShadow i h s).txLock = s.txLock := rfl
@[simp] theorem setRxShadow_rxLock (i : Nat) (h : Handle) (s : State) : (setRxShadow i h s).rxLock = s.rxLock := rfl
@[simp] theorem setRxShadow_irqPend (i : Nat) (h : Handle) (s : State) : (setRxShadow i h s).irqPend = s.irqPend := rfl
@[simp] theorem setRxShadow_txShadow (i : Nat) (h : Handle) (s : State) : (setRxShadow i h s).txShadow = s.txShadow := rfl
@[simp] theorem setRxShadow_rxShadow (i : Nat) (h : Handle) (s : State) : (setRxShadow i h s).rxShadow = s.rxShadow.set i h := rfl
@[simp] theorem setRxShadow_mem (i : Nat) (h : Handle) (s : State) : (setRxShadow i h s).mem = s.mem := rfl
@[simp] theorem setRxShadow_dev (i : Nat) (h : Handle) (s : State) : (setRxShadow i h s).dev = s.dev := rfl
@[simp] theorem setRxShadow_owner (i : Nat) (h : Handle) (s : State) : (setRxShadow i h s).owner = s.owner := rfl
@[simp] theorem setRxShadow_bufLen (i : Nat) (h : Handle) (s : State) : (setRxShadow i h s).bufLen = s.bufLen := rfl
@[simp] theorem setRxShadow_areas (i : Nat) (h : Handle) (s : State) : (setRxShadow i h s).areas = s.areas := rfl
@[simp] theorem setRxShadow_irqSignals (i : Nat) (h : Handle) (s : State) : (setRxShadow i h s).irqSignals = s.irqSignals := rfl
@[simp] theorem setRxShadow_allocs (i : Nat) (h : Handle) (s : State) : (setRxShadow i h s).allocs = s.allocs := rfl
@[simp] theorem setRxShadow_script (i : Nat) (h : Handle) (s : State) : (setRxShadow i h s).script = s.script := rfl
@[simp] theorem setRxShadow_draws (i : Nat) (h : Handle) (s : State) : (setRxShadow i h s).draws = s.draws := rfl
@[simp] theorem setRxShadow_trace (i : Nat) (h : Handle) (s : State) : (setRxShadow i h s).trace = s.trace := rfl

/-! ### `setOwner` -/

@[simp] theorem setOwner_cfg (h : Handle) (o : Owner) (s : State) : (setOwner h o s).cfg = s.cfg := rfl
@[simp] theorem setOwner_ports (h : Handle) (o : Owner) (s : State) : (setOwner h o s).ports = s.ports := rfl
@[simp] theorem setOwner_sel (h : Handle) (o : Owner) (s : State) : (setOwner h o s).sel = s.sel := rfl
@[simp] theorem setOwner_tx (h : Handle) (o : Owner) (s : State) : (setOwner h o s).tx = s.tx := rfl
@[simp] theorem setOwner_rx (h : Handle) (o : Owner) (s : State) : (setOwner h o s).rx = s.rx := rfl
@[simp] theorem setOwner_ini (h : Handle) (o : Owner) (s : State) : (setOwner h o s).ini = s.ini := rfl
@[simp] theorem setOwner_mode (h : Handle) (o : Owner) (s : State) : (setOwner h o s).mode = s.mode := rfl
@[simp] theorem setOwner_fcause (h : Handle) (o : Owner) (s : State) : (setOwner h o s).fcause = s.fcause := rfl
@[simp] theorem setOwner_regsBase (h : Handle) (o : Owner) (s : State) : (setOwner h o s).regsBase = s.regsBase := rfl
@[simp] theorem setOwner_txLock (h : Handle) (o : Owner) (s : State) : (setOwner h o s).txLock = s.txLock := rfl
@[simp] theorem setOwner_rxLock (h : Handle) (o : Owner) (s : State) : (setOwner h o s).rxLock = s.rxLock := rfl
@[simp] theorem setOwner_irqPend (h : Handle) (o : Owner) (s : State) : (setOwner h o s).irqPend = s.irqPend := rfl
@[simp] theorem setOwner_txShadow (h : Handle) (o : Owner) (s : State) : (setOwner h o s).txShadow = s.txShadow := rfl
@[simp] theorem setOwner_rxShadow (h : Handle) (o : Owner) (s : State) : (setOwner h o s).rxShadow = s.rxShadow := rfl
@[simp] theorem setOwner_mem (h : Handle) (o : Owner) (s : State) : (setOwner h o s).mem = s.mem := rfl
@[simp] theorem setOwner_dev (h : Handle) (o : Owner) (s : State) : (setOwner h o s).dev = s.dev := rfl
@[simp] theorem setOwner_bufLen (h : Handle) (o : Owner) (s : State) : (setOwner h o s).bufLen = s.bufLen := rfl
@[simp] theorem setOwner_areas (h : Handle) (o : Owner) (s : State) : (setOwner h o s).areas = s.areas := rfl
@[simp] theorem setOwner_irqSignals (h : Handle) (o : Owner) (s : State) : (setOwner h o s).irqSignals = s.irqSignals := rfl
@[simp] theorem setOwner_allocs (h : Handle) (o : Owner) (s : State) : (setOwner h o s).allocs = s.allocs := rfl
@[simp] theorem setOwner_script (h : Handle) (o : Owner) (s : State) : (setOwner h o s).script = s.script := rfl
@[simp] theorem setOwner_draws (h : Handle) (o : Owner) (s : State) : (setOwner h o s).draws = s.draws := rfl
@[simp] theorem setOwner_trace (h : Handle) (o : Owner) (s : State) : (setOwner h o s).trace = s.trace := rfl

/-! ### `setArea` -/

@[simp] theorem setArea_cfg (h : Handle) (a : Addr) (s : State) : (setArea h a s).cfg = s.cfg := rfl
@[simp] theorem setArea_ports (h : Handle) (a : Addr) (s : State) : (setArea h a s).ports = s.ports := rfl
@[simp] theorem setArea_sel (h : Handle) (a : Addr) (s : State) : (setArea h a s).sel = s.sel := rfl
@[simp] theorem setArea_tx (h : Handle) (a : Addr) (s : State) : (setArea h a s).tx = s.tx := rfl
@[simp] theorem setArea_rx (h : Handle) (a : Addr) (s : State) : (setArea h a s).rx = s.rx := rfl
@[simp] theorem setArea_ini (h : Handle) (a : Addr) (s : State) : (setArea h a s).ini = s.ini := rfl
@[simp] theorem setArea_mode (h : Handle) (a : Addr) (s : State) : (setArea h a s).mode = s.mode := rfl
@[simp] theorem setArea_fcause (h : Handle) (a : Addr) (s : State) : (setArea h a s).fcause = s.fcause := rfl
@[simp] theorem setArea_regsBase (h : Handle) (a : Addr) (s : State) : (setArea h a s).regsBase = s.regsBase := rfl
@[simp] theorem setArea_txLock (h : Handle) (a : Addr) (s : State) : (setArea h a s).txLock = s.txLock := rfl
@[simp] theorem setArea_rxLock (h : Handle) (a : Addr) (s : State) : (setArea h a s).rxLock = s.rxLock := rfl
@[simp] theorem setArea_irqPend (h : Handle) (a : Addr) (s : State) : (setArea h a s).irqPend = s.irqPend := rfl
@[simp] theorem setArea_txShadow (h : Handle) (a : Addr) (s : State) : (setArea h a s).txShadow = s.txShadow := rfl
@[simp] theorem setArea_rxShadow (h : Handle) (a : Addr) (s : State) : (setArea h a s).rxShadow = s.rxShadow := rfl
@[simp] theorem setArea_mem (h : Handle) (a : Addr) (s : State) : (setArea h a s).mem = s.mem := rfl
@[simp] theorem setArea_dev (h : Handle) (a : Addr) (s : State) : (setArea h a s).dev = s.dev := rfl
@[simp] theorem setArea_owner (h : Handle) (a : Addr) (s : State) : (setArea h a s).owner = s.owner := rfl
@[simp] theorem setArea_bufLen (h : Handle) (a : Addr) (s : State) : (setArea h a s).bufLen = s.bufLen := rfl
@[simp] theorem setArea_areas (h : Handle) (a : Addr) (s : State) : (setArea h a s).areas = store h.toNat a s.areas := rfl
@[simp] theorem setArea_irqSignals (h : Handle) (a : Addr) (s : State) : (setArea h a s).irqSignals = s.irqSignals := rfl
@[simp] theorem setArea_allocs (h : Handle) (a : Addr) (s : State) : (setArea h a s).allocs = s.allocs := rfl
@[simp] theorem setArea_script (h : Handle) (a : Addr) (s : State) : (setArea h a s).script = s.script := rfl
@[simp] theorem setArea_draws (h : Handle) (a : Addr) (s : State) : (setArea h a s).draws = s.draws := rfl
@[simp] theorem setArea_trace (h : Handle) (a : Addr) (s : State) : (setArea h a s).trace = s.trace := rfl

/-! ### `dropArea` -/

@[simp] theorem dropArea_cfg (h : Handle) (s : State) : (dropArea h s).cfg = s.cfg := rfl
@[simp] theorem dropArea_ports (h : Handle) (s : State) : (dropArea h s).ports = s.ports := rfl
@[simp] theorem dropArea_sel (h : Handle) (s : State) : (dropArea h s).sel = s.sel := rfl
@[simp] theorem dropArea_tx (h : Handle) (s : State) : (dropArea h s).tx = s.tx := rfl
@[simp] theorem dropArea_rx (h : Handle) (s : State) : (dropArea h s).rx = s.rx := rfl
@[simp] theorem dropArea_ini (h : Handle) (s : State) : (dropArea h s).ini = s.ini := rfl
@[simp] theorem dropArea_mode (h : Handle) (s : State) : (dropArea h s).mode = s.mode := rfl
@[simp] theorem dropArea_fcause (h : Handle) (s : State) : (dropArea h s).fcause = s.fcause := rfl
@[simp] theorem dropArea_regsBase (h : Handle) (s : State) : (dropArea h s).regsBase = s.regsBase := rfl
@[simp] theorem dropArea_txLock (h : Handle) (s : State) : (dropArea h s).txLock = s.txLock := rfl
@[simp] theorem dropArea_rxLock (h : Handle) (s : State) : (dropArea h s).rxLock = s.rxLock := rfl
@[simp] theorem dropArea_irqPend (h : Handle) (s : State) : (dropArea h s).irqPend = s.irqPend := rfl
@[simp] theorem dropArea_txShadow (h : Handle) (s : State) : (dropArea h s).txShadow = s.txShadow := rfl
@[simp] theorem dropArea_rxShadow (h : Handle) (s : State) : (dropArea h s).rxShadow = s.rxShadow := rfl
@[simp] theorem dropArea_mem (h : Handle) (s : State) : (dropArea h s).mem = s.mem := rfl
@[simp] theorem dropArea_dev (h : Handle) (s : State) : (dropArea h s).dev = s.dev := rfl
@[simp] theorem dropArea_owner (h : Handle) (s : State) : (dropArea h s).owner = s.owner := rfl
@[simp] theorem dropArea_bufLen (h : Handle) (s : State) : (dropArea h s).bufLen = s.bufLen := rfl
@[simp] theorem dropArea_areas (h : Handle) (s : State) : (dropArea h s).areas = drop h.toNat s.areas := rfl
@[simp] theorem dropArea_irqSignals (h : Handle) (s : State) : (dropArea h s).irqSignals = s.irqSignals := rfl
@[simp] theorem dropArea_allocs (h : Handle) (s : State) : (dropArea h s).allocs = s.allocs := rfl
@[simp] theorem dropArea_script (h : Handle) (s : State) : (dropArea h s).script = s.script := rfl
@[simp] theorem dropArea_draws (h : Handle) (s : State) : (dropArea h s).draws = s.draws := rfl
@[simp] theorem dropArea_trace (h : Handle) (s : State) : (dropArea h s).trace = s.trace := rfl

/-! ### `deliverSignal` -/

@[simp] theorem deliverSignal_cfg (s : State) : (deliverSignal s).cfg = s.cfg := rfl
@[simp] theorem deliverSignal_ports (s : State) : (deliverSignal s).ports = s.ports := rfl
@[simp] theorem deliverSignal_sel (s : State) : (deliverSignal s).sel = s.sel := rfl
@[simp] theorem deliverSignal_tx (s : State) : (deliverSignal s).tx = s.tx := rfl
@[simp] theorem deliverSignal_rx (s : State) : (deliverSignal s).rx = s.rx := rfl
@[simp] theorem deliverSignal_ini (s : State) : (deliverSignal s).ini = s.ini := rfl
@[simp] theorem deliverSignal_mode (s : State) : (deliverSignal s).mode = s.mode := rfl
@[simp] theorem deliverSignal_fcause (s : State) : (deliverSignal s).fcause = s.fcause := rfl
@[simp] theorem deliverSignal_regsBase (s : State) : (deliverSignal s).regsBase = s.regsBase := rfl
@[simp] theorem deliverSignal_txLock (s : State) : (deliverSignal s).txLock = s.txLock := rfl
@[simp] theorem deliverSignal_rxLock (s : State) : (deliverSignal s).rxLock = s.rxLock := rfl
@[simp] theorem deliverSignal_irqPend (s : State) : (deliverSignal s).irqPend = s.irqPend := rfl
@[simp] theorem deliverSignal_txShadow (s : State) : (deliverSignal s).txShadow = s.txShadow := rfl
@[simp] theorem deliverSignal_rxShadow (s : State) : (deliverSignal s).rxShadow = s.rxShadow := rfl
@[simp] theorem deliverSignal_mem (s : State) : (deliverSignal s).mem = s.mem := rfl
@[simp] theorem deliverSignal_dev (s : State) : (deliverSignal s).dev = s.dev := rfl
@[simp] theorem deliverSignal_owner (s : State) : (deliverSignal s).owner = s.owner := rfl
@[simp] theorem deliverSignal_bufLen (s : State) : (deliverSignal s).bufLen = s.bufLen := rfl
@[simp] theorem deliverSignal_areas (s : State) : (deliverSignal s).areas = s.areas := rfl
@[simp] theorem deliverSignal_irqSignals (s : State) : (deliverSignal s).irqSignals = s.irqSignals - 1 := rfl
@[simp] theorem deliverSignal_allocs (s : State) : (deliverSignal s).allocs = s.allocs := rfl
@[simp] theorem deliverSignal_script (s : State) : (deliverSignal s).script = s.script := rfl
@[simp] theorem deliverSignal_draws (s : State) : (deliverSignal s).draws = s.draws := rfl
@[simp] theorem deliverSignal_trace (s : State) : (deliverSignal s).trace = s.trace := rfl

/-! ### `bufFree` -/

@[simp] theorem bufFree_cfg (h : Handle) (s : State) : (bufFree h s).cfg = s.cfg := rfl
@[simp] theorem bufFree_ports (h : Handle) (s : State) : (bufFree h s).ports = s.ports := rfl
@[simp] theorem bufFree_sel (h : Handle) (s : State) : (bufFree h s).sel = s.sel := rfl
@[simp] theorem bufFree_tx (h : Handle) (s : State) : (bufFree h s).tx = s.tx := rfl
@[simp] theorem bufFree_rx (h : Handle) (s : State) : (bufFree h s).rx = s.rx := rfl
@[simp] theorem bufFree_ini (h : Handle) (s : State) : (bufFree h s).ini = s.ini := rfl
@[simp] theorem bufFree_mode (h : Handle) (s : State) : (bufFree h s).mode = s.mode := rfl
@[simp] theorem bufFree_fcause (h : Handle) (s : State) : (bufFree h s).fcause = s.fcause := rfl
@[simp] theorem bufFree_regsBase (h : Handle) (s : State) : (bufFree h s).regsBase = s.regsBase := rfl
@[simp] theorem bufFree_txLock (h : Handle) (s : State) : (bufFree h s).txLock = s.txLock := rfl
@[simp] theorem bufFree_rxLock (h : Handle) (s : State) : (bufFree h s).rxLock = s.rxLock := rfl
@[simp] theorem bufFree_irqPend (h : Handle) (s : State) : (bufFree h s).irqPend = s.irqPend := rfl
@[simp] theorem bufFree_txShadow (h : Handle) (s : State) : (bufFree h s).txShadow = s.txShadow := rfl
@[simp] theorem bufFree_rxShadow (h : Handle) (s : State) : (bufFree h s).rxShadow = s.rxShadow := rfl
@[simp] theorem bufFree_mem (h : Handle) (s : State) : (bufFree h s).mem = s.mem := rfl
@[simp] theorem bufFree_dev (h : Handle) (s : State) : (bufFree h s).dev = s.dev := rfl
@[simp] theorem bufFree_owner (h : Handle) (s : State) : (bufFree h s).owner = drop h.toNat s.owner := rfl
@[simp] theorem bufFree_bufLen (h : Handle) (s : State) : (bufFree h s).bufLen = s.bufLen := rfl
@[simp] theorem bufFree_areas (h : Handle) (s : State) : (bufFree h s).areas = drop h.toNat s.areas := rfl
@[simp] theorem bufFree_irqSignals (h : Handle) (s : State) : (bufFree h s).irqSignals = s.irqSignals := rfl
@[simp] theorem bufFree_allocs (h : Handle) (s : State) : (bufFree h s).allocs = s.allocs := rfl
@[simp] theorem bufFree_script (h : Handle) (s : State) : (bufFree h s).script = s.script := rfl
@[simp] theorem bufFree_draws (h : Handle) (s : State) : (bufFree h s).draws = s.draws := rfl
@[simp] theorem bufFree_trace (h : Handle) (s : State) : (bufFree h s).trace = .bufFree h :: s.trace := rfl

/-! ### `bufSetLen` -/

@[simp] theorem bufSetLen_cfg (h : Handle) (n : Len) (s : State) : (bufSetLen h n s).cfg = s.cfg := rfl
@[simp] theorem bufSetLen_ports (h : Handle) (n : Len) (s : State) : (bufSetLen h n s).ports = s.ports := rfl
@[simp] theorem bufSetLen_sel (h : Handle) (n : Len) (s : State) : (bufSetLen h n s).sel = s.sel := rfl
@[simp] theorem bufSetLen_tx (h : Handle) (n : Len) (s : State) : (bufSetLen h n s).tx = s.tx := rfl
@[simp] theorem bufSetLen_rx (h : Handle) (n : Len) (s : State) : (bufSetLen h n s).rx = s.rx := rfl
@[simp] theorem bufSetLen_ini (h : Handle) (n : Len) (s : State) : (bufSetLen h n s).ini = s.ini := rfl
@[simp] theorem bufSetLen_mode (h : Handle) (n : Len) (s : State) : (bufSetLen h n s).mode = s.mode := rfl
@[simp] theorem bufSetLen_fcause (h : Handle) (n : Len) (s : State) : (bufSetLen h n s).fcause = s.fcause := rfl
@[simp] theorem bufSetLen_regsBase (h : Handle) (n : Len) (s : State) : (bufSetLen h n s).regsBase = s.regsBase := rfl
@[simp] theorem bufSetLen_txLock (h : Handle) (n : Len) (s : State) : (bufSetLen h n s).txLock = s.txLock := rfl
@[simp] theorem bufSetLen_rxLock (h : Handle) (n : Len) (s : State) : (bufSetLen h n s).rxLock = s.rxLock := rfl
@[simp] theorem bufSetLen_irqPend (h : Handle) (n : Len) (s : State) : (bufSetLen h n s).irqPend = s.irqPend := rfl
@[simp] theorem bufSetLen_txShadow (h : Handle) (n : Len) (s : State) : (bufSetLen h n s).txShadow = s.txShadow := rfl
@[simp] theorem bufSetLen_rxShadow (h : Handle) (n : Len) (s : State) : (bufSetLen h n s).rxShadow = s.rxShadow := rfl
@[simp] theorem bufSetLen_mem (h : Handle) (n : Len) (s : State) : (bufSetLen h n s).mem = s.mem := rfl
@[simp] theorem bufSetLen_dev (h : Handle) (n : Len) (s : State) : (bufSetLen h n s).dev = s.dev := rfl
@[simp] theorem bufSetLen_owner (h : Handle) (n : Len) (s : State) : (bufSetLen h n s).owner = s.owner := rfl
@[simp] theorem bufSetLen_bufLen (h : Handle) (n : Len) (s : State) : (bufSetLen h n s).bufLen = store h.toNat n s.bufLen := rfl
@[simp] theorem bufSetLen_areas (h : Handle) (n : Len) (s : State) : (bufSetLen h n s).areas = s.areas := rfl
@[simp] theorem bufSetLen_irqSignals (h : Handle) (n : Len) (s : State) : (bufSetLen h n s).irqSignals = s.irqSignals := rfl
@[simp] theorem bufSetLen_allocs (h : Handle) (n : Len) (s : State) : (bufSetLen h n s).allocs = s.allocs := rfl
@[simp] theorem bufSetLen_script (h : Handle) (n : Len) (s : State) : (bufSetLen h n s).script = s.script := rfl
@[simp] theorem bufSetLen_draws (h : Handle) (n : Len) (s : State) : (bufSetLen h n s).draws = s.draws := rfl
@[simp] theorem bufSetLen_trace (h : Handle) (n : Len) (s : State) : (bufSetLen h n s).trace = .bufSetLen h n :: s.trace := rfl

/-! ### `netRx` -/

@[simp] theorem netRx_cfg (h : Handle) (s : State) : (netRx h s).cfg = s.cfg := rfl
@[simp] theorem netRx_ports (h : Handle) (s : State) : (netRx h s).ports = s.ports := rfl
@[simp] theorem netRx_sel (h : Handle) (s : State) : (netRx h s).sel = s.sel := rfl
@[simp] theorem netRx_tx (h : Handle) (s : State) : (netRx h s).tx = s.tx := rfl
@[simp] theorem netRx_rx (h : Handle) (s : State) : (netRx h s).rx = s.rx := rfl
@[simp] theorem netRx_ini (h : Handle) (s : State) : (netRx h s).ini = s.ini := rfl
@[simp] theorem netRx_mode (h : Handle) (s : State) : (netRx h s).mode = s.mode := rfl
@[simp] theorem netRx_fcause (h : Handle) (s : State) : (netRx h s).fcause = s.fcause := rfl
@[simp] theorem netRx_regsBase (h : Handle) (s : State) : (netRx h s).regsBase = s.regsBase := rfl
@[simp] theorem netRx_txLock (h : Handle) (s : State) : (netRx h s).txLock = s.txLock := rfl
@[simp] theorem netRx_rxLock (h : Handle) (s : State) : (netRx h s).rxLock = s.rxLock := rfl
@[simp] theorem netRx_irqPend (h : Handle) (s : State) : (netRx h s).irqPend = s.irqPend := rfl
@[simp] theorem netRx_txShadow (h : Handle) (s : State) : (netRx h s).txShadow = s.txShadow := rfl
@[simp] theorem netRx_rxShadow (h : Handle) (s : State) : (netRx h s).rxShadow = s.rxShadow := rfl
@[simp] theorem netRx_mem (h : Handle) (s : State) : (netRx h s).mem = s.mem := rfl
@[simp] theorem netRx_dev (h : Handle) (s : State) : (netRx h s).dev = s.dev := rfl
@[simp] theorem netRx_bufLen (h : Handle) (s : State) : (netRx h s).bufLen = s.bufLen := rfl
@[simp] theorem netRx_areas (h : Handle) (s : State) : (netRx h s).areas = s.areas := rfl
@[simp] theorem netRx_irqSignals (h : Handle) (s : State) : (netRx h s).irqSignals = s.irqSignals := rfl
@[simp] theorem netRx_allocs (h : Handle) (s : State) : (netRx h s).allocs = s.allocs := rfl
@[simp] theorem netRx_script (h : Handle) (s : State) : (netRx h s).script = s.script := rfl
@[simp] theorem netRx_draws (h : Handle) (s : State) : (netRx h s).draws = s.draws := rfl
@[simp] theorem netRx_trace (h : Handle) (s : State) : (netRx h s).trace = .netRx h :: s.trace := rfl

/-! ### `updatePort` -/

@[simp] theorem updatePort_cfg (p : Nat) (f : Port → Port) (s : State) : (updatePort p f s).cfg = s.cfg := rfl
@[simp] theorem updatePort_ports (p : Nat) (f : Port → Port) (s : State) : (updatePort p f s).ports = s.ports.modify p f := rfl
@[simp] theorem updatePort_sel (p : Nat) (f : Port → Port) (s : State) : (updatePort p f s).sel = s.sel := rfl
@[simp] theorem updatePort_tx (p : Nat) (f : Port → Port) (s : State) : (updatePort p f s).tx = s.tx := rfl
@[simp] theorem updatePort_rx (p : Nat) (f : Port → Port) (s : State) : (updatePort p f s).rx = s.rx := rfl
@[simp] theorem updatePort_ini (p : Nat) (f : Port → Port) (s : State) : (updatePort p f s).ini = s.ini := rfl
@[simp] theorem updatePort_mode (p : Nat) (f : Port → Port) (s : State) : (updatePort p f s).mode = s.mode := rfl
@[simp] theorem updatePort_fcause (p : Nat) (f : Port → Port) (s : State) : (updatePort p f s).fcause = s.fcause := rfl
@[simp] theorem updatePort_regsBase (p : Nat) (f : Port → Port) (s : State) : (updatePort p f s).regsBase = s.regsBase := rfl
@[simp] theorem updatePort_txLock (p : Nat) (f : Port → Port) (s : State) : (updatePort p f s).txLock = s.txLock := rfl
@[simp] theorem updatePort_rxLock (p : Nat) (f : Port → Port) (s : State) : (updatePort p f s).rxLock = s.rxLock := rfl
@[simp] theorem updatePort_irqPend (p : Nat) (f : Port → Port) (s : State) : (updatePort p f s).irqPend = s.irqPend := rfl
@[simp] theorem updatePort_txShadow (p : Nat) (f : Port → Port) (s : State) : (updatePort p f s).txShadow = s.txShadow := rfl
@[simp] theorem updatePort_rxShadow (p : Nat) (f : Port → Port) (s : State) : (updatePort p f s).rxShadow = s.rxShadow := rfl
@[simp] theorem updatePort_mem (p : Nat) (f : Port → Port) (s : State) : (updatePort p f s).mem = s.mem := rfl
@[simp] theorem updatePort_dev (p : Nat) (f : Port → Port) (s : State) : (updatePort p f s).dev = s.dev := rfl
@[simp] theorem updatePort_owner (p : Nat) (f : Port → Port) (s : State) : (updatePort p f s).owner = s.owner := rfl
@[simp] theorem updatePort_bufLen (p : Nat) (f : Port → Port) (s : State) : (updatePort p f s).bufLen = s.bufLen := rfl
@[simp] theorem updatePort_areas (p : Nat) (f : Port → Port) (s : State) : (updatePort p f s).areas = s.areas := rfl
@[simp] theorem updatePort_irqSignals (p : Nat) (f : Port → Port) (s : State) : (updatePort p f s).irqSignals = s.irqSignals := rfl
@[simp] theorem updatePort_allocs (p : Nat) (f : Port → Port) (s : State) : (updatePort p f s).allocs = s.allocs := rfl
@[simp] theorem updatePort_script (p : Nat) (f : Port → Port) (s : State) : (updatePort p f s).script = s.script := rfl
@[simp] theorem updatePort_draws (p : Nat) (f : Port → Port) (s : State) : (updatePort p f s).draws = s.draws := rfl
@[simp] theorem updatePort_trace (p : Nat) (f : Port → Port) (s : State) : (updatePort p f s).trace = s.trace := rfl

/-! ### `respond` -/

@[simp] theorem respond_cfg (src : Source) (r : Reason) (s : State) : (respond src r s).cfg = s.cfg := by cases src <;> rfl
@[simp] theorem respond_sel (src : Source) (r : Reason) (s : State) : (respond src r s).sel = s.sel := by cases src <;> rfl
@[simp] theorem respond_tx (src : Source) (r : Reason) (s : State) : (respond src r s).tx = s.tx := by cases src <;> rfl
@[simp] theorem respond_rx (src : Source) (r : Reason) (s : State) : (respond src r s).rx = s.rx := by cases src <;> rfl
@[simp] theorem respond_ini (src : Source) (r : Reason) (s : State) : (respond src r s).ini = s.ini := by cases src <;> rfl
@[simp] theorem respond_mode (src : Source) (r : Reason) (s : State) : (respond src r s).mode = s.mode := by cases src <;> rfl
@[simp] theorem respond_fcause (src : Source) (r : Reason) (s : State) : (respond src r s).fcause = s.fcause := by cases src <;> rfl
@[simp] theorem respond_regsBase (src : Source) (r : Reason) (s : State) : (respond src r s).regsBase = s.regsBase := by cases src <;> rfl
@[simp] theorem respond_txLock (src : Source) (r : Reason) (s : State) : (respond src r s).txLock = s.txLock := by cases src <;> rfl
@[simp] theorem respond_rxLock (src : Source) (r : Reason) (s : State) : (respond src r s).rxLock = s.rxLock := by cases src <;> rfl
@[simp] theorem respond_irqPend (src : Source) (r : Reason) (s : State) : (respond src r s).irqPend = s.irqPend := by cases src <;> rfl
@[simp] theorem respond_txShadow (src : Source) (r : Reason) (s : State) : (respond src r s).txShadow = s.txShadow := by cases src <;> rfl
@[simp] theorem respond_rxShadow (src : Source) (r : Reason) (s : State) : (respond src r s).rxShadow = s.rxShadow := by cases src <;> rfl
@[simp] theorem respond_mem (src : Source) (r : Reason) (s : State) : (respond src r s).mem = s.mem := by cases src <;> rfl
@[simp] theorem respond_dev (src : Source) (r : Reason) (s : State) : (respond src r s).dev = s.dev := by cases src <;> rfl
@[simp] theorem respond_owner (src : Source) (r : Reason) (s : State) : (respond src r s).owner = s.owner := by cases src <;> rfl
@[simp] theorem respond_bufLen (src : Source) (r : Reason) (s : State) : (respond src r s).bufLen = s.bufLen := by cases src <;> rfl
@[simp] theorem respond_areas (src : Source) (r : Reason) (s : State) : (respond src r s).areas = s.areas := by cases src <;> rfl
@[simp] theorem respond_irqSignals (src : Source) (r : Reason) (s : State) : (respond src r s).irqSignals = s.irqSignals := by cases src <;> rfl
@[simp] theorem respond_allocs (src : Source) (r : Reason) (s : State) : (respond src r s).allocs = s.allocs := by cases src <;> rfl
@[simp] theorem respond_script (src : Source) (r : Reason) (s : State) : (respond src r s).script = s.script := by cases src <;> rfl
@[simp] theorem respond_draws (src : Source) (r : Reason) (s : State) : (respond src r s).draws = s.draws := by cases src <;> rfl
@[simp] theorem respond_trace (src : Source) (r : Reason) (s : State) : (respond src r s).trace = s.trace := by cases src <;> rfl

/-! ### `raiseRequest` -/

@[simp] theorem raiseRequest_cfg (p : Nat) (s : State) : (raiseRequest p s).cfg = s.cfg := rfl
@[simp] theorem raiseRequest_sel (p : Nat) (s : State) : (raiseRequest p s).sel = s.sel := rfl
@[simp] theorem raiseRequest_tx (p : Nat) (s : State) : (raiseRequest p s).tx = s.tx := rfl
@[simp] theorem raiseRequest_rx (p : Nat) (s : State) : (raiseRequest p s).rx = s.rx := rfl
@[simp] theorem raiseRequest_ini (p : Nat) (s : State) : (raiseRequest p s).ini = s.ini := rfl
@[simp] theorem raiseRequest_mode (p : Nat) (s : State) : (raiseRequest p s).mode = s.mode := rfl
@[simp] theorem raiseRequest_fcause (p : Nat) (s : State) : (raiseRequest p s).fcause = s.fcause := rfl
@[simp] theorem raiseRequest_regsBase (p : Nat) (s : State) : (raiseRequest p s).regsBase = s.regsBase := rfl
@[simp] theorem raiseRequest_txLock (p : Nat) (s : State) : (raiseRequest p s).txLock = s.txLock := rfl
@[simp] theorem raiseRequest_rxLock (p : Nat) (s : State) : (raiseRequest p s).rxLock = s.rxLock := rfl
@[simp] theorem raiseRequest_irqPend (p : Nat) (s : State) : (raiseRequest p s).irqPend = s.irqPend := rfl
@[simp] theorem raiseRequest_txShadow (p : Nat) (s : State) : (raiseRequest p s).txShadow = s.txShadow := rfl
@[simp] theorem raiseRequest_rxShadow (p : Nat) (s : State) : (raiseRequest p s).rxShadow = s.rxShadow := rfl
@[simp] theorem raiseRequest_mem (p : Nat) (s : State) : (raiseRequest p s).mem = s.mem := rfl
@[simp] theorem raiseRequest_dev (p : Nat) (s : State) : (raiseRequest p s).dev = s.dev := rfl
@[simp] theorem raiseRequest_owner (p : Nat) (s : State) : (raiseRequest p s).owner = s.owner := rfl
@[simp] theorem raiseRequest_bufLen (p : Nat) (s : State) : (raiseRequest p s).bufLen = s.bufLen := rfl
@[simp] theorem raiseRequest_areas (p : Nat) (s : State) : (raiseRequest p s).areas = s.areas := rfl
@[simp] theorem raiseRequest_irqSignals (p : Nat) (s : State) : (raiseRequest p s).irqSignals = s.irqSignals := rfl
@[simp] theorem raiseRequest_allocs (p : Nat) (s : State) : (raiseRequest p s).allocs = s.allocs := rfl
@[simp] theorem raiseRequest_script (p : Nat) (s : State) : (raiseRequest p s).script = s.script := rfl
@[simp] theorem raiseRequest_draws (p : Nat) (s : State) : (raiseRequest p s).draws = s.draws := rfl
@[simp] theorem raiseRequest_trace (p : Nat) (s : State) : (raiseRequest p s).trace = s.trace := rfl

/-! ### `queueCommand` -/

@[simp] theorem queueCommand_cfg (p : Nat) (i : Instr) (a0 : Handle) (a1 : Addr) (s : State) : (queueCommand p i a0 a1 s).cfg = s.cfg := rfl
@[simp] theorem queueCommand_sel (p : Nat) (i : Instr) (a0 : Handle) (a1 : Addr) (s : State) : (queueCommand p i a0 a1 s).sel = s.sel := rfl
@[simp] theorem queueCommand_tx (p : Nat) (i : Instr) (a0 : Handle) (a1 : Addr) (s : State) : (queueCommand p i a0 a1 s).tx = s.tx := rfl
@[simp] theorem queueCommand_rx (p : Nat) (i : Instr) (a0 : Handle) (a1 : Addr) (s : State) : (queueCommand p i a0 a1 s).rx = s.rx := rfl
@[simp] theorem queueCommand_ini (p : Nat) (i : Instr) (a0 : Handle) (a1 : Addr) (s : State) : (queueCommand p i a0 a1 s).ini = s.ini := rfl
@[simp] theorem queueCommand_mode (p : Nat) (i : Instr) (a0 : Handle) (a1 : Addr) (s : State) : (queueCommand p i a0 a1 s).mode = s.mode := rfl
@[simp] theorem queueCommand_fcause (p : Nat) (i : Instr) (a0 : Handle) (a1 : Addr) (s : State) : (queueCommand p i a0 a1 s).fcause = s.fcause := rfl
@[simp] theorem queueCommand_regsBase (p : Nat) (i : Instr) (a0 : Handle) (a1 : Addr) (s : State) : (queueCommand p i a0 a1 s).regsBase = s.regsBase := rfl
@[simp] theorem queueCommand_txLock (p : Nat) (i : Instr) (a0 : Handle) (a1 : Addr) (s : State) : (queueCommand p i a0 a1 s).txLock = s.txLock := rfl
@[simp] theorem queueCommand_rxLock (p : Nat) (i : Instr) (a0 : Handle) (a1 : Addr) (s : State) : (queueCommand p i a0 a1 s).rxLock = s.rxLock := rfl
@[simp] theorem queueCommand_irqPend (p : Nat) (i : Instr) (a0 : Handle) (a1 : Addr) (s : State) : (queueCommand p i a0 a1 s).irqPend = s.irqPend := rfl
@[simp] theorem queueCommand_txShadow (p : Nat) (i : Instr) (a0 : Handle) (a1 : Addr) (s : State) : (queueCommand p i a0 a1 s).txShadow = s.txShadow := rfl
@[simp] theorem queueCommand_rxShadow (p : Nat) (i : Instr) (a0 : Handle) (a1 : Addr) (s : State) : (queueCommand p i a0 a1 s).rxShadow = s.rxShadow := rfl
@[simp] theorem queueCommand_mem (p : Nat) (i : Instr) (a0 : Handle) (a1 : Addr) (s : State) : (queueCommand p i a0 a1 s).mem = s.mem := rfl
@[simp] theorem queueCommand_dev (p : Nat) (i : Instr) (a0 : Handle) (a1 : Addr) (s : State) : (queueCommand p i a0 a1 s).dev = s.dev := rfl
@[simp] theorem queueCommand_owner (p : Nat) (i : Instr) (a0 : Handle) (a1 : Addr) (s : State) : (queueCommand p i a0 a1 s).owner = s.owner := rfl
@[simp] theorem queueCommand_bufLen (p : Nat) (i : Instr) (a0 : Handle) (a1 : Addr) (s : State) : (queueCommand p i a0 a1 s).bufLen = s.bufLen := rfl
@[simp] theorem queueCommand_areas (p : Nat) (i : Instr) (a0 : Handle) (a1 : Addr) (s : State) : (queueCommand p i a0 a1 s).areas = s.areas := rfl
@[simp] theorem queueCommand_irqSignals (p : Nat) (i : Instr) (a0 : Handle) (a1 : Addr) (s : State) : (queueCommand p i a0 a1 s).irqSignals = s.irqSignals := rfl
@[simp] theorem queueCommand_allocs (p : Nat) (i : Instr) (a0 : Handle) (a1 : Addr) (s : State) : (queueCommand p i a0 a1 s).allocs = s.allocs := rfl
@[simp] theorem queueCommand_script (p : Nat) (i : Instr) (a0 : Handle) (a1 : Addr) (s : State) : (queueCommand p i a0 a1 s).script = s.script := rfl
@[simp] theorem queueCommand_draws (p : Nat) (i : Instr) (a0 : Handle) (a1 : Addr) (s : State) : (queueCommand p i a0 a1 s).draws = s.draws := rfl
@[simp] theorem queueCommand_trace (p : Nat) (i : Instr) (a0 : Handle) (a1 : Addr) (s : State) : (queueCommand p i a0 a1 s).trace = s.trace := rfl

/-! ### `unqueue` -/

@[simp] theorem unqueue_cfg (p : Nat) (s : State) : (unqueue p s).cfg = s.cfg := rfl
@[simp] theorem unqueue_sel (p : Nat) (s : State) : (unqueue p s).sel = s.sel := rfl
@[simp] theorem unqueue_tx (p : Nat) (s : State) : (unqueue p s).tx = s.tx := rfl
@[simp] theorem unqueue_rx (p : Nat) (s : State) : (unqueue p s).rx = s.rx := rfl
@[simp] theorem unqueue_ini (p : Nat) (s : State) : (unqueue p s).ini = s.ini := rfl
@[simp] theorem unqueue_mode (p : Nat) (s : State) : (unqueue p s).mode = s.mode := rfl
@[simp] theorem unqueue_fcause (p : Nat) (s : State) : (unqueue p s).fcause = s.fcause := rfl
@[simp] theorem unqueue_regsBase (p : Nat) (s : State) : (unqueue p s).regsBase = s.regsBase := rfl
@[simp] theorem unqueue_txLock (p : Nat) (s : State) : (unqueue p s).txLock = s.txLock := rfl
@[simp] theorem unqueue_rxLock (p : Nat) (s : State) : (unqueue p s).rxLock = s.rxLock := rfl
@[simp] theorem unqueue_irqPend (p : Nat) (s : State) : (unqueue p s).irqPend = s.irqPend := rfl
@[simp] theorem unqueue_txShadow (p : Nat) (s : State) : (unqueue p s).txShadow = s.txShadow := rfl
@[simp] theorem unqueue_rxShadow (p : Nat) (s : State) : (unqueue p s).rxShadow = s.rxShadow := rfl
@[simp] theorem unqueue_mem (p : Nat) (s : State) : (unqueue p s).mem = s.mem := rfl
@[simp] theorem unqueue_dev (p : Nat) (s : State) : (unqueue p s).dev = s.dev := rfl
@[simp] theorem unqueue_owner (p : Nat) (s : State) : (unqueue p s).owner = s.owner := rfl
@[simp] theorem unqueue_bufLen (p : Nat) (s : State) : (unqueue p s).bufLen = s.bufLen := rfl
@[simp] theorem unqueue_areas (p : Nat) (s : State) : (unqueue p s).areas = s.areas := rfl
@[simp] theorem unqueue_irqSignals (p : Nat) (s : State) : (unqueue p s).irqSignals = s.irqSignals := rfl
@[simp] theorem unqueue_allocs (p : Nat) (s : State) : (unqueue p s).allocs = s.allocs := rfl
@[simp] theorem unqueue_script (p : Nat) (s : State) : (unqueue p s).script = s.script := rfl
@[simp] theorem unqueue_draws (p : Nat) (s : State) : (unqueue p s).draws = s.draws := rfl
@[simp] theorem unqueue_trace (p : Nat) (s : State) : (unqueue p s).trace = s.trace := rfl

/-! ### `unqueueSource` -/

@[simp] theorem unqueueSource_cfg (src : Source) (s : State) : (unqueueSource src s).cfg = s.cfg := by cases src <;> rfl
@[simp] theorem unqueueSource_sel (src : Source) (s : State) : (unqueueSource src s).sel = s.sel := by cases src <;> rfl
@[simp] theorem unqueueSource_tx (src : Source) (s : State) : (unqueueSource src s).tx = s.tx := by cases src <;> rfl
@[simp] theorem unqueueSource_rx (src : Source) (s : State) : (unqueueSource src s).rx = s.rx := by cases src <;> rfl
@[simp] theorem unqueueSource_ini (src : Source) (s : State) : (unqueueSource src s).ini = s.ini := by cases src <;> rfl
@[simp] theorem unqueueSource_mode (src : Source) (s : State) : (unqueueSource src s).mode = s.mode := by cases src <;> rfl
@[simp] theorem unqueueSource_fcause (src : Source) (s : State) : (unqueueSource src s).fcause = s.fcause := by cases src <;> rfl
@[simp] theorem unqueueSource_regsBase (src : Source) (s : State) : (unqueueSource src s).regsBase = s.regsBase := by cases src <;> rfl
@[simp] theorem unqueueSource_txLock (src : Source) (s : State) : (unqueueSource src s).txLock = s.txLock := by cases src <;> rfl
@[simp] theorem unqueueSource_rxLock (src : Source) (s : State) : (unqueueSource src s).rxLock = s.rxLock := by cases src <;> rfl
@[simp] theorem unqueueSource_irqPend (src : Source) (s : State) : (unqueueSource src s).irqPend = s.irqPend := by cases src <;> rfl
@[simp] theorem unqueueSource_txShadow (src : Source) (s : State) : (unqueueSource src s).txShadow = s.txShadow := by cases src <;> rfl
@[simp] theorem unqueueSource_rxShadow (src : Source) (s : State) : (unqueueSource src s).rxShadow = s.rxShadow := by cases src <;> rfl
@[simp] theorem unqueueSource_mem (src : Source) (s : State) : (unqueueSource src s).mem = s.mem := by cases src <;> rfl
@[simp] theorem unqueueSource_dev (src : Source) (s : State) : (unqueueSource src s).dev = s.dev := by cases src <;> rfl
@[simp] theorem unqueueSource_owner (src : Source) (s : State) : (unqueueSource src s).owner = s.owner := by cases src <;> rfl
@[simp] theorem unqueueSource_bufLen (src : Source) (s : State) : (unqueueSource src s).bufLen = s.bufLen := by cases src <;> rfl
@[simp] theorem unqueueSource_areas (src : Source) (s : State) : (unqueueSource src s).areas = s.areas := by cases src <;> rfl
@[simp] theorem unqueueSource_irqSignals (src : Source) (s : State) : (unqueueSource src s).irqSignals = s.irqSignals := by cases src <;> rfl
@[simp] theorem unqueueSource_allocs (src : Source) (s : State) : (unqueueSource src s).allocs = s.allocs := by cases src <;> rfl
@[simp] theorem unqueueSource_script (src : Source) (s : State) : (unqueueSource src s).script = s.script := by cases src <;> rfl
@[simp] theorem unqueueSource_draws (src : Source) (s : State) : (unqueueSource src s).draws = s.draws := by cases src <;> rfl
@[simp] theorem unqueueSource_trace (src : Source) (s : State) : (unqueueSource src s).trace = s.trace := by cases src <;> rfl

/-! ### `holdTx` -/

@[simp] theorem holdTx_cfg (src : Source) (s : State) : (holdTx src s).cfg = s.cfg := rfl
@[simp] theorem holdTx_ports (src : Source) (s : State) : (holdTx src s).ports = s.ports := rfl
@[simp] theorem holdTx_sel (src : Source) (s : State) : (holdTx src s).sel = s.sel := rfl
@[simp] theorem holdTx_tx (src : Source) (s : State) : (holdTx src s).tx = s.tx := rfl
@[simp] theorem holdTx_rx (src : Source) (s : State) : (holdTx src s).rx = s.rx := rfl
@[simp] theorem holdTx_ini (src : Source) (s : State) : (holdTx src s).ini = s.ini := rfl
@[simp] theorem holdTx_mode (src : Source) (s : State) : (holdTx src s).mode = s.mode := rfl
@[simp] theorem holdTx_fcause (src : Source) (s : State) : (holdTx src s).fcause = s.fcause := rfl
@[simp] theorem holdTx_regsBase (src : Source) (s : State) : (holdTx src s).regsBase = s.regsBase := rfl
@[simp] theorem holdTx_txLock (src : Source) (s : State) : (holdTx src s).txLock = .held src := rfl
@[simp] theorem holdTx_rxLock (src : Source) (s : State) : (holdTx src s).rxLock = s.rxLock := rfl
@[simp] theorem holdTx_irqPend (src : Source) (s : State) : (holdTx src s).irqPend = s.irqPend := rfl
@[simp] theorem holdTx_txShadow (src : Source) (s : State) : (holdTx src s).txShadow = s.txShadow := rfl
@[simp] theorem holdTx_rxShadow (src : Source) (s : State) : (holdTx src s).rxShadow = s.rxShadow := rfl
@[simp] theorem holdTx_mem (src : Source) (s : State) : (holdTx src s).mem = s.mem := rfl
@[simp] theorem holdTx_dev (src : Source) (s : State) : (holdTx src s).dev = s.dev := rfl
@[simp] theorem holdTx_owner (src : Source) (s : State) : (holdTx src s).owner = s.owner := rfl
@[simp] theorem holdTx_bufLen (src : Source) (s : State) : (holdTx src s).bufLen = s.bufLen := rfl
@[simp] theorem holdTx_areas (src : Source) (s : State) : (holdTx src s).areas = s.areas := rfl
@[simp] theorem holdTx_irqSignals (src : Source) (s : State) : (holdTx src s).irqSignals = s.irqSignals := rfl
@[simp] theorem holdTx_allocs (src : Source) (s : State) : (holdTx src s).allocs = s.allocs := rfl
@[simp] theorem holdTx_script (src : Source) (s : State) : (holdTx src s).script = s.script := rfl
@[simp] theorem holdTx_draws (src : Source) (s : State) : (holdTx src s).draws = s.draws := rfl
@[simp] theorem holdTx_trace (src : Source) (s : State) : (holdTx src s).trace = s.trace := rfl

/-! ### `holdRx` -/

@[simp] theorem holdRx_cfg (src : Source) (s : State) : (holdRx src s).cfg = s.cfg := rfl
@[simp] theorem holdRx_ports (src : Source) (s : State) : (holdRx src s).ports = s.ports := rfl
@[simp] theorem holdRx_sel (src : Source) (s : State) : (holdRx src s).sel = s.sel := rfl
@[simp] theorem holdRx_tx (src : Source) (s : State) : (holdRx src s).tx = s.tx := rfl
@[simp] theorem holdRx_rx (src : Source) (s : State) : (holdRx src s).rx = s.rx := rfl
@[simp] theorem holdRx_ini (src : Source) (s : State) : (holdRx src s).ini = s.ini := rfl
@[simp] theorem holdRx_mode (src : Source) (s : State) : (holdRx src s).mode = s.mode := rfl
@[simp] theorem holdRx_fcause (src : Source) (s : State) : (holdRx src s).fcause = s.fcause := rfl
@[simp] theorem holdRx_regsBase (src : Source) (s : State) : (holdRx src s).regsBase = s.regsBase := rfl
@[simp] theorem holdRx_txLock (src : Source) (s : State) : (holdRx src s).txLock = s.txLock := rfl
@[simp] theorem holdRx_rxLock (src : Source) (s : State) : (holdRx src s).rxLock = .held src := rfl
@[simp] theorem holdRx_irqPend (src : Source) (s : State) : (holdRx src s).irqPend = s.irqPend := rfl
@[simp] theorem holdRx_txShadow (src : Source) (s : State) : (holdRx src s).txShadow = s.txShadow := rfl
@[simp] theorem holdRx_rxShadow (src : Source) (s : State) : (holdRx src s).rxShadow = s.rxShadow := rfl
@[simp] theorem holdRx_mem (src : Source) (s : State) : (holdRx src s).mem = s.mem := rfl
@[simp] theorem holdRx_dev (src : Source) (s : State) : (holdRx src s).dev = s.dev := rfl
@[simp] theorem holdRx_owner (src : Source) (s : State) : (holdRx src s).owner = s.owner := rfl
@[simp] theorem holdRx_bufLen (src : Source) (s : State) : (holdRx src s).bufLen = s.bufLen := rfl
@[simp] theorem holdRx_areas (src : Source) (s : State) : (holdRx src s).areas = s.areas := rfl
@[simp] theorem holdRx_irqSignals (src : Source) (s : State) : (holdRx src s).irqSignals = s.irqSignals := rfl
@[simp] theorem holdRx_allocs (src : Source) (s : State) : (holdRx src s).allocs = s.allocs := rfl
@[simp] theorem holdRx_script (src : Source) (s : State) : (holdRx src s).script = s.script := rfl
@[simp] theorem holdRx_draws (src : Source) (s : State) : (holdRx src s).draws = s.draws := rfl
@[simp] theorem holdRx_trace (src : Source) (s : State) : (holdRx src s).trace = s.trace := rfl

/-! ### `freeTx` -/

@[simp] theorem freeTx_cfg (s : State) : (freeTx s).cfg = s.cfg := rfl
@[simp] theorem freeTx_ports (s : State) : (freeTx s).ports = s.ports := rfl
@[simp] theorem freeTx_sel (s : State) : (freeTx s).sel = s.sel := rfl
@[simp] theorem freeTx_tx (s : State) : (freeTx s).tx = s.tx := rfl
@[simp] theorem freeTx_rx (s : State) : (freeTx s).rx = s.rx := rfl
@[simp] theorem freeTx_ini (s : State) : (freeTx s).ini = s.ini := rfl
@[simp] theorem freeTx_mode (s : State) : (freeTx s).mode = s.mode := rfl
@[simp] theorem freeTx_fcause (s : State) : (freeTx s).fcause = s.fcause := rfl
@[simp] theorem freeTx_regsBase (s : State) : (freeTx s).regsBase = s.regsBase := rfl
@[simp] theorem freeTx_txLock (s : State) : (freeTx s).txLock = .free := rfl
@[simp] theorem freeTx_rxLock (s : State) : (freeTx s).rxLock = s.rxLock := rfl
@[simp] theorem freeTx_irqPend (s : State) : (freeTx s).irqPend = s.irqPend := rfl
@[simp] theorem freeTx_txShadow (s : State) : (freeTx s).txShadow = s.txShadow := rfl
@[simp] theorem freeTx_rxShadow (s : State) : (freeTx s).rxShadow = s.rxShadow := rfl
@[simp] theorem freeTx_mem (s : State) : (freeTx s).mem = s.mem := rfl
@[simp] theorem freeTx_dev (s : State) : (freeTx s).dev = s.dev := rfl
@[simp] theorem freeTx_owner (s : State) : (freeTx s).owner = s.owner := rfl
@[simp] theorem freeTx_bufLen (s : State) : (freeTx s).bufLen = s.bufLen := rfl
@[simp] theorem freeTx_areas (s : State) : (freeTx s).areas = s.areas := rfl
@[simp] theorem freeTx_irqSignals (s : State) : (freeTx s).irqSignals = s.irqSignals := rfl
@[simp] theorem freeTx_allocs (s : State) : (freeTx s).allocs = s.allocs := rfl
@[simp] theorem freeTx_script (s : State) : (freeTx s).script = s.script := rfl
@[simp] theorem freeTx_draws (s : State) : (freeTx s).draws = s.draws := rfl
@[simp] theorem freeTx_trace (s : State) : (freeTx s).trace = s.trace := rfl

/-! ### `freeRx` -/

@[simp] theorem freeRx_cfg (s : State) : (freeRx s).cfg = s.cfg := rfl
@[simp] theorem freeRx_ports (s : State) : (freeRx s).ports = s.ports := rfl
@[simp] theorem freeRx_sel (s : State) : (freeRx s).sel = s.sel := rfl
@[simp] theorem freeRx_tx (s : State) : (freeRx s).tx = s.tx := rfl
@[simp] theorem freeRx_rx (s : State) : (freeRx s).rx = s.rx := rfl
@[simp] theorem freeRx_ini (s : State) : (freeRx s).ini = s.ini := rfl
@[simp] theorem freeRx_mode (s : State) : (freeRx s).mode = s.mode := rfl
@[simp] theorem freeRx_fcause (s : State) : (freeRx s).fcause = s.fcause := rfl
@[simp] theorem freeRx_regsBase (s : State) : (freeRx s).regsBase = s.regsBase := rfl
@[simp] theorem freeRx_txLock (s : State) : (freeRx s).txLock = s.txLock := rfl
@[simp] theorem freeRx_rxLock (s : State) : (freeRx s).rxLock = .free := rfl
@[simp] theorem freeRx_irqPend (s : State) : (freeRx s).irqPend = s.irqPend := rfl
@[simp] theorem freeRx_txShadow (s : State) : (freeRx s).txShadow = s.txShadow := rfl
@[simp] theorem freeRx_rxShadow (s : State) : (freeRx s).rxShadow = s.rxShadow := rfl
@[simp] theorem freeRx_mem (s : State) : (freeRx s).mem = s.mem := rfl
@[simp] theorem freeRx_dev (s : State) : (freeRx s).dev = s.dev := rfl
@[simp] theorem freeRx_owner (s : State) : (freeRx s).owner = s.owner := rfl
@[simp] theorem freeRx_bufLen (s : State) : (freeRx s).bufLen = s.bufLen := rfl
@[simp] theorem freeRx_areas (s : State) : (freeRx s).areas = s.areas := rfl
@[simp] theorem freeRx_irqSignals (s : State) : (freeRx s).irqSignals = s.irqSignals := rfl
@[simp] theorem freeRx_allocs (s : State) : (freeRx s).allocs = s.allocs := rfl
@[simp] theorem freeRx_script (s : State) : (freeRx s).script = s.script := rfl
@[simp] theorem freeRx_draws (s : State) : (freeRx s).draws = s.draws := rfl
@[simp] theorem freeRx_trace (s : State) : (freeRx s).trace = s.trace := rfl

/-! ### `raiseFatal` -/

@[simp] theorem raiseFatal_cfg (c : FatalCause) (s : State) : (raiseFatal c s).cfg = s.cfg := rfl
@[simp] theorem raiseFatal_ports (c : FatalCause) (s : State) : (raiseFatal c s).ports = s.ports := rfl
@[simp] theorem raiseFatal_sel (c : FatalCause) (s : State) : (raiseFatal c s).sel = s.sel := rfl
@[simp] theorem raiseFatal_tx (c : FatalCause) (s : State) : (raiseFatal c s).tx = s.tx := rfl
@[simp] theorem raiseFatal_rx (c : FatalCause) (s : State) : (raiseFatal c s).rx = s.rx := rfl
@[simp] theorem raiseFatal_ini (c : FatalCause) (s : State) : (raiseFatal c s).ini = s.ini := rfl
@[simp] theorem raiseFatal_mode (c : FatalCause) (s : State) : (raiseFatal c s).mode = .fatal := rfl
@[simp] theorem raiseFatal_fcause (c : FatalCause) (s : State) : (raiseFatal c s).fcause = c := rfl
@[simp] theorem raiseFatal_regsBase (c : FatalCause) (s : State) : (raiseFatal c s).regsBase = s.regsBase := rfl
@[simp] theorem raiseFatal_txLock (c : FatalCause) (s : State) : (raiseFatal c s).txLock = s.txLock := rfl
@[simp] theorem raiseFatal_rxLock (c : FatalCause) (s : State) : (raiseFatal c s).rxLock = s.rxLock := rfl
@[simp] theorem raiseFatal_irqPend (c : FatalCause) (s : State) : (raiseFatal c s).irqPend = s.irqPend := rfl
@[simp] theorem raiseFatal_txShadow (c : FatalCause) (s : State) : (raiseFatal c s).txShadow = s.txShadow := rfl
@[simp] theorem raiseFatal_rxShadow (c : FatalCause) (s : State) : (raiseFatal c s).rxShadow = s.rxShadow := rfl
@[simp] theorem raiseFatal_mem (c : FatalCause) (s : State) : (raiseFatal c s).mem = s.mem := rfl
@[simp] theorem raiseFatal_dev (c : FatalCause) (s : State) : (raiseFatal c s).dev = s.dev := rfl
@[simp] theorem raiseFatal_owner (c : FatalCause) (s : State) : (raiseFatal c s).owner = s.owner := rfl
@[simp] theorem raiseFatal_bufLen (c : FatalCause) (s : State) : (raiseFatal c s).bufLen = s.bufLen := rfl
@[simp] theorem raiseFatal_areas (c : FatalCause) (s : State) : (raiseFatal c s).areas = s.areas := rfl
@[simp] theorem raiseFatal_irqSignals (c : FatalCause) (s : State) : (raiseFatal c s).irqSignals = s.irqSignals := rfl
@[simp] theorem raiseFatal_allocs (c : FatalCause) (s : State) : (raiseFatal c s).allocs = s.allocs := rfl
@[simp] theorem raiseFatal_script (c : FatalCause) (s : State) : (raiseFatal c s).script = s.script := rfl
@[simp] theorem raiseFatal_draws (c : FatalCause) (s : State) : (raiseFatal c s).draws = s.draws := rfl
@[simp] theorem raiseFatal_trace (c : FatalCause) (s : State) : (raiseFatal c s).trace = s.trace := rfl

/-! ### `goTx` -/

@[simp] theorem goTx_cfg (pc : TxPc) (s : State) : (goTx pc s).cfg = s.cfg := rfl
@[simp] theorem goTx_ports (pc : TxPc) (s : State) : (goTx pc s).ports = s.ports := rfl
@[simp] theorem goTx_sel (pc : TxPc) (s : State) : (goTx pc s).sel = s.sel := rfl
@[simp] theorem goTx_tx (pc : TxPc) (s : State) : (goTx pc s).tx = { s.tx with pc := pc } := rfl
@[simp] theorem goTx_rx (pc : TxPc) (s : State) : (goTx pc s).rx = s.rx := rfl
@[simp] theorem goTx_ini (pc : TxPc) (s : State) : (goTx pc s).ini = s.ini := rfl
@[simp] theorem goTx_mode (pc : TxPc) (s : State) : (goTx pc s).mode = s.mode := rfl
@[simp] theorem goTx_fcause (pc : TxPc) (s : State) : (goTx pc s).fcause = s.fcause := rfl
@[simp] theorem goTx_regsBase (pc : TxPc) (s : State) : (goTx pc s).regsBase = s.regsBase := rfl
@[simp] theorem goTx_txLock (pc : TxPc) (s : State) : (goTx pc s).txLock = s.txLock := rfl
@[simp] theorem goTx_rxLock (pc : TxPc) (s : State) : (goTx pc s).rxLock = s.rxLock := rfl
@[simp] theorem goTx_irqPend (pc : TxPc) (s : State) : (goTx pc s).irqPend = s.irqPend := rfl
@[simp] theorem goTx_txShadow (pc : TxPc) (s : State) : (goTx pc s).txShadow = s.txShadow := rfl
@[simp] theorem goTx_rxShadow (pc : TxPc) (s : State) : (goTx pc s).rxShadow = s.rxShadow := rfl
@[simp] theorem goTx_mem (pc : TxPc) (s : State) : (goTx pc s).mem = s.mem := rfl
@[simp] theorem goTx_dev (pc : TxPc) (s : State) : (goTx pc s).dev = s.dev := rfl
@[simp] theorem goTx_owner (pc : TxPc) (s : State) : (goTx pc s).owner = s.owner := rfl
@[simp] theorem goTx_bufLen (pc : TxPc) (s : State) : (goTx pc s).bufLen = s.bufLen := rfl
@[simp] theorem goTx_areas (pc : TxPc) (s : State) : (goTx pc s).areas = s.areas := rfl
@[simp] theorem goTx_irqSignals (pc : TxPc) (s : State) : (goTx pc s).irqSignals = s.irqSignals := rfl
@[simp] theorem goTx_allocs (pc : TxPc) (s : State) : (goTx pc s).allocs = s.allocs := rfl
@[simp] theorem goTx_script (pc : TxPc) (s : State) : (goTx pc s).script = s.script := rfl
@[simp] theorem goTx_draws (pc : TxPc) (s : State) : (goTx pc s).draws = s.draws := rfl
@[simp] theorem goTx_trace (pc : TxPc) (s : State) : (goTx pc s).trace = s.trace := rfl

/-! ### `goRx` -/

@[simp] theorem goRx_cfg (pc : RxPc) (s : State) : (goRx pc s).cfg = s.cfg := rfl
@[simp] theorem goRx_ports (pc : RxPc) (s : State) : (goRx pc s).ports = s.ports := rfl
@[simp] theorem goRx_sel (pc : RxPc) (s : State) : (goRx pc s).sel = s.sel := rfl
@[simp] theorem goRx_tx (pc : RxPc) (s : State) : (goRx pc s).tx = s.tx := rfl
@[simp] theorem goRx_rx (pc : RxPc) (s : State) : (goRx pc s).rx = { s.rx with pc := pc } := rfl
@[simp] theorem goRx_ini (pc : RxPc) (s : State) : (goRx pc s).ini = s.ini := rfl
@[simp] theorem goRx_mode (pc : RxPc) (s : State) : (goRx pc s).mode = s.mode := rfl
@[simp] theorem goRx_fcause (pc : RxPc) (s : State) : (goRx pc s).fcause = s.fcause := rfl
@[simp] theorem goRx_regsBase (pc : RxPc) (s : State) : (goRx pc s).regsBase = s.regsBase := rfl
@[simp] theorem goRx_txLock (pc : RxPc) (s : State) : (goRx pc s).txLock = s.txLock := rfl
@[simp] theorem goRx_rxLock (pc : RxPc) (s : State) : (goRx pc s).rxLock = s.rxLock := rfl
@[simp] theorem goRx_irqPend (pc : RxPc) (s : State) : (goRx pc s).irqPend = s.irqPend := rfl
@[simp] theorem goRx_txShadow (pc : RxPc) (s : State) : (goRx pc s).txShadow = s.txShadow := rfl
@[simp] theorem goRx_rxShadow (pc : RxPc) (s : State) : (goRx pc s).rxShadow = s.rxShadow := rfl
@[simp] theorem goRx_mem (pc : RxPc) (s : State) : (goRx pc s).mem = s.mem := rfl
@[simp] theorem goRx_dev (pc : RxPc) (s : State) : (goRx pc s).dev = s.dev := rfl
@[simp] theorem goRx_owner (pc : RxPc) (s : State) : (goRx pc s).owner = s.owner := rfl
@[simp] theorem goRx_bufLen (pc : RxPc) (s : State) : (goRx pc s).bufLen = s.bufLen := rfl
@[simp] theorem goRx_areas (pc : RxPc) (s : State) : (goRx pc s).areas = s.areas := rfl
@[simp] theorem goRx_irqSignals (pc : RxPc) (s : State) : (goRx pc s).irqSignals = s.irqSignals := rfl
@[simp] theorem goRx_allocs (pc : RxPc) (s : State) : (goRx pc s).allocs = s.allocs := rfl
@[simp] theorem goRx_script (pc : RxPc) (s : State) : (goRx pc s).script = s.script := rfl
@[simp] theorem goRx_draws (pc : RxPc) (s : State) : (goRx pc s).draws = s.draws := rfl
@[simp] theorem goRx_trace (pc : RxPc) (s : State) : (goRx pc s).trace = s.trace := rfl

/-! ### `goInit` -/

@[simp] theorem goInit_cfg (pc : InitPc) (s : State) : (goInit pc s).cfg = s.cfg := rfl
@[simp] theorem goInit_ports (pc : InitPc) (s : State) : (goInit pc s).ports = s.ports := rfl
@[simp] theorem goInit_sel (pc : InitPc) (s : State) : (goInit pc s).sel = s.sel := rfl
@[simp] theorem goInit_tx (pc : InitPc) (s : State) : (goInit pc s).tx = s.tx := rfl
@[simp] theorem goInit_rx (pc : InitPc) (s : State) : (goInit pc s).rx = s.rx := rfl
@[simp] theorem goInit_ini (pc : InitPc) (s : State) : (goInit pc s).ini = { s.ini with pc := pc } := rfl
@[simp] theorem goInit_mode (pc : InitPc) (s : State) : (goInit pc s).mode = s.mode := rfl
@[simp] theorem goInit_fcause (pc : InitPc) (s : State) : (goInit pc s).fcause = s.fcause := rfl
@[simp] theorem goInit_regsBase (pc : InitPc) (s : State) : (goInit pc s).regsBase = s.regsBase := rfl
@[simp] theorem goInit_txLock (pc : InitPc) (s : State) : (goInit pc s).txLock = s.txLock := rfl
@[simp] theorem goInit_rxLock (pc : InitPc) (s : State) : (goInit pc s).rxLock = s.rxLock := rfl
@[simp] theorem goInit_irqPend (pc : InitPc) (s : State) : (goInit pc s).irqPend = s.irqPend := rfl
@[simp] theorem goInit_txShadow (pc : InitPc) (s : State) : (goInit pc s).txShadow = s.txShadow := rfl
@[simp] theorem goInit_rxShadow (pc : InitPc) (s : State) : (goInit pc s).rxShadow = s.rxShadow := rfl
@[simp] theorem goInit_mem (pc : InitPc) (s : State) : (goInit pc s).mem = s.mem := rfl
@[simp] theorem goInit_dev (pc : InitPc) (s : State) : (goInit pc s).dev = s.dev := rfl
@[simp] theorem goInit_owner (pc : InitPc) (s : State) : (goInit pc s).owner = s.owner := rfl
@[simp] theorem goInit_bufLen (pc : InitPc) (s : State) : (goInit pc s).bufLen = s.bufLen := rfl
@[simp] theorem goInit_areas (pc : InitPc) (s : State) : (goInit pc s).areas = s.areas := rfl
@[simp] theorem goInit_irqSignals (pc : InitPc) (s : State) : (goInit pc s).irqSignals = s.irqSignals := rfl
@[simp] theorem goInit_allocs (pc : InitPc) (s : State) : (goInit pc s).allocs = s.allocs := rfl
@[simp] theorem goInit_script (pc : InitPc) (s : State) : (goInit pc s).script = s.script := rfl
@[simp] theorem goInit_draws (pc : InitPc) (s : State) : (goInit pc s).draws = s.draws := rfl
@[simp] theorem goInit_trace (pc : InitPc) (s : State) : (goInit pc s).trace = s.trace := rfl

/-! ### `goLoop` -/

@[simp] theorem goLoop_cfg (pc : InitPc) (s : State) : (goLoop pc s).cfg = s.cfg := rfl
@[simp] theorem goLoop_ports (pc : InitPc) (s : State) : (goLoop pc s).ports = s.ports := rfl
@[simp] theorem goLoop_sel (pc : InitPc) (s : State) : (goLoop pc s).sel = s.sel := rfl
@[simp] theorem goLoop_tx (pc : InitPc) (s : State) : (goLoop pc s).tx = s.tx := rfl
@[simp] theorem goLoop_rx (pc : InitPc) (s : State) : (goLoop pc s).rx = s.rx := rfl
@[simp] theorem goLoop_ini (pc : InitPc) (s : State) : (goLoop pc s).ini = { s.ini with pc := pc, i := 0, k := 0 } := rfl
@[simp] theorem goLoop_mode (pc : InitPc) (s : State) : (goLoop pc s).mode = s.mode := rfl
@[simp] theorem goLoop_fcause (pc : InitPc) (s : State) : (goLoop pc s).fcause = s.fcause := rfl
@[simp] theorem goLoop_regsBase (pc : InitPc) (s : State) : (goLoop pc s).regsBase = s.regsBase := rfl
@[simp] theorem goLoop_txLock (pc : InitPc) (s : State) : (goLoop pc s).txLock = s.txLock := rfl
@[simp] theorem goLoop_rxLock (pc : InitPc) (s : State) : (goLoop pc s).rxLock = s.rxLock := rfl
@[simp] theorem goLoop_irqPend (pc : InitPc) (s : State) : (goLoop pc s).irqPend = s.irqPend := rfl
@[simp] theorem goLoop_txShadow (pc : InitPc) (s : State) : (goLoop pc s).txShadow = s.txShadow := rfl
@[simp] theorem goLoop_rxShadow (pc : InitPc) (s : State) : (goLoop pc s).rxShadow = s.rxShadow := rfl
@[simp] theorem goLoop_mem (pc : InitPc) (s : State) : (goLoop pc s).mem = s.mem := rfl
@[simp] theorem goLoop_dev (pc : InitPc) (s : State) : (goLoop pc s).dev = s.dev := rfl
@[simp] theorem goLoop_owner (pc : InitPc) (s : State) : (goLoop pc s).owner = s.owner := rfl
@[simp] theorem goLoop_bufLen (pc : InitPc) (s : State) : (goLoop pc s).bufLen = s.bufLen := rfl
@[simp] theorem goLoop_areas (pc : InitPc) (s : State) : (goLoop pc s).areas = s.areas := rfl
@[simp] theorem goLoop_irqSignals (pc : InitPc) (s : State) : (goLoop pc s).irqSignals = s.irqSignals := rfl
@[simp] theorem goLoop_allocs (pc : InitPc) (s : State) : (goLoop pc s).allocs = s.allocs := rfl
@[simp] theorem goLoop_script (pc : InitPc) (s : State) : (goLoop pc s).script = s.script := rfl
@[simp] theorem goLoop_draws (pc : InitPc) (s : State) : (goLoop pc s).draws = s.draws := rfl
@[simp] theorem goLoop_trace (pc : InitPc) (s : State) : (goLoop pc s).trace = s.trace := rfl

/-! ### `nextAccess` -/

@[simp] theorem nextAccess_cfg (s : State) : (nextAccess s).cfg = s.cfg := rfl
@[simp] theorem nextAccess_ports (s : State) : (nextAccess s).ports = s.ports := rfl
@[simp] theorem nextAccess_sel (s : State) : (nextAccess s).sel = s.sel := rfl
@[simp] theorem nextAccess_tx (s : State) : (nextAccess s).tx = s.tx := rfl
@[simp] theorem nextAccess_rx (s : State) : (nextAccess s).rx = s.rx := rfl
@[simp] theorem nextAccess_ini (s : State) : (nextAccess s).ini = { s.ini with k := s.ini.k + 1 } := rfl
@[simp] theorem nextAccess_mode (s : State) : (nextAccess s).mode = s.mode := rfl
@[simp] theorem nextAccess_fcause (s : State) : (nextAccess s).fcause = s.fcause := rfl
@[simp] theorem nextAccess_regsBase (s : State) : (nextAccess s).regsBase = s.regsBase := rfl
@[simp] theorem nextAccess_txLock (s : State) : (nextAccess s).txLock = s.txLock := rfl
@[simp] theorem nextAccess_rxLock (s : State) : (nextAccess s).rxLock = s.rxLock := rfl
@[simp] theorem nextAccess_irqPend (s : State) : (nextAccess s).irqPend = s.irqPend := rfl
@[simp] theorem nextAccess_txShadow (s : State) : (nextAccess s).txShadow = s.txShadow := rfl
@[simp] theorem nextAccess_rxShadow (s : State) : (nextAccess s).rxShadow = s.rxShadow := rfl
@[simp] theorem nextAccess_mem (s : State) : (nextAccess s).mem = s.mem := rfl
@[simp] theorem nextAccess_dev (s : State) : (nextAccess s).dev = s.dev := rfl
@[simp] theorem nextAccess_owner (s : State) : (nextAccess s).owner = s.owner := rfl
@[simp] theorem nextAccess_bufLen (s : State) : (nextAccess s).bufLen = s.bufLen := rfl
@[simp] theorem nextAccess_areas (s : State) : (nextAccess s).areas = s.areas := rfl
@[simp] theorem nextAccess_irqSignals (s : State) : (nextAccess s).irqSignals = s.irqSignals := rfl
@[simp] theorem nextAccess_allocs (s : State) : (nextAccess s).allocs = s.allocs := rfl
@[simp] theorem nextAccess_script (s : State) : (nextAccess s).script = s.script := rfl
@[simp] theorem nextAccess_draws (s : State) : (nextAccess s).draws = s.draws := rfl
@[simp] theorem nextAccess_trace (s : State) : (nextAccess s).trace = s.trace := rfl

/-! ### `loadTx` -/

@[simp] theorem loadTx_cfg (p : Nat) (h : Handle) (a : Addr) (n : Len) (s : State) : (loadTx p h a n s).cfg = s.cfg := rfl
@[simp] theorem loadTx_ports (p : Nat) (h : Handle) (a : Addr) (n : Len) (s : State) : (loadTx p h a n s).ports = s.ports := rfl
@[simp] theorem loadTx_sel (p : Nat) (h : Handle) (a : Addr) (n : Len) (s : State) : (loadTx p h a n s).sel = s.sel := rfl
@[simp] theorem loadTx_tx (p : Nat) (h : Handle) (a : Addr) (n : Len) (s : State) : (loadTx p h a n s).tx = { s.tx with pc := .x1, p := p, h := h, a := a, n := n } := rfl
@[simp] theorem loadTx_rx (p : Nat) (h : Handle) (a : Addr) (n : Len) (s : State) : (loadTx p h a n s).rx = s.rx := rfl
@[simp] theorem loadTx_ini (p : Nat) (h : Handle) (a : Addr) (n : Len) (s : State) : (loadTx p h a n s).ini = s.ini := rfl
@[simp] theorem loadTx_mode (p : Nat) (h : Handle) (a : Addr) (n : Len) (s : State) : (loadTx p h a n s).mode = s.mode := rfl
@[simp] theorem loadTx_fcause (p : Nat) (h : Handle) (a : Addr) (n : Len) (s : State) : (loadTx p h a n s).fcause = s.fcause := rfl
@[simp] theorem loadTx_regsBase (p : Nat) (h : Handle) (a : Addr) (n : Len) (s : State) : (loadTx p h a n s).regsBase = s.regsBase := rfl
@[simp] theorem loadTx_txLock (p : Nat) (h : Handle) (a : Addr) (n : Len) (s : State) : (loadTx p h a n s).txLock = s.txLock := rfl
@[simp] theorem loadTx_rxLock (p : Nat) (h : Handle) (a : Addr) (n : Len) (s : State) : (loadTx p h a n s).rxLock = s.rxLock := rfl
@[simp] theorem loadTx_irqPend (p : Nat) (h : Handle) (a : Addr) (n : Len) (s : State) : (loadTx p h a n s).irqPend = s.irqPend := rfl
@[simp] theorem loadTx_txShadow (p : Nat) (h : Handle) (a : Addr) (n : Len) (s : State) : (loadTx p h a n s).txShadow = s.txShadow := rfl
@[simp] theorem loadTx_rxShadow (p : Nat) (h : Handle) (a : Addr) (n : Len) (s : State) : (loadTx p h a n s).rxShadow = s.rxShadow := rfl
@[simp] theorem loadTx_mem (p : Nat) (h : Handle) (a : Addr) (n : Len) (s : State) : (loadTx p h a n s).mem = s.mem := rfl
@[simp] theorem loadTx_dev (p : Nat) (h : Handle) (a : Addr) (n : Len) (s : State) : (loadTx p h a n s).dev = s.dev := rfl
@[simp] theorem loadTx_owner (p : Nat) (h : Handle) (a : Addr) (n : Len) (s : State) : (loadTx p h a n s).owner = s.owner := rfl
@[simp] theorem loadTx_bufLen (p : Nat) (h : Handle) (a : Addr) (n : Len) (s : State) : (loadTx p h a n s).bufLen = s.bufLen := rfl
@[simp] theorem loadTx_areas (p : Nat) (h : Handle) (a : Addr) (n : Len) (s : State) : (loadTx p h a n s).areas = s.areas := rfl
@[simp] theorem loadTx_irqSignals (p : Nat) (h : Handle) (a : Addr) (n : Len) (s : State) : (loadTx p h a n s).irqSignals = s.irqSignals := rfl
@[simp] theorem loadTx_allocs (p : Nat) (h : Handle) (a : Addr) (n : Len) (s : State) : (loadTx p h a n s).allocs = s.allocs := rfl
@[simp] theorem loadTx_script (p : Nat) (h : Handle) (a : Addr) (n : Len) (s : State) : (loadTx p h a n s).script = s.script := rfl
@[simp] theorem loadTx_draws (p : Nat) (h : Handle) (a : Addr) (n : Len) (s : State) : (loadTx p h a n s).draws = s.draws := rfl
@[simp] theorem loadTx_trace (p : Nat) (h : Handle) (a : Addr) (n : Len) (s : State) : (loadTx p h a n s).trace = s.trace := rfl

/-! ### `loadRx` -/

@[simp] theorem loadRx_cfg (src : Source) (kind : RxKind) (s : State) : (loadRx src kind s).cfg = s.cfg := rfl
@[simp] theorem loadRx_ports (src : Source) (kind : RxKind) (s : State) : (loadRx src kind s).ports = s.ports := rfl
@[simp] theorem loadRx_sel (src : Source) (kind : RxKind) (s : State) : (loadRx src kind s).sel = s.sel := rfl
@[simp] theorem loadRx_tx (src : Source) (kind : RxKind) (s : State) : (loadRx src kind s).tx = s.tx := rfl
@[simp] theorem loadRx_rx (src : Source) (kind : RxKind) (s : State) : (loadRx src kind s).rx = { s.rx with pc := (match kind with | .intr => .i1 | .drain => .d0), src := src, kind := kind } := rfl
@[simp] theorem loadRx_ini (src : Source) (kind : RxKind) (s : State) : (loadRx src kind s).ini = s.ini := rfl
@[simp] theorem loadRx_mode (src : Source) (kind : RxKind) (s : State) : (loadRx src kind s).mode = s.mode := rfl
@[simp] theorem loadRx_fcause (src : Source) (kind : RxKind) (s : State) : (loadRx src kind s).fcause = s.fcause := rfl
@[simp] theorem loadRx_regsBase (src : Source) (kind : RxKind) (s : State) : (loadRx src kind s).regsBase = s.regsBase := rfl
@[simp] theorem loadRx_txLock (src : Source) (kind : RxKind) (s : State) : (loadRx src kind s).txLock = s.txLock := rfl
@[simp] theorem loadRx_rxLock (src : Source) (kind : RxKind) (s : State) : (loadRx src kind s).rxLock = s.rxLock := rfl
@[simp] theorem loadRx_irqPend (src : Source) (kind : RxKind) (s : State) : (loadRx src kind s).irqPend = s.irqPend := rfl
@[simp] theorem loadRx_txShadow (src : Source) (kind : RxKind) (s : State) : (loadRx src kind s).txShadow = s.txShadow := rfl
@[simp] theorem loadRx_rxShadow (src : Source) (kind : RxKind) (s : State) : (loadRx src kind s).rxShadow = s.rxShadow := rfl
@[simp] theorem loadRx_mem (src : Source) (kind : RxKind) (s : State) : (loadRx src kind s).mem = s.mem := rfl
@[simp] theorem loadRx_dev (src : Source) (kind : RxKind) (s : State) : (loadRx src kind s).dev = s.dev := rfl
@[simp] theorem loadRx_owner (src : Source) (kind : RxKind) (s : State) : (loadRx src kind s).owner = s.owner := rfl
@[simp] theorem loadRx_bufLen (src : Source) (kind : RxKind) (s : State) : (loadRx src kind s).bufLen = s.bufLen := rfl
@[simp] theorem loadRx_areas (src : Source) (kind : RxKind) (s : State) : (loadRx src kind s).areas = s.areas := rfl
@[simp] theorem loadRx_irqSignals (src : Source) (kind : RxKind) (s : State) : (loadRx src kind s).irqSignals = s.irqSignals := rfl
@[simp] theorem loadRx_allocs (src : Source) (kind : RxKind) (s : State) : (loadRx src kind s).allocs = s.allocs := rfl
@[simp] theorem loadRx_script (src : Source) (kind : RxKind) (s : State) : (loadRx src kind s).script = s.script := rfl
@[simp] theorem loadRx_draws (src : Source) (kind : RxKind) (s : State) : (loadRx src kind s).draws = s.draws := rfl
@[simp] theorem loadRx_trace (src : Source) (kind : RxKind) (s : State) : (loadRx src kind s).trace = s.trace := rfl

/-! ### `devStore` -/

@[simp] theorem devStore_cfg (a : Addr) (n v : Nat) (s : State) : (devStore a n v s).cfg = s.cfg := rfl
@[simp] theorem devStore_ports (a : Addr) (n v : Nat) (s : State) : (devStore a n v s).ports = s.ports := rfl
@[simp] theorem devStore_sel (a : Addr) (n v : Nat) (s : State) : (devStore a n v s).sel = s.sel := rfl
@[simp] theorem devStore_tx (a : Addr) (n v : Nat) (s : State) : (devStore a n v s).tx = s.tx := rfl
@[simp] theorem devStore_rx (a : Addr) (n v : Nat) (s : State) : (devStore a n v s).rx = s.rx := rfl
@[simp] theorem devStore_ini (a : Addr) (n v : Nat) (s : State) : (devStore a n v s).ini = s.ini := rfl
@[simp] theorem devStore_mode (a : Addr) (n v : Nat) (s : State) : (devStore a n v s).mode = s.mode := rfl
@[simp] theorem devStore_fcause (a : Addr) (n v : Nat) (s : State) : (devStore a n v s).fcause = s.fcause := rfl
@[simp] theorem devStore_regsBase (a : Addr) (n v : Nat) (s : State) : (devStore a n v s).regsBase = s.regsBase := rfl
@[simp] theorem devStore_txLock (a : Addr) (n v : Nat) (s : State) : (devStore a n v s).txLock = s.txLock := rfl
@[simp] theorem devStore_rxLock (a : Addr) (n v : Nat) (s : State) : (devStore a n v s).rxLock = s.rxLock := rfl
@[simp] theorem devStore_irqPend (a : Addr) (n v : Nat) (s : State) : (devStore a n v s).irqPend = s.irqPend := rfl
@[simp] theorem devStore_txShadow (a : Addr) (n v : Nat) (s : State) : (devStore a n v s).txShadow = s.txShadow := rfl
@[simp] theorem devStore_rxShadow (a : Addr) (n v : Nat) (s : State) : (devStore a n v s).rxShadow = s.rxShadow := rfl
@[simp] theorem devStore_mem (a : Addr) (n v : Nat) (s : State) : (devStore a n v s).mem = writeBytes s.mem a n v := rfl
@[simp] theorem devStore_dev (a : Addr) (n v : Nat) (s : State) : (devStore a n v s).dev = s.dev := rfl
@[simp] theorem devStore_owner (a : Addr) (n v : Nat) (s : State) : (devStore a n v s).owner = s.owner := rfl
@[simp] theorem devStore_bufLen (a : Addr) (n v : Nat) (s : State) : (devStore a n v s).bufLen = s.bufLen := rfl
@[simp] theorem devStore_areas (a : Addr) (n v : Nat) (s : State) : (devStore a n v s).areas = s.areas := rfl
@[simp] theorem devStore_irqSignals (a : Addr) (n v : Nat) (s : State) : (devStore a n v s).irqSignals = s.irqSignals := rfl
@[simp] theorem devStore_allocs (a : Addr) (n v : Nat) (s : State) : (devStore a n v s).allocs = s.allocs := rfl
@[simp] theorem devStore_script (a : Addr) (n v : Nat) (s : State) : (devStore a n v s).script = s.script := rfl
@[simp] theorem devStore_draws (a : Addr) (n v : Nat) (s : State) : (devStore a n v s).draws = s.draws := rfl
@[simp] theorem devStore_trace (a : Addr) (n v : Nat) (s : State) : (devStore a n v s).trace = s.trace := rfl

/-! ### `addCause` -/

@[simp] theorem addCause_cfg (c : Word) (s : State) : (addCause c s).cfg = s.cfg := rfl
@[simp] theorem addCause_ports (c : Word) (s : State) : (addCause c s).ports = s.ports := rfl
@[simp] theorem addCause_sel (c : Word) (s : State) : (addCause c s).sel = s.sel := rfl
@[simp] theorem addCause_tx (c : Word) (s : State) : (addCause c s).tx = s.tx := rfl
@[simp] theorem addCause_rx (c : Word) (s : State) : (addCause c s).rx = s.rx := rfl
@[simp] theorem addCause_ini (c : Word) (s : State) : (addCause c s).ini = s.ini := rfl
@[simp] theorem addCause_mode (c : Word) (s : State) : (addCause c s).mode = s.mode := rfl
@[simp] theorem addCause_fcause (c : Word) (s : State) : (addCause c s).fcause = s.fcause := rfl
@[simp] theorem addCause_regsBase (c : Word) (s : State) : (addCause c s).regsBase = s.regsBase := rfl
@[simp] theorem addCause_txLock (c : Word) (s : State) : (addCause c s).txLock = s.txLock := rfl
@[simp] theorem addCause_rxLock (c : Word) (s : State) : (addCause c s).rxLock = s.rxLock := rfl
@[simp] theorem addCause_irqPend (c : Word) (s : State) : (addCause c s).irqPend = s.irqPend := rfl
@[simp] theorem addCause_txShadow (c : Word) (s : State) : (addCause c s).txShadow = s.txShadow := rfl
@[simp] theorem addCause_rxShadow (c : Word) (s : State) : (addCause c s).rxShadow = s.rxShadow := rfl
@[simp] theorem addCause_mem (c : Word) (s : State) : (addCause c s).mem = s.mem := rfl
@[simp] theorem addCause_owner (c : Word) (s : State) : (addCause c s).owner = s.owner := rfl
@[simp] theorem addCause_bufLen (c : Word) (s : State) : (addCause c s).bufLen = s.bufLen := rfl
@[simp] theorem addCause_areas (c : Word) (s : State) : (addCause c s).areas = s.areas := rfl
@[simp] theorem addCause_irqSignals (c : Word) (s : State) : (addCause c s).irqSignals = s.irqSignals := rfl
@[simp] theorem addCause_allocs (c : Word) (s : State) : (addCause c s).allocs = s.allocs := rfl
@[simp] theorem addCause_script (c : Word) (s : State) : (addCause c s).script = s.script := rfl
@[simp] theorem addCause_draws (c : Word) (s : State) : (addCause c s).draws = s.draws := rfl
@[simp] theorem addCause_trace (c : Word) (s : State) : (addCause c s).trace = s.trace := rfl

/-! ### `advanceHead` -/

@[simp] theorem advanceHead_cfg (r : Ring) (at_ : Option Nat) (s : State) : (advanceHead r at_ s).cfg = s.cfg := by cases at_ <;> cases r <;> rfl
@[simp] theorem advanceHead_ports (r : Ring) (at_ : Option Nat) (s : State) : (advanceHead r at_ s).ports = s.ports := by cases at_ <;> cases r <;> rfl
@[simp] theorem advanceHead_sel (r : Ring) (at_ : Option Nat) (s : State) : (advanceHead r at_ s).sel = s.sel := by cases at_ <;> cases r <;> rfl
@[simp] theorem advanceHead_tx (r : Ring) (at_ : Option Nat) (s : State) : (advanceHead r at_ s).tx = s.tx := by cases at_ <;> cases r <;> rfl
@[simp] theorem advanceHead_rx (r : Ring) (at_ : Option Nat) (s : State) : (advanceHead r at_ s).rx = s.rx := by cases at_ <;> cases r <;> rfl
@[simp] theorem advanceHead_ini (r : Ring) (at_ : Option Nat) (s : State) : (advanceHead r at_ s).ini = s.ini := by cases at_ <;> cases r <;> rfl
@[simp] theorem advanceHead_mode (r : Ring) (at_ : Option Nat) (s : State) : (advanceHead r at_ s).mode = s.mode := by cases at_ <;> cases r <;> rfl
@[simp] theorem advanceHead_fcause (r : Ring) (at_ : Option Nat) (s : State) : (advanceHead r at_ s).fcause = s.fcause := by cases at_ <;> cases r <;> rfl
@[simp] theorem advanceHead_regsBase (r : Ring) (at_ : Option Nat) (s : State) : (advanceHead r at_ s).regsBase = s.regsBase := by cases at_ <;> cases r <;> rfl
@[simp] theorem advanceHead_txLock (r : Ring) (at_ : Option Nat) (s : State) : (advanceHead r at_ s).txLock = s.txLock := by cases at_ <;> cases r <;> rfl
@[simp] theorem advanceHead_rxLock (r : Ring) (at_ : Option Nat) (s : State) : (advanceHead r at_ s).rxLock = s.rxLock := by cases at_ <;> cases r <;> rfl
@[simp] theorem advanceHead_irqPend (r : Ring) (at_ : Option Nat) (s : State) : (advanceHead r at_ s).irqPend = s.irqPend := by cases at_ <;> cases r <;> rfl
@[simp] theorem advanceHead_txShadow (r : Ring) (at_ : Option Nat) (s : State) : (advanceHead r at_ s).txShadow = s.txShadow := by cases at_ <;> cases r <;> rfl
@[simp] theorem advanceHead_rxShadow (r : Ring) (at_ : Option Nat) (s : State) : (advanceHead r at_ s).rxShadow = s.rxShadow := by cases at_ <;> cases r <;> rfl
@[simp] theorem advanceHead_mem (r : Ring) (at_ : Option Nat) (s : State) : (advanceHead r at_ s).mem = s.mem := by cases at_ <;> cases r <;> rfl
@[simp] theorem advanceHead_owner (r : Ring) (at_ : Option Nat) (s : State) : (advanceHead r at_ s).owner = s.owner := by cases at_ <;> cases r <;> rfl
@[simp] theorem advanceHead_bufLen (r : Ring) (at_ : Option Nat) (s : State) : (advanceHead r at_ s).bufLen = s.bufLen := by cases at_ <;> cases r <;> rfl
@[simp] theorem advanceHead_areas (r : Ring) (at_ : Option Nat) (s : State) : (advanceHead r at_ s).areas = s.areas := by cases at_ <;> cases r <;> rfl
@[simp] theorem advanceHead_irqSignals (r : Ring) (at_ : Option Nat) (s : State) : (advanceHead r at_ s).irqSignals = s.irqSignals := by cases at_ <;> cases r <;> rfl
@[simp] theorem advanceHead_allocs (r : Ring) (at_ : Option Nat) (s : State) : (advanceHead r at_ s).allocs = s.allocs := by cases at_ <;> cases r <;> rfl
@[simp] theorem advanceHead_script (r : Ring) (at_ : Option Nat) (s : State) : (advanceHead r at_ s).script = s.script := by cases at_ <;> cases r <;> rfl
@[simp] theorem advanceHead_draws (r : Ring) (at_ : Option Nat) (s : State) : (advanceHead r at_ s).draws = s.draws := by cases at_ <;> cases r <;> rfl
@[simp] theorem advanceHead_trace (r : Ring) (at_ : Option Nat) (s : State) : (advanceHead r at_ s).trace = s.trace := by cases at_ <;> cases r <;> rfl

/-! ### The descriptor writes are memory writes (R122) -/

@[simp] theorem wrAddr_eq (r : Ring) (i : Nat) (a : Addr) (s : State) :
    wrAddr r i a s = memWrite (field s.cfg r i offAddr) 8 a.toNat s := rfl
@[simp] theorem wrLen_eq (r : Ring) (i : Nat) (n : Len) (s : State) :
    wrLen r i n s = memWrite (field s.cfg r i offLen) 2 n.toNat s := rfl
@[simp] theorem wrCmd_eq (r : Ring) (i : Nat) (c : Byte) (s : State) :
    wrCmd r i c s = memWrite (field s.cfg r i offCmd) 1 c.toNat s := rfl
@[simp] theorem wrStatus_eq (r : Ring) (i : Nat) (v : Byte) (s : State) :
    wrStatus r i v s = memWrite (field s.cfg r i offStatus) 1 v.toNat s := rfl
@[simp] theorem wrTail8_eq (r : Ring) (i v : Nat) (s : State) :
    wrTail8 r i v s = memWrite (field s.cfg r i offLen) 8 v s := rfl

end Sys2Proof.Machine
end

