-- ==== Sys2Proof/Laws/Rings.lean ====
section
/-! SUPPORT. What a write to one descriptor field does to every descriptor byte, and to who owns which slot (20_memory.md R66, 40_ring_and_ownership.md R128). -/

namespace Sys2Proof.Machine

/-- A write inside one descriptor leaves every descriptor byte outside its own bytes alone. -/
theorem byteAt_write_field {c : Config} (h : paramsOk c = true) {r r' : Ring} {i i' off w k : Nat} (hi : i < c.n)
    (hi' : i' < c.n) (hw : off + w ≤ 16) (hk : k < 16) (hne : r = r' → i = i' → ¬(off ≤ k ∧ k < off + w)) (m : Memory)
    (v : Nat) :
    byteAt (writeBytes m (field c r i off) w v) (field c r' i' k) = byteAt m (field c r' i' k) := by
  apply byteAt_writeBytes_outside
  intro j hj he
  rw [field_add] at he
  obtain ⟨h1, h2, h3⟩ := field_inj h hi' hi hk (by omega) he
  exact hne h1.symm h2.symm (by omega)

/-- A write inside one descriptor puts byte `j` of the value at its place. -/
theorem byteAt_write_field_same {c : Config} {r : Ring} {i off w j : Nat} (hw : off + w ≤ 16) (hj : j < w) (m : Memory)
    (v : Nat) :
    byteAt (writeBytes m (field c r i off) w v) (field c r i (off + j)) = some (BitVec.ofNat 8 (v / 256 ^ j)) := by
  rw [← field_add]
  exact byteAt_writeBytes_inside w m _ v j (by omega) hj

/-- The bytes a write puts in a descriptor are written. -/
theorem isSome_write_field {c : Config} {r : Ring} {i off w k : Nat} (hw : off + w ≤ 16) (h1 : off ≤ k)
    (h2 : k < off + w) (m : Memory) (v : Nat) :
    (byteAt (writeBytes m (field c r i off) w v) (field c r i k)).isSome = true := by
  obtain ⟨j, rfl⟩ := Nat.exists_eq_add_of_le h1
  rw [byteAt_write_field_same hw (by omega)]
  rfl

/-- The bytes of a data area are no descriptor bytes (R9). -/
theorem area_ne_field {c : Config} (h : paramsOk c = true) {a : Addr} {len j : Nat} (ha : areaOk c a len = true)
    (hj : j < len) (r : Ring) {i k : Nat} (hi : i < c.n) (hk : k < 16) :
    a + BitVec.ofNat 64 j ≠ field c r i k := by
  intro he
  have h1 := congrArg BitVec.toNat he
  rw [field_toNat h r hi hk] at h1
  simp only [areaOk, apart, Bool.and_eq_true, Bool.or_eq_true, decide_eq_true_eq] at ha
  simp only [ringBytes, descSize] at ha
  obtain ⟨⟨h2, h3⟩, h4⟩ := ha
  rw [BitVec.toNat_add, BitVec.toNat_ofNat] at h1
  have hf := paramsOk_fit h r
  cases r <;> simp only [ringBase] at h1 hf <;> omega

/-- A slot is the block's or the device's, never both (R128). -/
theorem blockOwns_not_deviceOwns {s : State} {r : Ring} {i : Nat} (h : blockOwns s r i = true) :
    deviceOwns s r i = false := by
  unfold blockOwns at h
  unfold deviceOwns
  cases hst : statusAt s r i with
  | none => rfl
  | some b => rw [hst] at h; simp only [Bool.not_eq_eq_eq_not, Bool.not_false]; exact h

/-- Who owns a slot rests on its status byte alone. -/
theorem blockOwns_congr {s t : State} {r : Ring} {i : Nat}
    (h : statusAt t r i = statusAt s r i) : blockOwns t r i = blockOwns s r i := by
  unfold blockOwns
  rw [h]

/-- A store to a byte of another slot, or to another byte of the slot, leaves who owns a slot as it is. -/
theorem blockOwns_write {c : Config} {s t : State} (h : paramsOk c = true) (hc : s.cfg = c) (hc' : t.cfg = c)
    {r r' : Ring} {i i' off w v : Nat} (hi : i < c.n) (hi' : i' < c.n) (hw : off + w ≤ 16)
    (hm : t.mem = writeBytes s.mem (field c r i off) w v)
    (hne : r = r' → i = i' → ¬(off ≤ 12 ∧ 12 < off + w)) : blockOwns t r' i' = blockOwns s r' i' := by
  apply blockOwns_congr
  unfold statusAt
  rw [hc, hc', hm]
  exact byteAt_write_field h hi hi' hw (by decide) hne _ _

/-- What has been written stays written. -/
theorem RingWritten.mono {s t : State} {r : Ring} {j : Nat} (hc : t.cfg = s.cfg)
    (hm : ∀ x, (byteAt s.mem x).isSome = true → (byteAt t.mem x).isSome = true) (h : RingWritten s r j) :
    RingWritten t r j := by
  intro i hi k hk
  rw [hc]
  exact hm _ (h i hi k hk)

theorem SlotWritten.mono {s t : State} {r : Ring} {i hi : Nat} (hc : t.cfg = s.cfg)
    (hm : ∀ x, (byteAt s.mem x).isSome = true → (byteAt t.mem x).isSome = true) (h : SlotWritten s r i hi) :
    SlotWritten t r i hi := by
  intro k hk
  rw [hc]
  exact hm _ (h k hk)

/-- A written slot's status byte answers a read. -/
theorem statusAt_isSome {s : State} {r : Ring} {i : Nat} (h : RingWritten s r s.cfg.n) (hi : i < s.cfg.n) :
    ∃ b, statusAt s r i = some b :=
  Option.isSome_iff_exists.mp (h i hi 12 (by decide))

/-- The status read of a slot. -/
theorem readBytes_status (s : State) (r : Ring) (i : Nat) :
    readBytes s.mem (field s.cfg r i offStatus) 1 = (statusAt s r i).map BitVec.toNat :=
  readBytes_one _ _

end Sys2Proof.Machine
end

