-- ==== Sys2Proof/Laws/Transmit.lean ====
section
/-! SUPPORT. Everything a micro-step of XMIT can do, said once (41_tx_ring_scheduler.md R151). -/

namespace Sys2Proof.Machine

/-- A read of one byte answers, or faults where the byte has not been written. -/
theorem rdStatus_eq (r : Ring) (i : Nat) (s : State) (k : Byte → State → Result) :
    rdStatus r i s k =
      match statusAt s r i with
      | some b => k b (note (.memRead (field s.cfg r i offStatus) 1 b.toNat) s)
      | none => .fault (.unwrittenByte (field s.cfg r i offStatus).toNat) := by
  unfold rdStatus memRead
  rw [readBytes_status]
  cases statusAt s r i with
  | none => rfl
  | some b => simp

/-- The state after the register read of `X2`. -/
def afterX2 (s : State) : State :=
  { note (.regRead .tdt (regAddr s .tdt) s.dev.regs.tdt) s with
    tx := { s.tx with i := txSlotOf s.cfg s.dev.regs.tdt, pc := .x3 } }

/-- The state after the status read of `X3`. -/
def afterX3 (b : Byte) (s : State) : State :=
  if dd b then
    { note (.memRead (field s.cfg .tx s.tx.i offStatus) 1 b.toNat) s with tx := { s.tx with s := b, pc := .x4 } }
  else busyExit
    { note (.memRead (field s.cfg .tx s.tx.i offStatus) 1 b.toNat) s with tx := { s.tx with s := b } }

/-- The state after `X4`. -/
def afterX4 (s : State) : State :=
  if txShadowAt s s.tx.i = 0 then goTx .x5a s
  else goTx .x5a (setTxShadow s.tx.i 0 (bufFree (txShadowAt s s.tx.i) s))

/-- The same state where the slot held a buffer, field by field. -/
theorem afterX4_eq {s : State} (h : txShadowAt s s.tx.i ≠ 0) :
    afterX4 s =
      { s with
        tx := { s.tx with pc := .x5a }, txShadow := s.txShadow.set s.tx.i 0
        owner := drop (txShadowAt s s.tx.i).toNat s.owner, areas := drop (txShadowAt s s.tx.i).toNat s.areas
        trace := .bufFree (txShadowAt s s.tx.i) :: s.trace } := by
  unfold afterX4
  rw [if_neg h]
  simp only [goTx, setTxShadow, bufFree, note, dropArea, setOwner]
  rfl

theorem stepX2_eq (s : State) : stepX2 s = .next (afterX2 s) := rfl

theorem stepX3_eq {s : State} {b : Byte} (h : statusAt s .tx s.tx.i = some b) : stepX3 s = .next (afterX3 b s) := by
  unfold stepX3 afterX3
  rw [rdStatus_eq, h]
  dsimp only
  split <;> rfl

theorem stepX3_next {s t : State} (h : stepX3 s = .next t) :
    ∃ b, statusAt s .tx s.tx.i = some b ∧ t = afterX3 b s := by
  cases hst : statusAt s .tx s.tx.i with
  | none => unfold stepX3 at h; rw [rdStatus_eq, hst] at h; cases h
  | some b => rw [stepX3_eq hst] at h; cases h; exact ⟨b, rfl, rfl⟩

theorem stepX4_eq (s : State) : stepX4 s = .next (afterX4 s) := by
  unfold stepX4 afterX4
  split <;> rfl

/-- Everything a turn of the TX engine can do. -/
theorem txTurn_cases {s t : State} (h : txTurn s = .next t) :
    t = s ∨ s.mode ≠ .fatal ∧
      (s.tx.pc = .x1 ∧ s.txLock = .free ∧ t = goTx .x2 (holdTx (.port s.tx.p) s) ∨
       s.tx.pc = .x2 ∧ t = afterX2 s ∨
       s.tx.pc = .x3 ∧ (∃ b, statusAt s .tx s.tx.i = some b ∧ t = afterX3 b s) ∨
       s.tx.pc = .x4 ∧ t = afterX4 s ∨
       s.tx.pc = .x5a ∧ t = goTx .x5b (wrAddr .tx s.tx.i s.tx.a s) ∨
       s.tx.pc = .x5b ∧ t = goTx .x5c (wrLen .tx s.tx.i s.tx.n s) ∨
       s.tx.pc = .x5c ∧ t = goTx .x5d (wrCmd .tx s.tx.i (cmdXmit s.cfg) s) ∨
       s.tx.pc = .x5d ∧ t = goTx .x6 (wrStatus .tx s.tx.i (clearDD s.tx.s) s) ∨
       s.tx.pc = .x6 ∧ t = goTx .x7 (setOwner s.tx.h (.txSlot s.tx.i) (setTxShadow s.tx.i s.tx.h s)) ∨
       s.tx.pc = .x7 ∧ t = goTx .x8 (regWrite .tdt (indexWord (nextIndex s.cfg s.tx.i)) s) ∨
       s.tx.pc = .x8 ∧ t = goTx .idle (respond (.port s.tx.p) .ok (freeTx s))) := by
  unfold txTurn at h
  split at h
  · cases h; exact .inl rfl
  · rename_i hm
    unfold txStep at h
    split at h
    · cases h; exact .inl rfl
    · rename_i hp
      unfold stepX1 at h
      split at h
      · rename_i hl; cases h; exact .inr ⟨hm, .inl ⟨hp, hl, rfl⟩⟩
      · cases h; exact .inl rfl
    · rename_i hp; cases h; exact .inr ⟨hm, .inr (.inl ⟨hp, rfl⟩)⟩
    · rename_i hp; exact .inr ⟨hm, .inr (.inr (.inl ⟨hp, stepX3_next h⟩))⟩
    · rename_i hp; rw [stepX4_eq] at h; cases h; exact .inr ⟨hm, by simp [hp]⟩
    all_goals (rename_i hp; cases h; exact .inr ⟨hm, by simp [hp]⟩)

/-- The waiting XMIT of a port, when it is granted, has taken `tx_lock` and stands at `X2` (R234). -/
def grantedTx (p : Nat) (len : Nat) (h : Handle) (a : Addr) (s : State) : State :=
  goTx .x2 (holdTx (.port p) (loadTx p h a (BitVec.ofNat 16 len) (unqueue p s)))

theorem txWaiter_some {s : State} {p len : Nat} {h : Handle} {a : Addr} (hw : txWaiter s p = some (len, h, a)) :
    s.mode ≠ .fatal ∧ s.txLock = .free ∧ waitingAt s p = some ⟨.xmit len, h, a⟩ := by
  unfold txWaiter at hw
  split at hw
  · cases hw
  · simp_all
  · cases hw

/-- Everything a grant of `tx_lock` can do. -/
theorem grantTx_cases {p : Nat} {s t : State} (h : grantTx p s = .next t) :
    (txWaiter s p = none ∧ t = s) ∨
      ∃ len hd a, txWaiter s p = some (len, hd, a) ∧ s.mode ≠ .fatal ∧ s.txLock = .free ∧
        waitingAt s p = some ⟨.xmit len, hd, a⟩ ∧ t = grantedTx p len hd a s := by
  unfold grantTx at h
  split at h
  · rename_i len hd a hw
    obtain ⟨h1, h2, h3⟩ := txWaiter_some hw
    right
    refine ⟨len, hd, a, hw, h1, h2, h3, ?_⟩
    simp only [txStep, loadTx, stepX1] at h
    rw [show (unqueue p s).txLock = s.txLock from rfl, h2] at h
    cases h
    rfl
  · rename_i hw
    cases h
    exact .inl ⟨hw, rfl⟩

end Sys2Proof.Machine
end

