-- ==== Sys2Proof/Laws/Receive.lean ====
section
/-! SUPPORT. Everything a micro-step of DRAIN and INTR can do, said once (42_rx_ring_drainer.md R171, 43_interrupt_entry.md R191). -/

namespace Sys2Proof.Machine

/-- The three answers of `BufAlloc` (R270): none given, `NONE` given, a buffer given. -/
theorem bufAlloc_cases {s t : State} {k : AllocAnswer → State → Result} (h : bufAlloc s k = .next t) :
    (∃ rest, (s.allocs = [] ∧ rest = [] ∨ s.allocs = none :: rest) ∧
      k none (note (.bufAlloc none) { s with allocs := rest }) = .next t) ∨
    (∃ hd a rest, s.allocs = some (hd, a) :: rest ∧ freshBuffer s hd a ∧
      k (some (hd, a)) (note (.bufAlloc (some (hd, a))) (setArea hd a (setOwner hd .engine { s with allocs := rest }))) = .next t) := by
  unfold bufAlloc at h
  split at h
  · rename_i he
    left
    refine ⟨[], .inl ⟨he, rfl⟩, ?_⟩
    rw [← h]
    congr 2
    rw [← he]
  · rename_i rest he
    exact .inl ⟨rest, .inr he, h⟩
  · rename_i hd a rest he
    split at h
    · rename_i hc
      exact .inr ⟨hd, a, rest, he, hc, h⟩
    · cases h

/-- The state after the register read of `D1`. -/
def afterD1 (s : State) : State :=
  { note (.regRead .rdt (regAddr s .rdt) s.dev.regs.rdt) s with
    rx := { s.rx with i := rxSlotOf s.cfg s.dev.regs.rdt, pc := .d2 } }

/-- The state after the status read of `D2`. -/
def afterD2 (b : Byte) (s : State) : State :=
  { note (.memRead (field s.cfg .rx s.rx.i offStatus) 1 b.toNat) s with
    rx := { s.rx with s := b, pc := if dd b then .d3a else .dx } }

/-- The state after `D3a`. -/
def afterD3a (s : State) : State :=
  if rxShadowAt s s.rx.i = 0 then goRx .dx s
  else setOwner (rxShadowAt s s.rx.i) .engine (setRxShadow s.rx.i 0
    { s with rx := { s.rx with b := rxShadowAt s s.rx.i, pc := .d3b } })

/-- The state after the length read of `D3b`. -/
def afterD3b (v : Nat) (s : State) : State :=
  { note (.memRead (field s.cfg .rx s.rx.i offLen) 2 v) s with
    rx := { s.rx with l := BitVec.ofNat 16 v, pc := .d3c } }

/-- The state after a successful allocation at `D5`. -/
def afterD5 (hd : Handle) (a : Addr) (rest : List AllocAnswer) (s : State) : State :=
  { note (.bufAlloc (some (hd, a))) (setArea hd a (setOwner hd .engine { s with allocs := rest })) with
    rx := { s.rx with nh := hd, na := a, pc := .d6a } }

/-- The same state, field by field. -/
theorem afterD5_eq (hd : Handle) (a : Addr) (rest : List AllocAnswer) (s : State) :
    afterD5 hd a rest s =
      { s with
        rx := { s.rx with nh := hd, na := a, pc := .d6a }, owner := store hd.toNat .engine s.owner
        areas := store hd.toNat a s.areas, allocs := rest, trace := .bufAlloc (some (hd, a)) :: s.trace } := by
  simp only [afterD5, note, setArea, setOwner]
  rfl

/-- The state after a failed allocation at `D5`. -/
def failedD5 (rest : List AllocAnswer) (s : State) : State :=
  raiseFatal .nobufDrain (note (.bufAlloc none) { s with allocs := rest })

theorem stepD1_eq (s : State) : stepD1 s = .next (afterD1 s) := rfl

theorem stepD2_eq {s : State} {b : Byte} (h : statusAt s .rx s.rx.i = some b) : stepD2 s = .next (afterD2 b s) := by
  unfold stepD2
  rw [rdStatus_eq, h]
  rfl

theorem stepD2_next {s t : State} (h : stepD2 s = .next t) :
    ∃ b, statusAt s .rx s.rx.i = some b ∧ t = afterD2 b s := by
  cases hst : statusAt s .rx s.rx.i with
  | none => unfold stepD2 at h; rw [rdStatus_eq, hst] at h; cases h
  | some b => rw [stepD2_eq hst] at h; cases h; exact ⟨b, rfl, rfl⟩

theorem stepD3a_eq (s : State) : stepD3a s = .next (afterD3a s) := by
  unfold stepD3a afterD3a
  split <;> rfl

theorem stepD3b_eq {s : State} {v : Nat} (h : readBytes s.mem (field s.cfg .rx s.rx.i offLen) 2 = some v) :
    stepD3b s = .next (afterD3b v s) := by
  unfold stepD3b rdLength memRead
  rw [h]
  rfl

theorem stepD3b_next {s t : State} (h : stepD3b s = .next t) :
    ∃ v, readBytes s.mem (field s.cfg .rx s.rx.i offLen) 2 = some v ∧ t = afterD3b v s := by
  cases hr : readBytes s.mem (field s.cfg .rx s.rx.i offLen) 2 with
  | none => unfold stepD3b rdLength memRead at h; rw [hr] at h; cases h
  | some v => rw [stepD3b_eq hr] at h; cases h; exact ⟨v, rfl, rfl⟩

theorem stepD5_next {s t : State} (h : stepD5 s = .next t) :
    (∃ rest, (s.allocs = [] ∧ rest = [] ∨ s.allocs = none :: rest) ∧ t = failedD5 rest s) ∨
    (∃ hd a rest, s.allocs = some (hd, a) :: rest ∧ freshBuffer s hd a ∧ t = afterD5 hd a rest s) := by
  rcases bufAlloc_cases h with ⟨rest, hr, hk⟩ | ⟨hd, a, rest, h1, h2, hk⟩
  · cases hk; exact .inl ⟨rest, hr, rfl⟩
  · cases hk; exact .inr ⟨hd, a, rest, h1, h2, rfl⟩

/-- The state after `I1`: the lock taken, and for the interrupt port its pending flag cleared. -/
def afterI1 (s : State) : State :=
  match s.rx.src with
  | .irq => goRx .i2 { holdRx .irq s with irqPend := false }
  | .port p => goRx .i2 (holdRx (.port p) s)

theorem stepI1_eq {s : State} (hl : s.rxLock = .free) (hr : s.rx.src = .irq → s.mode = .ready) :
    stepI1 s = .next (afterI1 s) := by
  unfold stepI1 afterI1
  rw [hl]
  cases hs : s.rx.src with
  | irq => simp [hr hs]
  | port p => rfl

theorem stepD0_eq {s : State} (hl : s.rxLock = .free) : stepD0 s = .next (goRx .d1 (holdRx s.rx.src s)) := by
  unfold stepD0
  rw [hl]

/-- Everything a turn of the RX engine can do. -/
theorem rxTurn_cases {s t : State} (h : rxTurn s = .next t) :
    t = s ∨ s.mode ≠ .fatal ∧
      (s.rx.pc = .i1 ∧ s.rxLock = .free ∧ (s.rx.src = .irq → s.mode = .ready) ∧ t = afterI1 s ∨
       s.rx.pc = .i2 ∧ t = goRx .d1 (regWrite .icr 0xFFFFFFFF s) ∨
       s.rx.pc = .d0 ∧ s.rxLock = .free ∧ t = goRx .d1 (holdRx s.rx.src s) ∨
       s.rx.pc = .d1 ∧ t = afterD1 s ∨
       s.rx.pc = .d2 ∧ (∃ b, statusAt s .rx s.rx.i = some b ∧ t = afterD2 b s) ∨
       s.rx.pc = .d3a ∧ t = afterD3a s ∨
       s.rx.pc = .d3b ∧ (∃ v, readBytes s.mem (field s.cfg .rx s.rx.i offLen) 2 = some v ∧ t = afterD3b v s) ∨
       s.rx.pc = .d3c ∧ t = goRx .d4 (bufSetLen s.rx.b s.rx.l s) ∨
       s.rx.pc = .d4 ∧ t = goRx .d5 (netRx s.rx.b s) ∨
       s.rx.pc = .d5 ∧ (∃ rest, (s.allocs = [] ∧ rest = [] ∨ s.allocs = none :: rest) ∧ t = failedD5 rest s) ∨
       s.rx.pc = .d5 ∧ (∃ hd a rest, s.allocs = some (hd, a) :: rest ∧ freshBuffer s hd a ∧
         t = afterD5 hd a rest s) ∨
       s.rx.pc = .d6a ∧ t = goRx .d6b (wrAddr .rx s.rx.i s.rx.na s) ∨
       s.rx.pc = .d6b ∧ t = goRx .d6c (wrLen .rx s.rx.i 0 s) ∨
       s.rx.pc = .d6c ∧ t = goRx .d6d (wrStatus .rx s.rx.i 0x00 s) ∨
       s.rx.pc = .d6d ∧ t = goRx .d7 (setOwner s.rx.nh (.rxSlot s.rx.i) (setRxShadow s.rx.i s.rx.nh s)) ∨
       s.rx.pc = .d7 ∧ t = goRx .d1 (regWrite .rdt (indexWord s.rx.i) s) ∨
       s.rx.pc = .dx ∧ t = goRx .idle (respond s.rx.src .ok (freeRx s))) := by
  unfold rxTurn at h
  split at h
  · cases h; exact .inl rfl
  · rename_i hm
    unfold rxStep at h
    split at h
    · cases h; exact .inl rfl
    · rename_i hp
      unfold stepI1 at h
      split at h
      · rename_i hl hs
        split at h
        · rename_i hr; cases h; exact .inr ⟨hm, .inl ⟨hp, hl, fun _ => hr, by simp only [afterI1, hs]⟩⟩
        · cases h; exact .inl rfl
      · rename_i hl hs
        cases h
        exact .inr ⟨hm, .inl ⟨hp, hl, (fun he => by rw [he] at hs; cases hs), by simp only [afterI1, hs]⟩⟩
      · cases h; exact .inl rfl
    · rename_i hp; cases h; exact .inr ⟨hm, by simp [hp]⟩
    · rename_i hp
      unfold stepD0 at h
      split at h
      · rename_i hl; cases h; exact .inr ⟨hm, by simp [hp, hl]⟩
      · cases h; exact .inl rfl
    · rename_i hp; cases h; exact .inr ⟨hm, .inr (.inr (.inr (.inl ⟨hp, rfl⟩)))⟩
    · rename_i hp; exact .inr ⟨hm, by simpa [hp] using stepD2_next h⟩
    · rename_i hp; rw [stepD3a_eq] at h; cases h; exact .inr ⟨hm, by simp [hp]⟩
    · rename_i hp; exact .inr ⟨hm, by simpa [hp] using stepD3b_next h⟩
    · rename_i hp; cases h; exact .inr ⟨hm, by simp [hp]⟩
    · rename_i hp; cases h; exact .inr ⟨hm, by simp [hp]⟩
    · rename_i hp; exact .inr ⟨hm, by simpa [hp] using stepD5_next h⟩
    all_goals (rename_i hp; cases h; exact .inr ⟨hm, by simp [hp]⟩)

/-- A source's request, when it is granted, has taken `rx_lock` and done its first micro-step (R234, R238). -/
def grantedRx (src : Source) (kind : RxKind) (s : State) : State :=
  match kind with
  | .drain => goRx .d1 (holdRx src (loadRx src .drain (unqueueSource src s)))
  | .intr => afterI1 (loadRx src .intr (unqueueSource src s))

theorem rxWaiter_some {s : State} {src : Source} {kind : RxKind} (h : rxWaiter s src = some kind) :
    s.mode ≠ .fatal ∧ s.rxLock = .free ∧ rxRequest s src = some kind := by
  unfold rxWaiter at h
  split at h <;> simp_all

/-- Only an enabled request of the interrupt port is granted (R238). -/
theorem rxRequest_irq {s : State} {kind : RxKind} (h : rxRequest s .irq = some kind) :
    kind = .intr ∧ s.irqPend = true ∧ s.mode = .ready := by
  unfold rxRequest at h
  dsimp only at h
  split at h
  · rename_i hc; cases h; exact ⟨rfl, hc⟩
  · cases h

/-- Everything a grant of `rx_lock` can do. -/
theorem grantRx_cases {src : Source} {s t : State} (h : grantRx src s = .next t) :
    (rxWaiter s src = none ∧ t = s) ∨
      ∃ kind, rxWaiter s src = some kind ∧ s.mode ≠ .fatal ∧ s.rxLock = .free ∧ rxRequest s src = some kind ∧
        t = grantedRx src kind s := by
  unfold grantRx at h
  split at h
  · rename_i kind hw
    obtain ⟨h1, h2, h3⟩ := rxWaiter_some hw
    right
    refine ⟨kind, hw, h1, h2, h3, ?_⟩
    cases kind with
    | drain =>
      have he := stepD0_eq (s := loadRx src .drain (unqueueSource src s)) (by simp [h2])
      rw [show rxStep (loadRx src .drain (unqueueSource src s)) = stepD0 (loadRx src .drain (unqueueSource src s))
        from rfl, he] at h
      cases h
      rfl
    | intr =>
      have he := stepI1_eq (s := loadRx src .intr (unqueueSource src s)) (by simp [h2]) (by
        intro hs
        have hsrc : src = .irq := hs
        subst hsrc
        simp [(rxRequest_irq h3).2.2])
      rw [show rxStep (loadRx src .intr (unqueueSource src s)) = stepI1 (loadRx src .intr (unqueueSource src s))
        from rfl, he] at h
      cases h
      rfl
  · rename_i hw
    cases h
    exact .inl ⟨hw, rfl⟩

end Sys2Proof.Machine
end

