-- ==== Sys2Proof/Laws/Initialise.lean ====
section
/-! SUPPORT. Everything a micro-step of INIT can do, said once (44_init.md R201). -/

namespace Sys2Proof.Machine

/-- The register `INIT` writes at a position, with the value and the next position, where the micro-step is one
register write and no more (R201). -/
def initWriteAt (s : State) : Option (Reg × Word × InitPc) :=
  match s.ini.pc with
  | .n2 => some (.ims, 0, .n3a)
  | .n3b => some (.ctrl, s.ini.c ||| s.cfg.ctrlRst, .n4)
  | .n4 => some (.ims, 0, .n5)
  | .n8b => some (.tdbal, baseLow s.cfg.txRingBase, .n8c)
  | .n8c => some (.tdbah, baseHigh s.cfg.txRingBase, .n8d)
  | .n8d => some (.tdlen, BitVec.ofNat 32 (ringBytes s.cfg), .n8e)
  | .n8e => some (.tdh, 0, .n8f)
  | .n11b => some (.rdbal, baseLow s.cfg.rxRingBase, .n11c)
  | .n11c => some (.rdbah, baseHigh s.cfg.rxRingBase, .n11d)
  | .n11d => some (.rdlen, BitVec.ofNat 32 (ringBytes s.cfg), .n11e)
  | .n11e => some (.rdh, 0, .n11f)
  | .n11f => some (.rdt, indexWord (s.cfg.n - 1), .n12a)
  | .n12a => some (.ra0, macLow s.cfg, .n12b)
  | .n13a => some (.tctl, s.cfg.tctlInit, .n13b)
  | .n13b => some (.tipg, s.cfg.tipgInit, .n14)
  | .n14 => some (.rctl, s.cfg.rctlInit, .n15a)
  | .n15a => some (.rdtr, 0, .n15b)
  | .n15b => some (.radv, 0, .n15c)
  | .n15c => some (.ims, s.cfg.imsRxdw, .n16)
  | _ => none

/-- The state after the register read of `N3a`. -/
def afterN3a (s : State) : State :=
  { note (.regRead .ctrl (regAddr s .ctrl) (Config.freeWord s.draws)) { s with draws := s.draws + 1 } with
    ini := { s.ini with c := Config.freeWord s.draws, pc := .n3b } }

/-- The state after one access of the loop of `N6`. -/
def afterN6 (s : State) : State :=
  match s.ini.k with
  | 0 => nextAccess (wrAddr .tx s.ini.i 0 s)
  | 1 => nextAccess (wrTail8 .tx s.ini.i 0 s)
  | _ => nextRound s.cfg.n .n7 (setTxShadow s.ini.i 0 (wrStatus .tx s.ini.i 0x01 s))

/-- The state after a ring check (R208). -/
def afterCheck (r : Ring) (next : InitPc) (s : State) : State :=
  if ringSizeOk s.cfg = true then
    if ringAligned s.cfg r = true then goInit next s else raiseFatal .cfgRingAlign s
  else raiseFatal .cfgRingSize s

/-- The state after a buffer was allocated at `N9`. -/
def afterN9 (hd : Handle) (a : Addr) (rest : List AllocAnswer) (s : State) : State :=
  { note (.bufAlloc (some (hd, a))) (setArea hd a (setOwner hd .engine { s with allocs := rest })) with
    ini := { s.ini with h := hd, a := a, k := s.ini.k + 1 } }

/-- The same state, field by field. -/
theorem afterN9_eq (hd : Handle) (a : Addr) (rest : List AllocAnswer) (s : State) :
    afterN9 hd a rest s =
      { s with
        ini := { s.ini with h := hd, a := a, k := s.ini.k + 1 }, owner := store hd.toNat .engine s.owner
        areas := store hd.toNat a s.areas, allocs := rest, trace := .bufAlloc (some (hd, a)) :: s.trace } := by
  simp only [afterN9, note, setArea, setOwner]
  rfl

/-- The state after an allocation failed at `N9`. -/
def failedN9 (rest : List AllocAnswer) (s : State) : State :=
  raiseFatal .nobufInit (note (.bufAlloc none) { s with allocs := rest })

/-- The state after a buffer was lent to its slot at `N9`. -/
def lentN9 (s : State) : State :=
  nextRound s.cfg.n .n10 (setOwner s.ini.h (.rxSlot s.ini.i) (setRxShadow s.ini.i s.ini.h (wrTail8 .rx s.ini.i 0 s)))

/-- What the loan leaves alone, and what it does to the owners. -/
theorem lentN9_rest (s : State) :
    (lentN9 s).cfg = s.cfg ∧ (lentN9 s).areas = s.areas ∧ (lentN9 s).regsBase = s.regsBase ∧
      (lentN9 s).mode = s.mode ∧ (lentN9 s).owner = (setOwner s.ini.h (.rxSlot s.ini.i) s).owner := by
  unfold lentN9 nextRound
  split <;> simp only [goInit, setOwner, setRxShadow, wrTail8, memWrite, note, and_self]

/-- The state after `N12b`. -/
def afterN12b (s : State) : State :=
  if s.cfg.mtaEntries = 0 then goInit .n13a (regWrite .ra1 (macHigh s.cfg) s)
  else goLoop .n12c (regWrite .ra1 (macHigh s.cfg) s)

theorem stepN6_eq (s : State) : stepN6 s = .next (afterN6 s) := by
  unfold stepN6 afterN6
  rcases s.ini.k with _ | _ | k <;> rfl

theorem ringCheck_eq (r : Ring) (next : InitPc) (s : State) : ringCheck r next s = .next (afterCheck r next s) := by
  unfold ringCheck afterCheck
  split
  · split <;> rfl
  · rfl

theorem stepN12b_eq (s : State) : stepN12b s = .next (afterN12b s) := by
  unfold stepN12b afterN12b
  split <;> rfl

theorem stepN9_next {s t : State} (h : stepN9 s = .next t) :
    (s.ini.k = 0 ∧ ∃ rest, (s.allocs = [] ∧ rest = [] ∨ s.allocs = none :: rest) ∧ t = failedN9 rest s) ∨
    (s.ini.k = 0 ∧ ∃ hd a rest, s.allocs = some (hd, a) :: rest ∧ freshBuffer s hd a ∧
      t = afterN9 hd a rest s) ∨
    (s.ini.k = 1 ∧ t = nextAccess (wrAddr .rx s.ini.i s.ini.a s)) ∨
    (2 ≤ s.ini.k ∧ t = lentN9 s) := by
  unfold stepN9 at h
  split at h
  · rename_i hk
    rcases bufAlloc_cases h with ⟨rest, hr, he⟩ | ⟨hd, a, rest, h1, h2, he⟩
    · cases he; exact .inl ⟨hk, rest, hr, rfl⟩
    · cases he; exact .inr (.inl ⟨hk, hd, a, rest, h1, h2, rfl⟩)
  · rename_i hk
    cases h; exact .inr (.inr (.inl ⟨hk, rfl⟩))
  · rename_i h0 h1
    cases h
    refine .inr (.inr (.inr ⟨?_, rfl⟩))
    rcases hk : s.ini.k with _ | _ | k
    · exact absurd hk h0
    · exact absurd hk h1
    · omega

/-- Everything a turn of the INIT sequencer can do. -/
theorem initTurn_cases {s t : State} (h : initTurn s = .next t) :
    t = s ∨ s.mode ≠ .fatal ∧
      ((∃ r v next, initWriteAt s = some (r, v, next) ∧ t = goInit next (regWrite r v s)) ∨
       s.ini.pc = .n3a ∧ t = afterN3a s ∨
       s.ini.pc = .n5 ∧ t = goLoop .n6 (fence s) ∨
       s.ini.pc = .n6 ∧ t = afterN6 s ∨
       s.ini.pc = .n7 ∧ t = afterCheck .tx .n8a s ∨
       s.ini.pc = .n8a ∧ t = goInit .n8b (fence s) ∨
       s.ini.pc = .n8f ∧ t = goLoop .n9 (regWrite .tdt 0 s) ∨
       s.ini.pc = .n9 ∧ stepN9 s = .next t ∨
       s.ini.pc = .n10 ∧ t = afterCheck .rx .n11a s ∨
       s.ini.pc = .n11a ∧ t = goInit .n11b (fence s) ∨
       s.ini.pc = .n12b ∧ t = afterN12b s ∨
       s.ini.pc = .n12c ∧ t = nextRound s.cfg.mtaEntries .n13a (regWrite (.mta s.ini.i) 0 s) ∨
       s.ini.pc = .n16 ∧
         t = goInit .idle (respond (.port s.ini.p) .ok (freeRx (freeTx { s with mode := .ready })))) := by
  unfold initTurn at h
  split at h
  · cases h; exact .inl rfl
  · rename_i hm
    unfold initStep at h
    split at h <;> rename_i hp
    · cases h; exact .inl rfl
    · cases h; exact .inl rfl
    all_goals refine .inr ⟨hm, ?_⟩
    all_goals first
      | (rw [stepN6_eq] at h; cases h; simp [hp, initWriteAt])
      | (rw [ringCheck_eq] at h; cases h; simp [hp, initWriteAt])
      | (rw [stepN12b_eq] at h; cases h; simp [hp, initWriteAt])
      | (cases h; simp [hp, initWriteAt]; rfl)
      | (simp [hp, initWriteAt, h]; done)
      | (cases h; simp [hp, initWriteAt])

/-- What an accepted INIT requires and does at `N1` (R202, R233). -/
theorem startInit_cases {q : Port} {s t : State} (h : startInit q s = .next t) :
    regsBaseAligned q.a0 = true ∧ initAllowed s q.a0 = true ∧ t = stepN1 s.sel q.a0 s := by
  unfold startInit at h
  split at h
  · rename_i h1
    split at h
    · rename_i h2; cases h; exact ⟨h1, h2, rfl⟩
    · cases h
  · cases h

end Sys2Proof.Machine
end

