-- ==== Sys2Proof/Laws/Arbiter.lean ====
section
/-! SUPPORT. Everything `Issue(p)` can do, said once (45_arbiter.md R231 to R233), and the ports after each port operation. -/

namespace Sys2Proof.Machine

/-! ### One port after an operation -/

theorem updatePort_getElem (p : Nat) (f : Port → Port) (s : State) (j : Nat) :
    (updatePort p f s).ports[j]? = if p = j then (s.ports[j]?).map f else s.ports[j]? := by
  simp only [updatePort, List.getElem?_modify]
  by_cases h : p = j
  · simp [h]
  · simp [h]

theorem updatePort_length (p : Nat) (f : Port → Port) (s : State) :
    (updatePort p f s).ports.length = s.ports.length := by
  simp [updatePort]

theorem respond_length (src : Source) (r : Reason) (s : State) : (respond src r s).ports.length = s.ports.length := by
  cases src with
  | port p => exact updatePort_length _ _ s
  | irq => rfl

/-- The port `Issue(p)` is enabled at (R231). -/
theorem canIssue_iff {s : State} {p : Nat} :
    canIssue s p = true ↔ ∃ q, s.ports[p]? = some q ∧ q.outstanding = false := by
  unfold canIssue
  cases h : s.ports[p]? with
  | none => simp
  | some q => simp

/-- The port of a presented command (R231). -/
theorem present_port {s : State} {p : Nat} {q : Port} (h : s.ports[p]? = some q) (cw : Word) (a0 a1 : BitVec 64) :
    (present p cw a0 a1 s).ports[p]? = some { q with cw := cw, a0 := a0, a1 := a1 } := by
  show (updatePort p _ s).ports[p]? = _
  rw [updatePort_getElem, if_pos rfl, h]
  rfl

/-- `Issue(p)` for a command, by the decision of R232: nothing, a rejection, or what an accepted command does. -/
theorem issueCommand_cases {i : Instr} {start : Port → State → Result} {s t : State}
    (h : issueCommand i start s = .next t) :
    ∃ q, s.ports[s.sel]? = some q ∧
      (decideOn s.mode i q.a0 = .ignore ∧ t = raiseRequest s.sel s ∨
       (∃ r, decideOn s.mode i q.a0 = .reject r ∧ t = respond (.port s.sel) r (raiseRequest s.sel s)) ∨
       decideOn s.mode i q.a0 = .accept ∧ start q (raiseRequest s.sel s) = .next t) := by
  unfold issueCommand at h
  split at h
  · cases h
  · rename_i q hq
    refine ⟨q, hq, ?_⟩
    split at h
    · rename_i hd; cases h; exact .inl ⟨hd, rfl⟩
    · rename_i r hd; cases h; exact .inr (.inl ⟨r, hd, rfl⟩)
    · rename_i hd; exact .inr (.inr ⟨hd, h⟩)

/-- INIT is accepted only in `UNINIT` (R202, R232). -/
theorem decideOn_init_accept {m : Mode} {a : Handle} (h : decideOn m .init a = .accept) : m = .uninit := by
  cases m <;> simp [decideOn] at h ⊢

/-- The other commands are accepted only in `READY` (R232). -/
theorem decideOn_accept {m : Mode} {i : Instr} {a : Handle} (hi : i ≠ .init) (h : decideOn m i a = .accept) :
    m = .ready := by
  cases i <;> cases m <;> simp [decideOn] at h hi ⊢

/-- An accepted XMIT has a handle (R152). -/
theorem decideOn_xmit_accept {m : Mode} {len : Nat} {a : Handle} (h : decideOn m (.xmit len) a = .accept) :
    m = .ready ∧ a ≠ 0 := by
  cases m <;> simp [decideOn] at h ⊢
  exact h

/-- Everything `Issue(p)` can do, with `u` the state in which the command has been presented. -/
theorem issueEvent_cases {p : Nat} {cw : Word} {a0 a1 : BitVec 64} {s t : State}
    (h : issueEvent p cw a0 a1 s = .next t) :
    t = s ∧ canIssue s p = false ∨ ∃ q, s.ports[p]? = some q ∧ q.outstanding = false ∧
      ((∃ why, decode cw = .illegal why ∧ t = issueIllegal p (present p cw a0 a1 s)) ∨
       ∃ i, decode cw = .command i ∧
        (decideOn s.mode i a0 = .ignore ∧ t = raiseRequest p (present p cw a0 a1 s) ∨
         (∃ r, decideOn s.mode i a0 = .reject r ∧
           t = respond (.port p) r (raiseRequest p (present p cw a0 a1 s))) ∨
         decideOn s.mode i a0 = .accept ∧
           (i = .init ∧ regsBaseAligned a0 = true ∧ initAllowed (raiseRequest p (present p cw a0 a1 s)) a0 = true ∧
              t = stepN1 p a0 (raiseRequest p (present p cw a0 a1 s)) ∨
            i ≠ .init ∧ t = queueCommand p i a0 a1 (raiseRequest p (present p cw a0 a1 s))))) := by
  unfold issueEvent at h
  split at h
  · rename_i hc
    obtain ⟨q, hq, ho⟩ := canIssue_iff.mp hc
    have hp := present_port hq cw a0 a1
    have hf : fetch (present p cw a0 a1 s) = some (decode cw) := by
      unfold fetch
      rw [show (present p cw a0 a1 s).sel = p from rfl, hp]
    rw [hf] at h
    right
    refine ⟨q, hq, ho, ?_⟩
    cases hd : decode cw with
    | illegal why =>
      rw [hd] at h
      cases h
      exact .inl ⟨why, rfl, rfl⟩
    | command i =>
      rw [hd] at h
      right
      refine ⟨i, rfl, ?_⟩
      have key : ∀ start, issueCommand i start (present p cw a0 a1 s) = .next t →
          decideOn s.mode i a0 = .ignore ∧ t = raiseRequest p (present p cw a0 a1 s) ∨
          (∃ r, decideOn s.mode i a0 = .reject r ∧
            t = respond (.port p) r (raiseRequest p (present p cw a0 a1 s))) ∨
          decideOn s.mode i a0 = .accept ∧ start { q with cw := cw, a0 := a0, a1 := a1 }
            (raiseRequest p (present p cw a0 a1 s)) = .next t := by
        intro start hst
        obtain ⟨q', hq', hcase⟩ := issueCommand_cases hst
        rw [show (present p cw a0 a1 s).sel = p from rfl, hp] at hq'
        cases hq'
        exact hcase
      cases i with
      | init =>
        rcases key _ h with h1 | h1 | ⟨h1, h2⟩
        · exact .inl h1
        · exact .inr (.inl h1)
        · obtain ⟨h3, h4, h5⟩ := startInit_cases h2
          exact .inr (.inr ⟨h1, .inl ⟨rfl, h3, h4, h5⟩⟩)
      | xmit len =>
        rcases key _ h with h1 | h1 | ⟨h1, h2⟩
        · exact .inl h1
        · exact .inr (.inl h1)
        · cases h2; exact .inr (.inr ⟨h1, .inr ⟨by simp, rfl⟩⟩)
      | intr =>
        rcases key _ h with h1 | h1 | ⟨h1, h2⟩
        · exact .inl h1
        · exact .inr (.inl h1)
        · cases h2; exact .inr (.inr ⟨h1, .inr ⟨by simp, rfl⟩⟩)
      | drain =>
        rcases key _ h with h1 | h1 | ⟨h1, h2⟩
        · exact .inl h1
        · exact .inr (.inl h1)
        · cases h2; exact .inr (.inr ⟨h1, .inr ⟨by simp, rfl⟩⟩)
  · rename_i hc; cases h; exact .inl ⟨rfl, by simpa using hc⟩

end Sys2Proof.Machine
end

