-- ==== Sys2Proof/Laws/Device.lean ====
section
/-! SUPPORT. What a move of the device can change, said once for all its moves (46_device_environment.md R262 to R268). -/

namespace Sys2Proof.Machine

/-- Everything a move of the device can do: memory outside the block's slots, its two heads, its causes, its interrupt
output, and one more signal for the dispatcher. -/
structure DevMove (s t : State) : Prop where
  rest  : t = { s with mem := t.mem, dev := t.dev, irqSignals := t.irqSignals }
  regs  : t.dev.regs = { s.dev.regs with tdh := t.dev.regs.tdh, rdh := t.dev.regs.rdh, icr := t.dev.regs.icr }
  on    : t.dev.txOn = s.dev.txOn ∧ t.dev.rxOn = s.dev.rxOn
  signals : s.irqSignals ≤ t.irqSignals
  wf    : Memory.wf s.mem → Memory.wf t.mem
  grows : ∀ x, (byteAt s.mem x).isSome = true → (byteAt t.mem x).isSome = true
  keeps : paramsOk s.cfg = true → ∀ r, ∀ i < s.cfg.n, blockOwns s r i = true → ∀ k < 16,
    byteAt t.mem (field s.cfg r i k) = byteAt s.mem (field s.cfg r i k)

theorem DevMove.refl (s : State) : DevMove s s where
  rest := rfl
  regs := rfl
  on := ⟨rfl, rfl⟩
  signals := le_refl _
  wf := id
  grows := fun _ h => h
  keeps := fun _ _ _ _ _ _ _ => rfl

/-- The slot a move works on is the device's, and a slot of the ring. -/
theorem deviceSlot_some {s : State} {r : Ring} {at_ : Option Nat} {i : Nat} (h : deviceSlot s r at_ = some i) :
    engineOn s r = true ∧ deviceOwns s r i = true ∧ (paramsOk s.cfg = true → i < s.cfg.n) := by
  unfold deviceSlot at h
  split at h
  · cases h
  · rename_i he
    split at h
    · rename_i hc
      cases h
      refine ⟨he, hc.2, fun hp => ?_⟩
      cases r <;> exact mod_lt_n hp _
    · cases h
  · rename_i i' he
    split at h
    · rename_i hc
      cases h
      exact ⟨he, hc.2.2, fun _ => hc.2.1⟩
    · cases h

/-- A slot the device owns is none of the block's. -/
theorem slot_ne {s : State} {r r' : Ring} {i i' : Nat} (hd : deviceOwns s r i = true) (hb : blockOwns s r' i' = true) :
    r = r' → i = i' → False := by
  intro h1 h2
  subst h1 h2
  rw [blockOwns_not_deviceOwns hb] at hd
  cases hd

/-- Stores of whole memory by the device, as one change of memory. -/
theorem DevMove.of_mem {s : State} {m : Memory} (wf : Memory.wf s.mem → Memory.wf m)
    (grows : ∀ x, (byteAt s.mem x).isSome = true → (byteAt m x).isSome = true)
    (keeps : paramsOk s.cfg = true → ∀ r, ∀ i < s.cfg.n, blockOwns s r i = true → ∀ k < 16,
      byteAt m (field s.cfg r i k) = byteAt s.mem (field s.cfg r i k)) : DevMove s { s with mem := m } where
  rest := rfl
  regs := rfl
  on := ⟨rfl, rfl⟩
  signals := le_refl _
  wf := wf
  grows := grows
  keeps := keeps

/-- A store inside the descriptor of a slot the device owns. -/
theorem DevMove.field {s t : State} {r : Ring} {i off w v : Nat} (h : DevMove s t) (hd : deviceOwns s r i = true)
    (hi : paramsOk s.cfg = true → i < s.cfg.n) (hw : off + w ≤ 16) :
    DevMove s (devStore (Machine.field s.cfg r i off) w v t) where
  rest := by
    rw [show devStore (Machine.field s.cfg r i off) w v t =
      { t with mem := writeBytes t.mem (Machine.field s.cfg r i off) w v } from rfl]
    conv => lhs; rw [h.rest]
  regs := h.regs
  on := h.on
  signals := h.signals
  wf := fun hm => wf_writeBytes _ _ _ _ (h.wf hm)
  grows := fun x hx => byteAt_writeBytes_isSome _ _ _ _ _ (h.grows x hx)
  keeps := by
    intro hp r' i' hi' hb k hk
    rw [← h.keeps hp r' i' hi' hb k hk]
    exact byteAt_write_field hp (hi hp) hi' hw hk (fun h1 h2 => (slot_ne hd hb h1 h2).elim) _ _

/-- A store of one byte of a data area. -/
theorem DevMove.area {s t : State} {a : Addr} {len j v : Nat} (h : DevMove s t) (ha : areaOk s.cfg a len = true)
    (hj : j < len) : DevMove s (devStore (a + BitVec.ofNat 64 j) 1 v t) where
  rest := by
    rw [show devStore (a + BitVec.ofNat 64 j) 1 v t =
      { t with mem := writeBytes t.mem (a + BitVec.ofNat 64 j) 1 v } from rfl]
    conv => lhs; rw [h.rest]
  regs := h.regs
  on := h.on
  signals := h.signals
  wf := fun hm => wf_writeBytes _ _ _ _ (h.wf hm)
  grows := fun x hx => byteAt_writeBytes_isSome _ _ _ _ _ (h.grows x hx)
  keeps := by
    intro hp r' i' hi' hb k hk
    rw [← h.keeps hp r' i' hi' hb k hk]
    apply byteAt_writeBytes_outside
    intro l hl he
    have hl0 : l = 0 := by omega
    subst hl0
    rw [BitVec.add_zero] at he
    exact area_ne_field hp ha hj r' hi' hk he.symm

/-- A change of the head or of the causes. -/
theorem DevMove.regsOnly {s t : State} (h : DevMove s t) {d : DevRegs}
    (hd : d = { t.dev.regs with tdh := d.tdh, rdh := d.rdh, icr := d.icr }) :
    DevMove s { t with dev := { t.dev with regs := d } } where
  rest := by conv => lhs; rw [h.rest]
  regs := by
    show d = { s.dev.regs with tdh := d.tdh, rdh := d.rdh, icr := d.icr }
    conv => lhs; rw [hd, h.regs]
  on := h.on
  signals := h.signals
  wf := h.wf
  grows := h.grows
  keeps := h.keeps

theorem DevMove.addCause {s t : State} (h : DevMove s t) (c : Word) : DevMove s (addCause c t) :=
  h.regsOnly rfl

theorem DevMove.advanceHead {s t : State} (h : DevMove s t) (r : Ring) (at_ : Option Nat) :
    DevMove s (advanceHead r at_ t) := by
  cases at_ with
  | some i => exact h
  | none => cases r <;> exact h.regsOnly rfl

theorem DevMove.storeFrame {s : State} {a : Addr} {len : Nat} (ha : areaOk s.cfg a len = true) :
    ∀ (f : List Byte) (j : Nat) (t : State), j + f.length ≤ len → DevMove s t →
      DevMove s (Machine.storeFrame (a + BitVec.ofNat 64 j) f t)
  | [], _, _, _, h => h
  | b :: rest, j, t, hj, h => by
    rw [Machine.storeFrame, BitVec.add_assoc, show BitVec.ofNat 64 j + 1#64 = BitVec.ofNat 64 (j + 1) from
      (BitVec.ofNat_add j 1).symm]
    simp only [List.length_cons] at hj
    exact DevMove.storeFrame ha rest (j + 1) _ (by omega) (h.area ha (by omega))

/-! ### The moves -/

theorem areaOk_of_storeOk {s : State} {a : Addr} {len : Nat} (h : storeOk s a len = true) : areaOk s.cfg a len = true := by
  unfold storeOk at h
  simp only [Bool.and_eq_true] at h
  exact h.1

theorem cfg_storeFrame : ∀ (f : List Byte) (a : Addr) (s : State), (storeFrame a f s).cfg = s.cfg
  | [], _, _ => rfl
  | _ :: rest, _, _ => by rw [storeFrame, cfg_storeFrame rest]; rfl

theorem devMove_txDone (at_ : Option Nat) (st : Byte) (cause : Word) (s : State) : DevMove s (devTxDone at_ st cause s) := by
  unfold devTxDone
  split
  · exact DevMove.refl s
  · rename_i i hs
    obtain ⟨_, h2, h3⟩ := deviceSlot_some hs
    exact (((DevMove.refl s).field h2 h3 (by decide)).advanceHead _ _).addCause _

theorem devMove_byte (r : Ring) (at_ : Option Nat) (off : Nat) (b : Byte) (s : State) :
    DevMove s (devByte r at_ off b s) := by
  unfold devByte
  split
  · exact DevMove.refl s
  · rename_i i hs
    obtain ⟨_, h2, h3⟩ := deviceSlot_some hs
    split
    · rename_i ho
      refine (DevMove.refl s).field h2 h3 ?_
      cases r <;> simp only [deviceBytes, List.mem_cons, List.not_mem_nil, or_false] at ho <;> omega
    · exact DevMove.refl s

theorem devMove_rxData {at_ : Option Nat} {k : Nat} {b : Byte} {s t : State} (h : devRxData at_ k b s = .next t) :
    DevMove s t := by
  unfold devRxData at h
  split at h
  · cases h; exact DevMove.refl s
  · split at h
    · cases h; exact DevMove.refl s
    · split at h
      · split at h
        · rename_i ha
          cases h
          exact (DevMove.refl s).area (areaOk_of_storeOk ha) (by omega)
        · cases h
      · cases h; exact DevMove.refl s

theorem devMove_rxFill {at_ : Option Nat} {frame : List Byte} {st : Byte} {s t : State}
    (h : devRxFill at_ frame st s = .next t) : DevMove s t := by
  unfold devRxFill at h
  split at h
  · cases h; exact DevMove.refl s
  · rename_i i hs
    obtain ⟨_, h2, h3⟩ := deviceSlot_some hs
    split at h
    · cases h; exact DevMove.refl s
    · rename_i a _
      split at h
      · split at h
        · rename_i ha
          cases h
          have h0 := DevMove.storeFrame (areaOk_of_storeOk ha) frame 0 s (by omega) (DevMove.refl s)
          rw [BitVec.add_zero] at h0
          unfold writeBack
          rw [cfg_storeFrame]
          exact (((h0.field h2 h3 (by decide)).field h2 h3 (by decide)).advanceHead _ _).addCause _
        · cases h
      · cases h; exact DevMove.refl s

theorem devMove_raise (s : State) : DevMove s (devRaise s) := by
  unfold devRaise
  split
  · exact ⟨rfl, rfl, ⟨rfl, rfl⟩, Nat.le_succ _, id, fun _ h => h, fun _ _ _ _ _ _ _ => rfl⟩
  · exact DevMove.refl s

/-! ### What a move of a buffer outside the block does (R53, R270, R331) -/

/-- Nothing; or, for a buffer the agents outside may move: back to the pool, out of the pool with a fresh area, or on to
another agent. -/
theorem moveBuffer_cases (h : Handle) (o : Owner) (a : Addr) (s : State) :
    moveBuffer h o a s = s ∨ movable s h = true ∧ outside o = true ∧ pledged s h = false ∧
      (o = .pool ∧ moveBuffer h o a s = dropArea h (setOwner h .pool s) ∨
       o ≠ .pool ∧ freshBuffer s h a ∧ moveBuffer h o a s = setArea h a (setOwner h o s) ∨
       o ≠ .pool ∧ ownerOf s h ≠ .pool ∧ moveBuffer h o a s = setOwner h o s) := by
  unfold moveBuffer
  split
  · rename_i hc
    unfold passBuffer
    split
    · rename_i ho; exact .inr ⟨hc.1, hc.2.1, hc.2.2, .inl ⟨ho, rfl⟩⟩
    · rename_i ho
      split
      · split
        · rename_i hf; exact .inr ⟨hc.1, hc.2.1, hc.2.2, .inr (.inl ⟨ho, hf, rfl⟩)⟩
        · exact .inl rfl
      · rename_i hp; exact .inr ⟨hc.1, hc.2.1, hc.2.2, .inr (.inr ⟨ho, hp, rfl⟩)⟩
  · exact .inl rfl

/-! ### What a move of the device leaves (R268) -/

/-- It never clears a DD bit, and a slot the block owns stays the block's. -/
theorem DevMove.blockOwns {s t : State} (h : DevMove s t) (hp : paramsOk s.cfg = true) {r : Ring} {i : Nat}
    (hi : i < s.cfg.n) (hb : Machine.blockOwns s r i = true) : Machine.blockOwns t r i = true := by
  rw [← hb]
  apply blockOwns_congr
  unfold statusAt
  rw [show t.cfg = s.cfg by rw [h.rest]]
  exact h.keeps hp r i hi hb 12 (by decide)

end Sys2Proof.Machine
end

