-- ==== Sys2Proof/Laws/Engines.lean ====
section
/-! SUPPORT. What each engine leaves alone: the TX engine the RX side, the RX engine the TX side (20_memory.md R61, 45_arbiter.md R237). -/

namespace Sys2Proof.Machine

theorem rising_setOwner (k : Nat) (o : Owner) {l : List (Nat × Owner)} (hr : Rising l) :
    Rising (if o = .pool then drop k l else store k o l) := by
  split
  · exact rising_drop _ hr
  · exact rising_store _ _ hr

/-! ### The TX engine -/

/-- Everything a turn of the TX engine leaves alone: the RX side, the mode, the interrupt, and what INIT set. -/
structure TxMove (s t : State) : Prop where
  rest   : t = { s with ports := t.ports, tx := t.tx, txLock := t.txLock, txShadow := t.txShadow, mem := t.mem,
                        dev := t.dev, owner := t.owner, areas := t.areas, trace := t.trace }
  dev    : t.dev = { s.dev with regs := { s.dev.regs with tdt := t.dev.regs.tdt } }
  ports  : t.ports.length = s.ports.length
  shadow : t.txShadow.length = s.txShadow.length
  wf     : Memory.wf s.mem → Memory.wf t.mem
  owner  : Rising s.owner → Rising t.owner
  grows  : ∀ x, (byteAt s.mem x).isSome = true → (byteAt t.mem x).isSome = true
  keeps  : paramsOk s.cfg = true → (txHasSlot s.tx.pc = true → s.tx.i < s.cfg.n) → ∀ i < s.cfg.n, ∀ k < 16,
    byteAt t.mem (field s.cfg .rx i k) = byteAt s.mem (field s.cfg .rx i k)

theorem TxMove.of_mem_eq {s t : State}
    (rest : t = { s with ports := t.ports, tx := t.tx, txLock := t.txLock, txShadow := t.txShadow, mem := t.mem,
                         dev := t.dev, owner := t.owner, areas := t.areas, trace := t.trace })
    (dev : t.dev = { s.dev with regs := { s.dev.regs with tdt := t.dev.regs.tdt } })
    (ports : t.ports.length = s.ports.length) (shadow : t.txShadow.length = s.txShadow.length)
    (owner : Rising s.owner → Rising t.owner) (hm : t.mem = s.mem) : TxMove s t :=
  ⟨rest, dev, ports, shadow, by rw [hm]; exact id, owner, by rw [hm]; exact fun _ h => h,
    by rw [hm]; intros; rfl⟩

theorem TxMove.refl (s : State) : TxMove s s := .of_mem_eq rfl rfl rfl rfl id rfl

theorem TxMove.of_write {s : State} {pc : TxPc} {off w v : Nat} (hp : txHasSlot s.tx.pc = true) (hw : off + w ≤ 16) :
    TxMove s (goTx pc (memWrite (field s.cfg .tx s.tx.i off) w v s)) where
  rest := rfl
  dev := rfl
  ports := rfl
  shadow := rfl
  wf := wf_writeBytes _ _ _ _
  owner := id
  grows := fun _ h => byteAt_writeBytes_isSome _ _ _ _ _ h
  keeps := fun h1 h2 _ hi _ hk => byteAt_write_field h1 (h2 hp) hi hw hk (fun h => by cases h) _ _

theorem txMove_turn {s t : State} (h : txTurn s = .next t) : TxMove s t := by
  rcases txTurn_cases h with rfl | ⟨hm, hc⟩
  · exact .refl _
  rcases hc with ⟨hp, hl, rfl⟩ | ⟨hp, rfl⟩ | ⟨hp, b, hb, rfl⟩ | ⟨hp, rfl⟩ | ⟨hp, rfl⟩ | ⟨hp, rfl⟩ | ⟨hp, rfl⟩ |
    ⟨hp, rfl⟩ | ⟨hp, rfl⟩ | ⟨hp, rfl⟩ | ⟨hp, rfl⟩
  · exact .of_mem_eq rfl rfl rfl rfl id rfl
  · exact .of_mem_eq rfl rfl rfl rfl id rfl
  · unfold afterX3
    split
    · exact .of_mem_eq rfl rfl rfl rfl id rfl
    · exact .of_mem_eq rfl rfl (by simp [busyExit, respond, updatePort]) rfl id rfl
  · unfold afterX4
    split
    · exact .of_mem_eq rfl rfl rfl rfl id rfl
    · simp only [goTx, setTxShadow, bufFree, note, dropArea, setOwner]
      exact .of_mem_eq rfl rfl rfl (by simp) (rising_drop (txShadowAt s s.tx.i).toNat) rfl
  · exact .of_write (by rw [hp]; rfl) (by decide)
  · exact .of_write (by rw [hp]; rfl) (by decide)
  · exact .of_write (by rw [hp]; rfl) (by decide)
  · exact .of_write (by rw [hp]; rfl) (by decide)
  · exact .of_mem_eq rfl rfl rfl (by simp) (rising_setOwner s.tx.h.toNat (.txSlot s.tx.i)) rfl
  · exact .of_mem_eq rfl rfl rfl rfl id rfl
  · exact .of_mem_eq rfl rfl (by simp [respond, updatePort]) rfl id rfl

theorem txMove_grant {p : Nat} {s t : State} (h : grantTx p s = .next t) : TxMove s t := by
  rcases grantTx_cases h with ⟨_, rfl⟩ | ⟨len, hd, a, _, _, _, _, rfl⟩
  · exact .refl _
  · exact .of_mem_eq rfl rfl (by simp [grantedTx, unqueue, updatePort]) rfl id rfl

/-! ### The RX engine -/

/-- Everything a turn of the RX engine leaves alone: the TX side and what INIT set. It may halt the block. -/
structure RxMove (s t : State) : Prop where
  rest   : t = { s with ports := t.ports, rx := t.rx, mode := t.mode, fcause := t.fcause, rxLock := t.rxLock,
                        irqPend := t.irqPend, rxShadow := t.rxShadow, mem := t.mem, dev := t.dev, owner := t.owner,
                        bufLen := t.bufLen, areas := t.areas, allocs := t.allocs, trace := t.trace }
  dev    : t.dev.regs = { s.dev.regs with rdt := t.dev.regs.rdt, icr := t.dev.regs.icr } ∧
    t.dev.txOn = s.dev.txOn ∧ t.dev.rxOn = s.dev.rxOn
  mode   : (t.mode = s.mode ∧ t.fcause = s.fcause) ∨ (t.mode = .fatal ∧ t.fcause = .nobufDrain)
  ports  : t.ports.length = s.ports.length
  shadow : t.rxShadow.length = s.rxShadow.length
  wf     : Memory.wf s.mem → Memory.wf t.mem
  owner  : Rising s.owner → Rising t.owner
  bufLen : Rising s.bufLen → Rising t.bufLen
  grows  : ∀ x, (byteAt s.mem x).isSome = true → (byteAt t.mem x).isSome = true
  keeps  : paramsOk s.cfg = true → (rxHasSlot s.rx.pc = true → s.rx.i < s.cfg.n) → ∀ i < s.cfg.n, ∀ k < 16,
    byteAt t.mem (field s.cfg .tx i k) = byteAt s.mem (field s.cfg .tx i k)

theorem RxMove.of_mem_eq {s t : State}
    (rest : t = { s with ports := t.ports, rx := t.rx, mode := t.mode, fcause := t.fcause, rxLock := t.rxLock,
                         irqPend := t.irqPend, rxShadow := t.rxShadow, mem := t.mem, dev := t.dev, owner := t.owner,
                         bufLen := t.bufLen, areas := t.areas, allocs := t.allocs, trace := t.trace })
    (dev : t.dev.regs = { s.dev.regs with rdt := t.dev.regs.rdt, icr := t.dev.regs.icr } ∧
      t.dev.txOn = s.dev.txOn ∧ t.dev.rxOn = s.dev.rxOn)
    (mode : (t.mode = s.mode ∧ t.fcause = s.fcause) ∨ (t.mode = .fatal ∧ t.fcause = .nobufDrain))
    (ports : t.ports.length = s.ports.length) (shadow : t.rxShadow.length = s.rxShadow.length)
    (owner : Rising s.owner → Rising t.owner) (bufLen : Rising s.bufLen → Rising t.bufLen) (hm : t.mem = s.mem) :
    RxMove s t :=
  ⟨rest, dev, mode, ports, shadow, by rw [hm]; exact id, owner, bufLen, by rw [hm]; exact fun _ h => h,
    by rw [hm]; intros; rfl⟩

theorem RxMove.refl (s : State) : RxMove s s :=
  .of_mem_eq rfl ⟨rfl, rfl, rfl⟩ (.inl ⟨rfl, rfl⟩) rfl rfl id id rfl

theorem RxMove.of_write {s : State} {pc : RxPc} {off w v : Nat} (hp : rxHasSlot s.rx.pc = true) (hw : off + w ≤ 16) :
    RxMove s (goRx pc (memWrite (field s.cfg .rx s.rx.i off) w v s)) where
  rest := rfl
  dev := ⟨rfl, rfl, rfl⟩
  mode := .inl ⟨rfl, rfl⟩
  ports := rfl
  shadow := rfl
  wf := wf_writeBytes _ _ _ _
  owner := id
  bufLen := id
  grows := fun _ h => byteAt_writeBytes_isSome _ _ _ _ _ h
  keeps := fun h1 h2 _ hi _ hk => byteAt_write_field h1 (h2 hp) hi hw hk (fun h => by cases h) _ _

theorem rxMove_turn {s t : State} (h : rxTurn s = .next t) : RxMove s t := by
  rcases rxTurn_cases h with rfl | ⟨hm, hc⟩
  · exact .refl _
  rcases hc with ⟨hp, hl, hi, rfl⟩ | ⟨hp, rfl⟩ | ⟨hp, hl, rfl⟩ | ⟨hp, rfl⟩ | ⟨hp, b, hb, rfl⟩ | ⟨hp, rfl⟩ |
    ⟨hp, v, hv, rfl⟩ | ⟨hp, rfl⟩ | ⟨hp, rfl⟩ | ⟨hp, rest, hr, rfl⟩ | ⟨hp, hd, a, rest, ha, ⟨h1, h2, h3⟩, rfl⟩ | ⟨hp, rfl⟩ |
    ⟨hp, rfl⟩ | ⟨hp, rfl⟩ | ⟨hp, rfl⟩ | ⟨hp, rfl⟩ | ⟨hp, rfl⟩
  · unfold afterI1
    split <;> exact .of_mem_eq rfl ⟨rfl, rfl, rfl⟩ (.inl ⟨rfl, rfl⟩) rfl rfl id id rfl
  · exact .of_mem_eq rfl ⟨rfl, rfl, rfl⟩ (.inl ⟨rfl, rfl⟩) rfl rfl id id rfl
  · exact .of_mem_eq rfl ⟨rfl, rfl, rfl⟩ (.inl ⟨rfl, rfl⟩) rfl rfl id id rfl
  · exact .of_mem_eq rfl ⟨rfl, rfl, rfl⟩ (.inl ⟨rfl, rfl⟩) rfl rfl id id rfl
  · exact .of_mem_eq rfl ⟨rfl, rfl, rfl⟩ (.inl ⟨rfl, rfl⟩) rfl rfl id id rfl
  · unfold afterD3a
    split
    · exact .of_mem_eq rfl ⟨rfl, rfl, rfl⟩ (.inl ⟨rfl, rfl⟩) rfl rfl id id rfl
    · exact .of_mem_eq rfl ⟨rfl, rfl, rfl⟩ (.inl ⟨rfl, rfl⟩) rfl (by simp)
        (rising_setOwner (rxShadowAt s s.rx.i).toNat .engine) id rfl
  · exact .of_mem_eq rfl ⟨rfl, rfl, rfl⟩ (.inl ⟨rfl, rfl⟩) rfl rfl id id rfl
  · exact .of_mem_eq rfl ⟨rfl, rfl, rfl⟩ (.inl ⟨rfl, rfl⟩) rfl rfl id (rising_store _ _) rfl
  · exact .of_mem_eq rfl ⟨rfl, rfl, rfl⟩ (.inl ⟨rfl, rfl⟩) rfl rfl (rising_setOwner s.rx.b.toNat .ingress) id rfl
  · exact .of_mem_eq rfl ⟨rfl, rfl, rfl⟩ (.inr ⟨rfl, rfl⟩) rfl rfl id id rfl
  · simp only [afterD5, note, setArea, setOwner]
    exact .of_mem_eq rfl ⟨rfl, rfl, rfl⟩ (.inl ⟨rfl, rfl⟩) rfl rfl (rising_setOwner hd.toNat .engine) id rfl
  · exact .of_write (by rw [hp]; rfl) (by decide)
  · exact .of_write (by rw [hp]; rfl) (by decide)
  · exact .of_write (by rw [hp]; rfl) (by decide)
  · exact .of_mem_eq rfl ⟨rfl, rfl, rfl⟩ (.inl ⟨rfl, rfl⟩) rfl (by simp)
      (rising_setOwner s.rx.nh.toNat (.rxSlot s.rx.i)) id rfl
  · exact .of_mem_eq rfl ⟨rfl, rfl, rfl⟩ (.inl ⟨rfl, rfl⟩) rfl rfl id id rfl
  · cases hsrc : s.rx.src with
    | irq => exact .of_mem_eq rfl ⟨rfl, rfl, rfl⟩ (.inl ⟨rfl, rfl⟩) rfl rfl id id rfl
    | port p =>
      exact .of_mem_eq rfl ⟨rfl, rfl, rfl⟩ (.inl ⟨rfl, rfl⟩) (by simp [respond, updatePort]) rfl id id rfl

theorem rxMove_grant {src : Source} {s t : State} (h : grantRx src s = .next t) : RxMove s t := by
  rcases grantRx_cases h with ⟨_, rfl⟩ | ⟨kind, _, _, _, _, rfl⟩
  · exact .refl _
  · cases kind <;> cases src <;> first
      | exact .of_mem_eq rfl ⟨rfl, rfl, rfl⟩ (.inl ⟨rfl, rfl⟩) rfl rfl id id rfl
      | exact .of_mem_eq rfl ⟨rfl, rfl, rfl⟩ (.inl ⟨rfl, rfl⟩)
          (by simp [grantedRx, afterI1, loadRx, unqueueSource, unqueue, updatePort]) rfl id id rfl

end Sys2Proof.Machine
end

