-- ==== Sys2Proof/Laws/Invariant.lean ====
section
/-! SUPPORT. The invariant of Safety.lean, kept by every micro-step of every engine and by every move of the environment; the two theorems are for the provers to put together (`Stable`). -/

namespace Sys2Proof.Machine

theorem inv_ready {s : State} (hm : s.mode = .ready) : Inv s ↔ Shaped s ∧ s.fcause = .none ∧ s.ini.pc = .idle ∧
    TxLockOk s ∧ RxLockOk s ∧ SlotsOk s ∧ paramsOk s.cfg = true ∧ RingsReady s := by
  constructor
  · intro h
    have he := h.engines
    unfold EnginesOk at he
    rw [hm] at he
    exact ⟨h.shaped, he.1, he.2.1, he.2.2.1, he.2.2.2, h.slots, h.params (.inr hm), h.rings hm⟩
  · rintro ⟨h1, h2, h3, h4, h5, h6, h7, h8⟩
    refine ⟨h1, ?_, h6, fun _ => h7, fun hi => ?_, fun _ => h8⟩
    · unfold EnginesOk; rw [hm]; exact ⟨h2, h3, h4, h5⟩
    · rw [hm] at hi; cases hi

theorem inv_fatal {s : State} (hm : s.mode = .fatal) (h1 : Shaped s) (h2 : s.fcause ≠ .none) : Inv s := by
  refine ⟨h1, ?_, ⟨?_, ?_, ?_, ?_, ?_, ?_⟩, ?_, ?_, ?_⟩
  · unfold EnginesOk; rw [hm]; exact h2
  all_goals (intro h; simp [hm] at h)

theorem RingsReady.mono {s t : State} (hc : t.cfg = s.cfg)
    (hm : ∀ x, (byteAt s.mem x).isSome = true → (byteAt t.mem x).isSome = true)
    (h1 : t.dev.regs.tdt.toNat < t.cfg.n) (h2 : t.dev.regs.rdt.toNat < t.cfg.n) (h : RingsReady s) : RingsReady t :=
  ⟨by rw [hc]; exact h.txDone.mono hc hm, by rw [hc]; exact h.rxDone.mono hc hm, h1, h2⟩

theorem tx_mode {s : State} (h : Inv s) (hm : s.mode ≠ .fatal) (hp : s.tx.pc ≠ .idle) : s.mode = .ready := by
  have he := h.engines
  unfold EnginesOk at he
  cases hmm : s.mode <;> simp_all

theorem rx_mode {s : State} (h : Inv s) (hm : s.mode ≠ .fatal) (hp : s.rx.pc ≠ .idle) : s.mode = .ready := by
  have he := h.engines
  unfold EnginesOk at he
  cases hmm : s.mode <;> simp_all

theorem TxMove.shaped {s t : State} (h : TxMove s t) (hs : Shaped s) : Shaped t := by
  obtain ⟨h1, h2, h3, h4, h5, h6⟩ := hs
  refine ⟨h.wf h1, h.owner h2, ?_, ?_, ?_, ?_⟩
  · rw [h.rest]; exact h3
  · rw [h.ports, h4, show t.cfg = s.cfg by rw [h.rest]]
  · rw [h.shadow, h5, show t.cfg = s.cfg by rw [h.rest]]
  · rw [show t.rxShadow = s.rxShadow by rw [h.rest], h6, show t.cfg = s.cfg by rw [h.rest]]

/-- inv tx from parts -/
theorem TxMove.inv {s t : State} (h : TxMove s t) (hs : Inv s) (hr : s.mode = .ready)
   (h1 : TxLockOk t) (h2 : txHasSlot t.tx.pc = true → t.tx.i < s.cfg.n)
   (h3 : txOwnsSlot t.tx.pc = true → blockOwns t .tx t.tx.i = true ∧ dd t.tx.s = true)
   (h4 : t.dev.regs.tdt.toNat < s.cfg.n) : Inv t := by
  have hc : t.cfg = s.cfg := by rw [h.rest]
  have hmt : t.mode = .ready := by rw [h.rest]; exact hr
  have hrx : t.rx = s.rx := by rw [h.rest]
  obtain ⟨g1, g2, g3, g4, g5, g6, g7, g8⟩ := (inv_ready hr).mp hs
  refine (inv_ready hmt).mpr ⟨h.shaped g1, by rw [h.rest]; exact g2, by rw [h.rest]; exact g3, h1, ?_, ?_, by rw [hc]; exact g7, ?_⟩
  · unfold RxLockOk at *
    rw [hrx, show t.rxLock = s.rxLock by rw [h.rest]]; exact g5
  · refine ⟨fun _ => by rw [hc]; exact h2, fun _ h => (h3 h).1, fun _ h => (h3 h).2, fun _ => ?_, fun _ => ?_,
      fun _ => ?_⟩
    · rw [hrx, hc]; exact g6.rxIndex hr
    · rw [hrx]
      intro ho
      have hi := g6.rxIndex hr (by revert ho; cases s.rx.pc <;> simp [rxOwnsSlot, rxHasSlot])
      rw [← g6.rxOwns hr ho]
      apply blockOwns_congr
      unfold statusAt
      rw [hc]
      exact h.keeps g7 (g6.txIndex hr) _ hi 12 (by decide)
    · rw [hrx]; exact g6.rxRead hr
  · refine g8.mono hc h.grows (by rw [hc]; exact h4) ?_
    rw [hc, h.dev]; exact g8.rdt

theorem inv_tx : Keeps Inv txTurn := by
  intro s t hs ht
  have hmv := txMove_turn ht
  rcases txTurn_cases ht with rfl | ⟨hm, hc⟩
  · exact hs
  have hpc : s.tx.pc ≠ .idle := by
    rcases hc with h | h | h | h | h | h | h | h | h | h | h <;> (rw [h.1]; simp)
  have hr := tx_mode hs hm hpc
  obtain ⟨g1, g2, g3, g4, g5, g6, g7, g8⟩ := (inv_ready hr).mp hs
  have hl : s.tx.pc ≠ .x1 ∧ s.txLock = .held (.port s.tx.p) := by
    rcases g4 with h | h
    · exact absurd h.1 hpc
    · exact h.2
  have hi := g6.txIndex hr
  have ho := fun h => And.intro (g6.txOwns hr h) (g6.txRead hr h)
  have key : ∀ off w v, txHasSlot s.tx.pc = true → txOwnsSlot s.tx.pc = true → off + w ≤ 12 → ∀ pc,
      blockOwns (goTx pc (memWrite (field s.cfg .tx s.tx.i off) w v s)) .tx s.tx.i = true ∧
        dd s.tx.s = true := by
    intro off w v a1 a2 a3 pc
    refine ⟨?_, (ho a2).2⟩
    rw [← (ho a2).1]
    exact blockOwns_write (t := goTx pc (memWrite (field s.cfg .tx s.tx.i off) w v s)) g7 rfl rfl (hi a1) (hi a1) (by omega) rfl (by omega)
  rcases hc with ⟨hp, hl', rfl⟩ | ⟨hp, rfl⟩ | ⟨hp, b, hb, rfl⟩ | ⟨hp, rfl⟩ | ⟨hp, rfl⟩ | ⟨hp, rfl⟩ | ⟨hp, rfl⟩ |
    ⟨hp, rfl⟩ | ⟨hp, rfl⟩ | ⟨hp, rfl⟩ | ⟨hp, rfl⟩
  all_goals simp only [hp, txHasSlot, txOwnsSlot, reduceCtorEq, false_implies, forall_const] at hi ho
  · exact absurd hp hl.1
  · refine hmv.inv hs hr (.inr ⟨by simp [afterX2], by simp [afterX2], hl.2⟩) (fun _ => mod_lt_n g7 _) ?_ g8.tdt
    simp [afterX2, txOwnsSlot]
  · unfold afterX3 at *
    split at hmv
    · rename_i hdd
      rw [if_pos hdd]
      refine hmv.inv hs hr (.inr ⟨by simp, by simp, hl.2⟩) (fun _ => hi) (fun _ => ?_) g8.tdt
      refine ⟨?_, hdd⟩
      show blockOwns s .tx s.tx.i = true
      unfold blockOwns; rw [hb]; exact hdd
    · rename_i hdd
      rw [if_neg hdd]
      exact hmv.inv hs hr (.inl ⟨rfl, rfl⟩) (by simp [busyExit, txHasSlot]) (by simp [busyExit, txOwnsSlot]) g8.tdt
  · unfold afterX4 at *
    split at hmv <;> rename_i hz
    · rw [if_pos hz]
      exact hmv.inv hs hr (.inr ⟨by simp, by simp, hl.2⟩) (fun _ => hi) (fun _ => ho) g8.tdt
    · rw [if_neg hz]
      simp only [goTx, setTxShadow, bufFree, note, dropArea, setOwner] at hmv ⊢
      exact hmv.inv hs hr (.inr ⟨by simp, by simp, hl.2⟩) (fun _ => hi) (fun _ => ho) g8.tdt
  · exact hmv.inv hs hr (.inr ⟨by simp, by simp, hl.2⟩) (fun _ => hi) (fun _ => key _ _ _ (by rw [hp]; rfl) (by rw [hp]; rfl) (by decide) _) g8.tdt
  · exact hmv.inv hs hr (.inr ⟨by simp, by simp, hl.2⟩) (fun _ => hi) (fun _ => key _ _ _ (by rw [hp]; rfl) (by rw [hp]; rfl) (by decide) _) g8.tdt
  · exact hmv.inv hs hr (.inr ⟨by simp, by simp, hl.2⟩) (fun _ => hi) (fun _ => key _ _ _ (by rw [hp]; rfl) (by rw [hp]; rfl) (by decide) _) g8.tdt
  · exact hmv.inv hs hr (.inr ⟨by simp, by simp, hl.2⟩) (fun _ => hi) (by simp [txOwnsSlot]) g8.tdt
  · exact hmv.inv hs hr (.inr ⟨by simp, by simp, hl.2⟩) (fun _ => hi) (by simp [txOwnsSlot]) g8.tdt
  · refine hmv.inv hs hr (.inr ⟨by simp, by simp, hl.2⟩) (fun _ => hi) (by simp [txOwnsSlot]) ?_
    show (indexWord (nextIndex s.cfg s.tx.i)).toNat < s.cfg.n
    have hlt : nextIndex s.cfg s.tx.i < s.cfg.n := mod_lt_n g7 _
    rw [indexWord_toNat g7 hlt]; exact hlt
  · exact hmv.inv hs hr (.inl ⟨rfl, rfl⟩) (by simp [txHasSlot]) (by simp [txOwnsSlot]) g8.tdt


theorem RxMove.shaped {s t : State} (h : RxMove s t) (hs : Shaped s) : Shaped t := by
  obtain ⟨h1, h2, h3, h4, h5, h6⟩ := hs
  refine ⟨h.wf h1, h.owner h2, h.bufLen h3, ?_, ?_, ?_⟩
  · rw [h.ports, h4, show t.cfg = s.cfg by rw [h.rest]]
  · rw [show t.txShadow = s.txShadow by rw [h.rest], h5, show t.cfg = s.cfg by rw [h.rest]]
  · rw [h.shadow, h6, show t.cfg = s.cfg by rw [h.rest]]

theorem RxMove.inv {s t : State} (h : RxMove s t) (hs : Inv s) (hr : s.mode = .ready) (hmt : t.mode = .ready)
   (h1 : RxLockOk t) (h2 : rxHasSlot t.rx.pc = true → t.rx.i < s.cfg.n)
   (h3 : rxOwnsSlot t.rx.pc = true → blockOwns t .rx t.rx.i = true ∧ dd t.rx.s = true)
   (h4 : t.dev.regs.rdt.toNat < s.cfg.n) : Inv t := by
  have hc : t.cfg = s.cfg := by rw [h.rest]
  have htx : t.tx = s.tx := by rw [h.rest]
  have hf : t.fcause = s.fcause := by
    rcases h.mode with h | h
    · exact h.2
    · rw [hmt] at h; cases h.1
  obtain ⟨g1, g2, g3, g4, g5, g6, g7, g8⟩ := (inv_ready hr).mp hs
  refine (inv_ready hmt).mpr ⟨h.shaped g1, by rw [hf]; exact g2, by rw [h.rest]; exact g3, ?_, h1, ?_, by rw [hc]; exact g7, ?_⟩
  · unfold TxLockOk at *
    rw [htx, show t.txLock = s.txLock by rw [h.rest]]; exact g4
  · refine ⟨fun _ => ?_, fun _ => ?_, fun _ => ?_, fun _ => by rw [hc]; exact h2, fun _ h => (h3 h).1,
      fun _ h => (h3 h).2⟩
    · rw [htx, hc]; exact g6.txIndex hr
    · rw [htx]
      intro ho
      have hi := g6.txIndex hr (by revert ho; cases s.tx.pc <;> simp [txOwnsSlot, txHasSlot])
      rw [← g6.txOwns hr ho]
      apply blockOwns_congr
      unfold statusAt
      rw [hc]
      exact h.keeps g7 (g6.rxIndex hr) _ hi 12 (by decide)
    · rw [htx]; exact g6.txRead hr
  · refine g8.mono hc h.grows ?_ (by rw [hc]; exact h4)
    rw [hc, h.dev.1]; exact g8.tdt

theorem inv_rx : Keeps Inv rxTurn := by
  intro s t hs ht
  have hmv := rxMove_turn ht
  rcases rxTurn_cases ht with rfl | ⟨hm, hc⟩
  · exact hs
  have hpc : s.rx.pc ≠ .idle := by
    rcases hc with h | h | h | h | h | h | h | h | h | h | h | h | h | h | h | h | h <;> (rw [h.1]; simp)
  have hr := rx_mode hs hm hpc
  obtain ⟨g1, g2, g3, g4, g5, g6, g7, g8⟩ := (inv_ready hr).mp hs
  have hl : s.rx.pc ≠ .i1 ∧ s.rx.pc ≠ .d0 ∧ s.rxLock = .held s.rx.src := by
    rcases g5 with h | h
    · exact absurd h.1 hpc
    · exact h.2
  have hi := g6.rxIndex hr
  have ho := fun h => And.intro (g6.rxOwns hr h) (g6.rxRead hr h)
  have key : ∀ off w v, rxHasSlot s.rx.pc = true → rxOwnsSlot s.rx.pc = true → off + w ≤ 12 → ∀ pc,
      blockOwns (goRx pc (memWrite (field s.cfg .rx s.rx.i off) w v s)) .rx s.rx.i = true ∧
        dd s.rx.s = true := by
    intro off w v a1 a2 a3 pc
    refine ⟨?_, (ho a2).2⟩
    rw [← (ho a2).1]
    exact blockOwns_write (t := goRx pc (memWrite (field s.cfg .rx s.rx.i off) w v s)) g7 rfl rfl (hi a1) (hi a1) (by omega) rfl (by omega)
  rcases hc with ⟨hp, hl', _, rfl⟩ | ⟨hp, rfl⟩ | ⟨hp, hl', rfl⟩ | ⟨hp, rfl⟩ | ⟨hp, b, hb, rfl⟩ | ⟨hp, rfl⟩ |
    ⟨hp, v, hv, rfl⟩ | ⟨hp, rfl⟩ | ⟨hp, rfl⟩ | ⟨hp, rest, hre, rfl⟩ | ⟨hp, hd, a, rest, ha, ⟨h1, h2, h3⟩, rfl⟩ | ⟨hp, rfl⟩ |
    ⟨hp, rfl⟩ | ⟨hp, rfl⟩ | ⟨hp, rfl⟩ | ⟨hp, rfl⟩ | ⟨hp, rfl⟩
  all_goals simp only [hp, rxHasSlot, rxOwnsSlot, reduceCtorEq, false_implies, forall_const] at hi ho
  · exact absurd hp hl.1
  · exact hmv.inv hs hr hr (.inr ⟨by simp, by simp, by simp, hl.2.2⟩) (by simp [rxHasSlot]) (by simp [rxOwnsSlot]) g8.rdt
  · exact absurd hp hl.2.1
  · exact hmv.inv hs hr hr (.inr ⟨by simp [afterD1], by simp [afterD1], by simp [afterD1], hl.2.2⟩) (fun _ => mod_lt_n g7 _) (by simp [afterD1, rxOwnsSlot]) g8.rdt
  · by_cases hdd : dd b = true
    · refine hmv.inv hs hr hr (.inr ⟨by simp [afterD2, hdd], by simp [afterD2, hdd], by simp [afterD2, hdd], hl.2.2⟩) (fun _ => hi) (fun _ => ?_) g8.rdt
      refine ⟨?_, hdd⟩
      show blockOwns s .rx s.rx.i = true
      unfold blockOwns; rw [hb]; exact hdd
    · exact hmv.inv hs hr hr (.inr ⟨by simp [afterD2, hdd], by simp [afterD2, hdd], by simp [afterD2, hdd], hl.2.2⟩) (fun _ => hi) (by simp [afterD2, hdd, rxOwnsSlot]) g8.rdt
  · unfold afterD3a at *
    split at hmv <;> rename_i hz
    · rw [if_pos hz]
      exact hmv.inv hs hr hr (.inr ⟨by simp, by simp, by simp, hl.2.2⟩) (by simp [rxHasSlot]) (by simp [rxOwnsSlot]) g8.rdt
    · rw [if_neg hz]
      exact hmv.inv hs hr hr (.inr ⟨by simp, by simp, by simp, hl.2.2⟩) (fun _ => hi) (fun _ => ho) g8.rdt
  · exact hmv.inv hs hr hr (.inr ⟨by simp [afterD3b], by simp [afterD3b], by simp [afterD3b], hl.2.2⟩) (fun _ => hi) (fun _ => ho) g8.rdt
  · exact hmv.inv hs hr hr (.inr ⟨by simp, by simp, by simp, hl.2.2⟩) (fun _ => hi) (fun _ => ho) g8.rdt
  · exact hmv.inv hs hr hr (.inr ⟨by simp, by simp, by simp, hl.2.2⟩) (fun _ => hi) (fun _ => ho) g8.rdt
  · exact inv_fatal rfl (hmv.shaped g1) (by simp [failedD5])
  · simp only [afterD5, note, setArea, setOwner] at hmv ⊢
    exact hmv.inv hs hr hr (.inr ⟨by simp, by simp, by simp, hl.2.2⟩) (fun _ => hi) (fun _ => ho) g8.rdt
  · exact hmv.inv hs hr hr (.inr ⟨by simp, by simp, by simp, hl.2.2⟩) (fun _ => hi) (fun _ => key _ _ _ (by rw [hp]; rfl) (by rw [hp]; rfl) (by decide) _) g8.rdt
  · exact hmv.inv hs hr hr (.inr ⟨by simp, by simp, by simp, hl.2.2⟩) (fun _ => hi) (fun _ => key _ _ _ (by rw [hp]; rfl) (by rw [hp]; rfl) (by decide) _) g8.rdt
  · exact hmv.inv hs hr hr (.inr ⟨by simp, by simp, by simp, hl.2.2⟩) (fun _ => hi) (by simp [rxOwnsSlot]) g8.rdt
  · exact hmv.inv hs hr hr (.inr ⟨by simp, by simp, by simp, hl.2.2⟩) (fun _ => hi) (by simp [rxOwnsSlot]) g8.rdt
  · refine hmv.inv hs hr hr (.inr ⟨by simp, by simp, by simp, hl.2.2⟩) (by simp [rxHasSlot]) (by simp [rxOwnsSlot]) ?_
    show (indexWord s.rx.i).toNat < s.cfg.n
    rw [indexWord_toNat g7 hi]; exact hi
  · refine hmv.inv hs hr (by simp [hr]) (.inl ⟨rfl, by simp⟩) (by simp [rxHasSlot]) (by simp [rxOwnsSlot]) ?_
    simpa using g8.rdt

theorem inv_grantTx (p : Nat) : Keeps Inv (grantTx p) := by
  intro s t hs ht
  have hmv := txMove_grant ht
  rcases grantTx_cases ht with ⟨_, rfl⟩ | ⟨len, hd, a, _, h1, h2, h3, rfl⟩
  · exact hs
  have he := hs.engines
  have hr : s.mode = .ready := by
    unfold EnginesOk at he
    cases hmm : s.mode <;> simp_all
  obtain ⟨g1, g2, g3, g4, g5, g6, g7, g8⟩ := (inv_ready hr).mp hs
  exact hmv.inv hs hr (.inr ⟨by simp [grantedTx], by simp [grantedTx], by simp [grantedTx]⟩) (by simp [grantedTx, txHasSlot]) (by simp [grantedTx, txOwnsSlot]) g8.tdt

theorem inv_grantRx (src : Source) : Keeps Inv (grantRx src) := by
  intro s t hs ht
  have hmv := rxMove_grant ht
  rcases grantRx_cases ht with ⟨_, rfl⟩ | ⟨kind, _, h1, h2, h3, rfl⟩
  · exact hs
  have he := hs.engines
  have hr : s.mode = .ready := by
    unfold EnginesOk at he
    cases hmm : s.mode
    · cases src <;> simp_all [rxRequest]
    · simp_all
    · rfl
    · simp_all
  obtain ⟨g1, g2, g3, g4, g5, g6, g7, g8⟩ := (inv_ready hr).mp hs
  cases kind <;> cases src
  all_goals exact hmv.inv hs hr (by simp [grantedRx, afterI1, hr]) (.inr ⟨by simp [grantedRx, afterI1], by simp [grantedRx, afterI1], by simp [grantedRx, afterI1], by simp [grantedRx, afterI1]⟩) (by simp [grantedRx, afterI1, rxHasSlot]) (by simp [grantedRx, afterI1, rxOwnsSlot]) (by simpa [grantedRx, afterI1] using g8.rdt)

theorem DevMove.shaped {s t : State} (h : DevMove s t) (hs : Shaped s) : Shaped t := by
  obtain ⟨h1, h2, h3, h4, h5, h6⟩ := hs
  refine ⟨h.wf h1, ?_, ?_, ?_, ?_, ?_⟩ <;> (rw [h.rest]; assumption)

theorem DevMove.inv {s t : State} (h : DevMove s t) (hs : Inv s) : Inv t := by
  have hc : t.cfg = s.cfg := by rw [h.rest]
  have e1 : t.mode = s.mode := by rw [h.rest]
  have e2 : t.tx = s.tx := by rw [h.rest]
  have e3 : t.rx = s.rx := by rw [h.rest]
  have e4 : t.ini = s.ini := by rw [h.rest]
  have e5 : t.fcause = s.fcause := by rw [h.rest]
  have e6 : t.txLock = s.txLock := by rw [h.rest]
  have e7 : t.rxLock = s.rxLock := by rw [h.rest]
  have e8 : t.ports = s.ports := by rw [h.rest]
  have e9 : t.dev.regs.tdt = s.dev.regs.tdt := by rw [h.regs]
  have e10 : t.dev.regs.rdt = s.dev.regs.rdt := by rw [h.regs]
  refine ⟨h.shaped hs.shaped, ?_, ?_, ?_, ?_, ?_⟩
  · have := hs.engines
    unfold EnginesOk TxLockOk RxLockOk waitingAt at *
    rw [e1, e2, e3, e4, e5, e6, e7, e8]
    exact this
  · obtain ⟨k1, k2, k5, k3, k4, k6⟩ := hs.slots
    refine ⟨?_, ?_, ?_, ?_, ?_, ?_⟩ <;> rw [e1] <;> intro hm <;> simp only [e2, e3, hc]
    · exact k1 hm
    · intro ho
      exact h.blockOwns (hs.params (.inr hm)) (k1 hm (by revert ho; cases s.tx.pc <;> simp [txOwnsSlot, txHasSlot])) (k2 hm ho)
    · exact k5 hm
    · exact k3 hm
    · intro ho
      exact h.blockOwns (hs.params (.inr hm)) (k3 hm (by revert ho; cases s.rx.pc <;> simp [rxOwnsSlot, rxHasSlot])) (k4 hm ho)
    · exact k6 hm
  · rw [e1, hc]; exact hs.params
  · rw [e1]
    intro hm
    obtain ⟨p1, p2, p3, p4, p5, p6⟩ := hs.progress hm
    refine ⟨?_, ?_, ?_, ?_, ?_, ?_⟩ <;> simp only [e4, hc, e9, e10]
    · intro hp
      obtain ⟨a1, a2, a3, a4⟩ := p1 hp
      exact ⟨a1, a2, a3.mono hc h.grows, a4.mono hc h.grows⟩
    · intro hp
      obtain ⟨a1, a2, a3, a4⟩ := p2 hp
      exact ⟨a1, a2, a3.mono hc h.grows, a4.mono hc h.grows⟩
    · intro hp; exact (p3 hp).mono hc h.grows
    · intro hp; exact (p4 hp).mono hc h.grows
    · exact p5
    · exact p6
  · rw [e1]
    intro hm
    have hr := hs.rings hm
    exact hr.mono hc h.grows (by rw [hc, e9]; exact hr.tdt) (by rw [hc, e10]; exact hr.rdt)


theorem regWrite_tdt {r : Reg} (h1 : r ≠ .tdt) (h2 : r ≠ .ctrl) (v : Word) (s : State) :
    (regWrite r v s).dev.regs.tdt = s.dev.regs.tdt := by
  cases r <;> simp_all [regWrite, note, devWrite, putReg]

theorem regWrite_rdt {r : Reg} (h1 : r ≠ .rdt) (h2 : r ≠ .ctrl) (v : Word) (s : State) :
    (regWrite r v s).dev.regs.rdt = s.dev.regs.rdt := by
  cases r <;> simp_all [regWrite, note, devWrite, putReg]

theorem prog_step {s t : State} (hp : InitProgress s) (hc : t.cfg = s.cfg)
    (hg : ∀ x, (byteAt s.mem x).isSome = true → (byteAt t.mem x).isSome = true)
    (hn6 : t.ini.pc ≠ .n6) (hn9 : t.ini.pc ≠ .n9)
    (h8 : 8 ≤ initRank t.ini.pc → 8 ≤ initRank s.ini.pc) (h16 : 16 ≤ initRank t.ini.pc → 16 ≤ initRank s.ini.pc)
    (h15 : 15 ≤ initRank t.ini.pc → t.dev.regs.tdt.toNat < s.cfg.n)
    (h23 : 23 ≤ initRank t.ini.pc → t.dev.regs.rdt.toNat < s.cfg.n) : InitProgress t := by
  refine ⟨fun h => absurd h hn6, fun h => absurd h hn9, fun h => ?_, fun h => ?_, ?_, ?_⟩
  · rw [hc]; exact (hp.txDone (h8 h)).mono hc hg
  · rw [hc]; exact (hp.rxDone (h16 h)).mono hc hg
  · rw [hc]; exact h15
  · rw [hc]; exact h23

theorem init_inv {s t : State} (hs : Inv s) (hr : s.mode = .initing) (hmt : t.mode = .initing) (hc : t.cfg = s.cfg)
    (htx : t.tx = s.tx) (hrx : t.rx = s.rx) (hf : t.fcause = s.fcause) (hl1 : t.txLock = s.txLock) (hl2 : t.rxLock = s.rxLock)
    (hp : t.ini.p = s.ini.p) (hpc : t.ini.pc ≠ .idle ∧ t.ini.pc ≠ .n1) (hsh : Shaped t) (hprog : InitProgress t) : Inv t := by
  refine ⟨hsh, ?_, ⟨?_, ?_, ?_, ?_, ?_, ?_⟩, ?_, fun _ => hprog, ?_⟩
  · have := hs.engines
    unfold EnginesOk at *
    rw [hr] at this
    rw [hmt]
    simp only [hf, htx, hrx, hl1, hl2, hp]
    exact ⟨this.1, this.2.1, this.2.2.1, hpc.1, hpc.2, this.2.2.2.2.2⟩
  · intro h; rw [hmt] at h; cases h
  · intro h; rw [hmt] at h; cases h
  · intro h; rw [hmt] at h; cases h
  · intro h; rw [hmt] at h; cases h
  · intro h; rw [hmt] at h; cases h
  · intro h; rw [hmt] at h; cases h
  · intro _; rw [hc]; exact hs.params (.inl hr)
  · intro h; rw [hmt] at h; cases h

theorem ini_mode {s : State} (h : Inv s) (hm : s.mode ≠ .fatal) (hp : s.ini.pc ≠ .idle) : s.mode = .initing := by
  have he := h.engines
  unfold EnginesOk at he
  cases hmm : s.mode <;> simp_all

theorem shaped_mem {s t : State} (h : Shaped s) (hc : t.cfg = s.cfg) (hm : Memory.wf t.mem) (ho : Rising t.owner) (hb : t.bufLen = s.bufLen)
   (hp : t.ports.length = s.ports.length) (h1 : t.txShadow.length = s.txShadow.length) (h2 : t.rxShadow.length = s.rxShadow.length) : Shaped t :=
  ⟨hm, ho, by rw [hb]; exact h.bufLen, by rw [hp, hc]; exact h.ports, by rw [h1, hc]; exact h.txShadow, by rw [h2, hc]; exact h.rxShadow⟩

theorem inv_initWrite {s : State} (hs : Inv s) (hr : s.mode = .initing) {r : Reg} {v : Word} {n : InitPc}
    (hw : initWriteAt s = some (r, v, n)) : Inv (goInit n (regWrite r v s)) := by
  have hprog := hs.progress hr
  have g7 := hs.params (.inl hr)
  have hsh := hs.shaped
  have hn2 := (paramsOk_slots g7).1
  have hsh' : Shaped (goInit n (regWrite r v s)) := shaped_mem hsh (by simp) (by simpa using hsh.mem) (by simpa using hsh.owner) (by simp) (by simp) (by simp) (by simp)
  refine init_inv hs hr (by simp [hr]) (by simp) (by simp) (by simp) (by simp) (by simp) (by simp) (by simp) ?_ hsh' ?_
  · unfold initWriteAt at hw
    split at hw <;> cases hw <;> simp
  · have t15 := hprog.tdt
    have t23 := hprog.rdt
    unfold initWriteAt at hw
    split at hw <;> rename_i hp <;> cases hw
    all_goals
      refine prog_step hprog (by simp) (by simp) (by simp) (by simp) (by simp [hp, initRank]) (by simp [hp, initRank]) ?_ ?_
      all_goals simp only [hp, initRank, goInit_ini, goInit_dev, Nat.reduceLeDiff, false_implies, forall_const] at t15 t23 ⊢
      all_goals first
        | (rw [regWrite_tdt (by simp) (by simp)]; assumption)
        | (rw [regWrite_rdt (by simp) (by simp)]; assumption)
        | trivial
        | skip
    · show (indexWord (s.cfg.n - 1)).toNat < s.cfg.n
      rw [indexWord_toNat g7 (by omega)]; omega

theorem inv_N6 {s : State} (hs : Inv s) (hr : s.mode = .initing) (hp : s.ini.pc = .n6) : Inv (afterN6 s) := by
  have hprog := hs.progress hr
  have g7 := hs.params (.inl hr)
  have hsh := hs.shaped
  have hn2 := (paramsOk_slots g7).1
  have gid : ∀ x, (byteAt s.mem x).isSome = true → (byteAt s.mem x).isSome = true := fun _ h => h
  obtain ⟨a1, a2, a3, a4⟩ := hprog.txLoop hp
  have hgw : ∀ off w v x, (byteAt s.mem x).isSome = true → (byteAt (writeBytes s.mem (field s.cfg .tx s.ini.i off) w v) x).isSome = true :=
    fun off w v x h => byteAt_writeBytes_isSome _ _ _ _ _ h
  unfold afterN6
  have hk : s.ini.k = 0 ∨ s.ini.k = 1 ∨ s.ini.k = 2 := by omega
  rcases hk with hk | hk | hk <;> simp only [hk] at a4 ⊢
  · refine init_inv hs hr hr rfl rfl rfl rfl rfl rfl rfl (by simp [nextAccess, hp]) (shaped_mem hsh rfl (wf_writeBytes _ _ _ _ hsh.mem) hsh.owner rfl rfl rfl rfl) ?_
    refine ⟨fun _ => ⟨a1, by simp [hk], RingWritten.mono (s := s) rfl (hgw _ _ _) a3, ?_⟩, by simp [nextAccess, hp], by simp [nextAccess, hp, initRank], by simp [nextAccess, hp, initRank], by simp [nextAccess, hp, initRank], by simp [nextAccess, hp, initRank]⟩
    intro k hk'
    simp [hk] at hk'
    exact isSome_write_field (off := 0) (w := 8) (by decide) (by omega) (by omega) _ _
  · refine init_inv hs hr hr rfl rfl rfl rfl rfl rfl rfl (by simp [nextAccess, hp]) (shaped_mem hsh rfl (wf_writeBytes _ _ _ _ hsh.mem) hsh.owner rfl rfl rfl rfl) ?_
    refine ⟨fun _ => ⟨a1, by simp [hk], RingWritten.mono (s := s) rfl (hgw _ _ _) a3, ?_⟩, by simp [nextAccess, hp], by simp [nextAccess, hp, initRank], by simp [nextAccess, hp, initRank], by simp [nextAccess, hp, initRank], by simp [nextAccess, hp, initRank]⟩
    intro k hk'
    simp [hk] at hk'
    by_cases h8 : k < 8
    · exact hgw _ _ _ _ (a4 k (by omega))
    · exact isSome_write_field (off := 8) (w := 8) (by decide) (by omega) (by omega) _ _
  · have full : ∀ i < s.ini.i + 1, ∀ k < 16, (byteAt (writeBytes s.mem (field s.cfg .tx s.ini.i offStatus) 1 1) (field s.cfg .tx i k)).isSome = true := by
      intro i hi k hk'
      apply hgw
      by_cases he : i = s.ini.i
      · subst he; exact a4 k (by omega)
      · exact a3 i (by omega) k hk'
    unfold nextRound
    split <;> rename_i hlt <;> simp at hlt
    · refine init_inv hs hr hr rfl rfl rfl rfl rfl rfl rfl (by simp [hp]) (shaped_mem hsh rfl (wf_writeBytes _ _ _ _ hsh.mem) hsh.owner rfl rfl (by simp) rfl) ?_
      refine ⟨fun _ => ⟨by simpa using hlt, by simp, ?_, ?_⟩, by simp [hp], by simp [hp, initRank], by simp [hp, initRank], by simp [hp, initRank], by simp [hp, initRank]⟩
      · intro i hi k hk'
        exact full i (by simpa using hi) k hk'
      · intro k hk'; simp at hk'
    · refine init_inv hs hr hr rfl rfl rfl rfl rfl rfl rfl (by simp) (shaped_mem hsh rfl (wf_writeBytes _ _ _ _ hsh.mem) hsh.owner rfl rfl (by simp) rfl) ?_
      refine ⟨by simp, by simp, fun _ => ?_, by simp [initRank], by simp [initRank], by simp [initRank]⟩
      intro i hi k hk'
      exact full i (by have : i < s.cfg.n := hi; omega) k hk'

theorem inv_N9 {s : State} (hs : Inv s) (hr : s.mode = .initing) (hp : s.ini.pc = .n9) {t : State} (hst : stepN9 s = .next t) : Inv t := by
  have hprog := hs.progress hr
  have g7 := hs.params (.inl hr)
  have hsh := hs.shaped
  have hn2 := (paramsOk_slots g7).1
  have gid : ∀ x, (byteAt s.mem x).isSome = true → (byteAt s.mem x).isSome = true := fun _ h => h
  obtain ⟨a1, a2, a3, a4⟩ := hprog.rxLoop hp
  have htx := hprog.txDone (by simp [hp, initRank])
  have htd := hprog.tdt (by simp [hp, initRank])
  have hgw : ∀ off w v x, (byteAt s.mem x).isSome = true → (byteAt (writeBytes s.mem (field s.cfg .rx s.ini.i off) w v) x).isSome = true :=
    fun off w v x h => byteAt_writeBytes_isSome _ _ _ _ _ h
  rcases stepN9_next hst with ⟨hk, rest, hal, rfl⟩ | ⟨hk, hd, a, rest, hal, ⟨h1, h2, h3⟩, rfl⟩ | ⟨hk, rfl⟩ | ⟨hk, rfl⟩
  · exact inv_fatal rfl (shaped_mem hsh rfl hsh.mem hsh.owner rfl rfl rfl rfl) (by simp [failedN9])
  · simp only [afterN9, note, setArea, setOwner]
    refine init_inv hs hr hr rfl rfl rfl rfl rfl rfl rfl (by simp [hp]) (shaped_mem hsh rfl hsh.mem (rising_setOwner hd.toNat .engine hsh.owner) rfl rfl rfl rfl) ?_
    refine ⟨by simp [hp], fun _ => ⟨a1, by simp [hk], RingWritten.mono (s := s) rfl gid a3, ?_⟩, fun _ => RingWritten.mono (s := s) rfl gid htx, by simp [hp, initRank], fun _ => htd, by simp [hp, initRank]⟩
    intro k hk'; simp [hk] at hk'
  · refine init_inv hs hr hr rfl rfl rfl rfl rfl rfl rfl (by simp [nextAccess, hp]) (shaped_mem hsh rfl (wf_writeBytes _ _ _ _ hsh.mem) hsh.owner rfl rfl rfl rfl) ?_
    refine ⟨by simp [nextAccess, hp], fun _ => ⟨a1, by simp [hk], RingWritten.mono (s := s) rfl (hgw _ _ _) a3, ?_⟩, fun _ => RingWritten.mono (s := s) rfl (hgw _ _ _) htx, by simp [nextAccess, hp, initRank], fun _ => htd, by simp [nextAccess, hp, initRank]⟩
    intro k hk'
    simp [hk] at hk'
    exact isSome_write_field (off := 0) (w := 8) (by decide) (by omega) (by omega) _ _
  · have hk2 : s.ini.k = 2 := by omega
    have full : ∀ i < s.ini.i + 1, ∀ k < 16, (byteAt (writeBytes s.mem (field s.cfg .rx s.ini.i offLen) 8 0) (field s.cfg .rx i k)).isSome = true := by
      intro i hi k hk'
      by_cases he : i = s.ini.i
      · subst he
        by_cases h8 : k < 8
        · exact hgw _ _ _ _ (a4 k (by omega))
        · exact isSome_write_field (off := 8) (w := 8) (by decide) (by omega) (by omega) _ _
      · exact hgw _ _ _ _ (a3 i (by omega) k hk')
    have how := rising_setOwner s.ini.h.toNat (.rxSlot s.ini.i) hsh.owner
    have hmem : Memory.wf (writeBytes s.mem (field s.cfg .rx s.ini.i offLen) 8 0) := wf_writeBytes _ _ _ _ hsh.mem
    have hg := hgw offLen 8 0
    generalize hu : setOwner s.ini.h (.rxSlot s.ini.i) (setRxShadow s.ini.i s.ini.h (wrTail8 .rx s.ini.i 0 s)) = u
    have hum : u.mem = writeBytes s.mem (field s.cfg .rx s.ini.i offLen) 8 0 := by rw [← hu]; rfl
    have huw : u.owner = (if (Owner.rxSlot s.ini.i) = .pool then drop s.ini.h.toNat s.owner else store s.ini.h.toNat (Owner.rxSlot s.ini.i) s.owner) := by rw [← hu]; rfl
    have hurs : u.rxShadow.length = s.rxShadow.length := by rw [← hu]; simp
    have hui : u = { s with rxShadow := u.rxShadow, mem := u.mem, owner := u.owner, trace := u.trace } := by rw [← hu]; rfl
    have hsu : Shaped u := shaped_mem hsh (by rw [hui]) (by rw [hum]; exact hmem) (by rw [huw]; exact how) (by rw [hui]) (by rw [hui]) (by rw [hui]) hurs
    rw [← hum] at hg full
    unfold lentN9 nextRound
    rw [hu]
    have hini : u.ini = s.ini := by rw [hui]
    have hmode : u.mode = s.mode := by rw [hui]
    have hutx : u.tx = s.tx := by rw [hui]
    have hurx : u.rx = s.rx := by rw [hui]
    have hufc : u.fcause = s.fcause := by rw [hui]
    have hul1 : u.txLock = s.txLock := by rw [hui]
    have hul2 : u.rxLock = s.rxLock := by rw [hui]
    have hdev : u.dev = s.dev := by rw [hui]
    have hcfg : u.cfg = s.cfg := by rw [hui]
    split <;> rename_i hlt <;> rw [hini] at hlt
    · refine init_inv hs hr (hmode.trans hr) hcfg hutx hurx hufc hul1 hul2 (by simp [hini]) (by simp [hini, hp]) ?_ ?_
      · exact ⟨hsu.mem, hsu.owner, hsu.bufLen, hsu.ports, hsu.txShadow, hsu.rxShadow⟩
      have htx' : RingWritten u .tx u.cfg.n := by rw [hcfg]; exact RingWritten.mono (s := s) hcfg hg htx
      refine ⟨by simp [hini, hp], fun _ => ⟨by simpa [hini, hcfg] using hlt, by simp, ?_, ?_⟩, fun _ => htx', by simp [hini, hp, initRank], fun _ => by simpa [hdev, hcfg] using htd, by simp [hini, hp, initRank]⟩
      · intro i hi k hk'
        have := full i (by simpa [hini] using hi) k hk'
        rwa [← hcfg] at this
      · intro k hk'; simp at hk'
    · refine init_inv hs hr (hmode.trans hr) hcfg hutx hurx hufc hul1 hul2 (by simp [hini]) (by simp) ?_ ?_
      · exact ⟨hsu.mem, hsu.owner, hsu.bufLen, hsu.ports, hsu.txShadow, hsu.rxShadow⟩
      have htx' : RingWritten u .tx u.cfg.n := by rw [hcfg]; exact RingWritten.mono (s := s) hcfg hg htx
      refine ⟨by simp, by simp, fun _ => htx', fun _ => ?_, fun _ => by simpa [hdev, hcfg] using htd, by simp [initRank]⟩
      intro i hi k hk'
      have hi' : i < s.cfg.n := by rw [← hcfg]; exact hi
      have := full i (by omega) k hk'
      rwa [← hcfg] at this

theorem inv_writeTo {s : State} (hs : Inv s) (hr : s.mode = .initing) (r : Reg) (v : Word) (ini : InitSeq)
    (hp : ini.p = s.ini.p) (hpc : ini.pc ≠ .idle ∧ ini.pc ≠ .n1) (hprog : InitProgress { regWrite r v s with ini := ini }) :
    Inv { regWrite r v s with ini := ini } := by
  have hsh := hs.shaped
  exact init_inv hs hr (by simp [hr]) (by simp) (by simp) (by simp) (by simp) (by simp) (by simp) hp hpc
    (shaped_mem hsh (by simp) (by simpa using hsh.mem) (by simpa using hsh.owner) (by simp) (by simp) (by simp) (by simp)) hprog

theorem inv_N12b {s : State} (hs : Inv s) (hr : s.mode = .initing) (hp : s.ini.pc = .n12b) : Inv (afterN12b s) := by
  have hprog := hs.progress hr
  have td := hprog.tdt (by simp [hp, initRank])
  have rd := hprog.rdt (by simp [hp, initRank])
  unfold afterN12b
  split
  · refine inv_writeTo hs hr _ _ _ (by simp) (by simp) ?_
    exact prog_step hprog rfl (fun _ h => h) (by simp) (by simp) (by simp [hp, initRank]) (by simp [hp, initRank]) (fun _ => td) (fun _ => rd)
  · refine inv_writeTo hs hr _ _ _ (by simp) (by simp) ?_
    exact prog_step hprog rfl (fun _ h => h) (by simp) (by simp) (by simp [hp, initRank]) (by simp [hp, initRank]) (fun _ => td) (fun _ => rd)

theorem inv_N12c {s : State} (hs : Inv s) (hr : s.mode = .initing) (hp : s.ini.pc = .n12c) :
    Inv (nextRound s.cfg.mtaEntries .n13a (regWrite (.mta s.ini.i) 0 s)) := by
  have hprog := hs.progress hr
  have td := hprog.tdt (by simp [hp, initRank])
  have rd := hprog.rdt (by simp [hp, initRank])
  have td' : (regWrite (.mta s.ini.i) 0 s).dev.regs.tdt.toNat < s.cfg.n := by rw [regWrite_tdt (by simp) (by simp)]; exact td
  have rd' : (regWrite (.mta s.ini.i) 0 s).dev.regs.rdt.toNat < s.cfg.n := by rw [regWrite_rdt (by simp) (by simp)]; exact rd
  unfold nextRound
  split
  · refine inv_writeTo hs hr _ _ _ (by simp) (by simp [hp]) ?_
    exact prog_step hprog (by simp) (by simp) (by simp [hp]) (by simp [hp]) (by simp [hp, initRank]) (by simp [hp, initRank]) (fun _ => td') (fun _ => rd')
  · refine inv_writeTo hs hr _ _ _ (by simp) (by simp) ?_
    exact prog_step hprog (by simp) (by simp) (by simp) (by simp) (by simp [hp, initRank]) (by simp [hp, initRank]) (fun _ => td') (fun _ => rd')

theorem inv_N16 {s : State} (hs : Inv s) (hr : s.mode = .initing) (hp : s.ini.pc = .n16) :
    Inv (goInit .idle (respond (.port s.ini.p) .ok (freeRx (freeTx { s with mode := .ready })))) := by
  have hprog := hs.progress hr
  have g7 := hs.params (.inl hr)
  have hsh := hs.shaped
  have td := hprog.tdt (by simp [hp, initRank])
  have rd := hprog.rdt (by simp [hp, initRank])
  have he := hs.engines
  unfold EnginesOk at he
  rw [hr] at he
  obtain ⟨e1, e2, e3, -⟩ := he
  refine (inv_ready rfl).mpr ⟨shaped_mem hsh rfl hsh.mem hsh.owner rfl (respond_length _ _ _) rfl rfl, e1, rfl, .inl ⟨e2, rfl⟩, .inl ⟨e3, rfl⟩, ⟨fun _ => ?_, fun _ => ?_, fun _ => ?_, fun _ => ?_, fun _ => ?_, fun _ => ?_⟩, g7,
    ⟨?_, ?_, td, rd⟩⟩
  · show txHasSlot s.tx.pc = true → _
    rw [e2]; simp [txHasSlot]
  · show txOwnsSlot s.tx.pc = true → _
    rw [e2]; simp [txOwnsSlot]
  · show txOwnsSlot s.tx.pc = true → _
    rw [e2]; simp [txOwnsSlot]
  · show rxHasSlot s.rx.pc = true → _
    rw [e3]; simp [rxHasSlot]
  · show rxOwnsSlot s.rx.pc = true → _
    rw [e3]; simp [rxOwnsSlot]
  · show rxOwnsSlot s.rx.pc = true → _
    rw [e3]; simp [rxOwnsSlot]
  · exact hprog.txDone (by simp [hp, initRank])
  · exact hprog.rxDone (by simp [hp, initRank])

theorem inv_init : Keeps Inv initTurn := by
  intro s t hs ht
  rcases initTurn_cases ht with rfl | ⟨hm, hc⟩
  · exact hs
  have hpc : s.ini.pc ≠ .idle := by
    rcases hc with ⟨r, v, n, hw, _⟩ | h | h | h | h | h | h | h | h | h | h | h | h
    · intro h; rw [initWriteAt, h] at hw; cases hw
    all_goals (rw [h.1]; simp)
  have hr := ini_mode hs hm hpc
  have hprog := hs.progress hr
  have g7 := hs.params (.inl hr)
  have hsh := hs.shaped
  have hn2 := (paramsOk_slots g7).1
  have gid : ∀ x, (byteAt s.mem x).isSome = true → (byteAt s.mem x).isSome = true := fun _ h => h
  rcases hc with ⟨r, v, n, hw, rfl⟩ | ⟨hp, rfl⟩ | ⟨hp, rfl⟩ | ⟨hp, rfl⟩ | ⟨hp, rfl⟩ | ⟨hp, rfl⟩ | ⟨hp, rfl⟩ | ⟨hp, hst⟩ |
    ⟨hp, rfl⟩ | ⟨hp, rfl⟩ | ⟨hp, rfl⟩ | ⟨hp, rfl⟩ | ⟨hp, rfl⟩
  · exact inv_initWrite hs hr hw
  · refine init_inv hs hr hr rfl rfl rfl rfl rfl rfl rfl (by simp [afterN3a]) (shaped_mem hsh rfl hsh.mem hsh.owner rfl rfl rfl rfl) ?_
    exact prog_step hprog rfl gid (by simp [afterN3a]) (by simp [afterN3a]) (by simp [afterN3a, initRank]) (by simp [afterN3a, initRank]) (by simp [afterN3a, initRank]) (by simp [afterN3a, initRank])
  · refine init_inv hs hr hr rfl rfl rfl rfl rfl rfl rfl (by simp) (shaped_mem hsh rfl hsh.mem hsh.owner rfl rfl rfl rfl) ?_
    refine ⟨fun _ => ⟨by simp; omega, by simp, ?_, ?_⟩, by simp, by simp [initRank], by simp [initRank], by simp [initRank], by simp [initRank]⟩
    · intro i hi; simp at hi
    · intro k hk; simp at hk
  · exact inv_N6 hs hr hp
  · unfold afterCheck
    split
    · split
      · refine init_inv hs hr hr rfl rfl rfl rfl rfl rfl rfl (by simp) (shaped_mem hsh rfl hsh.mem hsh.owner rfl rfl rfl rfl) ?_
        exact prog_step hprog rfl gid (by simp) (by simp) (by simp [hp, initRank]) (by simp [initRank]) (by simp [initRank]) (by simp [initRank])
      · exact inv_fatal rfl (shaped_mem hsh rfl hsh.mem hsh.owner rfl rfl rfl rfl) (by simp)
    · exact inv_fatal rfl (shaped_mem hsh rfl hsh.mem hsh.owner rfl rfl rfl rfl) (by simp)
  · refine init_inv hs hr hr rfl rfl rfl rfl rfl rfl rfl (by simp) (shaped_mem hsh rfl hsh.mem hsh.owner rfl rfl rfl rfl) ?_
    exact prog_step hprog rfl gid (by simp) (by simp) (by simp [hp, initRank]) (by simp [initRank]) (by simp [initRank]) (by simp [initRank])
  · refine init_inv hs hr hr rfl rfl rfl rfl rfl rfl rfl (by simp) (shaped_mem hsh rfl hsh.mem hsh.owner rfl rfl rfl rfl) ?_
    refine ⟨by simp, fun _ => ⟨by simp; omega, by simp, ?_, ?_⟩, fun _ => ?_, by simp [initRank], fun _ => ?_, by simp [initRank]⟩
    · intro i hi; simp at hi
    · intro k hk; simp at hk
    · exact hprog.txDone (by simp [hp, initRank])
    · show (0 : Word).toNat < s.cfg.n
      simp; omega
  · exact inv_N9 hs hr hp hst
  · unfold afterCheck
    have td := hprog.tdt (by simp [hp, initRank])
    split
    · split
      · refine init_inv hs hr hr rfl rfl rfl rfl rfl rfl rfl (by simp) (shaped_mem hsh rfl hsh.mem hsh.owner rfl rfl rfl rfl) ?_
        exact prog_step hprog rfl gid (by simp) (by simp) (by simp [hp, initRank]) (by simp [hp, initRank]) (fun _ => td) (by simp [initRank])
      · exact inv_fatal rfl (shaped_mem hsh rfl hsh.mem hsh.owner rfl rfl rfl rfl) (by simp)
    · exact inv_fatal rfl (shaped_mem hsh rfl hsh.mem hsh.owner rfl rfl rfl rfl) (by simp)
  · refine init_inv hs hr hr rfl rfl rfl rfl rfl rfl rfl (by simp) (shaped_mem hsh rfl hsh.mem hsh.owner rfl rfl rfl rfl) ?_
    exact prog_step hprog rfl gid (by simp) (by simp) (by simp [hp, initRank]) (by simp [hp, initRank]) (fun _ => hprog.tdt (by simp [hp, initRank])) (by simp [initRank])
  · exact inv_N12b hs hr hp
  · exact inv_N12c hs hr hp
  · exact inv_N16 hs hr hp


/-- A change of ports that leaves the waiting commands where nothing may wait. -/
theorem inv_ports {s t : State} (hs : Inv s) (rest : t = { s with ports := t.ports, sel := t.sel })
    (hl : t.ports.length = s.ports.length) (hw : s.mode = .uninit → ∀ p, waitingAt t p = none) : Inv t := by
  have e1 : t.mode = s.mode := by rw [rest]
  have e2 : t.tx = s.tx := by rw [rest]
  have e3 : t.rx = s.rx := by rw [rest]
  have e4 : t.ini = s.ini := by rw [rest]
  have e5 : t.fcause = s.fcause := by rw [rest]
  have e6 : t.txLock = s.txLock := by rw [rest]
  have e7 : t.rxLock = s.rxLock := by rw [rest]
  have hc : t.cfg = s.cfg := by rw [rest]
  have hm : t.mem = s.mem := by rw [rest]
  have hd : t.dev = s.dev := by rw [rest]
  have hg : ∀ x, (byteAt s.mem x).isSome = true → (byteAt t.mem x).isSome = true := by rw [hm]; exact fun _ h => h
  refine ⟨?_, ?_, ?_, ?_, ?_, ?_⟩
  · exact shaped_mem hs.shaped hc (by rw [hm]; exact hs.shaped.mem) (by rw [rest]; exact hs.shaped.owner) (by rw [rest]) hl (by rw [rest]) (by rw [rest])
  · have he := hs.engines
    unfold EnginesOk TxLockOk RxLockOk at *
    rw [e1, e2, e3, e4, e5, e6, e7]
    cases hmm : s.mode <;> rw [hmm] at he
    · exact ⟨he.1, he.2.1, he.2.2.1, he.2.2.2.1, he.2.2.2.2.1, he.2.2.2.2.2.1, hw hmm⟩
    all_goals exact he
  · obtain ⟨k1, k2, k3, k4, k5, k6⟩ := hs.slots
    have hb : ∀ r i, blockOwns t r i = blockOwns s r i := fun r i => blockOwns_congr (by unfold statusAt; rw [hc, hm])
    refine ⟨?_, ?_, ?_, ?_, ?_, ?_⟩ <;> simp only [e1, e2, e3, hc, hb] <;> assumption
  · rw [e1, hc]; exact hs.params
  · rw [e1]
    intro hmm
    obtain ⟨p1, p2, p3, p4, p5, p6⟩ := hs.progress hmm
    refine ⟨?_, ?_, ?_, ?_, ?_, ?_⟩ <;> simp only [e4, hc, hd]
    · intro hp
      obtain ⟨a1, a2, a3, a4⟩ := p1 hp
      exact ⟨a1, a2, a3.mono hc hg, a4.mono hc hg⟩
    · intro hp
      obtain ⟨a1, a2, a3, a4⟩ := p2 hp
      exact ⟨a1, a2, a3.mono hc hg, a4.mono hc hg⟩
    · intro hp; exact (p3 hp).mono hc hg
    · intro hp; exact (p4 hp).mono hc hg
    · exact p5
    · exact p6
  · rw [e1]
    intro hmm
    have hr := hs.rings hmm
    exact hr.mono hc hg (by rw [hc, hd]; exact hr.tdt) (by rw [hc, hd]; exact hr.rdt)

theorem waitingAt_updatePort (p j : Nat) (f : Port → Port) (s : State) :
    waitingAt (updatePort p f s) j = if p = j then (match s.ports[j]? with | some q => (f q).waiting | none => none) else waitingAt s j := by
  unfold waitingAt
  rw [updatePort_getElem]
  by_cases h : p = j
  · simp only [h, if_true]
    cases s.ports[j]? <;> rfl
  · simp only [h, if_false]

theorem waitingAt_none_updatePort {p : Nat} {f : Port → Port} {s : State} (hf : ∀ q, q.waiting = none → (f q).waiting = none)
    (h : ∀ j, waitingAt s j = none) (j : Nat) : waitingAt (updatePort p f s) j = none := by
  rw [waitingAt_updatePort]
  have hj := h j
  split
  · unfold waitingAt at hj
    cases hq : s.ports[j]? with
    | none => rfl
    | some q => rw [hq] at hj; exact hf q hj
  · exact hj

theorem uninit_waiting {s : State} (hs : Inv s) (hm : s.mode = .uninit) : ∀ p, waitingAt s p = none := by
  have he := hs.engines
  unfold EnginesOk at he
  rw [hm] at he
  exact he.2.2.2.2.2.2

theorem inv_present {s : State} (hs : Inv s) (p : Nat) (cw : Word) (a0 a1 : BitVec 64) :
    Inv (raiseRequest p (present p cw a0 a1 s)) := by
  refine inv_ports hs rfl (by simp [raiseRequest, present, writePort, updatePort]) (fun hm => ?_)
  apply waitingAt_none_updatePort (fun _ _ => rfl)
  exact waitingAt_none_updatePort (s := s) (fun _ h => h) (uninit_waiting hs hm)

theorem inv_respond {s : State} (hs : Inv s) (p : Nat) (r : Reason) : Inv (respond (.port p) r s) := by
  refine inv_ports hs rfl (respond_length _ _ _) (fun hm => ?_)
  exact waitingAt_none_updatePort (s := s) (fun _ h => h) (uninit_waiting hs hm)

theorem inv_issue (p : Nat) (cw : Word) (a0 a1 : BitVec 64) : Keeps Inv (issueEvent p cw a0 a1) := by
  intro s t hs ht
  have h0 := inv_present hs p cw a0 a1
  rcases issueEvent_cases ht with ⟨rfl, _⟩ | ⟨q, hq, ho, ⟨why, hd, rfl⟩ | ⟨i, hd, ⟨h1, rfl⟩ | ⟨r, h1, rfl⟩ | ⟨h1, ⟨rfl, h2, h3, rfl⟩ | ⟨h2, rfl⟩⟩⟩⟩
  · exact hs
  · unfold issueIllegal
    split
    · exact h0
    · exact inv_respond h0 _ _
  · exact h0
  · exact inv_respond h0 _ _
  · have hm := decideOn_init_accept h1
    have he := h0.engines
    have hm' : (raiseRequest p (present p cw a0 a1 s)).mode = .uninit := hm
    unfold EnginesOk at he
    rw [hm'] at he
    generalize hu : raiseRequest p (present p cw a0 a1 s) = u at *
    have hpok : paramsOk u.cfg = true := by
      unfold initAllowed initPremises at h3
      simp only [Bool.and_eq_true] at h3
      exact h3.1.1
    refine ⟨?_, ?_, ⟨?_, ?_, ?_, ?_, ?_, ?_⟩, ?_, ?_, ?_⟩
    · exact shaped_mem h0.shaped rfl h0.shaped.mem h0.shaped.owner rfl rfl rfl rfl
    · show EnginesOk (stepN1 p a0 u)
      unfold EnginesOk
      exact ⟨he.1, he.2.1, he.2.2.1, by simp [stepN1], by simp [stepN1], by simp [stepN1], by simp [stepN1]⟩
    · intro h; cases h
    · intro h; cases h
    · intro h; cases h
    · intro h; cases h
    · intro h; cases h
    · intro h; cases h
    · intro _; exact hpok
    · intro _
      refine ⟨?_, ?_, ?_, ?_, ?_, ?_⟩ <;> simp [stepN1, initRank]
    · intro h; cases h
  · have hm := decideOn_accept h2 h1
    refine inv_ports h0 rfl (by simp [queueCommand, updatePort]) (fun hm' => ?_)
    have : s.mode = .uninit := hm'
    rw [hm] at this; cases this

theorem inv_reset (s : State) (hs : Inv s) : Inv (blockReset s) := by
  refine ⟨⟨hs.shaped.mem, hs.shaped.owner, hs.shaped.bufLen, ?_, ?_, ?_⟩, ?_, ⟨?_, ?_, ?_, ?_, ?_, ?_⟩, ?_, ?_, ?_⟩
  · simp [blockReset]
  · simp [blockReset]
  · simp [blockReset]
  · unfold EnginesOk
    refine ⟨rfl, rfl, rfl, rfl, rfl, rfl, fun p => ?_⟩
    unfold waitingAt
    cases hp : (blockReset s).ports[p]? with
    | none => rfl
    | some q =>
      have := List.mem_of_getElem? hp
      simp only [blockReset, List.mem_replicate] at this
      rw [this.2]; rfl
  all_goals (intro h; simp [blockReset] at h)

/-- Fields the invariant does not speak of. -/
theorem inv_congr {s t : State} (hs : Inv s)
    (rest : t = { s with irqPend := t.irqPend, allocs := t.allocs, script := t.script, owner := t.owner,
                         areas := t.areas, irqSignals := t.irqSignals })
    (ho : Rising t.owner) : Inv t := by
  obtain ⟨⟨b1, b2, b3, b4, b5, b6⟩, h2, ⟨c1, c2, c3, c4, c5, c6⟩, h4, h5, h6⟩ := hs
  rw [rest]
  refine ⟨⟨b1, ho, b3, b4, b5, b6⟩, h2, ⟨c1, c2, c3, c4, c5, c6⟩, h4, fun hm => ?_, fun hm => ?_⟩
  · obtain ⟨p1, p2, p3, p4, p5, p6⟩ := h5 hm; exact ⟨p1, p2, p3, p4, p5, p6⟩
  · obtain ⟨p1, p2, p3, p4⟩ := h6 hm; exact ⟨p1, p2, p3, p4⟩

theorem inv_own (h : Handle) (o : Owner) (a : Addr) : KeepsFn Inv (moveBuffer h o a) := by
  intro s hs
  rcases moveBuffer_cases h o a s with he | ⟨_, _, _, ⟨_, he⟩ | ⟨_, _, he⟩ | ⟨_, _, he⟩⟩ <;> rw [he]
  · exact hs
  · exact inv_congr hs rfl (rising_drop h.toNat hs.shaped.owner)
  · exact inv_congr hs rfl (rising_setOwner h.toNat o hs.shaped.owner)
  · exact inv_congr hs rfl (rising_setOwner h.toNat o hs.shaped.owner)

theorem inv_irq : KeepsFn Inv (fun s => latchIrq (deliverSignal s)) := by
  intro s hs
  unfold latchIrq
  dsimp only
  split <;> exact inv_congr hs rfl hs.shaped.owner

end Sys2Proof.Machine
end

