-- ==== Sys2Proof/Laws/Ownership.lean ====
section
/-! SUPPORT. The ghost ownership of buffers (`Owned` of Safety.lean), kept by every micro-step of every engine and by every move of the environment; `Issue` keeps it where the requester owns what it submits (10_state.md R53, 40_ring_and_ownership.md R136). -/

namespace Sys2Proof.Machine

theorem ownerOf_setOwner (h : Handle) (o : Owner) (s : State) (x : Handle) :
    ownerOf (setOwner h o s) x = if x = h then o else ownerOf s x := by
  unfold ownerOf setOwner
  dsimp only
  by_cases ho : o = .pool
  · rw [if_pos ho, lookup_drop]
    by_cases hx : x = h
    · subst hx; simp [ho]
    · have : x.toNat ≠ h.toNat := fun he => hx (BitVec.eq_of_toNat_eq he)
      simp [hx, this]
  · rw [if_neg ho, lookup_store]
    by_cases hx : x = h
    · subst hx; simp
    · have : x.toNat ≠ h.toNat := fun he => hx (BitVec.eq_of_toNat_eq he)
      simp [hx, this]

theorem ownerOf_congr {s t : State} (h : t.owner = s.owner) (x : Handle) : ownerOf t x = ownerOf s x := by
  unfold ownerOf; rw [h]

theorem txShadowAt_set {s t : State} {i : Nat} {h : Handle} (ht : t.txShadow = s.txShadow.set i h) (j : Nat) :
    txShadowAt t j = if i = j ∧ j < s.txShadow.length then h else txShadowAt s j := by
  unfold txShadowAt
  rw [ht]
  simp only [List.getD_eq_getElem?_getD, List.getElem?_set]
  by_cases h1 : i = j
  · subst h1
    by_cases h2 : i < s.txShadow.length
    · simp [h2]
    · simp [h2]
  · simp [h1]

theorem rxShadowAt_set {s t : State} {i : Nat} {h : Handle} (ht : t.rxShadow = s.rxShadow.set i h) (j : Nat) :
    rxShadowAt t j = if i = j ∧ j < s.rxShadow.length then h else rxShadowAt s j := by
  unfold rxShadowAt
  rw [ht]
  simp only [List.getD_eq_getElem?_getD, List.getElem?_set]
  by_cases h1 : i = j
  · subst h1
    by_cases h2 : i < s.rxShadow.length
    · simp [h2]
    · simp [h2]
  · simp [h1]

/-- Owned depends on -/
theorem RunsFor.congr {s t : State} (h : t.ports = s.ports) {src : Source} (hr : RunsFor s src) : RunsFor t src := by
  cases src with
  | irq => trivial
  | port p => obtain ⟨q, hq⟩ := hr; exact ⟨q, by rw [h]; exact hq⟩

/-- The port-and-queue part, and slots, kept when shadows, owner, ports are the same -/
theorem owned_same {s t : State} (hs : Owned s) (hc : t.cfg = s.cfg) (h1 : t.txShadow = s.txShadow) (h2 : t.rxShadow = s.rxShadow)
    (h3 : t.owner = s.owner) (h4 : t.ports = s.ports)
    (htx : t.tx.pc ≠ .idle → s.tx.pc ≠ .idle ∧ t.tx.h = s.tx.h ∧ t.tx.p = s.tx.p ∧ (t.tx.pc ≠ .x7 → t.tx.pc ≠ .x8 → s.tx.pc ≠ .x7 ∧ s.tx.pc ≠ .x8))
    (hrx : t.rx.pc ≠ .idle → s.rx.pc ≠ .idle ∧ t.rx.src = s.rx.src)
    (hini : t.ini.pc ≠ .idle → s.ini.pc ≠ .idle ∧ t.ini.p = s.ini.p)
    (taken : t.rx.pc = .d3b ∨ t.rx.pc = .d3c ∨ t.rx.pc = .d4 → ownerOf t t.rx.b = .engine)
    (fresh : t.rx.pc = .d6a ∨ t.rx.pc = .d6b ∨ t.rx.pc = .d6c ∨ t.rx.pc = .d6d → t.rx.nh ≠ 0 ∧ ownerOf t t.rx.nh = .engine)
    (initial : t.ini.pc = .n9 → t.ini.k ≠ 0 → t.ini.h ≠ 0 ∧ ownerOf t t.ini.h = .engine) : Owned t := by
  obtain ⟨o1, o2, o3, o4, o5, o6, o7, o8, o9, o10, o11⟩ := hs
  have ho := ownerOf_congr h3
  refine ⟨?_, ?_, taken, fresh, initial, ?_, ?_, ?_, ?_, ?_, ?_⟩
  · rw [hc]; unfold txShadowAt at *; rw [h1]; simpa only [ho] using o1
  · rw [hc]; unfold rxShadowAt at *; rw [h2]; simpa only [ho] using o2
  · intro a1 a2 a3
    obtain ⟨b1, b2, b3, b4⟩ := htx a1
    rw [ho, b2, b3]
    exact o6 b1 (b4 a2 a3).1 (b4 a2 a3).2
  · intro a1
    obtain ⟨b1, b2, b3, b4⟩ := htx a1
    rw [h4, b2, b3]; exact o7 b1
  · intro a1
    obtain ⟨b1, b2⟩ := hrx a1
    rw [b2]; exact (o8 b1).congr h4
  · intro a1
    obtain ⟨b1, b2⟩ := hini a1
    rw [b2]; exact (o9 b1).congr h4
  · rw [h4]; simpa only [ho] using o10
  · rw [h4]; exact o11

theorem getElem_respond {p : Nat} {r : Reason} {s : State} {j : Nat} :
    (respond (.port p) r s).ports[j]? = if p = j then (s.ports[j]?).map (fun q => { q with rv := r.rv, rc := r.code, outstanding := false }) else s.ports[j]? :=
  updatePort_getElem _ _ s j

/-- the port j≠p part under respond -/
theorem RunsFor.respond {s : State} {p : Nat} {r : Reason} {src : Source} (h : src ≠ .port p) (hr : RunsFor s src) :
    RunsFor (Machine.respond (.port p) r s) src := by
  cases src with
  | irq => trivial
  | port j =>
    obtain ⟨q, hq, h1⟩ := hr
    have hne : p ≠ j := fun he => h (by rw [he])
    exact ⟨q, by rw [getElem_respond, if_neg hne]; exact hq, h1⟩

theorem owned_X4 {s : State} (hi : Inv s) (hr : s.mode = .ready) (hs : Owned s) (hp : s.tx.pc = .x4) : Owned (afterX4 s) := by
  have hlt := hi.slots.txIndex hr (by rw [hp]; rfl)
  unfold afterX4
  split <;> rename_i hz
  · exact owned_same hs rfl rfl rfl rfl rfl (by simp [hp]) (fun h => ⟨h, rfl⟩) (fun h => ⟨h, rfl⟩) hs.taken hs.fresh hs.initial
  · generalize hu : goTx .x5a (setTxShadow s.tx.i 0 (bufFree (txShadowAt s s.tx.i) s)) = u
    have hmy := hs.txSlots _ hlt hz
    have ho : ∀ x, ownerOf u x = if x = txShadowAt s s.tx.i then .pool else ownerOf s x := by
      intro x; rw [← hu]; exact ownerOf_setOwner (txShadowAt s s.tx.i) .pool s x
    have hsh : ∀ j, txShadowAt u j = if s.tx.i = j ∧ j < s.txShadow.length then 0 else txShadowAt s j := by
      intro j; rw [← hu]; exact txShadowAt_set rfl j
    have hui : u = { s with tx := { s.tx with pc := .x5a }, txShadow := u.txShadow, owner := u.owner, areas := u.areas, trace := u.trace } := by
      rw [← hu]; simp only [goTx, setTxShadow, bufFree, note, dropArea, setOwner]
    have ne : ∀ x o, ownerOf s x = o → o ≠ .txSlot s.tx.i → x ≠ txShadowAt s s.tx.i := by
      intro x o h1 h2 he; rw [he, hmy] at h1; exact h2 h1.symm
    have hn : s.tx.i < s.txShadow.length := by rw [hi.shaped.txShadow]; exact hlt
    obtain ⟨o1, o2, o3, o4, o5, o6, o7, o8, o9, o10, o11⟩ := hs
    have ecfg : u.cfg = s.cfg := by rw [hui]
    have erx : u.rx = s.rx := by rw [hui]
    have eini : u.ini = s.ini := by rw [hui]
    have etx : u.tx = { s.tx with pc := .x5a } := by rw [hui]
    have eports : u.ports = s.ports := by rw [hui]
    have ers : ∀ j, rxShadowAt u j = rxShadowAt s j := by intro j; unfold rxShadowAt; rw [hui]
    refine ⟨?_, ?_, ?_, ?_, ?_, ?_, ?_, ?_, ?_, ?_, ?_⟩
    · rw [ecfg]
      intro j hj hj0
      rw [hsh j] at hj0 ⊢
      by_cases he : s.tx.i = j
      · subst he; simp [hn] at hj0
      · simp only [he, false_and, if_false] at hj0 ⊢
        have := o1 j hj hj0
        rw [ho, if_neg (ne _ _ this (by simpa using Ne.symm he))]; exact this
    · rw [ecfg]
      intro j hj hj0
      rw [ers] at hj0 ⊢
      have := o2 j hj hj0
      rw [ho, if_neg (ne _ _ this (by simp))]; exact this
    · rw [erx]; intro h; have := o3 h; rw [ho, if_neg (ne _ _ this (by simp))]; exact this
    · rw [erx]; intro h; have := o4 h; rw [ho, if_neg (ne _ _ this.2 (by simp))]; exact this
    · rw [eini]; intro h h'; have := o5 h h'; rw [ho, if_neg (ne _ _ this.2 (by simp))]; exact this
    · rw [etx]; intro _ _ _
      have := o6 (by simp [hp]) (by simp [hp]) (by simp [hp])
      rw [ho, if_neg (ne _ _ this (by simp))]; exact this
    · rw [etx, eports]; intro _; exact o7 (by simp [hp])
    · rw [erx]; intro h; exact (o8 h).congr eports
    · rw [eini]; intro h; exact (o9 h).congr eports
    · rw [eports]; intro p q len h a h1 h2
      have := o10 p q len h a h1 h2
      refine ⟨this.1, ?_⟩
      rw [ho, if_neg (ne _ _ this.2 (by simp))]; exact this.2
    · rw [eports]; exact o11

theorem owned_X6 {s : State} (hi : Inv s) (hr : s.mode = .ready) (hs : Owned s) (hp : s.tx.pc = .x6) :
    Owned (goTx .x7 (setOwner s.tx.h (.txSlot s.tx.i) (setTxShadow s.tx.i s.tx.h s))) := by
  have hlt := hi.slots.txIndex hr (by rw [hp]; rfl)
  generalize hu : goTx .x7 (setOwner s.tx.h (.txSlot s.tx.i) (setTxShadow s.tx.i s.tx.h s)) = u
  have ho : ∀ x, ownerOf u x = if x = s.tx.h then .txSlot s.tx.i else ownerOf s x := by
    intro x; rw [← hu]; exact ownerOf_setOwner s.tx.h (.txSlot s.tx.i) s x
  have hsh : ∀ j, txShadowAt u j = if s.tx.i = j ∧ j < s.txShadow.length then s.tx.h else txShadowAt s j := by
    intro j; rw [← hu]; exact txShadowAt_set rfl j
  have hui : u = { s with tx := { s.tx with pc := .x7 }, txShadow := u.txShadow, owner := u.owner, trace := u.trace } := by rw [← hu]; rfl
  obtain ⟨o1, o2, o3, o4, o5, o6, o7, o8, o9, o10, o11⟩ := hs
  have hmy := o6 (by simp [hp]) (by simp [hp]) (by simp [hp])
  have ne : ∀ x o, ownerOf s x = o → o ≠ .requester s.tx.p → x ≠ s.tx.h := by
    intro x o h1 h2 he; rw [he, hmy] at h1; exact h2 h1.symm
  obtain ⟨q0, hq0, hx0, hw0⟩ := o7 (by simp [hp])
  have ecfg : u.cfg = s.cfg := by rw [hui]
  have erx : u.rx = s.rx := by rw [hui]
  have eini : u.ini = s.ini := by rw [hui]
  have etx : u.tx = { s.tx with pc := .x7 } := by rw [hui]
  have eports : u.ports = s.ports := by rw [hui]
  have ers : ∀ j, rxShadowAt u j = rxShadowAt s j := by intro j; unfold rxShadowAt; rw [hui]
  refine ⟨?_, ?_, ?_, ?_, ?_, ?_, ?_, ?_, ?_, ?_, ?_⟩
  · rw [ecfg]
    intro j hj hj0
    rw [hsh j] at hj0 ⊢
    by_cases he : s.tx.i = j ∧ j < s.txShadow.length
    · rw [if_pos he, ho, if_pos rfl, he.1]
    · rw [if_neg he] at hj0 ⊢
      have := o1 j hj hj0
      rw [ho, if_neg (ne _ _ this (by simp))]; exact this
  · rw [ecfg]
    intro j hj hj0
    rw [ers] at hj0 ⊢
    have := o2 j hj hj0
    rw [ho, if_neg (ne _ _ this (by simp))]; exact this
  · rw [erx]; intro h; have := o3 h; rw [ho, if_neg (ne _ _ this (by simp))]; exact this
  · rw [erx]; intro h; have := o4 h; rw [ho, if_neg (ne _ _ this.2 (by simp))]; exact this
  · rw [eini]; intro h h'; have := o5 h h'; rw [ho, if_neg (ne _ _ this.2 (by simp))]; exact this
  · rw [etx]; intro _ h; simp at h
  · rw [etx, eports]; intro _; exact ⟨q0, hq0, hx0, hw0⟩
  · rw [erx]; intro h; exact (o8 h).congr eports
  · rw [eini]; intro h; exact (o9 h).congr eports
  · rw [eports]; intro p q len h a h1 h2
    have := o10 p q len h a h1 h2
    refine ⟨this.1, ?_⟩
    have hne : h ≠ s.tx.h := by
      apply ne _ _ this.2
      intro he
      have hpp : p = s.tx.p := by injection he
      subst hpp
      rw [hq0] at h1; cases h1
      rw [hw0] at h2; cases h2
    rw [ho, if_neg hne]; exact this.2
  · rw [eports]; exact o11

/-- The port of the TX engine answered. -/
theorem owned_txDone {s t : State} (hs : Owned s) (hpc : s.tx.pc ≠ .idle) (r : Reason)
    (rest : t = { s with ports := t.ports, tx := t.tx, txLock := t.txLock, trace := t.trace })
    (hports : t.ports = (respond (.port s.tx.p) r s).ports) (hidle : t.tx.pc = .idle) : Owned t := by
  obtain ⟨o1, o2, o3, o4, o5, o6, o7, o8, o9, o10, o11⟩ := hs
  obtain ⟨q0, hq0, hx0, hw0⟩ := o7 hpc
  have ecfg : t.cfg = s.cfg := by rw [rest]
  have erx : t.rx = s.rx := by rw [rest]
  have eini : t.ini = s.ini := by rw [rest]
  have ho : ∀ x, ownerOf t x = ownerOf s x := ownerOf_congr (by rw [rest])
  have ets : ∀ j, txShadowAt t j = txShadowAt s j := by intro j; unfold txShadowAt; rw [rest]
  have ers : ∀ j, rxShadowAt t j = rxShadowAt s j := by intro j; unfold rxShadowAt; rw [rest]
  have hport : ∀ j, t.ports[j]? = if s.tx.p = j then (s.ports[j]?).map (fun q => { q with rv := r.rv, rc := r.code, outstanding := false }) else s.ports[j]? := by
    intro j; rw [hports]; exact getElem_respond
  have runs : ∀ src, RunsFor s src → RunsFor t src := by
    intro src h
    cases src with
    | irq => trivial
    | port j =>
      obtain ⟨q, hq, h1, h2, h3⟩ := h
      have hne : s.tx.p ≠ j := by
        intro he; subst he; rw [hq0] at hq; cases hq; exact h2 hx0.2.1
      exact ⟨q, by rw [hport, if_neg hne]; exact hq, h1, h2, h3⟩
  refine ⟨?_, ?_, ?_, ?_, ?_, fun h => absurd hidle h, fun h => absurd hidle h, ?_, ?_, ?_, ?_⟩
  · simpa only [ecfg, ets, ho] using o1
  · simpa only [ecfg, ers, ho] using o2
  · simpa only [erx, ho] using o3
  · simpa only [erx, ho] using o4
  · simpa only [eini, ho] using o5
  · rw [erx]; intro h; exact runs _ (o8 h)
  · rw [eini]; intro h; exact runs _ (o9 h)
  · intro p q len h a h1 h2
    rw [hport] at h1
    by_cases he : s.tx.p = p
    · subst he
      rw [if_pos rfl, hq0] at h1
      simp only [Option.map_some, Option.some.injEq] at h1
      rw [← h1] at h2
      rw [show _ = q0.waiting from rfl, hw0] at h2; cases h2
    · rw [if_neg he] at h1
      have := o10 p q len h a h1 h2
      rw [ho]; exact this
  · intro p q i h a h1 h2 h3
    rw [hport] at h1
    by_cases he : s.tx.p = p
    · subst he
      rw [if_pos rfl, hq0] at h1
      simp only [Option.map_some, Option.some.injEq] at h1
      rw [← h1] at h2
      rw [show _ = q0.waiting from rfl, hw0] at h2; cases h2
    · rw [if_neg he] at h1
      exact o11 p q i h a h1 h2 h3

theorem owned_tx {s t : State} (hs : Inv s) (ho : Owned s) (ht : txTurn s = .next t) : Owned t := by
  rcases txTurn_cases ht with rfl | ⟨hm, hc⟩
  · exact ho
  have hpc : s.tx.pc ≠ .idle := by
    rcases hc with h | h | h | h | h | h | h | h | h | h | h <;> (rw [h.1]; simp)
  have hr := tx_mode hs hm hpc
  rcases hc with ⟨hp, hl', rfl⟩ | ⟨hp, rfl⟩ | ⟨hp, b, hb, rfl⟩ | ⟨hp, rfl⟩ | ⟨hp, rfl⟩ | ⟨hp, rfl⟩ | ⟨hp, rfl⟩ |
    ⟨hp, rfl⟩ | ⟨hp, rfl⟩ | ⟨hp, rfl⟩ | ⟨hp, rfl⟩
  · exact owned_same ho rfl rfl rfl rfl rfl (by simp [hp]) (fun h => ⟨h, rfl⟩) (fun h => ⟨h, rfl⟩) ho.taken ho.fresh ho.initial
  · exact owned_same ho rfl rfl rfl rfl rfl (by simp [hp, afterX2]) (fun h => ⟨h, rfl⟩) (fun h => ⟨h, rfl⟩) ho.taken ho.fresh ho.initial
  · unfold afterX3
    split
    · exact owned_same ho rfl rfl rfl rfl rfl (by simp [hp]) (fun h => ⟨h, rfl⟩) (fun h => ⟨h, rfl⟩) ho.taken ho.fresh ho.initial
    · exact owned_txDone ho hpc .busy rfl rfl rfl
  · exact owned_X4 hs hr ho hp
  · exact owned_same ho rfl rfl rfl rfl rfl (by simp [hp]) (fun h => ⟨h, rfl⟩) (fun h => ⟨h, rfl⟩) ho.taken ho.fresh ho.initial
  · exact owned_same ho rfl rfl rfl rfl rfl (by simp [hp]) (fun h => ⟨h, rfl⟩) (fun h => ⟨h, rfl⟩) ho.taken ho.fresh ho.initial
  · exact owned_same ho rfl rfl rfl rfl rfl (by simp [hp]) (fun h => ⟨h, rfl⟩) (fun h => ⟨h, rfl⟩) ho.taken ho.fresh ho.initial
  · exact owned_same ho rfl rfl rfl rfl rfl (by simp [hp]) (fun h => ⟨h, rfl⟩) (fun h => ⟨h, rfl⟩) ho.taken ho.fresh ho.initial
  · exact owned_X6 hs hr ho hp
  · exact owned_same ho rfl rfl rfl rfl rfl (by simp [hp]) (fun h => ⟨h, rfl⟩) (fun h => ⟨h, rfl⟩) ho.taken ho.fresh ho.initial
  · exact owned_txDone ho hpc .ok rfl rfl rfl


/-- One handle changes its owner. -/
theorem owned_change {s t : State} (hs : Owned s) {h0 : Handle} {o1 : Owner}
    (hnew : ∀ x, ownerOf t x = if x = h0 then o1 else ownerOf s x)
    (hnt : ∀ i, ownerOf s h0 ≠ .txSlot i)
    (hc : t.cfg = s.cfg) (htx : t.tx = s.tx) (hts : t.txShadow = s.txShadow) (hports : t.ports = s.ports)
    (hrx : t.rx.pc ≠ .idle → s.rx.pc ≠ .idle ∧ t.rx.src = s.rx.src)
    (hini : t.ini.pc ≠ .idle → s.ini.pc ≠ .idle ∧ t.ini.p = s.ini.p)
    (hsend : s.tx.pc ≠ .idle → s.tx.pc ≠ .x7 → s.tx.pc ≠ .x8 → s.tx.h ≠ h0)
    (hqueue : ∀ (p : Nat) (q : Port) (len : Nat) (h : Handle) (a : Addr), s.ports[p]? = some q → q.waiting = some ⟨.xmit len, h, a⟩ → h ≠ h0)
    (rxSlots : ∀ i < s.cfg.n, rxShadowAt t i ≠ 0 → ownerOf t (rxShadowAt t i) = .rxSlot i)
    (taken : t.rx.pc = .d3b ∨ t.rx.pc = .d3c ∨ t.rx.pc = .d4 → ownerOf t t.rx.b = .engine)
    (fresh : t.rx.pc = .d6a ∨ t.rx.pc = .d6b ∨ t.rx.pc = .d6c ∨ t.rx.pc = .d6d → t.rx.nh ≠ 0 ∧ ownerOf t t.rx.nh = .engine)
    (initial : t.ini.pc = .n9 → t.ini.k ≠ 0 → t.ini.h ≠ 0 ∧ ownerOf t t.ini.h = .engine) : Owned t := by
  obtain ⟨o1', o2, o3, o4, o5, o6, o7, o8, o9, o10, o11⟩ := hs
  refine ⟨?_, by rw [hc]; exact rxSlots, taken, fresh, initial, ?_, ?_, ?_, ?_, ?_, ?_⟩
  · rw [hc]
    intro i hi h0'
    have e : txShadowAt t i = txShadowAt s i := by unfold txShadowAt; rw [hts]
    rw [e] at h0' ⊢
    have := o1' i hi h0'
    rw [hnew, if_neg]
    · exact this
    · intro he; rw [he] at this; exact hnt i this
  · rw [htx]
    intro a1 a2 a3
    rw [hnew, if_neg (hsend a1 a2 a3)]
    exact o6 a1 a2 a3
  · rw [htx, hports]; exact o7
  · intro a1
    obtain ⟨b1, b2⟩ := hrx a1
    rw [b2]; exact (o8 b1).congr hports
  · intro a1
    obtain ⟨b1, b2⟩ := hini a1
    rw [b2]; exact (o9 b1).congr hports
  · rw [hports]
    intro p q len h a h1 h2
    have := o10 p q len h a h1 h2
    refine ⟨this.1, ?_⟩
    rw [hnew, if_neg (hqueue p q len h a h1 h2)]; exact this.2
  · rw [hports]; exact o11

/-- when the handle is no requester's -/
theorem owned_change' {s t : State} (hs : Owned s) {h0 : Handle} {o1 : Owner}
    (hnew : ∀ x, ownerOf t x = if x = h0 then o1 else ownerOf s x)
    (hnt : ∀ i, ownerOf s h0 ≠ .txSlot i) (hnr : ∀ p, ownerOf s h0 ≠ .requester p)
    (hc : t.cfg = s.cfg) (htx : t.tx = s.tx) (hts : t.txShadow = s.txShadow) (hports : t.ports = s.ports)
    (hrx : t.rx.pc ≠ .idle → s.rx.pc ≠ .idle ∧ t.rx.src = s.rx.src)
    (hini : t.ini.pc ≠ .idle → s.ini.pc ≠ .idle ∧ t.ini.p = s.ini.p)
    (rxSlots : ∀ i < s.cfg.n, rxShadowAt t i ≠ 0 → ownerOf t (rxShadowAt t i) = .rxSlot i)
    (taken : t.rx.pc = .d3b ∨ t.rx.pc = .d3c ∨ t.rx.pc = .d4 → ownerOf t t.rx.b = .engine)
    (fresh : t.rx.pc = .d6a ∨ t.rx.pc = .d6b ∨ t.rx.pc = .d6c ∨ t.rx.pc = .d6d → t.rx.nh ≠ 0 ∧ ownerOf t t.rx.nh = .engine)
    (initial : t.ini.pc = .n9 → t.ini.k ≠ 0 → t.ini.h ≠ 0 ∧ ownerOf t t.ini.h = .engine) : Owned t := by
  refine owned_change hs hnew hnt hc htx hts hports hrx hini ?_ ?_ rxSlots taken fresh initial
  · intro a1 a2 a3 he
    have := hs.sending a1 a2 a3
    rw [he] at this; exact hnr _ this
  · intro p q len h a h1 h2 he
    have := (hs.queued p q len h a h1 h2).2
    rw [he] at this; exact hnr _ this

/-- The port of the RX engine or of INIT answered. -/
theorem owned_answer {s t : State} (hs : Owned s) {p : Nat} (hp : RunsFor s (.port p)) (r : Reason)
    (hc : t.cfg = s.cfg) (htx : t.tx = s.tx) (h1 : t.txShadow = s.txShadow) (h2 : t.rxShadow = s.rxShadow)
    (h3 : t.owner = s.owner)
    (hports : t.ports = (respond (.port p) r s).ports)
    (hrx : t.rx.pc ≠ .idle → s.rx.pc ≠ .idle ∧ t.rx.src = s.rx.src ∧ s.rx.src ≠ .port p)
    (hini : t.ini.pc ≠ .idle → s.ini.pc ≠ .idle ∧ t.ini.p = s.ini.p ∧ s.ini.p ≠ p)
    (taken : t.rx.pc = .d3b ∨ t.rx.pc = .d3c ∨ t.rx.pc = .d4 → ownerOf t t.rx.b = .engine)
    (fresh : t.rx.pc = .d6a ∨ t.rx.pc = .d6b ∨ t.rx.pc = .d6c ∨ t.rx.pc = .d6d → t.rx.nh ≠ 0 ∧ ownerOf t t.rx.nh = .engine)
    (initial : t.ini.pc = .n9 → t.ini.k ≠ 0 → t.ini.h ≠ 0 ∧ ownerOf t t.ini.h = .engine) : Owned t := by
  obtain ⟨o1, o2, o3, o4, o5, o6, o7, o8, o9, o10, o11⟩ := hs
  obtain ⟨q0, hq0, hx0, hx1, hw0⟩ := hp
  have ho := ownerOf_congr h3
  have hport : ∀ j, t.ports[j]? = if p = j then (s.ports[j]?).map (fun q => { q with rv := r.rv, rc := r.code, outstanding := false }) else s.ports[j]? := by
    intro j; rw [hports]; exact getElem_respond
  have runs : ∀ src, src ≠ .port p → RunsFor s src → RunsFor t src := by
    intro src hne h
    have := RunsFor.respond (r := r) hne h
    exact this.congr hports
  refine ⟨?_, ?_, taken, fresh, initial, ?_, ?_, ?_, ?_, ?_, ?_⟩
  · rw [hc]; unfold txShadowAt at *; rw [h1]; simpa only [ho] using o1
  · rw [hc]; unfold rxShadowAt at *; rw [h2]; simpa only [ho] using o2
  · rw [htx]; simpa only [ho] using o6
  · rw [htx]
    intro a1
    obtain ⟨q, hq, hx, hw⟩ := o7 a1
    have hne : p ≠ s.tx.p := by
      intro he; subst he; rw [hq0] at hq; cases hq; exact hx1 hx.2.1
    exact ⟨q, by rw [hport, if_neg hne]; exact hq, hx, hw⟩
  · intro h
    obtain ⟨b1, b2, b3⟩ := hrx h
    rw [b2]; exact runs _ b3 (o8 b1)
  · intro h
    obtain ⟨b1, b2, b3⟩ := hini h
    rw [b2]; exact runs _ (by intro he; injection he with he; exact b3 he) (o9 b1)
  · intro j q len h a h1 h2
    rw [hport] at h1
    by_cases he : p = j
    · subst he
      rw [if_pos rfl, hq0] at h1
      simp only [Option.map_some, Option.some.injEq] at h1
      rw [← h1] at h2
      rw [show _ = q0.waiting from rfl, hw0] at h2; cases h2
    · rw [if_neg he] at h1
      have := o10 j q len h a h1 h2
      rw [ho]; exact this
  · intro j q i h a h1 h2 h3
    rw [hport] at h1
    by_cases he : p = j
    · subst he
      rw [if_pos rfl, hq0] at h1
      simp only [Option.map_some, Option.some.injEq] at h1
      rw [← h1] at h2
      rw [show _ = q0.waiting from rfl, hw0] at h2; cases h2
    · rw [if_neg he] at h1
      exact o11 j q i h a h1 h2 h3

theorem ini_idle_ready {s : State} (h : Inv s) (hr : s.mode = .ready) : s.ini.pc = .idle := ((inv_ready hr).mp h).2.2.1

theorem owned_rx {s t : State} (hs : Inv s) (ho : Owned s) (ht : rxTurn s = .next t) : Owned t := by
  rcases rxTurn_cases ht with rfl | ⟨hm, hc⟩
  · exact ho
  have hpc : s.rx.pc ≠ .idle := by
    rcases hc with h | h | h | h | h | h | h | h | h | h | h | h | h | h | h | h | h <;> (rw [h.1]; simp)
  have hr := rx_mode hs hm hpc
  have hii := ini_idle_ready hs hr
  have hidx := hs.slots.rxIndex hr
  have hsh := hs.shaped.rxShadow
  have same : ∀ t : State, t.cfg = s.cfg → t.txShadow = s.txShadow → t.rxShadow = s.rxShadow → t.owner = s.owner → t.ports = s.ports → t.tx = s.tx → t.ini = s.ini →
      t.rx.src = s.rx.src → (t.rx.pc = .d3b ∨ t.rx.pc = .d3c ∨ t.rx.pc = .d4 → ownerOf t t.rx.b = .engine) →
      (t.rx.pc = .d6a ∨ t.rx.pc = .d6b ∨ t.rx.pc = .d6c ∨ t.rx.pc = .d6d → t.rx.nh ≠ 0 ∧ ownerOf t t.rx.nh = .engine) → Owned t := by
    intro t h1 h2 h3 h4 h5 h6 h7 h8 h9 h10
    refine owned_same ho h1 h2 h3 h4 h5 (by rw [h6]; exact fun h => ⟨h, rfl, rfl, fun a b => ⟨a, b⟩⟩) (fun _ => ⟨hpc, h8⟩) (by rw [h7]; exact fun h => ⟨h, rfl⟩) h9 h10 ?_
    rw [h7, hii]; intro h; cases h
  rcases hc with ⟨hp, hl', _, rfl⟩ | ⟨hp, rfl⟩ | ⟨hp, hl', rfl⟩ | ⟨hp, rfl⟩ | ⟨hp, b, hb, rfl⟩ | ⟨hp, rfl⟩ |
    ⟨hp, v, hv, rfl⟩ | ⟨hp, rfl⟩ | ⟨hp, rfl⟩ | ⟨hp, rest, hre, rfl⟩ | ⟨hp, hd, a, rest, ha, ⟨h1, h2, h3⟩, rfl⟩ | ⟨hp, rfl⟩ |
    ⟨hp, rfl⟩ | ⟨hp, rfl⟩ | ⟨hp, rfl⟩ | ⟨hp, rfl⟩ | ⟨hp, rfl⟩
  · unfold afterI1
    split <;> exact same _ rfl rfl rfl rfl rfl rfl rfl rfl (by simp) (by simp)
  · exact same _ rfl rfl rfl rfl rfl rfl rfl rfl (by simp) (by simp)
  · exact same _ rfl rfl rfl rfl rfl rfl rfl rfl (by simp) (by simp)
  · exact same _ rfl rfl rfl rfl rfl rfl rfl rfl (by simp [afterD1]) (by simp [afterD1])
  · refine same _ rfl rfl rfl rfl rfl rfl rfl rfl ?_ ?_ <;> (unfold afterD2; split <;> simp)
  · unfold afterD3a
    split <;> rename_i hz
    · exact same _ rfl rfl rfl rfl rfl rfl rfl rfl (by simp) (by simp)
    · have hlt := hidx (by rw [hp]; rfl)
      have hmy := ho.rxSlots _ hlt hz
      generalize hu : setOwner (rxShadowAt s s.rx.i) .engine (setRxShadow s.rx.i 0 { s with rx := { s.rx with b := rxShadowAt s s.rx.i, pc := .d3b } }) = u
      have hnew : ∀ x, ownerOf u x = if x = rxShadowAt s s.rx.i then .engine else ownerOf s x := by
        intro x; rw [← hu]; exact ownerOf_setOwner (rxShadowAt s s.rx.i) .engine s x
      have hset : ∀ j, rxShadowAt u j = if s.rx.i = j ∧ j < s.rxShadow.length then 0 else rxShadowAt s j := by
        intro j; rw [← hu]; exact rxShadowAt_set rfl j
      have hui : u = { s with rx := { s.rx with b := rxShadowAt s s.rx.i, pc := .d3b }, rxShadow := u.rxShadow, owner := u.owner } := by rw [← hu]; rfl
      refine owned_change' ho hnew (by rw [hmy]; simp) (by rw [hmy]; simp) (by rw [hui]) (by rw [hui]) (by rw [hui]) (by rw [hui]) (fun _ => ⟨hpc, by rw [hui]⟩) (by rw [hui]; exact fun h => ⟨h, rfl⟩) ?_ ?_ (by rw [hui]; simp) ?_
      · intro j hj h0
        rw [hset] at h0 ⊢
        by_cases he : s.rx.i = j
        · subst he; simp [hsh, hlt] at h0
        · simp only [he, false_and, if_false] at h0 ⊢
          have := ho.rxSlots j hj h0
          rw [hnew, if_neg]
          · exact this
          · intro he'; rw [he', hmy] at this; injection this with this; exact he this
      · intro _; rw [hnew, if_pos]; rw [hui]
      · rw [hui]; simp [hii]
  · exact same _ rfl rfl rfl rfl rfl rfl rfl rfl (fun _ => ho.taken (.inl hp)) (by simp [afterD3b])
  · exact same _ rfl rfl rfl rfl rfl rfl rfl rfl (fun _ => ho.taken (.inr (.inl hp))) (by simp)
  · have hmy := ho.taken (.inr (.inr hp))
    have hnew : ∀ x, ownerOf (goRx .d5 (netRx s.rx.b s)) x = if x = s.rx.b then .ingress else ownerOf s x :=
      fun x => ownerOf_setOwner s.rx.b .ingress s x
    refine owned_change' ho hnew (by rw [hmy]; simp) (by rw [hmy]; simp) rfl rfl rfl rfl (fun _ => ⟨hpc, rfl⟩) (fun h => ⟨h, rfl⟩) ?_ (by simp) (by simp) (by simp [hii])
    intro j hj h0
    have := ho.rxSlots j hj h0
    rw [hnew, if_neg]
    · exact this
    · intro he; rw [show rxShadowAt (goRx .d5 (netRx s.rx.b s)) j = rxShadowAt s j from rfl] at he; rw [he, hmy] at this; cases this
  · exact same _ rfl rfl rfl rfl rfl rfl rfl rfl (by simp [failedD5, hp]) (by simp [failedD5, hp])
  · have hnew : ∀ x, ownerOf (afterD5 hd a rest s) x = if x = hd then .engine else ownerOf s x := by
      intro x
      rw [afterD5_eq]
      exact ownerOf_setOwner hd .engine s x
    rw [afterD5_eq] at hnew ⊢
    refine owned_change' ho hnew (by rw [h2]; simp) (by rw [h2]; simp) rfl rfl rfl rfl (fun _ => ⟨hpc, rfl⟩) (fun h => ⟨h, rfl⟩) ?_ (by simp) (fun _ => ⟨h1, ?_⟩) (by simp [hii])
    · intro j hj h0
      have hj' : rxShadowAt s j ≠ 0 := h0
      have := ho.rxSlots j hj hj'
      rw [hnew, if_neg]
      · exact this
      · intro he
        have he' : rxShadowAt s j = hd := he
        rw [he', h2] at this; cases this
    · rw [hnew]; exact if_pos rfl
  · exact same _ rfl rfl rfl rfl rfl rfl rfl rfl (by simp) (fun _ => ho.fresh (.inl hp))
  · exact same _ rfl rfl rfl rfl rfl rfl rfl rfl (by simp) (fun _ => ho.fresh (.inr (.inl hp)))
  · exact same _ rfl rfl rfl rfl rfl rfl rfl rfl (by simp) (fun _ => ho.fresh (.inr (.inr (.inl hp))))
  · have hlt := hidx (by rw [hp]; rfl)
    have hmy := ho.fresh (.inr (.inr (.inr hp)))
    generalize hu : goRx .d7 (setOwner s.rx.nh (.rxSlot s.rx.i) (setRxShadow s.rx.i s.rx.nh s)) = u
    have hnew : ∀ x, ownerOf u x = if x = s.rx.nh then .rxSlot s.rx.i else ownerOf s x := by
      intro x; rw [← hu]; exact ownerOf_setOwner s.rx.nh (.rxSlot s.rx.i) s x
    have hset : ∀ j, rxShadowAt u j = if s.rx.i = j ∧ j < s.rxShadow.length then s.rx.nh else rxShadowAt s j := by
      intro j; rw [← hu]; exact rxShadowAt_set rfl j
    have hui : u = { s with rx := { s.rx with pc := .d7 }, rxShadow := u.rxShadow, owner := u.owner } := by rw [← hu]; rfl
    refine owned_change' ho hnew (by rw [hmy.2]; simp) (by rw [hmy.2]; simp) (by rw [hui]) (by rw [hui]) (by rw [hui]) (by rw [hui]) (fun _ => ⟨hpc, by rw [hui]⟩) (by rw [hui]; exact fun h => ⟨h, rfl⟩) ?_ (by rw [hui]; simp) (by rw [hui]; simp) (by rw [hui]; simp [hii])
    intro j hj h0
    rw [hset] at h0 ⊢
    by_cases he : s.rx.i = j
    · subst he; simp only [hsh, hlt, and_self, if_true] at h0 ⊢
      rw [hnew, if_pos rfl]
    · simp only [he, false_and, if_false] at h0 ⊢
      have := ho.rxSlots j hj h0
      rw [hnew, if_neg]
      · exact this
      · intro he'; rw [he', hmy.2] at this; cases this
  · exact same _ rfl rfl rfl rfl rfl rfl rfl rfl (by simp) (by simp)
  · cases hsrc : s.rx.src with
    | irq => exact same _ rfl rfl rfl rfl rfl rfl rfl rfl (by simp) (by simp)
    | port p =>
      have hrun := ho.receiver hpc
      rw [hsrc] at hrun
      exact owned_answer ho hrun .ok rfl rfl rfl rfl rfl rfl (by simp) (by simp [hii]) (by simp) (by simp) (by simp [hii])


/-- A micro-step of INIT that changes nothing `Owned` speaks of. -/
theorem owned_init_same {s t : State} (ho : Owned s) (hpc : s.ini.pc ≠ .idle) (e2 : s.tx.pc = .idle) (e3 : s.rx.pc = .idle)
    (h1 : t.cfg = s.cfg) (h2 : t.txShadow = s.txShadow) (h3 : t.rxShadow = s.rxShadow) (h4 : t.owner = s.owner)
    (h5 : t.ports = s.ports) (h6 : t.tx = s.tx) (h7 : t.rx = s.rx) (h8 : t.ini.p = s.ini.p)
    (h9 : t.ini.pc = .n9 → t.ini.k ≠ 0 → t.ini.h ≠ 0 ∧ ownerOf t t.ini.h = .engine) : Owned t :=
  owned_same ho h1 h2 h3 h4 h5 (by rw [h6, e2]; intro h; exact absurd rfl h) (by rw [h7, e3]; intro h; exact absurd rfl h) (fun _ => ⟨hpc, h8⟩)
    (by rw [h7, e3]; simp) (by rw [h7, e3]; simp) h9

/-- `N6` keeps the ownership. -/
theorem owned_initN6 {s : State} (ho : Owned s) (hpc : s.ini.pc ≠ .idle) (e2 : s.tx.pc = .idle) (e3 : s.rx.pc = .idle)
    (hp : s.ini.pc = .n6) : Owned (afterN6 s) := by
  have same : ∀ t : State, t.cfg = s.cfg → t.txShadow = s.txShadow → t.rxShadow = s.rxShadow → t.owner = s.owner → t.ports = s.ports → t.tx = s.tx → t.rx = s.rx →
      t.ini.p = s.ini.p → (t.ini.pc = .n9 → t.ini.k ≠ 0 → t.ini.h ≠ 0 ∧ ownerOf t t.ini.h = .engine) → Owned t :=
    fun _ h1 h2 h3 h4 h5 h6 h7 h8 h9 => owned_init_same ho hpc e2 e3 h1 h2 h3 h4 h5 h6 h7 h8 h9
  unfold afterN6
  rcases hk : s.ini.k with _ | _ | k <;> try simp only
  · exact same _ rfl rfl rfl rfl rfl rfl rfl rfl (by simp [hp])
  · exact same _ rfl rfl rfl rfl rfl rfl rfl rfl (by simp [hp])
  · have key : ∀ u : State, u.cfg = s.cfg → u.txShadow = s.txShadow.set s.ini.i 0 → u.rxShadow = s.rxShadow → u.owner = s.owner → u.ports = s.ports → u.tx = s.tx → u.rx = s.rx → u.ini.p = s.ini.p → u.ini.pc ≠ .n9 → Owned u := by
      intro u h1 h2 h3 h4 h5 h6 h7 h8 h9
      have hown := ownerOf_congr h4
      refine ⟨?_, ?_, by rw [h7, e3]; simp, by rw [h7, e3]; simp, fun h => absurd h h9, by rw [h6, e2]; intro h; exact absurd rfl h, by rw [h6, e2]; intro h; exact absurd rfl h, by rw [h7, e3]; intro h; exact absurd rfl h, ?_, ?_, ?_⟩
      · rw [h1]
        intro j hj h0
        rw [txShadowAt_set h2] at h0 ⊢
        by_cases hh : s.ini.i = j ∧ j < s.txShadow.length
        · rw [if_pos hh] at h0; exact absurd rfl h0
        · rw [if_neg hh] at h0 ⊢
          rw [hown]; exact ho.txSlots j hj h0
      · rw [h1]; unfold rxShadowAt; rw [h3]; simp only [hown]; exact ho.rxSlots
      · intro _; rw [h8]; exact (ho.starter hpc).congr h5
      · rw [h5]; simpa only [hown] using ho.queued
      · rw [h5]; exact ho.queuedRx
    unfold nextRound
    split
    · exact key _ rfl rfl rfl rfl rfl rfl rfl rfl (by simp [hp])
    · exact key _ rfl rfl rfl rfl rfl rfl rfl rfl (by simp)

/-- `N9` keeps the ownership. -/
theorem owned_initN9 {s t : State} (ho : Owned s) (hpc : s.ini.pc ≠ .idle) (e2 : s.tx.pc = .idle) (e3 : s.rx.pc = .idle)
    (hp : s.ini.pc = .n9) (hlt : s.ini.i < s.cfg.n) (hsh : s.rxShadow.length = s.cfg.n) (hst : stepN9 s = .next t) : Owned t := by
  have same : ∀ t : State, t.cfg = s.cfg → t.txShadow = s.txShadow → t.rxShadow = s.rxShadow → t.owner = s.owner → t.ports = s.ports → t.tx = s.tx → t.rx = s.rx →
      t.ini.p = s.ini.p → (t.ini.pc = .n9 → t.ini.k ≠ 0 → t.ini.h ≠ 0 ∧ ownerOf t t.ini.h = .engine) → Owned t :=
    fun _ h1 h2 h3 h4 h5 h6 h7 h8 h9 => owned_init_same ho hpc e2 e3 h1 h2 h3 h4 h5 h6 h7 h8 h9
  rcases stepN9_next hst with ⟨hk, rest, hal, rfl⟩ | ⟨hk, hd, a, rest, hal, ⟨h1, h2, h3⟩, rfl⟩ | ⟨hk, rfl⟩ | ⟨hk, rfl⟩
  · exact same _ rfl rfl rfl rfl rfl rfl rfl rfl (by simp [failedN9, hk])
  · have hnew : ∀ x, ownerOf (afterN9 hd a rest s) x = if x = hd then .engine else ownerOf s x := by
      intro x
      rw [afterN9_eq]
      exact ownerOf_setOwner hd .engine s x
    rw [afterN9_eq] at hnew ⊢
    refine owned_change' ho hnew (by rw [h2]; simp) (by rw [h2]; simp) rfl rfl rfl rfl (by intro h; exact absurd e3 h) (fun _ => ⟨hpc, rfl⟩) ?_ (by simp [e3]) (by simp [e3]) (fun _ _ => ⟨h1, ?_⟩)
    · intro j hj h0
      have hj' : rxShadowAt s j ≠ 0 := h0
      have := ho.rxSlots j hj hj'
      rw [hnew, if_neg]
      · exact this
      · intro he
        have he' : rxShadowAt s j = hd := he
        rw [he', h2] at this; cases this
    · rw [hnew]; exact if_pos rfl
  · exact same _ rfl rfl rfl rfl rfl rfl rfl rfl (fun _ _ => ho.initial hp (by omega))
  · have hmy := ho.initial hp (by omega)
    unfold lentN9
    generalize hu : setOwner s.ini.h (.rxSlot s.ini.i) (setRxShadow s.ini.i s.ini.h (wrTail8 .rx s.ini.i 0 s)) = u
    have hnew : ∀ x, ownerOf u x = if x = s.ini.h then .rxSlot s.ini.i else ownerOf s x := by
      intro x; rw [← hu]; exact ownerOf_setOwner s.ini.h (.rxSlot s.ini.i) s x
    have hset : ∀ j, rxShadowAt u j = if s.ini.i = j ∧ j < s.rxShadow.length then s.ini.h else rxShadowAt s j := by
      intro j; rw [← hu]; exact rxShadowAt_set rfl j
    have hui : u = { s with rxShadow := u.rxShadow, owner := u.owner, mem := u.mem, trace := u.trace } := by rw [← hu]; rfl
    have hcfg : u.cfg = s.cfg := by rw [hui]
    have hini : u.ini = s.ini := by rw [hui]
    have hrx' : u.rx = s.rx := by rw [hui]
    have key : ∀ w : State, w.cfg = s.cfg → w.tx = s.tx → w.txShadow = s.txShadow → w.ports = s.ports → w.rx = s.rx → w.rxShadow = u.rxShadow → w.owner = u.owner → w.ini.p = s.ini.p → (w.ini.pc = .n9 → w.ini.k = 0) → Owned w := by
      intro w h1 h2 h3 h4 h5 h6 h7 h8 h9
      have hn : ∀ x, ownerOf w x = if x = s.ini.h then .rxSlot s.ini.i else ownerOf s x := by
        intro x; rw [ownerOf_congr h7]; exact hnew x
      have hse : ∀ j, rxShadowAt w j = rxShadowAt u j := by intro j; unfold rxShadowAt; rw [h6]
      refine owned_change' ho hn (by rw [hmy.2]; simp) (by rw [hmy.2]; simp) h1 h2 h3 h4 (by rw [h5]; intro h; exact absurd e3 h) (fun _ => ⟨hpc, h8⟩) ?_ (by rw [h5, e3]; simp) (by rw [h5, e3]; simp) (fun a b => absurd (h9 a) b)
      intro j hj h0
      rw [hse, hset] at h0 ⊢
      by_cases hh : s.ini.i = j
      · subst hh; simp only [hsh, hlt, and_self, if_true] at h0 ⊢
        rw [hn, if_pos rfl]
      · simp only [hh, false_and, if_false] at h0 ⊢
        have := ho.rxSlots j hj h0
        rw [hn, if_neg]
        · exact this
        · intro he'; rw [he', hmy.2] at this; cases this
    unfold nextRound
    split
    · exact key _ hcfg (by rw [hui]) (by rw [hui]) (by rw [hui]) hrx' rfl rfl (by rw [hini]) (fun _ => rfl)
    · exact key _ hcfg (by rw [hui]; rfl) (by rw [hui]; rfl) (by rw [hui]; rfl) hrx' rfl rfl (by simp [hini]) (by simp)

theorem owned_init {s t : State} (hs : Inv s) (ho : Owned s) (ht : initTurn s = .next t) : Owned t := by
  rcases initTurn_cases ht with rfl | ⟨hm, hc⟩
  · exact ho
  have hpc : s.ini.pc ≠ .idle := by
    rcases hc with ⟨r, v, n, hw, _⟩ | h | h | h | h | h | h | h | h | h | h | h | h
    · intro h; rw [initWriteAt, h] at hw; cases hw
    all_goals (rw [h.1]; simp)
  have hr := ini_mode hs hm hpc
  have he := hs.engines
  unfold EnginesOk at he
  rw [hr] at he
  obtain ⟨e1, e2, e3, -⟩ := he
  have same : ∀ t : State, t.cfg = s.cfg → t.txShadow = s.txShadow → t.rxShadow = s.rxShadow → t.owner = s.owner → t.ports = s.ports → t.tx = s.tx → t.rx = s.rx →
      t.ini.p = s.ini.p → (t.ini.pc = .n9 → t.ini.k ≠ 0 → t.ini.h ≠ 0 ∧ ownerOf t t.ini.h = .engine) → Owned t :=
    fun _ h1 h2 h3 h4 h5 h6 h7 h8 h9 => owned_init_same ho hpc e2 e3 h1 h2 h3 h4 h5 h6 h7 h8 h9
  rcases hc with ⟨r, v, n, hw, rfl⟩ | ⟨hp, rfl⟩ | ⟨hp, rfl⟩ | ⟨hp, rfl⟩ | ⟨hp, rfl⟩ | ⟨hp, rfl⟩ | ⟨hp, rfl⟩ | ⟨hp, hst⟩ |
    ⟨hp, rfl⟩ | ⟨hp, rfl⟩ | ⟨hp, rfl⟩ | ⟨hp, rfl⟩ | ⟨hp, rfl⟩
  · refine same _ (by simp) (by simp) (by simp) (by simp) (by simp) (by simp) (by simp) (by simp) ?_
    unfold initWriteAt at hw
    split at hw <;> cases hw <;> simp
  · exact same _ rfl rfl rfl rfl rfl rfl rfl rfl (by simp [afterN3a])
  · exact same _ rfl rfl rfl rfl rfl rfl rfl rfl (by simp)
  · exact owned_initN6 ho hpc e2 e3 hp
  · unfold afterCheck
    split
    · split
      · exact same _ rfl rfl rfl rfl rfl rfl rfl rfl (by simp)
      · exact same _ rfl rfl rfl rfl rfl rfl rfl rfl (by simp [hp])
    · exact same _ rfl rfl rfl rfl rfl rfl rfl rfl (by simp [hp])
  · exact same _ rfl rfl rfl rfl rfl rfl rfl rfl (by simp)
  · exact same _ rfl rfl rfl rfl rfl rfl rfl rfl (by simp)
  · exact owned_initN9 ho hpc e2 e3 hp ((hs.progress hr).rxLoop hp).1 hs.shaped.rxShadow hst
  · unfold afterCheck
    split
    · split
      · exact same _ rfl rfl rfl rfl rfl rfl rfl rfl (by simp)
      · exact same _ rfl rfl rfl rfl rfl rfl rfl rfl (by simp [hp])
    · exact same _ rfl rfl rfl rfl rfl rfl rfl rfl (by simp [hp])
  · exact same _ rfl rfl rfl rfl rfl rfl rfl rfl (by simp)
  · unfold afterN12b
    split
    · exact same _ rfl rfl rfl rfl rfl rfl rfl rfl (by simp)
    · exact same _ rfl rfl rfl rfl rfl rfl rfl rfl (by simp)
  · unfold nextRound
    split
    · exact same _ (by simp) (by simp) (by simp) (by simp) (by simp) (by simp) (by simp) (by simp) (by simp [hp])
    · exact same _ (by simp) (by simp) (by simp) (by simp) (by simp) (by simp) (by simp) (by simp) (by simp)
  · refine owned_answer ho (ho.starter hpc) .ok rfl rfl rfl rfl rfl rfl ?_ (by simp) ?_ ?_ (by simp)
    · intro h; exact absurd e3 h
    · intro h; rw [show (goInit .idle (respond (.port s.ini.p) .ok (freeRx (freeTx { s with mode := .ready })))).rx = s.rx from rfl, e3] at h; simp at h
    · intro h; rw [show (goInit .idle (respond (.port s.ini.p) .ok (freeRx (freeTx { s with mode := .ready })))).rx = s.rx from rfl, e3] at h; simp at h


theorem DevMove.owned {s t : State} (h : DevMove s t) (hs : Owned s) : Owned t := by
  have e : Owned { s with mem := t.mem, dev := t.dev, irqSignals := t.irqSignals } := by
    obtain ⟨o1, o2, o3, o4, o5, o6, o7, o8, o9, o10, o11⟩ := hs
    exact ⟨o1, o2, o3, o4, o5, o6, o7, fun h => (o8 h).congr rfl, fun h => (o9 h).congr rfl, o10, o11⟩
  rw [h.rest]; exact e

theorem owned_rest {s t : State} (hs : Owned s) (rest : t = { s with irqPend := t.irqPend, allocs := t.allocs, irqSignals := t.irqSignals, script := t.script }) :
    Owned t := by
  rw [rest]
  obtain ⟨o1, o2, o3, o4, o5, o6, o7, o8, o9, o10, o11⟩ := hs
  exact ⟨o1, o2, o3, o4, o5, o6, o7, fun h => (o8 h).congr rfl, fun h => (o9 h).congr rfl, o10, o11⟩

theorem getElem_unqueue {p : Nat} {s : State} {j : Nat} :
    (unqueue p s).ports[j]? = if p = j then (s.ports[j]?).map (fun q => { q with waiting := none }) else s.ports[j]? :=
  updatePort_getElem _ _ s j

theorem owned_grantTx {p : Nat} {s t : State} (hs : Inv s) (ho : Owned s) (ht : grantTx p s = .next t) : Owned t := by
  rcases grantTx_cases ht with ⟨_, rfl⟩ | ⟨len, hd, a, _, h1, h2, h3, rfl⟩
  · exact ho
  obtain ⟨q0, hq0, hw0⟩ : ∃ q, s.ports[p]? = some q ∧ q.waiting = some ⟨.xmit len, hd, a⟩ := by
    unfold waitingAt at h3
    cases hq : s.ports[p]? with
    | none => rw [hq] at h3; cases h3
    | some q => rw [hq] at h3; exact ⟨q, rfl, h3⟩
  obtain ⟨o1, o2, o3, o4, o5, o6, o7, o8, o9, o10, o11⟩ := ho
  have hmy := o10 p q0 len hd a hq0 hw0
  have runs : ∀ src, RunsFor s src → RunsFor (grantedTx p len hd a s) src := by
    intro src h
    cases src with
    | irq => trivial
    | port j =>
      obtain ⟨q, hq, b1, b2, b3⟩ := h
      have hne : p ≠ j := by
        intro he; subst he; rw [hq0] at hq; cases hq; exact b2 hmy.1.2.1
      refine ⟨q, ?_, b1, b2, b3⟩
      show (unqueue p s).ports[j]? = some q
      rw [getElem_unqueue, if_neg hne]; exact hq
  refine ⟨o1, o2, o3, o4, o5, ?_, ?_, fun h => runs _ (o8 h), fun h => runs _ (o9 h), ?_, ?_⟩
  · intro _ _ _; exact hmy.2
  · intro _
    refine ⟨{ q0 with waiting := none }, ?_, hmy.1, rfl⟩
    show (unqueue p s).ports[p]? = _
    rw [getElem_unqueue, if_pos rfl, hq0]; rfl
  · intro j q len' h a' hq hw
    have hq' : (unqueue p s).ports[j]? = some q := hq
    rw [getElem_unqueue] at hq'
    by_cases he : p = j
    · subst he
      rw [if_pos rfl, hq0] at hq'
      cases hq'; cases hw
    · rw [if_neg he] at hq'
      exact o10 j q len' h a' hq' hw
  · intro j q i h a' hq hw
    have hq' : (unqueue p s).ports[j]? = some q := hq
    rw [getElem_unqueue] at hq'
    by_cases he : p = j
    · subst he
      rw [if_pos rfl, hq0] at hq'
      cases hq'; cases hw
    · rw [if_neg he] at hq'
      exact o11 j q i h a' hq' hw

theorem owned_grantRx {src : Source} {s t : State} (hs : Inv s) (ho : Owned s) (ht : grantRx src s = .next t) : Owned t := by
  rcases grantRx_cases ht with ⟨_, rfl⟩ | ⟨kind, _, h1, h2, h3, rfl⟩
  · exact ho
  cases src with
  | irq =>
    obtain ⟨rfl, _, hr⟩ := rxRequest_irq h3
    have hii := ini_idle_ready hs hr
    obtain ⟨o1, o2, o3, o4, o5, o6, o7, o8, o9, o10, o11⟩ := ho
    refine ⟨o1, o2, ?_, ?_, ?_, o6, o7, fun _ => trivial, fun h => (o9 h).congr rfl, o10, o11⟩
    · intro h; simp [grantedRx, afterI1] at h
    · intro h; simp [grantedRx, afterI1] at h
    · rw [show (grantedRx .irq .intr s).ini = s.ini from rfl, hii]; intro h; cases h
  | port p =>
    have hq : ∃ q i hd a, s.ports[p]? = some q ∧ q.waiting = some ⟨i, hd, a⟩ ∧ (i = .drain ∨ i = .intr) := by
      unfold rxRequest waitingAt at h3
      dsimp only at h3
      cases hq : s.ports[p]? with
      | none => rw [hq] at h3; cases h3
      | some q =>
        rw [hq] at h3
        dsimp only at h3
        split at h3
        · rename_i a b hw; exact ⟨q, _, _, _, rfl, hw, .inr rfl⟩
        · rename_i a b hw; exact ⟨q, _, _, _, rfl, hw, .inl rfl⟩
        · cases h3
    obtain ⟨q0, i0, hd0, a0, hq0, hw0, hi0⟩ := hq
    obtain ⟨o1, o2, o3, o4, o5, o6, o7, o8, o9, o10, o11⟩ := ho
    have hmy := o11 p q0 i0 hd0 a0 hq0 hw0 hi0
    have hports : (grantedRx (.port p) kind s).ports = (unqueue p s).ports := by cases kind <;> rfl
    have htx : (grantedRx (.port p) kind s).tx = s.tx := by cases kind <;> rfl
    have hini : (grantedRx (.port p) kind s).ini = s.ini := by cases kind <;> rfl
    have hpc : (grantedRx (.port p) kind s).rx.pc = .d1 ∨ (grantedRx (.port p) kind s).rx.pc = .i2 := by cases kind <;> simp [grantedRx, afterI1]
    have hsrc : (grantedRx (.port p) kind s).rx.src = .port p := by cases kind <;> rfl
    have hown : ∀ x, ownerOf (grantedRx (.port p) kind s) x = ownerOf s x := ownerOf_congr (by cases kind <;> rfl)
    have hcfg : (grantedRx (.port p) kind s).cfg = s.cfg := by cases kind <;> rfl
    have hts : ∀ i, txShadowAt (grantedRx (.port p) kind s) i = txShadowAt s i := by intro i; cases kind <;> rfl
    have hrs : ∀ i, rxShadowAt (grantedRx (.port p) kind s) i = rxShadowAt s i := by intro i; cases kind <;> rfl
    refine ⟨?_, ?_, ?_, ?_, ?_, ?_, ?_, ?_, ?_, ?_, ?_⟩
    · simpa only [hcfg, hts, hown] using o1
    · simpa only [hcfg, hrs, hown] using o2
    · intro h; rcases hpc with hp | hp <;> rw [hp] at h <;> simp at h
    · intro h; rcases hpc with hp | hp <;> rw [hp] at h <;> simp at h
    · simpa only [hini, hown] using o5
    · simpa only [htx, hown] using o6
    · rw [htx, hports]
      intro h
      obtain ⟨q, hq, hx, hw⟩ := o7 h
      have hne : p ≠ s.tx.p := by
        intro he; subst he; rw [hq0] at hq; cases hq; exact hmy.2 hx.2.1
      exact ⟨q, by rw [getElem_unqueue, if_neg hne]; exact hq, hx, hw⟩
    · intro _
      rw [hsrc]
      refine ⟨{ q0 with waiting := none }, ?_, hmy.1, hmy.2, rfl⟩
      rw [hports, getElem_unqueue, if_pos rfl, hq0]; rfl
    · rw [hini]
      intro h
      obtain ⟨q, hq, b1, b2, b3⟩ := o9 h
      by_cases he : p = s.ini.p
      · rw [← he, hq0] at hq; cases hq; rw [hw0] at b3; cases b3
      · exact ⟨q, by rw [hports, getElem_unqueue, if_neg he]; exact hq, b1, b2, b3⟩
    · intro j q len' h a' hq hw
      rw [hports, getElem_unqueue] at hq
      rw [hown]
      by_cases he : p = j
      · subst he
        rw [if_pos rfl, hq0] at hq
        cases hq; cases hw
      · rw [if_neg he] at hq
        exact o10 j q len' h a' hq hw
    · intro j q i h a' hq hw
      rw [hports, getElem_unqueue] at hq
      by_cases he : p = j
      · subst he
        rw [if_pos rfl, hq0] at hq
        cases hq; cases hw
      · rw [if_neg he] at hq
        exact o11 j q i h a' hq hw

/-- One handle the block does not hold changes its owner and its area. -/
theorem owned_pass {h : Handle} {o : Owner} {s t : State} (hs : Owned s) (hi : Inv s) (hm : movable s h = true)
    (hp : pledged s h = false) (rest : t = { s with owner := (setOwner h o s).owner, areas := t.areas }) : Owned t := by
  have hnew : ∀ x, ownerOf t x = if x = h then o else ownerOf s x := by
    intro x
    rw [rest]
    exact ownerOf_setOwner h o s x
  have ne : ∀ x o', ownerOf s x = o' → outside o' = false → blockHolds s x = true → x ≠ h := by
    intro x o' h1 h2 h3 he
    subst he
    unfold movable at hm
    rw [h1, h2, h3] at hm; cases hm
  have np : ∀ (p : Nat) (q : Port) (x : Handle), s.ports[p]? = some q → HasXmit q x → x ≠ h := by
    intro p q x hq hx he
    subst he
    unfold pledged at hp
    rw [List.any_eq_false] at hp
    have := hp q (List.mem_of_getElem? hq)
    simp [hx.1, hx.2.1, hx.2.2.1] at this
  have htx : ∀ i < s.cfg.n, blockHolds s (txShadowAt s i) = true := by
    intro i hlt
    unfold blockHolds txShadowAt
    rw [List.getD_eq_getElem _ _ (by rw [hi.shaped.txShadow]; exact hlt)]
    simp
  have hrx : ∀ i < s.cfg.n, blockHolds s (rxShadowAt s i) = true := by
    intro i hlt
    unfold blockHolds rxShadowAt
    rw [List.getD_eq_getElem _ _ (by rw [hi.shaped.rxShadow]; exact hlt)]
    simp
  rw [rest] at hnew ⊢
  obtain ⟨o1, o2, o3, o4, o5, o6, o7, o8, o9, o10, o11⟩ := hs
  refine ⟨?_, ?_, ?_, ?_, ?_, ?_, o7, fun h => (o8 h).congr rfl, fun h => (o9 h).congr rfl, ?_, o11⟩
  · intro i hlt h0
    have h0' : txShadowAt s i ≠ 0 := h0
    have := o1 i hlt h0'
    rw [hnew, if_neg]
    · exact this
    · exact ne _ _ this rfl (htx i hlt)
  · intro i hlt h0
    have h0' : rxShadowAt s i ≠ 0 := h0
    have := o2 i hlt h0'
    rw [hnew, if_neg]
    · exact this
    · exact ne _ _ this rfl (hrx i hlt)
  · intro hpc
    have hpc' : s.rx.pc = .d3b ∨ s.rx.pc = .d3c ∨ s.rx.pc = .d4 := hpc
    have := o3 hpc'
    rw [hnew, if_neg]
    · exact this
    · refine ne _ _ this rfl ?_
      have : s.rx.pc ≠ .idle := by rcases hpc' with h | h | h <;> rw [h] <;> simp
      simp [blockHolds, this]
  · intro hpc
    have hpc' : s.rx.pc = .d6a ∨ s.rx.pc = .d6b ∨ s.rx.pc = .d6c ∨ s.rx.pc = .d6d := hpc
    have := o4 hpc'
    refine ⟨this.1, ?_⟩
    rw [hnew, if_neg]
    · exact this.2
    · refine ne _ _ this.2 rfl ?_
      have : s.rx.pc ≠ .idle := by rcases hpc' with h | h | h | h <;> rw [h] <;> simp
      simp [blockHolds, this]
  · intro hpc hk
    have hpc' : s.ini.pc = .n9 := hpc
    have := o5 hpc' hk
    refine ⟨this.1, ?_⟩
    rw [hnew, if_neg]
    · exact this.2
    · refine ne _ _ this.2 rfl ?_
      simp [blockHolds, hpc']
  · intro a1 a2 a3
    obtain ⟨q, hq, hx, _⟩ := o7 a1
    rw [hnew, if_neg (np _ q _ hq hx)]
    exact o6 a1 a2 a3
  · intro p q len x a h1 h2
    have := o10 p q len x a h1 h2
    refine ⟨this.1, ?_⟩
    rw [hnew, if_neg (np p q x h1 this.1)]
    exact this.2

theorem owned_own (h : Handle) (o : Owner) (a : Addr) {s : State} (hi : Inv s) (hs : Owned s) :
    Owned (moveBuffer h o a s) := by
  rcases moveBuffer_cases h o a s with he | ⟨c1, _, c3, ⟨_, he⟩ | ⟨_, _, he⟩ | ⟨_, _, he⟩⟩ <;> rw [he]
  · exact hs
  · exact owned_pass hs hi c1 c3 rfl
  · exact owned_pass (o := o) hs hi c1 c3 rfl
  · exact owned_pass (o := o) hs hi c1 c3 rfl

theorem owned_reset (s : State) : Owned (blockReset s) := by
  have hp : ∀ (p : Nat) (q : Port), (blockReset s).ports[p]? = some q → q = Port.reset := by
    intro p q h
    have := List.mem_of_getElem? h
    simp only [blockReset, List.mem_replicate] at this
    exact this.2
  have h1 : ∀ i, txShadowAt (blockReset s) i = 0 := by
    intro i; unfold txShadowAt blockReset; simp [List.getD_eq_getElem?_getD, List.getElem?_replicate]
    split <;> rfl
  have h2 : ∀ i, rxShadowAt (blockReset s) i = 0 := by
    intro i; unfold rxShadowAt blockReset; simp [List.getD_eq_getElem?_getD, List.getElem?_replicate]
    split <;> rfl
  refine ⟨fun i _ h => absurd (h1 i) h, fun i _ h => absurd (h2 i) h, ?_, ?_, ?_, ?_, ?_, ?_, ?_, ?_, ?_⟩
  · intro h; simp [blockReset, RxEngine.reset] at h
  · intro h; simp [blockReset, RxEngine.reset] at h
  · intro h; simp [blockReset, InitSeq.reset] at h
  · intro h; simp [blockReset, TxEngine.reset] at h
  · intro h; simp [blockReset, TxEngine.reset] at h
  · intro h; simp [blockReset, RxEngine.reset] at h
  · intro h; simp [blockReset, InitSeq.reset] at h
  · intro p q len x a hq hw; rw [hp p q hq] at hw; cases hw
  · intro p q i x a hq hw; rw [hp p q hq] at hw; cases hw

/-- A change of one port that has no command in an engine or the queue. -/
theorem owned_port {s t : State} (hs : Owned s) {p : Nat} {q0 q1 : Port} (hq0 : s.ports[p]? = some q0) (hout : q0.outstanding = false)
    (rest : t = { s with ports := t.ports, sel := t.sel, mode := t.mode, regsBase := t.regsBase, txLock := t.txLock, rxLock := t.rxLock, ini := t.ini })
    (hports : ∀ j, t.ports[j]? = if p = j then some q1 else s.ports[j]?)
    (hini : t.ini = s.ini ∨ (s.ini.pc = .idle ∧ t.ini.pc = .n2 ∧ t.ini.p = p ∧ q1.outstanding = true ∧ opcOf q1.cw ≠ 2 ∧ q1.waiting = none))
    (hw : ∀ len h a, q1.waiting = some ⟨.xmit len, h, a⟩ → HasXmit q1 h ∧ ownerOf s h = .requester p)
    (hw' : ∀ (i : Instr) (h : Handle) (a : Addr), q1.waiting = some ⟨i, h, a⟩ → i = .drain ∨ i = .intr → q1.outstanding = true ∧ opcOf q1.cw ≠ 2) :
    Owned t := by
  obtain ⟨o1, o2, o3, o4, o5, o6, o7, o8, o9, o10, o11⟩ := hs
  have ecfg : t.cfg = s.cfg := by rw [rest]
  have erx : t.rx = s.rx := by rw [rest]
  have etx : t.tx = s.tx := by rw [rest]
  have ho : ∀ x, ownerOf t x = ownerOf s x := ownerOf_congr (by rw [rest])
  have ets : ∀ j, txShadowAt t j = txShadowAt s j := by intro j; unfold txShadowAt; rw [rest]
  have ers : ∀ j, rxShadowAt t j = rxShadowAt s j := by intro j; unfold rxShadowAt; rw [rest]
  have runs : ∀ src, RunsFor s src → RunsFor t src := by
    intro src h
    cases src with
    | irq => trivial
    | port j =>
      obtain ⟨q, hq, b1, b2, b3⟩ := h
      have hne : p ≠ j := by
        intro he; subst he; rw [hq0] at hq; cases hq; rw [hout] at b1; cases b1
      exact ⟨q, by rw [hports, if_neg hne]; exact hq, b1, b2, b3⟩
  refine ⟨by simpa only [ecfg, ets, ho] using o1, by simpa only [ecfg, ers, ho] using o2, by simpa only [erx, ho] using o3, by simpa only [erx, ho] using o4, ?_, by simpa only [etx, ho] using o6, ?_, ?_, ?_, ?_, ?_⟩
  · rcases hini with he | ⟨_, he, _⟩
    · simpa only [he, ho] using o5
    · rw [he]; intro h; cases h
  · rw [etx]
    intro h
    obtain ⟨q, hq, hx, hw⟩ := o7 h
    have hne : p ≠ s.tx.p := by
      intro he; subst he; rw [hq0] at hq; cases hq; rw [hx.1] at hout; cases hout
    exact ⟨q, by rw [hports, if_neg hne]; exact hq, hx, hw⟩
  · rw [erx]; intro h; exact runs _ (o8 h)
  · rcases hini with he | ⟨_, he, he', h1, h2, h3⟩
    · rw [he]; intro h; exact runs _ (o9 h)
    · intro _
      rw [he']
      exact ⟨q1, by rw [hports, if_pos rfl], h1, h2, h3⟩
  · intro j q len h a h1 h2
    rw [hports] at h1
    rw [ho]
    by_cases he : p = j
    · subst he
      rw [if_pos rfl] at h1; cases h1
      exact hw len h a h2
    · rw [if_neg he] at h1
      exact o10 j q len h a h1 h2
  · intro j q i h a h1 h2 h3
    rw [hports] at h1
    by_cases he : p = j
    · subst he
      rw [if_pos rfl] at h1; cases h1
      exact hw' i h a h2 h3
    · rw [if_neg he] at h1
      exact o11 j q i h a h1 h2 h3

theorem decode_opc {w : Word} {i : Instr} (h : decode w = .command i) : (∃ len, i = .xmit len) ↔ opcOf w = 2 := by
  unfold decode withoutLen at h
  split at h
  · split at h
    · rename_i hn; split at h <;> cases h
      constructor
      · rintro ⟨l, hl⟩; cases hl
      · intro he; rw [he] at hn; cases hn
    · rename_i hn; cases h
      constructor
      · intro _; exact BitVec.eq_of_toNat_eq hn
      · intro _; exact ⟨_, rfl⟩
    · rename_i hn; split at h <;> cases h
      constructor
      · rintro ⟨l, hl⟩; cases hl
      · intro he; rw [he] at hn; cases hn
    · rename_i hn; split at h <;> cases h
      constructor
      · rintro ⟨l, hl⟩; cases hl
      · intro he; rw [he] at hn; cases hn
    · cases h
  · cases h

theorem getElem_present {s : State} {p : Nat} {q : Port} (h : s.ports[p]? = some q) (cw : Word) (a0 a1 : BitVec 64) (j : Nat) :
    (raiseRequest p (present p cw a0 a1 s)).ports[j]? = if p = j then some { q with cw := cw, a0 := a0, a1 := a1, outstanding := true, waiting := none } else s.ports[j]? := by
  show (updatePort p _ (present p cw a0 a1 s)).ports[j]? = _
  rw [updatePort_getElem]
  by_cases he : p = j
  · subst he; rw [if_pos rfl, if_pos rfl, present_port h]; rfl
  · rw [if_neg he, if_neg he]
    show (updatePort p _ s).ports[j]? = _
    rw [updatePort_getElem, if_neg he]

theorem owned_issue {p : Nat} {cw : Word} {a0 a1 : BitVec 64} {s t : State} (hs : Inv s) (ho : Owned s)
    (duty : ∀ len, decode cw = .command (.xmit len) → ownerOf s a0 = .requester p)
    (ht : issueEvent p cw a0 a1 s = .next t) : Owned t := by
  rcases issueEvent_cases ht with ⟨rfl, _⟩ | ⟨q, hq, hout, hc⟩
  · exact ho
  have hp := getElem_present hq cw a0 a1
  have hraise : Owned (raiseRequest p (present p cw a0 a1 s)) :=
    owned_port ho hq hout rfl hp (.inl rfl) (by intro _ _ _ h; cases h) (by intro _ _ _ h; cases h)
  have hresp : ∀ r, Owned (respond (.port p) r (raiseRequest p (present p cw a0 a1 s))) := by
    intro r
    refine owned_port (q1 := { q with cw := cw, a0 := a0, a1 := a1, outstanding := false, waiting := none, rv := r.rv, rc := r.code }) ho hq hout rfl ?_ (.inl rfl) (by intro _ _ _ h; cases h) (by intro _ _ _ h; cases h)
    intro j
    rw [getElem_respond, hp]
    by_cases he : p = j
    · simp [he]
    · simp [he]
  rcases hc with ⟨why, hd, rfl⟩ | ⟨i, hd, ⟨h1, rfl⟩ | ⟨r, h1, rfl⟩ | ⟨h1, ⟨rfl, h2, h3, rfl⟩ | ⟨h2, rfl⟩⟩⟩
  · unfold issueIllegal
    split
    · exact hraise
    · exact hresp _
  · exact hraise
  · exact hresp r
  · have hm := decideOn_init_accept h1
    have he := hs.engines
    unfold EnginesOk at he
    rw [hm] at he
    refine owned_port ho hq hout rfl hp (.inr ⟨he.2.2.2.1, rfl, rfl, rfl, ?_, rfl⟩) (by intro _ _ _ h; cases h) (by intro _ _ _ h; cases h)
    intro h2
    obtain ⟨len, hl⟩ := (decode_opc hd).mpr h2
    cases hl
  · refine owned_port (q1 := { q with cw := cw, a0 := a0, a1 := a1, outstanding := true, waiting := some ⟨i, a0, a1⟩ }) ho hq hout rfl ?_ (.inl rfl) ?_ ?_
    · intro j
      show (updatePort p _ (raiseRequest p (present p cw a0 a1 s))).ports[j]? = _
      rw [updatePort_getElem, hp]
      by_cases he : p = j
      · simp [he]
      · simp [he]
    · intro len h a hw
      cases hw
      exact ⟨⟨rfl, (decode_opc hd).mp ⟨len, rfl⟩, rfl, (decideOn_xmit_accept h1).2⟩, duty len hd⟩
    · intro i' h a hw hi
      cases hw
      refine ⟨rfl, fun h2 => ?_⟩
      obtain ⟨len, rfl⟩ := (decode_opc hd).mpr h2
      rcases hi with hi | hi <;> cases hi

end Sys2Proof.Machine
end

