-- ==== Sys2Proof/Laws/Areas.lean ====
section
/-! SUPPORT. The data areas of the live buffers (`AreasOk` of Safety.lean), kept by every micro-step of every engine and by every move of the environment (00_scope.md R9, 46_device_environment.md R270, R271). -/

namespace Sys2Proof.Machine

/-! ### Disjointness -/

theorem areasApart_symm {c : Config} {a b : Addr} (h : areasApart c a b = true) : areasApart c b a = true := by
  simp only [areasApart, apart, Bool.or_eq_true, decide_eq_true_eq] at h ⊢
  omega

theorem areaFree_iff {s : State} {a : Addr} :
    areaFree s a = true ↔ areaOk s.cfg a s.cfg.rxBufSize = true ∧ regsClear s a s.cfg.rxBufSize = true ∧
      ∀ e ∈ s.areas, areasApart s.cfg a e.2 = true := by
  simp only [areaFree, Bool.and_eq_true, List.all_eq_true]
  exact ⟨fun h => ⟨h.1.1, h.1.2, h.2⟩, fun h => ⟨⟨h.1, h.2.1⟩, h.2.2⟩⟩

theorem regsClear_congr {s t : State} (hc : t.cfg = s.cfg) (hr : t.regsBase = s.regsBase)
    (hm : s.mode = .uninit → t.mode = .uninit) {a : Addr} {n : Nat} (h : regsClear s a n = true) :
    regsClear t a n = true := by
  simp only [regsClear, hc, hr, Bool.or_eq_true, decide_eq_true_eq] at h ⊢
  exact h.imp hm id

/-! ### How the areas change -/

/-- Nothing the areas speak of changes but owners among live buffers. -/
theorem AreasOk.same {s t : State} (h : AreasOk s) (hc : t.cfg = s.cfg) (ha : t.areas = s.areas)
    (hr : t.regsBase = s.regsBase) (hm : s.mode = .uninit → t.mode = .uninit)
    (ho : ∀ x, ownerOf t x = .pool ↔ ownerOf s x = .pool) : AreasOk t where
  live x := by rw [ha, h.live x]; exact (not_congr (ho x)).symm
  rising := by rw [ha]; exact h.rising
  rings := by rw [ha, hc]; exact h.rings
  regs := by rw [ha, hc]; exact fun e he => regsClear_congr hc hr hm (h.regs e he)
  apart := by rw [ha, hc]; exact h.apart

/-- One live buffer passes to another owner that is not the pool. -/
theorem AreasOk.pass {s t : State} (h : AreasOk s) (hc : t.cfg = s.cfg) (ha : t.areas = s.areas)
    (hr : t.regsBase = s.regsBase) (hm : s.mode = .uninit → t.mode = .uninit) {x : Handle} {o : Owner}
    (hx : ownerOf s x ≠ .pool) (ho : o ≠ .pool) (hnew : ∀ y, ownerOf t y = if y = x then o else ownerOf s y) :
    AreasOk t := by
  refine h.same hc ha hr hm (fun y => ?_)
  rw [hnew]
  split
  · rename_i he; subst he; exact ⟨fun h => absurd h ho, fun h => absurd h hx⟩
  · exact Iff.rfl

/-- One buffer goes back to the pool and loses its area. -/
theorem AreasOk.free {s t : State} (h : AreasOk s) (hc : t.cfg = s.cfg) {x : Handle}
    (ha : t.areas = drop x.toNat s.areas) (hr : t.regsBase = s.regsBase) (hm : s.mode = .uninit → t.mode = .uninit)
    (hnew : ∀ y, ownerOf t y = if y = x then .pool else ownerOf s y) : AreasOk t where
  live y := by
    rw [ha, lookup_drop, hnew]
    by_cases he : y = x
    · simp [he]
    · have : y.toNat ≠ x.toNat := fun hn => he (BitVec.eq_of_toNat_eq hn)
      rw [if_neg this, if_neg he]; exact h.live y
  rising := by rw [ha]; exact rising_drop _ h.rising
  rings := by rw [ha, hc]; exact fun e he => h.rings e (mem_drop he)
  regs := by rw [ha, hc]; exact fun e he => regsClear_congr hc hr hm (h.regs e (mem_drop he))
  apart := by rw [ha, hc]; exact pairwise_drop _ h.apart

/-- A fresh buffer comes out of the pool with its area. -/
theorem AreasOk.take {s t : State} (h : AreasOk s) (hc : t.cfg = s.cfg) {x : Handle} {a : Addr}
    (ha : t.areas = store x.toNat a s.areas) (hr : t.regsBase = s.regsBase) (hm : s.mode = .uninit → t.mode = .uninit)
    {o : Owner} (hf : freshBuffer s x a) (ho : o ≠ .pool)
    (hnew : ∀ y, ownerOf t y = if y = x then o else ownerOf s y) : AreasOk t := by
  obtain ⟨f1, f2, f3⟩ := areaFree_iff.mp hf.2.2
  refine ⟨fun y => ?_, ?_, ?_, ?_, ?_⟩
  · rw [ha, lookup_store, hnew]
    by_cases he : y = x
    · simp [he, ho]
    · have : y.toNat ≠ x.toNat := fun hn => he (BitVec.eq_of_toNat_eq hn)
      rw [if_neg this, if_neg he]; exact h.live y
  · rw [ha]; exact rising_store _ _ h.rising
  · rw [ha, hc]
    intro e he
    rcases mem_store he with rfl | he
    · exact f1
    · exact h.rings e he
  · rw [ha, hc]
    intro e he
    refine regsClear_congr hc hr hm ?_
    rcases mem_store he with rfl | he
    · exact f2
    · exact h.regs e he
  · rw [ha, hc]
    exact pairwise_store (R := fun x y => areasApart s.cfg x y = true) _ _ h.apart f3 (fun e he => areasApart_symm (f3 e he))

/-! ### The engines -/

theorem owner_same {s t : State} (h : t.owner = s.owner) (x : Handle) : ownerOf t x = .pool ↔ ownerOf s x = .pool := by
  rw [ownerOf_congr h]

theorem areas_tx {s t : State} (hs : Inv s) (ho : Owned s) (ha : AreasOk s) (ht : txTurn s = .next t) : AreasOk t := by
  rcases txTurn_cases ht with rfl | ⟨hm, hc⟩
  · exact ha
  have same : ∀ t : State, t.cfg = s.cfg → t.areas = s.areas → t.regsBase = s.regsBase → t.mode = s.mode →
      t.owner = s.owner → AreasOk t := fun _ h1 h2 h3 h4 h5 => ha.same h1 h2 h3 (fun h => h4.trans h) (owner_same h5)
  rcases hc with ⟨hp, hl', rfl⟩ | ⟨hp, rfl⟩ | ⟨hp, b, hb, rfl⟩ | ⟨hp, rfl⟩ | ⟨hp, rfl⟩ | ⟨hp, rfl⟩ | ⟨hp, rfl⟩ |
    ⟨hp, rfl⟩ | ⟨hp, rfl⟩ | ⟨hp, rfl⟩ | ⟨hp, rfl⟩
  · exact same _ rfl rfl rfl rfl rfl
  · exact same _ rfl rfl rfl rfl rfl
  · unfold afterX3
    split <;> exact same _ rfl rfl rfl rfl rfl
  · by_cases hz : txShadowAt s s.tx.i = 0
    · unfold afterX4
      rw [if_pos hz]
      exact same _ rfl rfl rfl rfl rfl
    · rw [afterX4_eq hz]
      exact ha.free rfl rfl rfl id (fun x => ownerOf_setOwner (txShadowAt s s.tx.i) .pool s x)
  · exact same _ rfl rfl rfl rfl rfl
  · exact same _ rfl rfl rfl rfl rfl
  · exact same _ rfl rfl rfl rfl rfl
  · exact same _ rfl rfl rfl rfl rfl
  · have hmy := ho.sending (by simp [hp]) (by simp [hp]) (by simp [hp])
    exact ha.pass rfl rfl rfl id (o := .txSlot s.tx.i) (by rw [hmy]; simp) (by simp)
      (fun x => ownerOf_setOwner s.tx.h (.txSlot s.tx.i) s x)
  · exact same _ rfl rfl rfl rfl rfl
  · exact same _ rfl rfl rfl rfl rfl

theorem areas_rx {s t : State} (hs : Inv s) (ho : Owned s) (ha : AreasOk s) (ht : rxTurn s = .next t) : AreasOk t := by
  rcases rxTurn_cases ht with rfl | ⟨hm, hc⟩
  · exact ha
  have hpc : s.rx.pc ≠ .idle := by
    rcases hc with h | h | h | h | h | h | h | h | h | h | h | h | h | h | h | h | h <;> (rw [h.1]; simp)
  have hr := rx_mode hs hm hpc
  have same : ∀ t : State, t.cfg = s.cfg → t.areas = s.areas → t.regsBase = s.regsBase →
      (s.mode = .uninit → t.mode = .uninit) → t.owner = s.owner → AreasOk t :=
    fun _ h1 h2 h3 h4 h5 => ha.same h1 h2 h3 h4 (owner_same h5)
  rcases hc with ⟨hp, hl', _, rfl⟩ | ⟨hp, rfl⟩ | ⟨hp, hl', rfl⟩ | ⟨hp, rfl⟩ | ⟨hp, b, hb, rfl⟩ | ⟨hp, rfl⟩ |
    ⟨hp, v, hv, rfl⟩ | ⟨hp, rfl⟩ | ⟨hp, rfl⟩ | ⟨hp, rest, hre, rfl⟩ | ⟨hp, hd, a, rest, hal, hf, rfl⟩ | ⟨hp, rfl⟩ |
    ⟨hp, rfl⟩ | ⟨hp, rfl⟩ | ⟨hp, rfl⟩ | ⟨hp, rfl⟩ | ⟨hp, rfl⟩
  · unfold afterI1
    split <;> exact same _ rfl rfl rfl id rfl
  · exact same _ rfl rfl rfl id rfl
  · exact same _ rfl rfl rfl id rfl
  · exact same _ rfl rfl rfl id rfl
  · exact same _ rfl rfl rfl id rfl
  · unfold afterD3a
    split <;> rename_i hz
    · exact same _ rfl rfl rfl id rfl
    · have hmy := ho.rxSlots _ (hs.slots.rxIndex hr (by rw [hp]; rfl)) hz
      exact ha.pass rfl rfl rfl id (o := .engine) (by rw [hmy]; simp) (by simp)
        (fun x => ownerOf_setOwner (rxShadowAt s s.rx.i) .engine s x)
  · exact same _ rfl rfl rfl id rfl
  · exact same _ rfl rfl rfl id rfl
  · have hmy := ho.taken (.inr (.inr hp))
    exact ha.pass rfl rfl rfl id (o := .ingress) (by rw [hmy]; simp) (by simp)
      (fun x => ownerOf_setOwner s.rx.b .ingress s x)
  · exact same _ rfl rfl rfl (fun h => by rw [hr] at h; cases h) rfl
  · rw [afterD5_eq]
    exact ha.take rfl rfl rfl id hf (o := .engine) (by simp) (fun x => ownerOf_setOwner hd .engine s x)
  · exact same _ rfl rfl rfl id rfl
  · exact same _ rfl rfl rfl id rfl
  · exact same _ rfl rfl rfl id rfl
  · have hmy := (ho.fresh (.inr (.inr (.inr hp)))).2
    exact ha.pass rfl rfl rfl id (o := .rxSlot s.rx.i) (by rw [hmy]; simp) (by simp)
      (fun x => ownerOf_setOwner s.rx.nh (.rxSlot s.rx.i) s x)
  · exact same _ rfl rfl rfl id rfl
  · cases hsrc : s.rx.src <;> exact same _ rfl rfl rfl id rfl

theorem areas_grantTx {p : Nat} {s t : State} (ha : AreasOk s) (ht : grantTx p s = .next t) : AreasOk t := by
  rcases grantTx_cases ht with ⟨_, rfl⟩ | ⟨len, hd, a, _, h1, h2, h3, rfl⟩
  · exact ha
  · exact ha.same rfl rfl rfl id (owner_same rfl)

theorem areas_grantRx {src : Source} {s t : State} (ha : AreasOk s) (ht : grantRx src s = .next t) : AreasOk t := by
  rcases grantRx_cases ht with ⟨_, rfl⟩ | ⟨kind, _, h1, h2, h3, rfl⟩
  · exact ha
  · cases kind <;> cases src <;> exact ha.same rfl rfl rfl id (owner_same rfl)

theorem areas_init {s t : State} (hs : Inv s) (ho : Owned s) (ha : AreasOk s) (ht : initTurn s = .next t) :
    AreasOk t := by
  rcases initTurn_cases ht with rfl | ⟨hm, hc⟩
  · exact ha
  have hpc : s.ini.pc ≠ .idle := by
    rcases hc with ⟨r, v, n, hw, _⟩ | h | h | h | h | h | h | h | h | h | h | h | h
    · intro h; rw [initWriteAt, h] at hw; cases hw
    all_goals (rw [h.1]; simp)
  have hr := ini_mode hs hm hpc
  have nm : ∀ t : State, s.mode = .uninit → t.mode = .uninit := fun _ h => by rw [hr] at h; cases h
  have same : ∀ t : State, t.cfg = s.cfg → t.areas = s.areas → t.regsBase = s.regsBase → t.owner = s.owner →
      AreasOk t := fun t h1 h2 h3 h4 => ha.same h1 h2 h3 (nm t) (owner_same h4)
  rcases hc with ⟨r, v, n, hw, rfl⟩ | ⟨hp, rfl⟩ | ⟨hp, rfl⟩ | ⟨hp, rfl⟩ | ⟨hp, rfl⟩ | ⟨hp, rfl⟩ | ⟨hp, rfl⟩ | ⟨hp, hst⟩ |
    ⟨hp, rfl⟩ | ⟨hp, rfl⟩ | ⟨hp, rfl⟩ | ⟨hp, rfl⟩ | ⟨hp, rfl⟩
  · exact same _ (by simp) (by simp) (by simp) (by simp)
  · exact same _ rfl rfl rfl rfl
  · exact same _ rfl rfl rfl rfl
  · unfold afterN6 nextRound
    split
    · exact same _ rfl rfl rfl rfl
    · exact same _ rfl rfl rfl rfl
    · split <;> exact same _ rfl rfl rfl rfl
  · unfold afterCheck
    split
    · split <;> exact same _ rfl rfl rfl rfl
    · exact same _ rfl rfl rfl rfl
  · exact same _ rfl rfl rfl rfl
  · exact same _ rfl rfl rfl rfl
  · rcases stepN9_next hst with ⟨hk, rest, hal, rfl⟩ | ⟨hk, hd, a, rest, hal, hf, rfl⟩ | ⟨hk, rfl⟩ | ⟨hk, rfl⟩
    · exact same _ rfl rfl rfl rfl
    · rw [afterN9_eq]
      exact ha.take rfl rfl rfl id hf (o := .engine) (by simp) (fun x => ownerOf_setOwner hd .engine s x)
    · exact same _ rfl rfl rfl rfl
    · have hmy := (ho.initial hp (by omega)).2
      obtain ⟨e1, e2, e3, e4, e5⟩ := lentN9_rest s
      exact ha.pass e1 e2 e3 (fun h => e4.trans h) (o := .rxSlot s.ini.i) (by rw [hmy]; simp) (by simp)
        (fun x => by rw [ownerOf_congr e5]; exact ownerOf_setOwner s.ini.h (.rxSlot s.ini.i) s x)
  · unfold afterCheck
    split
    · split <;> exact same _ rfl rfl rfl rfl
    · exact same _ rfl rfl rfl rfl
  · exact same _ rfl rfl rfl rfl
  · unfold afterN12b
    split <;> exact same _ rfl rfl rfl rfl
  · unfold nextRound
    split <;> exact same _ (by simp) (by simp) (by simp) (by simp)
  · exact same _ rfl rfl rfl rfl

/-! ### The environment -/

theorem DevMove.areas {s t : State} (h : DevMove s t) (ha : AreasOk s) : AreasOk t :=
  ha.same (by rw [h.rest]) (by rw [h.rest]) (by rw [h.rest]) (by rw [h.rest]; exact id) (owner_same (by rw [h.rest]))

theorem areas_own (h : Handle) (o : Owner) (a : Addr) {s : State} (ha : AreasOk s) : AreasOk (moveBuffer h o a s) := by
  rcases moveBuffer_cases h o a s with he | ⟨_, _, _, ⟨_, he⟩ | ⟨h1, hf, he⟩ | ⟨h1, h2, he⟩⟩ <;> rw [he]
  · exact ha
  · exact ha.free rfl rfl rfl id (fun x => ownerOf_setOwner h .pool s x)
  · exact ha.take rfl rfl rfl id hf h1 (fun x => ownerOf_setOwner h o s x)
  · exact ha.pass rfl rfl rfl id h2 h1 (fun x => ownerOf_setOwner h o s x)

theorem areas_irq {s : State} (ha : AreasOk s) : AreasOk (latchIrq (deliverSignal s)) := by
  unfold latchIrq
  split <;> exact ha.same rfl rfl rfl id (owner_same rfl)

theorem areas_reset {s : State} (ha : AreasOk s) : AreasOk (blockReset s) where
  live := ha.live
  rising := ha.rising
  rings := ha.rings
  regs _ _ := rfl
  apart := ha.apart

theorem areas_issue {p : Nat} {cw : Word} {a0 a1 : BitVec 64} {s t : State} (ha : AreasOk s)
    (ht : issueEvent p cw a0 a1 s = .next t) : AreasOk t := by
  rcases issueEvent_cases ht with ⟨rfl, _⟩ | ⟨q, hq, hout, ⟨why, hd, rfl⟩ | ⟨i, hd, ⟨h1, rfl⟩ | ⟨r, h1, rfl⟩ |
    ⟨h1, ⟨rfl, h2, h3, rfl⟩ | ⟨h2, rfl⟩⟩⟩⟩
  · exact ha
  · unfold issueIllegal
    split <;> exact ha.same rfl rfl rfl id (owner_same rfl)
  · exact ha.same rfl rfl rfl id (owner_same rfl)
  · exact ha.same rfl rfl rfl id (owner_same rfl)
  · unfold initAllowed at h3
    rw [Bool.and_eq_true, List.all_eq_true] at h3
    refine ⟨ha.live, ha.rising, ha.rings, fun e he => ?_, ha.apart⟩
    exact Bool.or_eq_true _ _ ▸ .inr (h3.2 e he)
  · exact ha.same rfl rfl rfl id (owner_same rfl)

/-! ### Every move -/

/-- The invariant, the ownership and the areas together: what a requester's `Issue` alone could break. -/
structure Orderly (s : State) : Prop where
  inv   : Inv s
  owned : Owned s
  areas : AreasOk s

theorem DevMove.orderly {s t : State} (h : DevMove s t) (hs : Orderly s) : Orderly t :=
  ⟨h.inv hs.inv, h.owned hs.owned, h.areas hs.areas⟩

theorem orderly_stable : Stable Orderly where
  script s l h := ⟨inv_congr h.inv rfl h.inv.shaped.owner, owned_rest h.owned rfl, h.areas.same rfl rfl rfl id (owner_same rfl)⟩
  grantTx p s t h ht := ⟨inv_grantTx p s t h.inv ht, owned_grantTx h.inv h.owned ht, areas_grantTx h.areas ht⟩
  grantRx src s t h ht := ⟨inv_grantRx src s t h.inv ht, owned_grantRx h.inv h.owned ht, areas_grantRx h.areas ht⟩
  tx s t h ht := ⟨inv_tx s t h.inv ht, owned_tx h.inv h.owned ht, areas_tx h.inv h.owned h.areas ht⟩
  rx s t h ht := ⟨inv_rx s t h.inv ht, owned_rx h.inv h.owned ht, areas_rx h.inv h.owned h.areas ht⟩
  init s t h ht := ⟨inv_init s t h.inv ht, owned_init h.inv h.owned ht, areas_init h.inv h.owned h.areas ht⟩
  irq s h := ⟨inv_irq s h.inv, owned_rest h.owned (by dsimp only; unfold latchIrq; split <;> rfl), areas_irq h.areas⟩
  alloc _ s h := ⟨inv_congr h.inv rfl h.inv.shaped.owner, owned_rest h.owned rfl, h.areas.same rfl rfl rfl id (owner_same rfl)⟩
  txDone at_ st cause s h := (devMove_txDone at_ st cause s).orderly h
  rxFill _ _ _ _ _ h ht := (devMove_rxFill ht).orderly h
  devByte r at_ off b s h := (devMove_byte r at_ off b s).orderly h
  rxData _ _ _ _ _ h ht := (devMove_rxData ht).orderly h
  raise s h := (devMove_raise s).orderly h
  own x o a s h := ⟨inv_own x o a s h.inv, owned_own x o a h.inv h.owned, areas_own x o a h.areas⟩
  reset s h := ⟨inv_reset s h.inv, owned_reset s, areas_reset h.areas⟩

/-- `Issue` keeps the three where its requester owns the buffer it submits (R276 (b)). -/
theorem orderly_issue {p : Nat} {cw : Word} {a0 a1 : BitVec 64} {s t : State} (hs : Orderly s)
    (duty : ∀ len, decode cw = .command (.xmit len) → ownerOf s a0 = .requester p)
    (ht : issueEvent p cw a0 a1 s = .next t) : Orderly t :=
  ⟨inv_issue p cw a0 a1 s t hs.inv ht, owned_issue hs.inv hs.owned duty ht, areas_issue hs.areas ht⟩

end Sys2Proof.Machine
end

