-- ==== Sys2Proof/Laws/Fair.lean ====
section
/-! SUPPORT. What one step leaves of a command that waits, of a free lock and of a signal the dispatcher holds, unless it grants, takes or delivers it (45_arbiter.md R233 to R236, 46_device_environment.md R275). -/

namespace Sys2Proof.Machine

/-! ### A waiting command -/

theorem waitingAt_congr {s t : State} (h : t.ports = s.ports) (p : Nat) : waitingAt t p = waitingAt s p := by
  unfold waitingAt; rw [h]

theorem waitingAt_respond (src : Source) (r : Reason) (s : State) (p : Nat) :
    waitingAt (respond src r s) p = waitingAt s p := by
  cases src with
  | irq => rfl
  | port q =>
    show waitingAt (updatePort q _ s) p = _
    rw [waitingAt_updatePort]
    split
    · unfold waitingAt; cases s.ports[p]? <;> rfl
    · rfl

theorem waiting_tx {s t : State} (h : txTurn s = .next t) (p : Nat) : waitingAt t p = waitingAt s p := by
  rcases txTurn_cases h with rfl | ⟨hm, hc⟩
  · rfl
  rcases hc with ⟨hp, hl, rfl⟩ | ⟨hp, rfl⟩ | ⟨hp, b, hb, rfl⟩ | ⟨hp, rfl⟩ | ⟨hp, rfl⟩ | ⟨hp, rfl⟩ | ⟨hp, rfl⟩ |
    ⟨hp, rfl⟩ | ⟨hp, rfl⟩ | ⟨hp, rfl⟩ | ⟨hp, rfl⟩
  · rfl
  · rfl
  · unfold afterX3
    split
    · rfl
    · exact waitingAt_respond _ _ _ p
  · unfold afterX4
    split <;> exact waitingAt_congr (by simp) p
  · rfl
  · rfl
  · rfl
  · rfl
  · rfl
  · rfl
  · exact waitingAt_respond _ _ _ p

theorem waiting_rx {s t : State} (h : rxTurn s = .next t) (p : Nat) : waitingAt t p = waitingAt s p := by
  rcases rxTurn_cases h with rfl | ⟨hm, hc⟩
  · rfl
  rcases hc with ⟨hp, hl', _, rfl⟩ | ⟨hp, rfl⟩ | ⟨hp, hl', rfl⟩ | ⟨hp, rfl⟩ | ⟨hp, b, hb, rfl⟩ | ⟨hp, rfl⟩ |
    ⟨hp, v, hv, rfl⟩ | ⟨hp, rfl⟩ | ⟨hp, rfl⟩ | ⟨hp, rest, hre, rfl⟩ | ⟨hp, hd, a, rest, hal, hf, rfl⟩ | ⟨hp, rfl⟩ |
    ⟨hp, rfl⟩ | ⟨hp, rfl⟩ | ⟨hp, rfl⟩ | ⟨hp, rfl⟩ | ⟨hp, rfl⟩
  · unfold afterI1
    split <;> rfl
  · rfl
  · rfl
  · rfl
  · rfl
  · unfold afterD3a
    split <;> rfl
  · rfl
  · rfl
  · rfl
  · rfl
  · rw [afterD5_eq]; rfl
  · rfl
  · rfl
  · rfl
  · rfl
  · rfl
  · exact waitingAt_respond _ _ _ p

/-- What INIT leaves of the other agents. -/
theorem init_leaves {s t : State} (h : initTurn s = .next t) :
    (∀ p, waitingAt t p = waitingAt s p) ∧ t.irqPend = s.irqPend ∧ t.irqSignals = s.irqSignals := by
  rcases initTurn_cases h with rfl | ⟨hm, hc⟩
  · exact ⟨fun _ => rfl, rfl, rfl⟩
  have same : ∀ t : State, t.ports = s.ports → t.irqPend = s.irqPend → t.irqSignals = s.irqSignals →
      (∀ p, waitingAt t p = waitingAt s p) ∧ t.irqPend = s.irqPend ∧ t.irqSignals = s.irqSignals :=
    fun _ h1 h2 h3 => ⟨fun p => waitingAt_congr h1 p, h2, h3⟩
  rcases hc with ⟨r, v, n, hw, rfl⟩ | ⟨hp, rfl⟩ | ⟨hp, rfl⟩ | ⟨hp, rfl⟩ | ⟨hp, rfl⟩ | ⟨hp, rfl⟩ | ⟨hp, rfl⟩ | ⟨hp, hst⟩ |
    ⟨hp, rfl⟩ | ⟨hp, rfl⟩ | ⟨hp, rfl⟩ | ⟨hp, rfl⟩ | ⟨hp, rfl⟩
  · exact same _ (by simp) (by simp) (by simp)
  · exact same _ rfl rfl rfl
  · exact same _ rfl rfl rfl
  · unfold afterN6 nextRound
    split
    · exact same _ rfl rfl rfl
    · exact same _ rfl rfl rfl
    · split <;> exact same _ rfl rfl rfl
  · unfold afterCheck
    split
    · split <;> exact same _ rfl rfl rfl
    · exact same _ rfl rfl rfl
  · exact same _ rfl rfl rfl
  · exact same _ rfl rfl rfl
  · rcases stepN9_next hst with ⟨hk, rest, hal, rfl⟩ | ⟨hk, hd, a, rest, hal, hf, rfl⟩ | ⟨hk, rfl⟩ | ⟨hk, rfl⟩
    · exact same _ rfl rfl rfl
    · rw [afterN9_eq]; exact same _ rfl rfl rfl
    · exact same _ rfl rfl rfl
    · unfold lentN9 nextRound
      split <;> exact same _ (by simp) (by simp) (by simp)
  · unfold afterCheck
    split
    · split <;> exact same _ rfl rfl rfl
    · exact same _ rfl rfl rfl
  · exact same _ rfl rfl rfl
  · unfold afterN12b
    split <;> exact same _ rfl rfl rfl
  · unfold nextRound
    split <;> exact same _ (by simp) (by simp) (by simp)
  · exact ⟨fun p => waitingAt_respond _ _ _ p, rfl, rfl⟩

theorem waitingAt_unqueue {q p : Nat} (h : q ≠ p) (s : State) : waitingAt (unqueue q s) p = waitingAt s p := by
  show waitingAt (updatePort q _ s) p = _
  rw [waitingAt_updatePort, if_neg h]

theorem waiting_grantTx {q : Nat} {s t : State} (h : grantTx q s = .next t) (p : Nat) :
    waitingAt t p = waitingAt s p ∨ q = p ∧ (txWaiter s q).isSome = true := by
  rcases grantTx_cases h with ⟨_, rfl⟩ | ⟨len, hd, a, hw, _, _, _, rfl⟩
  · exact .inl rfl
  · by_cases he : q = p
    · exact .inr ⟨he, by rw [hw]; rfl⟩
    · exact .inl (waitingAt_unqueue he s)

theorem waiting_grantRx {src : Source} {s t : State} (h : grantRx src s = .next t) (p : Nat) :
    waitingAt t p = waitingAt s p ∨ src = .port p ∧ (rxWaiter s src).isSome = true := by
  rcases grantRx_cases h with ⟨_, rfl⟩ | ⟨kind, hw, _, _, _, rfl⟩
  · exact .inl rfl
  · by_cases he : src = .port p
    · exact .inr ⟨he, by rw [hw]; rfl⟩
    · left
      cases src with
      | irq => cases kind <;> rfl
      | port q =>
        have hne : q ≠ p := fun h => he (by rw [h])
        cases kind <;> exact waitingAt_unqueue hne s

/-- `Issue` of one port leaves what waits at another, and at a port that cannot issue. -/
theorem waiting_issue {q p : Nat} {cw : Word} {a0 a1 : BitVec 64} {s t : State}
    (h : issueEvent q cw a0 a1 s = .next t) (hp : canIssue s p = false) : waitingAt t p = waitingAt s p := by
  by_cases he : q = p
  · subst he
    unfold issueEvent at h
    rw [if_neg (by rw [hp]; decide)] at h
    cases h; rfl
  · have hu : ∀ (f : Port → Port) (u : State), waitingAt (updatePort q f u) p = waitingAt u p := by
      intro f u; rw [waitingAt_updatePort, if_neg he]
    have hr : waitingAt (raiseRequest q (present q cw a0 a1 s)) p = waitingAt s p := by
      show waitingAt (updatePort q _ _) p = _
      rw [hu]
      exact hu _ s
    rcases issueEvent_cases h with ⟨rfl, _⟩ | ⟨x, hq, hout, ⟨why, hd, rfl⟩ | ⟨i, hd, ⟨h1, rfl⟩ | ⟨r, h1, rfl⟩ |
      ⟨h1, ⟨rfl, h2, h3, rfl⟩ | ⟨h2, rfl⟩⟩⟩⟩
    · rfl
    · unfold issueIllegal
      split
      · exact hr
      · rw [waitingAt_respond]; exact hr
    · exact hr
    · rw [waitingAt_respond]; exact hr
    · exact hr
    · rw [← hr]; exact hu _ _

/-- A step is its event's move. -/
theorem step_event {s : State} {e : Event} {rest : List Event} (he : s.script = e :: rest) :
    step s = match (generalizing := false) e with
      | .call p cw a0 a1 => callEvent p cw a0 a1 { s with script := rest }
      | e => agentEvent e { s with script := rest } := by
  unfold step
  rw [he]
  cases e <;> rfl

/-- A command that waits goes on waiting, unless it is granted its lock or the block is reset. -/
theorem waiting_kept {s t : State} {e : Event} {rest : List Event} {p : Nat} (he : s.script = e :: rest)
    (h : step s = .next t) (hp : canIssue s p = false) (hr : e ≠ .reset)
    (h1 : e = .grantTx p → (txWaiter s p).isSome = false)
    (h2 : e = .grantRx (.port p) → (rxWaiter s (.port p)).isSome = false) : waitingAt t p = waitingAt s p := by
  have keepT : ∀ r, Keeps (fun u => waitingAt u p = r) txTurn := fun r u v hu hv => (waiting_tx hv p).trans hu
  have keepR : ∀ r, Keeps (fun u => waitingAt u p = r) rxTurn := fun r u v hu hv => (waiting_rx hv p).trans hu
  have keepI : ∀ r, Keeps (fun u => waitingAt u p = r) initTurn := fun r u v hu hv => ((init_leaves hv).1 p).trans hu
  have serveR : ∀ src, src ≠ .port p → ∀ u v, serveRx src u = .next v → waitingAt v p = waitingAt u p := by
    intro src hs u v hv
    unfold serveRx at hv
    split at hv
    · obtain ⟨w, hw, hv⟩ := andThen_eq_next.mp hv
      refine Keeps.runRx (keepR (waitingAt u p)) _ w v ?_ hv
      exact (waiting_grantRx hw p).resolve_right (fun h => hs h.1)
    · cases hv; rfl
  rw [step_event he] at h
  cases e with
  | issue q cw a0 a1 => exact waiting_issue (s := { s with script := rest }) h hp
  | call q cw a0 a1 =>
    rcases callEvent_eq h with h3 | ⟨i, u, hc, _, hu, ht⟩
    · exact waiting_issue (s := { s with script := rest }) h3 hp
    · have hq : q ≠ p := by
        intro hq; subst hq
        have : canIssue s q = true := hc
        rw [hp] at this; cases this
      have hue : waitingAt u p = waitingAt s p := waiting_issue (s := { s with script := rest }) hu hp
      rw [← hue]
      have hne : Source.port q ≠ .port p := fun h => hq (by injection h)
      cases i with
      | init =>
        obtain ⟨b, ht⟩ := ht
        exact Keeps.serveInit (keepI (waitingAt u p)) b u t rfl ht
      | xmit len =>
        have ht : serveTx q u = .next t := ht
        unfold serveTx at ht
        split at ht
        · obtain ⟨w, hw, hv⟩ := andThen_eq_next.mp ht
          refine Keeps.runTx (keepT (waitingAt u p)) _ w t ?_ hv
          exact (waiting_grantTx hw p).resolve_right (fun h => hq h.1)
        · cases ht; rfl
      | intr => exact serveR _ hne u t ht
      | drain => exact serveR _ hne u t ht
  | grantTx q =>
    refine (waiting_grantTx (s := { s with script := rest }) h p).resolve_right ?_
    rintro ⟨rfl, hw⟩
    have hw' : (txWaiter s q).isSome = true := hw
    rw [h1 rfl] at hw'; cases hw'
  | grantRx src =>
    refine (waiting_grantRx (s := { s with script := rest }) h p).resolve_right ?_
    rintro ⟨rfl, hw⟩
    have hw' : (rxWaiter s (.port p)).isSome = true := by
      rw [← hw]; unfold rxWaiter rxRequest; rfl
    rw [h2 rfl] at hw'; cases hw'
  | tx => exact waiting_tx (s := { s with script := rest }) h p
  | rx => exact waiting_rx (s := { s with script := rest }) h p
  | init => exact (init_leaves (s := { s with script := rest }) h).1 p
  | irq =>
    cases h
    refine waitingAt_congr ?_ p
    unfold latchIrq; split <;> rfl
  | serveIrq => exact serveR .irq (by simp) { s with script := rest } t h
  | alloc ans => cases h; rfl
  | devTxDone at_ st cause =>
    cases h
    exact waitingAt_congr (by rw [(devMove_txDone at_ st cause { s with script := rest }).rest]) p
  | devRxFill at_ frame st => exact waitingAt_congr (by rw [(devMove_rxFill h).rest]) p
  | devByte r at_ off b =>
    cases h
    exact waitingAt_congr (by rw [(devMove_byte r at_ off b { s with script := rest }).rest]) p
  | devRxData at_ k b => exact waitingAt_congr (by rw [(devMove_rxData h).rest]) p
  | devRaise =>
    cases h
    exact waitingAt_congr (by rw [(devMove_raise { s with script := rest }).rest]) p
  | own hd o a =>
    cases h
    rcases moveBuffer_cases hd o a { s with script := rest } with e | ⟨_, _, _, ⟨_, e⟩ | ⟨_, _, e⟩ | ⟨_, _, e⟩⟩ <;>
      (rw [e]; rfl)
  | reset => exact absurd rfl hr

/-! ### A free lock -/

/-- What a move leaves in a `READY` block: the mode, unless it halts; a free lock the move does not take; and, while
`rx_lock` is free, a pending interrupt. -/
structure Leaves (s t : State) (takesTx takesRx : Prop) : Prop where
  mode : t.mode = .ready ∨ t.mode = .fatal
  tx   : s.txLock = .free → ¬takesTx → t.txLock = .free
  rx   : s.rxLock = .free → ¬takesRx → t.rxLock = .free ∧ (s.irqPend = true → t.irqPend = true)

theorem Leaves.of_eq {s t : State} {a b : Prop} (h1 : t.mode = .ready ∨ t.mode = .fatal) (h2 : t.txLock = s.txLock)
    (h3 : t.rxLock = s.rxLock) (h4 : s.irqPend = true → t.irqPend = true) : Leaves s t a b :=
  ⟨h1, fun h _ => h2.trans h, fun h _ => ⟨h3.trans h, h4⟩⟩

/-- A waiting port whose `Issue` has just happened was accepted (R233). -/
theorem issue_accepted {p : Nat} {cw : Word} {a0 a1 : BitVec 64} {s u : State} {i : Instr}
    (h : issueEvent p cw a0 a1 s = .next u) (hc : canIssue s p = true) (hd : decode cw = .command i)
    (hw : (waitingAt u p).isSome = true) : decideOn s.mode i a0 = .accept := by
  rcases issueEvent_cases h with ⟨_, hn⟩ | ⟨q, hq, hout, hcase⟩
  · rw [hc] at hn; cases hn
  have hraise : waitingAt (raiseRequest p (present p cw a0 a1 s)) p = none := by
    unfold waitingAt
    rw [getElem_present hq, if_pos rfl]
  rcases hcase with ⟨why, hd', _⟩ | ⟨j, hd', ⟨h1, rfl⟩ | ⟨r, h1, rfl⟩ | ⟨h1, _⟩⟩
  · rw [hd] at hd'; cases hd'
  · rw [hraise] at hw; cases hw
  · rw [waitingAt_respond, hraise] at hw; cases hw
  · rw [hd] at hd'; cases hd'; exact h1

/-- `Issue` in `READY` moves no engine and takes no lock. -/
theorem issue_leaves {p : Nat} {cw : Word} {a0 a1 : BitVec 64} {s u : State} (hm : s.mode = .ready)
    (h : issueEvent p cw a0 a1 s = .next u) : u = { s with ports := u.ports, sel := u.sel } := by
  rcases issueEvent_cases h with ⟨rfl, _⟩ | ⟨q, hq, hout, ⟨why, hd, rfl⟩ | ⟨i, hd, ⟨h1, rfl⟩ | ⟨r, h1, rfl⟩ |
    ⟨h1, ⟨rfl, h2, h3, rfl⟩ | ⟨h2, rfl⟩⟩⟩⟩
  · rfl
  · unfold issueIllegal
    split <;> rfl
  · rfl
  · rfl
  · rw [decideOn_init_accept h1] at hm; cases hm
  · rfl

theorem serveTx_leaves {p : Nat} {s t : State} (h : serveTx p s = .next t) :
    (txWaiter s p = none ∧ t = s) ∨ (txWaiter s p).isSome = true ∧
      t.mode = s.mode ∧ t.rxLock = s.rxLock ∧ t.irqPend = s.irqPend := by
  unfold serveTx at h
  split at h
  · rename_i w hw
    obtain ⟨u, hu, ht⟩ := andThen_eq_next.mp h
    refine .inr ⟨by rw [hw]; rfl, ?_⟩
    refine Keeps.runTx (P := fun v => v.mode = s.mode ∧ v.rxLock = s.rxLock ∧ v.irqPend = s.irqPend) ?_ _ u t ?_ ht
    · rintro v w ⟨h1, h2, h3⟩ hw
      have hmv := txMove_turn hw
      exact ⟨by rw [hmv.rest]; exact h1, by rw [hmv.rest]; exact h2, by rw [hmv.rest]; exact h3⟩
    · have hmv := txMove_grant hu
      exact ⟨by rw [hmv.rest], by rw [hmv.rest], by rw [hmv.rest]⟩
  · cases h; rename_i hw; exact .inl ⟨hw, rfl⟩

theorem RxMove.mode_or {s t : State} (h : RxMove s t) (hm : s.mode = .ready ∨ s.mode = .fatal) :
    t.mode = .ready ∨ t.mode = .fatal := by
  rcases h.mode with h | h
  · rw [h.1]; exact hm
  · exact .inr h.1

theorem serveRx_leaves {src : Source} {s t : State} (hm : s.mode = .ready) (h : serveRx src s = .next t) :
    (rxWaiter s src = none ∧ t = s) ∨ (rxWaiter s src).isSome = true ∧
      (t.mode = .ready ∨ t.mode = .fatal) ∧ t.txLock = s.txLock := by
  unfold serveRx at h
  split at h
  · rename_i w hw
    obtain ⟨u, hu, ht⟩ := andThen_eq_next.mp h
    refine .inr ⟨by rw [hw]; rfl, ?_⟩
    refine Keeps.runRx (P := fun v => (v.mode = .ready ∨ v.mode = .fatal) ∧ v.txLock = s.txLock) ?_ _ u t ?_ ht
    · rintro v w ⟨h1, h2⟩ hw
      have hmv := rxMove_turn hw
      exact ⟨hmv.mode_or h1, by rw [hmv.rest]; exact h2⟩
    · have hmv := rxMove_grant hu
      exact ⟨hmv.mode_or (.inl hm), by rw [hmv.rest]⟩
  · cases h; rename_i hw; exact .inl ⟨hw, rfl⟩

/-- What one step leaves in a `READY` block. -/
theorem ready_leaves {s t : State} {e : Event} {rest : List Event} (hs : Inv s) (hm : s.mode = .ready)
    (he : s.script = e :: rest) (h : step s = .next t) (hr : e ≠ .reset) : Leaves s t (TxTaken s e) (RxTaken s e) := by
  obtain ⟨_, _, hi, htl, hrl, _⟩ := (inv_ready hm).mp hs
  have rxCall : ∀ (p : Nat) (cw : Word) (a0 a1 : BitVec 64) (u : State) (i : Instr), i = .drain ∨ i = .intr →
      e = .call p cw a0 a1 → canIssue s p = true → decode cw = .command i →
      issueEvent p cw a0 a1 { s with script := rest } = .next u → serveRx (.port p) u = .next t →
      Leaves s t (TxTaken s e) (RxTaken s e) := by
    intro p cw a0 a1 u i hk hev hc hd hu ht
    have hrest := issue_leaves (s := { s with script := rest }) hm hu
    have hmu : u.mode = .ready := by rw [hrest]; exact hm
    rcases serveRx_leaves hmu ht with ⟨_, rfl⟩ | ⟨hw, h1, h2⟩
    · exact .of_eq (.inl hmu) (by rw [hrest]) (by rw [hrest]) (by rw [hrest]; exact id)
    · have hww : (waitingAt u p).isSome = true := by
        cases hq : rxWaiter u (.port p) with
        | none => rw [hq] at hw; cases hw
        | some k =>
          have := (rxWaiter_some hq).2.2
          unfold rxRequest at this
          dsimp only at this
          split at this
          · rename_i hx; rw [hx]; rfl
          · rename_i hx; rw [hx]; rfl
          · cases this
      have hacc := issue_accepted hu hc hd hww
      refine ⟨h1, fun hl _ => ?_, fun hl hn => absurd (.inr ⟨hl, p, cw, a0, a1, i, hev, hc, hd, hk, hacc⟩) hn⟩
      rw [h2, hrest]; exact hl
  rw [step_event he] at h
  cases e with
  | issue p cw a0 a1 =>
    have hrest := issue_leaves (s := { s with script := rest }) hm h
    exact .of_eq (.inl (by rw [hrest]; exact hm)) (by rw [hrest]) (by rw [hrest]) (by rw [hrest]; exact id)
  | call p cw a0 a1 =>
    rcases callEvent_eq h with h3 | ⟨i, u, hc, hd, hu, ht⟩
    · have hrest := issue_leaves (s := { s with script := rest }) hm h3
      exact .of_eq (.inl (by rw [hrest]; exact hm)) (by rw [hrest]) (by rw [hrest]) (by rw [hrest]; exact id)
    · have hrest := issue_leaves (s := { s with script := rest }) hm hu
      cases i with
      | init =>
        obtain ⟨b, ht⟩ := ht
        have htu : t = u := by
          unfold serveInit at ht
          split at ht
          · have hp : u.ini.pc = .idle := by rw [hrest]; exact hi
            have hk : ∀ k, runInit k u = .next u := fun k => by cases k <;> simp [runInit, hp]
            rw [hk] at ht; cases ht; rfl
          · cases ht; rfl
        subst htu
        exact .of_eq (.inl (by rw [hrest]; exact hm)) (by rw [hrest]) (by rw [hrest]) (by rw [hrest]; exact id)
      | xmit len =>
        rcases serveTx_leaves ht with ⟨_, rfl⟩ | ⟨hw, h1, h2, h3⟩
        · exact .of_eq (.inl (by rw [hrest]; exact hm)) (by rw [hrest]) (by rw [hrest]) (by rw [hrest]; exact id)
        · have hww : (waitingAt u p).isSome = true := by
            cases hq : txWaiter u p with
            | none => rw [hq] at hw; cases hw
            | some k => rw [(txWaiter_some hq).2.2]; rfl
          have hacc := issue_accepted hu hc hd hww
          refine ⟨.inl (by rw [h1, hrest]; exact hm),
            fun hl hn => absurd (.inr ⟨hl, p, cw, a0, a1, .xmit len, rfl, hc, hd, ⟨len, rfl⟩, hacc⟩) hn,
            fun hl _ => ⟨by rw [h2, hrest]; exact hl, by rw [h3, hrest]; exact id⟩⟩
      | intr => exact rxCall p cw a0 a1 u .intr (.inr rfl) rfl hc hd hu ht
      | drain => exact rxCall p cw a0 a1 u .drain (.inl rfl) rfl hc hd hu ht
  | grantTx q =>
    have hmv := txMove_grant (s := { s with script := rest }) h
    refine ⟨.inl (by rw [hmv.rest]; exact hm), fun hl hn => ?_,
      fun hl _ => ⟨by rw [hmv.rest]; exact hl, by rw [hmv.rest]; exact id⟩⟩
    rcases grantTx_cases (s := { s with script := rest }) h with ⟨_, rfl⟩ | ⟨len, hd, a, hw, _⟩
    · exact hl
    · have hw' : txWaiter s q = some (len, hd, a) := hw
      exact absurd (.inl ⟨q, by rw [hw']; rfl, rfl⟩) hn
  | grantRx src =>
    have hmv := rxMove_grant (s := { s with script := rest }) h
    refine ⟨hmv.mode_or (.inl hm), fun hl _ => by rw [hmv.rest]; exact hl, fun hl hn => ?_⟩
    rcases grantRx_cases (s := { s with script := rest }) h with ⟨_, rfl⟩ | ⟨kind, hw, _⟩
    · exact ⟨hl, id⟩
    · have hw' : rxWaiter s src = some kind := hw
      exact absurd (.inl ⟨src, by rw [hw']; rfl, .inl rfl⟩) hn
  | tx =>
    have hmv := txMove_turn (s := { s with script := rest }) h
    refine ⟨.inl (by rw [hmv.rest]; exact hm), fun hl _ => ?_,
      fun hl _ => ⟨by rw [hmv.rest]; exact hl, by rw [hmv.rest]; exact id⟩⟩
    rcases htl with ⟨hp, _⟩ | ⟨_, _, hh⟩
    · have hp' : ({ s with script := rest } : State).tx.pc = .idle := hp
      have h' : txTurn { s with script := rest } = .next t := h
      rw [txTurn, if_neg (by rw [show ({ s with script := rest } : State).mode = .ready from hm]; decide), txStep, hp'] at h'
      cases h'; exact hl
    · rw [hl] at hh; cases hh
  | rx =>
    have hmv := rxMove_turn (s := { s with script := rest }) h
    refine ⟨hmv.mode_or (.inl hm), fun hl _ => by rw [hmv.rest]; exact hl, fun hl _ => ?_⟩
    rcases hrl with ⟨hp, _⟩ | ⟨_, _, _, hh⟩
    · have hp' : ({ s with script := rest } : State).rx.pc = .idle := hp
      have h' : rxTurn { s with script := rest } = .next t := h
      rw [rxTurn, if_neg (by rw [show ({ s with script := rest } : State).mode = .ready from hm]; decide), rxStep, hp'] at h'
      cases h'; exact ⟨hl, id⟩
    · rw [hl] at hh; cases hh
  | init =>
    have hp' : ({ s with script := rest } : State).ini.pc = .idle := hi
    have h' : initTurn { s with script := rest } = .next t := h
    rw [initTurn, if_neg (by rw [show ({ s with script := rest } : State).mode = .ready from hm]; decide), initStep, hp'] at h'
    cases h'
    exact .of_eq (.inl hm) rfl rfl id
  | irq =>
    cases h
    unfold latchIrq
    rw [if_neg (by rw [show (deliverSignal { s with script := rest }).mode = .ready from hm]; decide)]
    exact .of_eq (.inl hm) rfl rfl (fun _ => rfl)
  | serveIrq =>
    rcases serveRx_leaves (s := { s with script := rest }) hm h with ⟨_, rfl⟩ | ⟨hw, h1, h2⟩
    · exact .of_eq (.inl hm) rfl rfl id
    · have hw' : (rxWaiter s .irq).isSome = true := hw
      exact ⟨h1, fun hl _ => by rw [h2]; exact hl, fun hl hn => absurd (.inl ⟨.irq, hw', .inr ⟨rfl, rfl⟩⟩) hn⟩
  | alloc ans => cases h; exact .of_eq (.inl hm) rfl rfl id
  | devTxDone at_ st cause =>
    cases h
    have hmv := devMove_txDone at_ st cause { s with script := rest }
    exact .of_eq (.inl (by rw [hmv.rest]; exact hm)) (by rw [hmv.rest]) (by rw [hmv.rest]) (by rw [hmv.rest]; exact id)
  | devRxFill at_ frame st =>
    have hmv := devMove_rxFill h
    exact .of_eq (.inl (by rw [hmv.rest]; exact hm)) (by rw [hmv.rest]) (by rw [hmv.rest]) (by rw [hmv.rest]; exact id)
  | devByte r at_ off b =>
    cases h
    have hmv := devMove_byte r at_ off b { s with script := rest }
    exact .of_eq (.inl (by rw [hmv.rest]; exact hm)) (by rw [hmv.rest]) (by rw [hmv.rest]) (by rw [hmv.rest]; exact id)
  | devRxData at_ k b =>
    have hmv := devMove_rxData h
    exact .of_eq (.inl (by rw [hmv.rest]; exact hm)) (by rw [hmv.rest]) (by rw [hmv.rest]) (by rw [hmv.rest]; exact id)
  | devRaise =>
    cases h
    have hmv := devMove_raise { s with script := rest }
    exact .of_eq (.inl (by rw [hmv.rest]; exact hm)) (by rw [hmv.rest]) (by rw [hmv.rest]) (by rw [hmv.rest]; exact id)
  | own hd o a =>
    cases h
    rcases moveBuffer_cases hd o a { s with script := rest } with e | ⟨_, _, _, ⟨_, e⟩ | ⟨_, _, e⟩ | ⟨_, _, e⟩⟩ <;> rw [e] <;>
      exact .of_eq (.inl hm) rfl rfl id
  | reset => exact absurd rfl hr

/-! ### A signal the dispatcher holds -/

/-- No step but an `irq` event uses up a signal (R275). -/
theorem signals_kept {s t : State} {e : Event} {rest : List Event} (he : s.script = e :: rest) (h : step s = .next t)
    (hi : e ≠ .irq) : s.irqSignals ≤ t.irqSignals := by
  have keepT : ∀ k, Keeps (fun u => k ≤ u.irqSignals) txTurn :=
    fun k u v hu hv => by show k ≤ v.irqSignals; rw [(txMove_turn hv).rest]; exact hu
  have keepR : ∀ k, Keeps (fun u => k ≤ u.irqSignals) rxTurn :=
    fun k u v hu hv => by show k ≤ v.irqSignals; rw [(rxMove_turn hv).rest]; exact hu
  have keepI : ∀ k, Keeps (fun u => k ≤ u.irqSignals) initTurn :=
    fun k u v hu hv => by show k ≤ v.irqSignals; rw [(init_leaves hv).2.2]; exact hu
  have keepGT : ∀ k p, Keeps (fun u => k ≤ u.irqSignals) (grantTx p) :=
    fun k p u v hu hv => by show k ≤ v.irqSignals; rw [(txMove_grant hv).rest]; exact hu
  have keepGR : ∀ k src, Keeps (fun u => k ≤ u.irqSignals) (grantRx src) :=
    fun k src u v hu hv => by show k ≤ v.irqSignals; rw [(rxMove_grant hv).rest]; exact hu
  have issue : ∀ (p : Nat) (cw : Word) (a0 a1 : BitVec 64) (u : State),
      issueEvent p cw a0 a1 { s with script := rest } = .next u → s.irqSignals ≤ u.irqSignals := by
    intro p cw a0 a1 u hu
    rcases issueEvent_cases hu with ⟨rfl, _⟩ | ⟨q, hq, hout, ⟨why, hd, rfl⟩ | ⟨i, hd, ⟨h1, rfl⟩ | ⟨r, h1, rfl⟩ |
      ⟨h1, ⟨rfl, h2, h3, rfl⟩ | ⟨h2, rfl⟩⟩⟩⟩
    · exact le_refl _
    · unfold issueIllegal
      split <;> exact le_refl _
    all_goals exact le_refl _
  rw [step_event he] at h
  cases e with
  | issue p cw a0 a1 => exact issue p cw a0 a1 t h
  | call p cw a0 a1 =>
    rcases callEvent_eq h with h3 | ⟨i, u, hc, hd, hu, ht⟩
    · exact issue p cw a0 a1 t h3
    · have hle := issue p cw a0 a1 u hu
      cases i with
      | init => obtain ⟨b, ht⟩ := ht; exact Keeps.serveInit (keepI _) b u t hle ht
      | xmit len => exact Keeps.serveTx (keepGT _) (keepT _) p u t hle ht
      | intr => exact Keeps.serveRx (keepGR _) (keepR _) (.port p) u t hle ht
      | drain => exact Keeps.serveRx (keepGR _) (keepR _) (.port p) u t hle ht
  | grantTx q => exact keepGT s.irqSignals q { s with script := rest } t (le_refl _) h
  | grantRx src => exact keepGR s.irqSignals src { s with script := rest } t (le_refl _) h
  | tx => exact keepT s.irqSignals { s with script := rest } t (le_refl _) h
  | rx => exact keepR s.irqSignals { s with script := rest } t (le_refl _) h
  | init => exact keepI s.irqSignals { s with script := rest } t (le_refl _) h
  | irq => exact absurd rfl hi
  | serveIrq => exact Keeps.serveRx (keepGR _) (keepR _) .irq { s with script := rest } t (le_refl s.irqSignals) h
  | alloc ans => cases h; exact le_refl _
  | devTxDone at_ st cause => cases h; exact (devMove_txDone at_ st cause { s with script := rest }).signals
  | devRxFill at_ frame st => exact (devMove_rxFill h).signals
  | devByte r at_ off b => cases h; exact (devMove_byte r at_ off b { s with script := rest }).signals
  | devRxData at_ k b => exact (devMove_rxData h).signals
  | devRaise => cases h; exact (devMove_raise { s with script := rest }).signals
  | own hd o a =>
    cases h
    rcases moveBuffer_cases hd o a { s with script := rest } with e | ⟨_, _, _, ⟨_, e⟩ | ⟨_, _, e⟩ | ⟨_, _, e⟩⟩ <;> rw [e] <;>
      exact le_refl _
  | reset => cases h; exact le_refl _

end Sys2Proof.Machine
end

