-- ==== Sys2Proof/Laws/PerInstr.lean ====
section
/-! SUPPORT. Statements about every instruction as syntax, one lemma for each constructor: the family `TableRow` says that an instruction's word lies in its own row of opcode_table.json and in no other. -/

namespace Sys2Proof

/-- The value of an assembled word (R91). -/
theorem assemble_toNat (len : Len) (rsv : BitVec 12) (opc : BitVec 4) :
    (assemble len rsv opc).toNat = len.toNat * 65536 + rsv.toNat * 16 + opc.toNat := by
  have h1 := rsv.isLt
  have h2 := opc.isLt
  have e1 : len.toNat <<< 12 ||| rsv.toNat = len.toNat <<< 12 + rsv.toNat :=
    (Nat.shiftLeft_add_eq_or_of_lt h1 _).symm
  have e2 : (len.toNat <<< 12 + rsv.toNat) <<< 4 ||| opc.toNat = (len.toNat <<< 12 + rsv.toNat) <<< 4 + opc.toNat :=
    (Nat.shiftLeft_add_eq_or_of_lt h2 _).symm
  rw [assemble, BitVec.toNat_append, BitVec.toNat_append, e1, e2, Nat.shiftLeft_eq, Nat.shiftLeft_eq]
  omega

/-- The fields of an assembled word are those it was assembled from (R91). -/
theorem opcOf_assemble (len : Len) (rsv : BitVec 12) (opc : BitVec 4) : opcOf (assemble len rsv opc) = opc := by
  apply BitVec.eq_of_toNat_eq
  simp only [opcOf, BitVec.extractLsb'_toNat, assemble_toNat, Nat.shiftRight_zero]
  have := opc.isLt
  omega

theorem rsvOf_assemble (len : Len) (rsv : BitVec 12) (opc : BitVec 4) : rsvOf (assemble len rsv opc) = rsv := by
  apply BitVec.eq_of_toNat_eq
  simp only [rsvOf, BitVec.extractLsb'_toNat, assemble_toNat, Nat.shiftRight_eq_div_pow]
  have := opc.isLt
  have := rsv.isLt
  omega

theorem lenOf_assemble (len : Len) (rsv : BitVec 12) (opc : BitVec 4) : lenOf (assemble len rsv opc) = len := by
  apply BitVec.eq_of_toNat_eq
  simp only [lenOf, BitVec.extractLsb'_toNat, assemble_toNat, Nat.shiftRight_eq_div_pow]
  have := opc.isLt
  have := rsv.isLt
  have := len.isLt
  omega

/-- A word is assembled from its fields. -/
theorem assemble_fields (w : Word) : assemble (lenOf w) (rsvOf w) (opcOf w) = w := by
  apply BitVec.eq_of_toNat_eq
  rw [assemble_toNat]
  simp only [lenOf, rsvOf, opcOf, BitVec.extractLsb'_toNat, Nat.shiftRight_eq_div_pow]
  have := w.isLt
  omega

namespace Laws

/-- The word of a well-formed instruction lies in its own row and in no row of another mnemonic. -/
def TableRow.Statement (i : Instr) : Prop :=
  i.wf = true → ∀ r ∈ opcodeRows, r.hasWord (encode i) = decide (r.mnemonic = i.mnemonic)

theorem TableRow.init : TableRow.Statement .init := fun _ => by decide

theorem TableRow.intr : TableRow.Statement .intr := fun _ => by decide

theorem TableRow.drain : TableRow.Statement .drain := fun _ => by decide

theorem TableRow.xmit (len : Nat) : TableRow.Statement (.xmit len) := by
  intro _
  have h1 : encode (.xmit len) &&& 0x0000FFFF = 2 := by
    apply BitVec.eq_of_toNat_eq
    rw [BitVec.toNat_and, encode, assemble_toNat]
    rw [show (0x0000FFFF : Word).toNat = 2 ^ 16 - 1 from rfl, Nat.and_two_pow_sub_one_eq_mod]
    rw [show (0 : BitVec 12).toNat = 0 from rfl, show (2 : BitVec 4).toNat = 2 from rfl,
      show (2 : Word).toNat = 2 from rfl]
    omega
  have h2 : ∀ p : Word, opcOf p ≠ 2 → ¬ encode (.xmit len) &&& 0xFFFFFFFF = p := by
    intro p hp he
    apply hp
    rw [← he, show (0xFFFFFFFF : Word) = BitVec.allOnes 32 from rfl, BitVec.and_allOnes, encode, opcOf_assemble]
  intro r hr
  simp only [opcodeRows, List.mem_cons, List.not_mem_nil, or_false] at hr
  rcases hr with rfl | rfl | rfl | rfl
  · simp [OpcodeRow.hasWord, Instr.mnemonic]; exact h2 1 (by decide)
  · simp [OpcodeRow.hasWord, Instr.mnemonic]; exact h1
  · simp [OpcodeRow.hasWord, Instr.mnemonic]; exact h2 3 (by decide)
  · simp [OpcodeRow.hasWord, Instr.mnemonic]; exact h2 4 (by decide)

end Laws
end Sys2Proof
end

