-- ==== Sys2Proof/Laws/Runs.lean ====
section
/-! SUPPORT. What an uninterrupted run of one command comes to: the micro-steps of XMIT and of one round of the drain, composed once (41_tx_ring_scheduler.md R151, 42_rx_ring_drainer.md R171, R181). -/

namespace Sys2Proof.Machine

/-! ### Ports -/

theorem modify_modify (p : Nat) (f g : Port → Port) (l : List Port) :
    (l.modify p f).modify p g = l.modify p (g ∘ f) := by
  apply List.ext_getElem?
  intro j
  simp only [List.getElem?_modify]
  by_cases h : p = j
  · simp [h]; rfl
  · simp [h]

/-- A running command's answer (R240). -/
theorem answered_running (p : Nat) (r : Reason) (s : State) :
    (runningPorts p s).modify p (fun q => { q with rv := r.rv, rc := r.code, outstanding := false }) =
      answeredPorts p r s := by
  unfold runningPorts answeredPorts; rw [modify_modify]; rfl

/-! ### One micro-step of a run -/

theorem runTx_step {s t : State} {k : Nat} (hp : s.tx.pc ≠ .idle) (hm : s.mode ≠ .fatal) (h : txStep s = .next t) :
    runTx (k + 1) s = runTx k t := by
  rw [runTx, if_neg hp, txTurn, if_neg hm, h]; rfl

theorem runTx_idle {s : State} {k : Nat} (hp : s.tx.pc = .idle) : runTx k s = .next s := by
  cases k <;> simp [runTx, hp]

theorem runRx_step {s t : State} {k : Nat} (hp : s.rx.pc ≠ .idle) (hm : s.mode ≠ .fatal) (h : rxStep s = .next t) :
    runRx (k + 1) s = runRx k t := by
  rw [runRx, if_neg (by rintro (h | h); exact hp h; exact hm h), rxTurn, if_neg hm, h]; rfl

theorem runRx_halt {s : State} {k : Nat} (hp : s.rx.pc = .idle ∨ s.mode = .fatal) : runRx k s = .next s := by
  cases k <;> simp [runRx, hp]

theorem runInit_step {s t : State} {k : Nat} (hp : s.ini.pc ≠ .idle) (hm : s.mode ≠ .fatal) (h : initStep s = .next t) :
    runInit (k + 1) s = runInit k t := by
  rw [runInit, if_neg (by rintro (h | h); exact hp h; exact hm h), initTurn, if_neg hm, h]; rfl

theorem runInit_halt {s : State} {k : Nat} (hp : s.ini.pc = .idle ∨ s.mode = .fatal) : runInit k s = .next s := by
  cases k <;> simp [runInit, hp]

/-! ### XMIT from its grant to its answer -/

/-- The state in which an accepted XMIT has taken `tx_lock` (R231, R234). -/
def xmitStart (len : Nat) (q : Port) (s : State) : State :=
  { s with ports := runningPorts s.sel s
           tx := { s.tx with pc := .x2, p := s.sel, h := q.a0, a := q.a1, n := BitVec.ofNat 16 len }
           txLock := .held (.port s.sel) }

/-- An accepted XMIT that finds the lock free runs from `X2` on. -/
theorem execXmit_start {s : State} {q : Port} {len : Nat} (hq : s.ports[s.sel]? = some q) (hm : s.mode = .ready) (ha : q.a0 ≠ 0)
    (hl : s.txLock = .free) : exec (.xmit len) s = runTx 10 (xmitStart len q s) := by
  show andThen (issueCommand _ _ s) _ = _
  unfold issueCommand
  rw [hq]; dsimp only
  rw [show decideOn s.mode (.xmit len) q.a0 = .accept by rw [hm]; exact if_neg ha]; dsimp only
  unfold queueStart
  rw [andThen_next]
  have hport : (queueCommand s.sel (.xmit len) q.a0 q.a1 (raiseRequest s.sel s)).ports[s.sel]? =
    some { q with outstanding := true, waiting := some ⟨.xmit len, q.a0, q.a1⟩ } := by
    unfold queueCommand raiseRequest
    rw [updatePort_getElem, updatePort_getElem]; simp [hq]
  have hw : txWaiter (queueCommand s.sel (.xmit len) q.a0 q.a1 (raiseRequest s.sel s)) s.sel = some (len, q.a0, q.a1) := by
    unfold txWaiter waitingAt
    rw [hport]
    rw [show (queueCommand s.sel (.xmit len) q.a0 q.a1 (raiseRequest s.sel s)).mode = .ready from hm,
       show (queueCommand s.sel (.xmit len) q.a0 q.a1 (raiseRequest s.sel s)).txLock = .free from hl]
  show serveTx s.sel (queueCommand s.sel (.xmit len) q.a0 q.a1 (raiseRequest s.sel s)) = _
  unfold serveTx; rw [hw]; dsimp only
  unfold grantTx; rw [hw]; dsimp only
  have : txStep (loadTx s.sel q.a0 q.a1 (BitVec.ofNat 16 len) (unqueue s.sel (queueCommand s.sel (.xmit len) q.a0 q.a1 (raiseRequest s.sel s)))) = .next (xmitStart len q s) := by
    unfold txStep
    show stepX1 _ = _
    unfold stepX1
    rw [show (loadTx s.sel q.a0 q.a1 (BitVec.ofNat 16 len) (unqueue s.sel (queueCommand s.sel (.xmit len) q.a0 q.a1 (raiseRequest s.sel s)))).txLock = .free from hl]
    dsimp only
    unfold goTx holdTx loadTx unqueue queueCommand raiseRequest updatePort xmitStart runningPorts
    simp only [modify_modify]
    rfl
  rw [this]; rfl

/-- The states of a sending XMIT from `X4` on, with what changes named. -/
def sending (s : State) (q : Port) (len : Nat) (b : Byte) (pc : TxPc) (mem : Memory) (sh : List Handle) (ow : List (Nat × Owner)) (ar : List (Nat × Addr)) (dev : Device) (tr : List Act) : State :=
  { s with
    ports := runningPorts s.sel s
    tx := { pc := pc, p := s.sel, h := q.a0, a := q.a1, n := BitVec.ofNat 16 len, i := s.dev.regs.tdt.toNat % s.cfg.n, s := b }
    txLock := .held (.port s.sel)
    mem := mem, txShadow := sh, owner := ow, areas := ar, dev := dev, trace := tr }

/-- The slot an XMIT in this state selects (R124). -/
def xmitSlot (s : State) : Nat := s.dev.regs.tdt.toNat % s.cfg.n

/-- Memory after `X5a` to `X5d` (R156). -/
def sentMem (s : State) (q : Port) (len : Nat) (b : Byte) : Memory :=
  writeBytes (writeBytes (writeBytes (writeBytes s.mem (field s.cfg .tx (xmitSlot s) 0) 8 q.a1.toNat) (field s.cfg .tx (xmitSlot s) 8) 2 (BitVec.ofNat 16 len).toNat) (field s.cfg .tx (xmitSlot s) 11) 1 (cmdXmit s.cfg).toNat) (field s.cfg .tx (xmitSlot s) 12) 1 (clearDD b).toNat

/-- Ghost owners after `X4` and `X6` (R155, R157). -/
def sentOwner (s : State) (q : Port) : List (Nat × Owner) :=
  store q.a0.toNat (.txSlot (xmitSlot s)) (if txShadowAt s (xmitSlot s) = 0 then s.owner else drop (txShadowAt s (xmitSlot s)).toNat s.owner)

/-- The live areas after `X4` (R155, R271). -/
def sentAreas (s : State) : List (Nat × Addr) :=
  if txShadowAt s (xmitSlot s) = 0 then s.areas else drop (txShadowAt s (xmitSlot s)).toNat s.areas

/-- The accesses of a sending XMIT, last first. -/
def sentTrace (s : State) (q : Port) (len : Nat) (b : Byte) : List Act :=
      .regWrite .tdt (regAddr s .tdt) (BitVec.ofNat 32 ((s.dev.regs.tdt.toNat % s.cfg.n + 1) % s.cfg.n)) ::
      .memWrite (field s.cfg .tx (xmitSlot s) 12) 1 (clearDD b).toNat ::
      .memWrite (field s.cfg .tx (xmitSlot s) 11) 1 (cmdXmit s.cfg).toNat ::
      .memWrite (field s.cfg .tx (xmitSlot s) 8) 2 (BitVec.ofNat 16 len).toNat ::
      .memWrite (field s.cfg .tx (xmitSlot s) 0) 8 q.a1.toNat ::
      ((if txShadowAt s (xmitSlot s) = 0 then []
        else [.bufFree (txShadowAt s (xmitSlot s))]) ++
      .memRead (field s.cfg .tx (xmitSlot s) 12) 1 b.toNat ::
      .regRead .tdt (regAddr s .tdt) s.dev.regs.tdt :: s.trace)

/-- `tx_shadow` after `X4` and `X6`. -/
def sentShadow (s : State) (q : Port) : List Handle :=
  (if txShadowAt s (xmitSlot s) = 0 then s.txShadow else s.txShadow.set (xmitSlot s) 0).set (xmitSlot s) q.a0

/-- The state a sending XMIT ends in. -/
def sent (s : State) (q : Port) (len : Nat) (b : Byte) : State :=
  { s with
    ports := answeredPorts s.sel .ok s
    tx := { pc := .idle, p := s.sel, h := q.a0, a := q.a1, n := BitVec.ofNat 16 len, i := xmitSlot s, s := b }
    mem := sentMem s q len b
    txShadow := sentShadow s q
    owner := sentOwner s q
    areas := sentAreas s
    dev := { s.dev with regs := { s.dev.regs with tdt := BitVec.ofNat 32 ((s.dev.regs.tdt.toNat % s.cfg.n + 1) % s.cfg.n) } }
    trace := sentTrace s q len b }

/-- `X4` to `X8`. -/
theorem runTx_sent {s : State} {q : Port} {len : Nat} {b : Byte} (hm : s.mode ≠ .fatal) (hl : s.txLock = .free) :
   runTx 8 (sending s q len b .x4 s.mem s.txShadow s.owner s.areas s.dev (.memRead (field s.cfg .tx (xmitSlot s) 12) 1 b.toNat ::
      .regRead .tdt (regAddr s .tdt) s.dev.regs.tdt :: s.trace)) = .next (sent s q len b) := by
  have h4 : txStep (sending s q len b .x4 s.mem s.txShadow s.owner s.areas s.dev (.memRead (field s.cfg .tx (xmitSlot s) 12) 1 b.toNat ::
      .regRead .tdt (regAddr s .tdt) s.dev.regs.tdt :: s.trace)) = .next (sending s q len b .x5a s.mem 
        (if txShadowAt s (xmitSlot s) = 0 then s.txShadow else s.txShadow.set (xmitSlot s) 0)
        (if txShadowAt s (xmitSlot s) = 0 then s.owner else drop (txShadowAt s (xmitSlot s)).toNat s.owner)
        (if txShadowAt s (xmitSlot s) = 0 then s.areas else drop (txShadowAt s (xmitSlot s)).toNat s.areas) s.dev
        ((if txShadowAt s (xmitSlot s) = 0 then []
        else [.bufFree (txShadowAt s (xmitSlot s))]) ++
      .memRead (field s.cfg .tx (xmitSlot s) 12) 1 b.toNat ::
      .regRead .tdt (regAddr s .tdt) s.dev.regs.tdt :: s.trace)) := by
    show stepX4 _ = _
    unfold stepX4
    by_cases h : txShadowAt s (xmitSlot s) = 0
    · rw [if_pos (by exact h)]; simp only [h, if_true]; rfl
    · rw [if_neg (by exact h)]; simp only [h, if_false]; rfl
  rw [runTx_step (by show TxPc.x4 ≠ .idle; decide) (by exact hm) h4]
  unfold sent sentMem sentTrace sentShadow sentOwner sentAreas
  generalize (if txShadowAt s (xmitSlot s) = 0 then s.txShadow else s.txShadow.set (xmitSlot s) 0) = sh
  generalize (if txShadowAt s (xmitSlot s) = 0 then s.owner else drop (txShadowAt s (xmitSlot s)).toNat s.owner) = ow
  generalize (if txShadowAt s (xmitSlot s) = 0 then s.areas else drop (txShadowAt s (xmitSlot s)).toNat s.areas) = ar
  generalize (((if txShadowAt s (xmitSlot s) = 0 then []
        else [.bufFree (txShadowAt s (xmitSlot s))]) ++
      .memRead (field s.cfg .tx (xmitSlot s) 12) 1 b.toNat ::
      .regRead .tdt (regAddr s .tdt) s.dev.regs.tdt :: s.trace) : List Act) = tr
  have a1 : ∀ m tr, runTx 7 (sending s q len b .x5a m sh ow ar s.dev tr) = runTx 6 (sending s q len b .x5b (writeBytes m (field s.cfg .tx (xmitSlot s) 0) 8 q.a1.toNat) sh ow ar s.dev (.memWrite (field s.cfg .tx (xmitSlot s) 0) 8 q.a1.toNat :: tr)) := by
    intro m tr; exact runTx_step (by show TxPc.x5a ≠ .idle; decide) (by exact hm) rfl
  have a2 : ∀ m tr, runTx 6 (sending s q len b .x5b m sh ow ar s.dev tr) = runTx 5 (sending s q len b .x5c (writeBytes m (field s.cfg .tx (xmitSlot s) 8) 2 (BitVec.ofNat 16 len).toNat) sh ow ar s.dev (.memWrite (field s.cfg .tx (xmitSlot s) 8) 2 (BitVec.ofNat 16 len).toNat :: tr)) := by
    intro m tr; exact runTx_step (by show TxPc.x5b ≠ .idle; decide) (by exact hm) rfl
  have a3 : ∀ m tr, runTx 5 (sending s q len b .x5c m sh ow ar s.dev tr) = runTx 4 (sending s q len b .x5d (writeBytes m (field s.cfg .tx (xmitSlot s) 11) 1 (cmdXmit s.cfg).toNat) sh ow ar s.dev (.memWrite (field s.cfg .tx (xmitSlot s) 11) 1 (cmdXmit s.cfg).toNat :: tr)) := by
    intro m tr; exact runTx_step (by show TxPc.x5c ≠ .idle; decide) (by exact hm) rfl
  have a4 : ∀ m tr, runTx 4 (sending s q len b .x5d m sh ow ar s.dev tr) = runTx 3 (sending s q len b .x6 (writeBytes m (field s.cfg .tx (xmitSlot s) 12) 1 (clearDD b).toNat) sh ow ar s.dev (.memWrite (field s.cfg .tx (xmitSlot s) 12) 1 (clearDD b).toNat :: tr)) := by
    intro m tr; exact runTx_step (by show TxPc.x5d ≠ .idle; decide) (by exact hm) rfl
  have a5 : ∀ m tr, runTx 3 (sending s q len b .x6 m sh ow ar s.dev tr) = runTx 2 (sending s q len b .x7 m (sh.set (xmitSlot s) q.a0) (store q.a0.toNat (.txSlot (xmitSlot s)) ow) ar s.dev tr) := by
    intro m tr; exact runTx_step (by show TxPc.x6 ≠ .idle; decide) (by exact hm) rfl
  have a6 : ∀ m sh ow tr, runTx 2 (sending s q len b .x7 m sh ow ar s.dev tr) = runTx 1 (sending s q len b .x8 m sh ow ar { s.dev with regs := { s.dev.regs with tdt := BitVec.ofNat 32 ((xmitSlot s + 1) % s.cfg.n) } } (.regWrite .tdt (regAddr s .tdt) (BitVec.ofNat 32 ((xmitSlot s + 1) % s.cfg.n)) :: tr)) := by
    intro m sh ow tr; exact runTx_step (by show TxPc.x7 ≠ .idle; decide) (by exact hm) rfl
  have a7 : ∀ m sh ow d tr, runTx 1 (sending s q len b .x8 m sh ow ar d tr) = .next { s with
    ports := answeredPorts s.sel .ok s
    tx := { pc := .idle, p := s.sel, h := q.a0, a := q.a1, n := BitVec.ofNat 16 len, i := xmitSlot s, s := b }
    mem := m
    txShadow := sh
    owner := ow
    areas := ar
    dev := d
    trace := tr } := by
    intro m sh ow d tr
    rw [runTx_step (t := { s with
    ports := answeredPorts s.sel .ok s
    tx := { pc := .idle, p := s.sel, h := q.a0, a := q.a1, n := BitVec.ofNat 16 len, i := xmitSlot s, s := b }
    mem := m
    txShadow := sh
    owner := ow
    areas := ar
    dev := d
    trace := tr }) (by show TxPc.x8 ≠ .idle; decide) (by exact hm)]
    · rfl
    · rw [← answered_running, hl]
      rfl
  rw [a1, a2, a3, a4, a5, a6, a7]
  rfl

/-! ### DRAIN and INTR -/

/-- The state in which an accepted DRAIN or INTR has taken `rx_lock` (R231, R234). -/
def rxStart (kind : RxKind) (s : State) : State :=
  { s with ports := runningPorts s.sel s
           rx := { s.rx with pc := (match kind with | .drain => .d1 | .intr => .i2), src := .port s.sel, kind := kind }
           rxLock := .held (.port s.sel) }

/-- Which of the two RX commands (R24). -/
def kindOf : Instr → RxKind
  | .intr => .intr
  | _ => .drain

/-- An accepted DRAIN or INTR that finds the lock free runs from its first micro-step after the grant. -/
theorem exec_rx {s : State} {q : Port} {i : Instr} (hi : i = .drain ∨ i = .intr) (hq : s.ports[s.sel]? = some q) (hm : s.mode = .ready)
    (hl : s.rxLock = .free) : exec i s = runRx (rxFuel s.cfg) (rxStart (kindOf i) s) := by
  have key : ∀ j, j = .drain ∨ j = .intr → andThen (issueCommand j (queueStart j) s) (serveRx (.port s.sel)) = runRx (rxFuel s.cfg) (rxStart (kindOf j) s) := by
    intro j hj
    unfold issueCommand
    rw [hq]; dsimp only
    rw [show decideOn s.mode j q.a0 = .accept by rw [hm]; rcases hj with rfl | rfl <;> rfl]; dsimp only
    unfold queueStart
    rw [andThen_next]
    have hport : (queueCommand s.sel j q.a0 q.a1 (raiseRequest s.sel s)).ports[s.sel]? =
      some { q with outstanding := true, waiting := some ⟨j, q.a0, q.a1⟩ } := by
      unfold queueCommand raiseRequest
      rw [updatePort_getElem, updatePort_getElem]; simp [hq]
    have hw : rxWaiter (queueCommand s.sel j q.a0 q.a1 (raiseRequest s.sel s)) (.port s.sel) = some (kindOf j) := by
      have hwa : waitingAt (queueCommand s.sel j q.a0 q.a1 (raiseRequest s.sel s)) s.sel = some ⟨j, q.a0, q.a1⟩ := by
        unfold waitingAt; rw [hport]
      unfold rxWaiter rxRequest
      dsimp only
      rw [hwa]
      rw [show (queueCommand s.sel j q.a0 q.a1 (raiseRequest s.sel s)).mode = .ready from hm,
         show (queueCommand s.sel j q.a0 q.a1 (raiseRequest s.sel s)).rxLock = .free from hl]
      rcases hj with rfl | rfl <;> rfl
    show serveRx (.port s.sel) (queueCommand s.sel j q.a0 q.a1 (raiseRequest s.sel s)) = _
    unfold serveRx; rw [hw]; dsimp only
    unfold grantRx; rw [hw]; dsimp only
    have : rxStep (loadRx (.port s.sel) (kindOf j) (unqueueSource (.port s.sel) (queueCommand s.sel j q.a0 q.a1 (raiseRequest s.sel s)))) = .next (rxStart (kindOf j) s) := by
      rcases hj with rfl | rfl
      · show stepD0 _ = _
        rw [stepD0_eq (by exact hl)]
        unfold goRx holdRx loadRx unqueueSource unqueue queueCommand raiseRequest updatePort rxStart runningPorts
        simp only [modify_modify]
        rfl
      · show stepI1 _ = _
        rw [stepI1_eq (by exact hl) (fun h => by cases h)]
        unfold afterI1 goRx holdRx loadRx unqueueSource unqueue queueCommand raiseRequest updatePort rxStart runningPorts
        simp only [modify_modify]
        rfl
    rw [this]; rfl
  rcases hi with rfl | rfl
  · exact key _ (.inl rfl)
  · exact key _ (.inr rfl)

/-- The failing test that ends a drain: `D1`, `D2`, `DX` (R174, R180). -/
theorem runRx_empty {u : State} {b : Byte} {k : Nat} (hm : u.mode ≠ .fatal) (hp : u.rx.pc = .d1)
   (hb : statusAt u .rx (rxSlotOf u.cfg u.dev.regs.rdt) = some b) (hd : dd b = false) :
   runRx (k+3) u = .next (goRx .idle (respond u.rx.src .ok (freeRx 
      { u with rx := { u.rx with i := rxSlotOf u.cfg u.dev.regs.rdt, s := b, pc := .dx }
               trace := Act.memRead (field u.cfg .rx (rxSlotOf u.cfg u.dev.regs.rdt) 12) 1 b.toNat :: Act.regRead .rdt (regAddr u .rdt) u.dev.regs.rdt :: u.trace }))) := by
  rw [runRx_step (t := afterD1 u) (by rw [hp]; decide) hm (by unfold rxStep; rw [hp]; rfl)]
  rw [runRx_step (t := afterD2 b (afterD1 u)) (by show RxPc.d2 ≠ .idle; decide) (by exact hm) (by show stepD2 (afterD1 u) = _; exact stepD2_eq (s := afterD1 u) hb)]
  have h2 : (afterD2 b (afterD1 u)) = { u with rx := { u.rx with i := rxSlotOf u.cfg u.dev.regs.rdt, s := b, pc := .dx }
                                               trace := Act.memRead (field u.cfg .rx (rxSlotOf u.cfg u.dev.regs.rdt) 12) 1 b.toNat :: Act.regRead .rdt (regAddr u .rdt) u.dev.regs.rdt :: u.trace } := by
    unfold afterD2; simp only [hd]; rfl
  rw [h2]
  rw [runRx_step (by show RxPc.dx ≠ .idle; decide) (by exact hm) rfl]
  exact runRx_halt (.inl rfl)

/-- A malformed slot ends a drain: `D1`, `D2`, `D3a`, `DX` (R175). -/
theorem runRx_malformed {u : State} {b : Byte} {k : Nat} (hm : u.mode ≠ .fatal) (hp : u.rx.pc = .d1)
   (hb : statusAt u .rx (rxSlotOf u.cfg u.dev.regs.rdt) = some b) (hd : dd b = true) (hz : rxShadowAt u (rxSlotOf u.cfg u.dev.regs.rdt) = 0) :
   runRx (k+4) u = .next (goRx .idle (respond u.rx.src .ok (freeRx 
      { u with rx := { u.rx with i := rxSlotOf u.cfg u.dev.regs.rdt, s := b, pc := .dx }
               trace := Act.memRead (field u.cfg .rx (rxSlotOf u.cfg u.dev.regs.rdt) 12) 1 b.toNat :: Act.regRead .rdt (regAddr u .rdt) u.dev.regs.rdt :: u.trace }))) := by
  rw [runRx_step (t := afterD1 u) (by rw [hp]; decide) hm (by unfold rxStep; rw [hp]; rfl)]
  rw [runRx_step (t := afterD2 b (afterD1 u)) (by show RxPc.d2 ≠ .idle; decide) (by exact hm) (by show stepD2 (afterD1 u) = _; exact stepD2_eq (s := afterD1 u) hb)]
  have h2 : (afterD2 b (afterD1 u)) = { u with rx := { u.rx with i := rxSlotOf u.cfg u.dev.regs.rdt, s := b, pc := .d3a }
                                               trace := Act.memRead (field u.cfg .rx (rxSlotOf u.cfg u.dev.regs.rdt) 12) 1 b.toNat :: Act.regRead .rdt (regAddr u .rdt) u.dev.regs.rdt :: u.trace } := by
    unfold afterD2; simp only [hd]; rfl
  rw [h2]
  rw [runRx_step (t := { u with rx := { u.rx with i := rxSlotOf u.cfg u.dev.regs.rdt, s := b, pc := .dx }
                                trace := Act.memRead (field u.cfg .rx (rxSlotOf u.cfg u.dev.regs.rdt) 12) 1 b.toNat :: Act.regRead .rdt (regAddr u .rdt) u.dev.regs.rdt :: u.trace }) (by show RxPc.d3a ≠ .idle; decide) (by exact hm) (by
      show stepD3a _ = _
      unfold stepD3a; rw [if_pos (by exact hz)]; rfl)]
  rw [runRx_step (by show RxPc.dx ≠ .idle; decide) (by exact hm) rfl]
  exact runRx_halt (.inl rfl)

/-- A round up to its allocation: `D1` to `D4` (R173 to R176). -/
def toAlloc (u : State) (b : Byte) (v : Nat) : State :=
  let i := rxSlotOf u.cfg u.dev.regs.rdt
  let old := rxShadowAt u i
  { u with
    rx := { u.rx with pc := .d5, i := i, s := b, b := old, l := BitVec.ofNat 16 v }
    rxShadow := u.rxShadow.set i 0
    owner := store old.toNat .ingress (store old.toNat .engine u.owner)
    bufLen := store old.toNat (BitVec.ofNat 16 v) u.bufLen
    trace := Act.netRx old :: Act.bufSetLen old (BitVec.ofNat 16 v) :: Act.memRead (field u.cfg .rx i 8) 2 v :: Act.memRead (field u.cfg .rx i 12) 1 b.toNat :: Act.regRead .rdt (regAddr u .rdt) u.dev.regs.rdt :: u.trace }

/-- The state at `D3b`, the old buffer taken out of the shadow. -/
def taken (u : State) (b : Byte) : State :=
  { u with
    rx := { u.rx with i := rxSlotOf u.cfg u.dev.regs.rdt, s := b, b := rxShadowAt u (rxSlotOf u.cfg u.dev.regs.rdt), pc := .d3b }
    rxShadow := u.rxShadow.set (rxSlotOf u.cfg u.dev.regs.rdt) 0
    owner := store (rxShadowAt u (rxSlotOf u.cfg u.dev.regs.rdt)).toNat .engine u.owner
    trace := Act.memRead (field u.cfg .rx (rxSlotOf u.cfg u.dev.regs.rdt) 12) 1 b.toNat ::
      Act.regRead .rdt (regAddr u .rdt) u.dev.regs.rdt :: u.trace }

/-- The state at `D5`, from the one at `D3b`: length read and set, the buffer handed on. -/
def handed (u : State) (v : Nat) : State :=
  { u with
    rx := { u.rx with l := BitVec.ofNat 16 v, pc := .d5 }
    owner := store u.rx.b.toNat .ingress u.owner
    bufLen := store u.rx.b.toNat (BitVec.ofNat 16 v) u.bufLen
    trace := Act.netRx u.rx.b :: Act.bufSetLen u.rx.b (BitVec.ofNat 16 v) ::
      Act.memRead (field u.cfg .rx u.rx.i 8) 2 v :: u.trace }

theorem afterD2_done {u : State} {b : Byte} (hd : dd b = true) :
    afterD2 b u = { u with rx := { u.rx with s := b, pc := .d3a }
                           trace := Act.memRead (field u.cfg .rx u.rx.i 12) 1 b.toNat :: u.trace } := by
  unfold afterD2
  rw [if_pos hd]
  rfl

/-- `D1` to `D3a` on a filled slot. -/
theorem runRx_taken {u : State} {b : Byte} {k : Nat} (hm : u.mode ≠ .fatal) (hp : u.rx.pc = .d1)
    (hb : statusAt u .rx (rxSlotOf u.cfg u.dev.regs.rdt) = some b) (hd : dd b = true)
    (hz : rxShadowAt u (rxSlotOf u.cfg u.dev.regs.rdt) ≠ 0) : runRx (k+3) u = runRx k (taken u b) := by
  rw [runRx_step (t := afterD1 u) (by rw [hp]; decide) hm (by unfold rxStep; rw [hp]; rfl)]
  rw [runRx_step (t := afterD2 b (afterD1 u)) (by show RxPc.d2 ≠ .idle; decide) (by exact hm)
    (by show stepD2 (afterD1 u) = _; exact stepD2_eq (s := afterD1 u) hb)]
  rw [afterD2_done hd]
  rw [runRx_step (t := taken u b) (by show RxPc.d3a ≠ .idle; decide) (by exact hm) (by
    show stepD3a _ = _
    unfold stepD3a
    rw [if_neg (by exact hz)]
    rfl)]

theorem afterD3b_eq {u : State} {v : Nat} : afterD3b v u = { u with
    rx := { u.rx with l := BitVec.ofNat 16 v, pc := .d3c }
    trace := Act.memRead (field u.cfg .rx u.rx.i 8) 2 v :: u.trace } := rfl

theorem rxStep_d3c {u : State} {l : Len} (hp : u.rx.pc = .d3c) (hl : u.rx.l = l): rxStep u = .next { u with
    rx := { u.rx with pc := .d4 }
    bufLen := store u.rx.b.toNat l u.bufLen
    trace := Act.bufSetLen u.rx.b l :: u.trace } := by
  unfold rxStep; rw [hp]; subst hl; rfl

theorem rxStep_d4 {u : State} (hp : u.rx.pc = .d4) : rxStep u = .next { u with
    rx := { u.rx with pc := .d5 }
    owner := store u.rx.b.toNat .ingress u.owner
    trace := Act.netRx u.rx.b :: u.trace } := by
  unfold rxStep; rw [hp]; rfl

/-- `D3b` to `D4`. -/
theorem runRx_handed {u : State} {v k : Nat} (hm : u.mode ≠ .fatal) (hp : u.rx.pc = .d3b)
    (hv : readBytes u.mem (field u.cfg .rx u.rx.i 8) 2 = some v) : runRx (k+3) u = runRx k (handed u v) := by
  rw [runRx_step (t := afterD3b v u) (by rw [hp]; decide) hm (by unfold rxStep; rw [hp]; exact stepD3b_eq hv), afterD3b_eq]
  rw [runRx_step (by show RxPc.d3c ≠ .idle; decide) (by exact hm) (rxStep_d3c rfl rfl)]
  rw [runRx_step (by show RxPc.d4 ≠ .idle; decide) (by exact hm) (rxStep_d4 rfl)]
  rfl

theorem runRx_toAlloc {u : State} {b : Byte} {v k : Nat} (hm : u.mode ≠ .fatal) (hp : u.rx.pc = .d1)
    (hb : statusAt u .rx (rxSlotOf u.cfg u.dev.regs.rdt) = some b) (hd : dd b = true)
    (hz : rxShadowAt u (rxSlotOf u.cfg u.dev.regs.rdt) ≠ 0)
    (hv : readBytes u.mem (field u.cfg .rx (rxSlotOf u.cfg u.dev.regs.rdt) 8) 2 = some v) :
    runRx (k+6) u = runRx k (toAlloc u b v) := by
  rw [runRx_taken (k := k + 3) hm hp hb hd hz, runRx_handed (u := taken u b) hm rfl hv]
  rfl

/-- The status byte of a slot the block owns. -/
theorem owns_status {s : State} {r i} (hb : blockOwns s r i = true) : ∃ b, statusAt s r i = some b ∧ dd b = true := by
  unfold blockOwns at hb
  cases hst : statusAt s r i with
  | none => rw [hst] at hb; cases hb
  | some b => rw [hst] at hb; exact ⟨b, rfl, hb⟩

/-- The owner read from a table with one entry stored. -/
theorem ownerOf_store (l : List (Nat × Owner)) (h : Handle) (o : Owner) (s : State) (x : Handle) (hs : s.owner = store h.toNat o l) :
   ownerOf s x = if x = h then o else (lookup x.toNat l).getD .pool := by
  unfold ownerOf; rw [hs, lookup_store]
  by_cases hx : x = h
  · subst hx; simp
  · have : x.toNat ≠ h.toNat := fun he => hx (BitVec.eq_of_toNat_eq he)
    simp [hx, this]

/-- A round from its allocation on: `D5` to `D7` (R177, R179). -/
def refilled (u : State) (h : Handle) (a : Addr) (rest : List AllocAnswer) : State :=
  { u with
    rx := { u.rx with pc := .d1, nh := h, na := a }
    rxShadow := u.rxShadow.set u.rx.i h
    owner := store h.toNat (.rxSlot u.rx.i) (store h.toNat .engine u.owner)
    areas := store h.toNat a u.areas
    allocs := rest
    mem := writeBytes (writeBytes (writeBytes u.mem (field u.cfg .rx u.rx.i 0) 8 a.toNat) (field u.cfg .rx u.rx.i 8) 2 0) (field u.cfg .rx u.rx.i 12) 1 0
    dev := { u.dev with regs := { u.dev.regs with rdt := indexWord u.rx.i } }
    trace := Act.regWrite .rdt (regAddr u .rdt) (indexWord u.rx.i) :: Act.memWrite (field u.cfg .rx u.rx.i 12) 1 0 :: Act.memWrite (field u.cfg .rx u.rx.i 8) 2 0 :: Act.memWrite (field u.cfg .rx u.rx.i 0) 8 a.toNat :: Act.bufAlloc (some (h, a)) :: u.trace }

theorem runRx_refill {u : State} {h : Handle} {a : Addr} {rest : List AllocAnswer} {k : Nat} (hm : u.mode ≠ .fatal) (hp : u.rx.pc = .d5)
   (ha : u.allocs = some (h, a) :: rest) (hf : freshBuffer u h a) :
   runRx (k+6) u = runRx k (refilled u h a rest) := by
  have e5 : rxStep u = .next (afterD5 h a rest u) := by
    unfold rxStep; rw [hp]; show stepD5 u = _
    unfold stepD5 bufAlloc; rw [ha]; dsimp only; rw [if_pos hf]; rfl
  rw [runRx_step (by rw [hp]; decide) hm e5]
  rw [afterD5_eq]
  have a1 : ∀ m tr, runRx (k+5) { u with rx := { u.rx with pc := .d6a, nh := h, na := a }, mem := m, owner := store h.toNat .engine u.owner, areas := store h.toNat a u.areas, allocs := rest, trace := tr } =
     runRx (k+4) { u with rx := { u.rx with pc := .d6b, nh := h, na := a }, mem := writeBytes m (field u.cfg .rx u.rx.i 0) 8 a.toNat, owner := store h.toNat .engine u.owner, areas := store h.toNat a u.areas, allocs := rest, trace := Act.memWrite (field u.cfg .rx u.rx.i 0) 8 a.toNat :: tr } := by
    intro m tr; exact runRx_step (by show RxPc.d6a ≠ .idle; decide) hm rfl
  have a2 : ∀ m tr, runRx (k+4) { u with rx := { u.rx with pc := .d6b, nh := h, na := a }, mem := m, owner := store h.toNat .engine u.owner, areas := store h.toNat a u.areas, allocs := rest, trace := tr } =
     runRx (k+3) { u with rx := { u.rx with pc := .d6c, nh := h, na := a }, mem := writeBytes m (field u.cfg .rx u.rx.i 8) 2 0, owner := store h.toNat .engine u.owner, areas := store h.toNat a u.areas, allocs := rest, trace := Act.memWrite (field u.cfg .rx u.rx.i 8) 2 0 :: tr } := by
    intro m tr; exact runRx_step (by show RxPc.d6b ≠ .idle; decide) hm rfl
  have a3 : ∀ m tr, runRx (k+3) { u with rx := { u.rx with pc := .d6c, nh := h, na := a }, mem := m, owner := store h.toNat .engine u.owner, areas := store h.toNat a u.areas, allocs := rest, trace := tr } =
     runRx (k+2) { u with rx := { u.rx with pc := .d6d, nh := h, na := a }, mem := writeBytes m (field u.cfg .rx u.rx.i 12) 1 0, owner := store h.toNat .engine u.owner, areas := store h.toNat a u.areas, allocs := rest, trace := Act.memWrite (field u.cfg .rx u.rx.i 12) 1 0 :: tr } := by
    intro m tr; exact runRx_step (by show RxPc.d6c ≠ .idle; decide) hm rfl
  have a4 : ∀ m tr, runRx (k+2) { u with rx := { u.rx with pc := .d6d, nh := h, na := a }, mem := m, owner := store h.toNat .engine u.owner, areas := store h.toNat a u.areas, allocs := rest, trace := tr } =
     runRx (k+1) { u with rx := { u.rx with pc := .d7, nh := h, na := a }, mem := m, rxShadow := u.rxShadow.set u.rx.i h, owner := store h.toNat (.rxSlot u.rx.i) (store h.toNat .engine u.owner), areas := store h.toNat a u.areas, allocs := rest, trace := tr } := by
    intro m tr; exact runRx_step (by show RxPc.d6d ≠ .idle; decide) hm rfl
  have a5 : ∀ m sh ow tr, runRx (k+1) { u with rx := { u.rx with pc := .d7, nh := h, na := a }, mem := m, rxShadow := sh, owner := ow, areas := store h.toNat a u.areas, allocs := rest, trace := tr } =
     runRx k { u with rx := { u.rx with pc := .d1, nh := h, na := a }, mem := m, rxShadow := sh, owner := ow, dev := { u.dev with regs := { u.dev.regs with rdt := indexWord u.rx.i } }, areas := store h.toNat a u.areas, allocs := rest, trace := Act.regWrite .rdt (regAddr u .rdt) (indexWord u.rx.i) :: tr } := by
    intro m sh ow tr; exact runRx_step (by show RxPc.d7 ≠ .idle; decide) hm rfl
  have b1 := a1 u.mem (Act.bufAlloc (some (h, a)) :: u.trace)
  refine b1.trans ?_
  rw [a2, a3, a4, a5]
  rfl

/-- One whole round of the drain. -/
def roundDone (u : State) (b : Byte) (v : Nat) (h : Handle) (a : Addr) (rest : List AllocAnswer) : State := refilled (toAlloc u b v) h a rest

theorem runRx_round {u : State} {b : Byte} {v k : Nat} {h : Handle} {a : Addr} {rest} (hm : u.mode ≠ .fatal) (hp : u.rx.pc = .d1)
   (hb : statusAt u .rx (rxSlotOf u.cfg u.dev.regs.rdt) = some b) (hd : dd b = true) (hz : rxShadowAt u (rxSlotOf u.cfg u.dev.regs.rdt) ≠ 0)
   (hv : readBytes u.mem (field u.cfg .rx (rxSlotOf u.cfg u.dev.regs.rdt) 8) 2 = some v)
   (ha : u.allocs = some (h, a) :: rest) (hf : freshBuffer u h a) (hne : h ≠ rxShadowAt u (rxSlotOf u.cfg u.dev.regs.rdt)) :
   runRx (k+12) u = runRx k (roundDone u b v h a rest) := by
  rw [runRx_toAlloc (k := k + 6) hm hp hb hd hz hv]
  apply runRx_refill
  · exact hm
  · rfl
  · exact ha
  · refine ⟨hf.1, ?_, hf.2.2⟩
    rw [ownerOf_store _ _ _ _ _ rfl, if_neg hne]
    have := ownerOf_store u.owner (rxShadowAt u (rxSlotOf u.cfg u.dev.regs.rdt)) .engine { u with owner := store (rxShadowAt u (rxSlotOf u.cfg u.dev.regs.rdt)).toNat .engine u.owner } h rfl
    rw [if_neg hne] at this
    exact this.trans hf.2.1

end Sys2Proof.Machine
end

