-- ==== Sys2Proof/Tests/Slice0.lean ====
section
/-! SUPPORT. Tests against the spec's own vectors (95_test_vectors.md), the WellFormed smoke test, and for every statement a concrete state and operands that meet its hypotheses. -/

namespace Sys2Proof.Tests

set_option Elab.async false

open Sys2Proof Sys2Proof.Machine

/-! ### WellFormed, the command word (95_test_vectors.md B.1, opcode_table.json) -/

theorem test_wf_refuses_long_length : (Instr.xmit 65536).wf = false := by decide

theorem test_wf_accepts_longest : (Instr.xmit 65535).wf = true ∧ Instr.init.wf = true := by decide

theorem test_decode_init : decode 0b00000000000000000000000000000001#32 = .command .init := by decide

theorem test_decode_xmit_1514 : decode 0b00000101111010100000000000000010#32 = .command (.xmit 1514) := by decide

theorem test_decode_xmit_edges :
    decode 0x00000002 = .command (.xmit 0) ∧ decode 0xFFFF0002 = .command (.xmit 65535) := by decide

theorem test_decode_intr : decode 0b00000000000000000000000000000011#32 = .command .intr := by decide

theorem test_decode_drain : decode 0b00000000000000000000000000000100#32 = .command .drain := by decide

theorem test_decode_illegal_opcode :
    decode 0x00000000 = .illegal .opcode ∧ decode 0x00000005 = .illegal .opcode ∧
    decode 0x0000000F = .illegal .opcode := by decide

theorem test_decode_illegal_reserved :
    decode 0x00000012 = .illegal .reservedBits ∧ decode 0x00008002 = .illegal .reservedBits := by decide

theorem test_decode_illegal_length :
    decode 0x00010001 = .illegal .lengthBits ∧ decode 0x00400003 = .illegal .lengthBits ∧
    decode 0xFFFF0004 = .illegal .lengthBits := by decide

theorem test_encode_words :
    encode .init = 0x00000001 ∧ encode (.xmit 64) = 0x00400002 ∧ encode .intr = 0x00000003 ∧
    encode .drain = 0x00000004 := by decide

theorem test_decodeTableWord :
    decodeTableWord 32 0x00400002 = some (.xmit 64) ∧ decodeTableWord 16 0x00400002 = some (.xmit 0) ∧
    decodeTableWord 32 0x00400003 = none := by decide

/-- 95_test_vectors.md B.1, the mask check. -/
theorem test_rows :
    (opcodeRows.filter (fun r => r.hasWord 0x00400002)).map OpcodeRow.mnemonic = ["XMIT"] ∧
    opcodeRows.filter (fun r => r.hasWord 0x00400003) = [] := by decide

/-! ### Numbers of the spec: `RC` and `RV` (R105, R291), `mode` (R28), `fcause` (R295) -/

theorem test_codes :
    Reason.ok.code = 0 ∧ Reason.busy.code = 1 ∧ Reason.notReady.code = 2 ∧ Reason.badOperand.code = 3 ∧
    Reason.illegalCmd.code = 4 ∧ Reason.alreadyInit.code = 5 ∧ Reason.ok.rv = 0 ∧ Reason.busy.rv = 0xFFFFFFFF := by
  decide

theorem test_status_lines :
    Mode.uninit.code = 0 ∧ Mode.initing.code = 1 ∧ Mode.ready.code = 2 ∧ Mode.fatal.code = 3 ∧
    FatalCause.none.code = 0 ∧ FatalCause.cfgRingSize.code = 1 ∧ FatalCause.cfgRingAlign.code = 2 ∧
    FatalCause.nobufInit.code = 3 ∧ FatalCause.nobufDrain.code = 4 := by decide

/-! ### Addresses, indices, byte order (95_test_vectors.md B.3) -/

theorem test_index_wraps :
    nextIndex Config.hw 14 = 15 ∧ nextIndex Config.hw 15 = 0 ∧ rxSlotOf Config.hw 15 = 0 ∧ rxSlotOf Config.hw 14 = 15 ∧
    txSlotOf Config.hw 0x10 = 0 := by decide

theorem test_descriptor_addresses :
    desc Config.hw .tx 15 = 0x800010F0 ∧ field Config.hw .tx 15 offStatus = 0x800010FC ∧
    field Config.hw .rx 3 offLen = 0x80002038 ∧ field Config.hw .rx 3 offStatus = 0x8000203C := by decide

theorem test_register_addresses :
    regAddr { State.reset with regsBase := 0x40000000 } .tdt = 0x40003818 ∧
    regAddr { State.reset with regsBase := 0x40000000 } (.mta 127) = 0x400053FC := by decide

theorem test_mac_words : macLow Config.hw = 0x12005452 ∧ macHigh Config.hw = 0x80005634 := by decide

/-- `MemWrite(0x80001008, 2, 0x05EA)`: bytes `EA 05`. -/
theorem test_little_endian :
    writeBytes [] 0x80001008 2 0x05EA = [(0x80001008, 0xEA), (0x80001009, 0x05)] ∧
    readBytes [(0x80002008, 0x40), (0x80002009, 0x00)] 0x80002008 2 = some 64 := by decide

/-- A write at the last address of the bus goes on at address 0, and the list stays in order. -/
theorem test_write_wraps :
    writeBytes [] 0xFFFFFFFFFFFFFFFF 2 0x0201 = [(0, 0x02), (0xFFFFFFFFFFFFFFFF, 0x01)] := by decide

theorem test_reset_memory_wf : Memory.wf State.reset.mem := by decide

theorem test_params_hw : initPremises Config.hw 0x40000000 = true := by decide

/-! ### Small states -/

/-- Two slots per ring, two ports, one multicast register: the smallest block. -/
def tiny : Config := { Config.hw with n := 2, ringLenMult := 32, mtaEntries := 1 }

/-- Four ring slots as INIT leaves them (95_test_vectors.md, `S0`), RX buffers at `0x9000` and `0xA000`. -/
def ringMem : Memory :=
  writeBytes (writeBytes (writeBytes (writeBytes (writeBytes (writeBytes (writeBytes (writeBytes []
    (field tiny .tx 0 0) 8 0) (field tiny .tx 0 8) 8 0x0000000100000000)
    (field tiny .tx 1 0) 8 0) (field tiny .tx 1 8) 8 0x0000000100000000)
    (field tiny .rx 0 0) 8 0x9000) (field tiny .rx 0 8) 8 0)
    (field tiny .rx 1 0) 8 0xA000) (field tiny .rx 1 8) 8 0

/-- A block after INIT: `READY`, `TDT = 0`, `RDT = N-1`, the device's engines on. -/
def ready : State :=
  { State.resetWith tiny with
    mode := .ready
    mem := ringMem
    rxShadow := [0x10, 0x11]
    owner := [(0x10, .rxSlot 0), (0x11, .rxSlot 1), (0x20, .requester 0)]
    areas := [(0x10, 0x9000), (0x11, 0xA000), (0x20, 0xB000)]
    dev := { (Device.unknown tiny) with
      txOn := true, rxOn := true
      regs := { (Device.unknown tiny).regs with rdt := 1, ims := 0x80 } } }

/-- Port 0 presents a command. -/
def with0 (cw : Word) (a0 a1 : BitVec 64) (s : State) : State := writePort 0 cw a0 a1 s

/-- An XMIT of 64 bytes of buffer `0x20` at `0xB000` stands at port 0. -/
def sender : State := with0 0x00400002 0x20 0xB000 ready

/-- One byte of memory changed. -/
def poke (a : Addr) (b : Byte) (s : State) : State := { s with mem := writeBytes s.mem a 1 b.toNat }

/-- The same, with both TX slots lent to the device. -/
def busySender : State := poke (field tiny .tx 0 12) 0 sender

/-- RX slot 0 holds a frame of 60 bytes, and the allocator has buffer `0x30` at `0xC000`. -/
def filled : State :=
  { poke (field tiny .rx 0 8) 60 (poke (field tiny .rx 0 12) 1 ready) with allocs := [some (0x30, 0xC000)] }

/-- RX slot 0 is filled and the allocator answers `NONE`. -/
def starved : State := { filled with allocs := [none] }

/-- A block before INIT, with two buffers for it. -/
def fresh : State := with0 0x00000001 0x40000000 0
  { State.resetWith tiny with allocs := [some (0x10, 0x9000), some (0x11, 0xA000)] }

/-- A halted block. -/
def halted : State := { ready with mode := .fatal, fcause := .nobufDrain }

/-- A block inside INIT. -/
def initing (pc : InitPc) : State :=
  { fresh with mode := .initing, ini := { InitSeq.reset with pc := pc }, txLock := .held (.port 0), rxLock := .held (.port 0) }

/-- A block with the TX engine at a position. -/
def atTx (pc : TxPc) (s : State) : State :=
  { s with txLock := .held (.port 0)
           tx := { pc := pc, p := 0, h := 0x20, a := 0xB000, n := 64, i := 0, s := 1 } }

/-- A block with the RX engine at a position. -/
def atRx (pc : RxPc) (s : State) : State :=
  { s with rxLock := .held (.port 0)
           rx := { pc := pc, src := .port 0, kind := .drain, i := 0, s := 1, b := 0x10, l := 60, nh := 0x30, na := 0xC000 } }

/-- A schedule. -/
def play (l : List Event) (s : State) : State := { s with script := l }

/-- The port the tests command. -/
def port0 (s : State) : Port := (s.ports[0]?).getD Port.reset

/-- A check of the next state. -/
def next (r : Result) (f : State → Bool) : Bool :=
  match r with
  | .next s => f s
  | .fault _ => false
  | .refused _ => false

/-! ### One command each -/

/-- INIT programs the TX ring's registers (95_test_vectors.md N1v, rows 4 to 8) and arms slot 0 (`S0`). -/
theorem test_init_ready : next (exec .init fresh) (fun s =>
    decide (s.mode = .ready ∧ s.dev.regs.tdbal = 0x80001000 ∧ s.dev.regs.tdlen = 32 ∧ s.dev.regs.rdt = 1 ∧
      s.dev.regs.ims = 0x80 ∧ s.rxShadow = [0x10, 0x11] ∧ byteAt s.mem 0x8000100C = some 1)) = true := by
  decide +kernel

/-- INIT without a buffer halts (N5v): `fcause = 3`, unanswered, both locks held. -/
theorem test_init_no_buffer : next (exec .init { fresh with allocs := [none] }) (fun s =>
    decide (s.mode = .fatal ∧ s.fcause = .nobufInit ∧ s.txLock = .held (.port 0) ∧ (port0 s).outstanding = true)) =
    true := by decide +kernel

/-- XMIT (T1): descriptor `00 B0 .. 40 00 00 09 00`, `TDT = 1`, answered 0/OK. -/
theorem test_xmit_sends : next (exec (.xmit 64) sender) (fun s =>
    decide (s.dev.regs.tdt = 1 ∧ s.txShadow = [0x20, 0] ∧ readBytes s.mem 0x80001000 8 = some 0xB000 ∧
      readBytes s.mem 0x80001008 8 = some 0x0000000009000040 ∧ (port0 s).rc = 0 ∧ (port0 s).rv = 0)) = true := by
  decide +kernel

/-- XMIT keeps the other status bits (T5): `0xFF` becomes `0xFE`. -/
theorem test_xmit_status_bits : next (exec (.xmit 64) (poke 0x8000100C 0xFF sender)) (fun s =>
    decide (byteAt s.mem 0x8000100C = some 0xFE)) = true := by decide +kernel

/-- DRAIN of one frame (DR2): delivered with its length, slot re-armed, `RDT = 0`. -/
theorem test_drain_delivers : next (exec .drain filled) (fun s =>
    decide (delivered s.trace = [0x10] ∧ s.bufLen = [(0x10, 60)] ∧ s.rxShadow = [0x30, 0x11] ∧ s.dev.regs.rdt = 0 ∧
      readBytes s.mem 0x80002000 8 = some 0xC000 ∧ readBytes s.mem 0x80002008 8 = some 0)) = true := by
  decide +kernel

/-- DRAIN without a buffer halts (P6): `fcause = 4`, the engine frozen at `D5`. -/
theorem test_drain_no_buffer : next (exec .drain starved) (fun s =>
    decide (s.mode = .fatal ∧ s.fcause = .nobufDrain ∧ s.rx.pc = .d5 ∧ s.rxShadow = [0, 0x11] ∧ s.dev.regs.rdt = 1)) =
    true := by decide +kernel

/-- INTR acknowledges first (I1v): the all-ones write of `ICR`, then the read of `RDT`, then one status byte. -/
theorem test_intr_accesses : next (exec .intr ready) (fun s =>
    decide (s.trace = [.memRead 0x8000200C 1 0, .regRead .rdt 0x2818 1, .regWrite .icr 0xC0 0xFFFFFFFF])) = true := by
  decide +kernel

/-- INTR from the interrupt port (I2v): `irq_pend` is cleared and no port is answered. -/
theorem test_intr_irq_port : next (step (play [.serveIrq] { ready with irqPend := true })) (fun s =>
    decide (s.irqPend = false ∧ s.rxLock = .free ∧ s.ports = ready.ports)) = true := by decide +kernel

/-- An area over a ring, over the register block or over a live buffer is no answer of the allocator (R270, U15); the
next free one is. -/
theorem test_alloc_areas :
    areaFree ready 0x80002000 = false ∧ areaFree ready 0x5000 = false ∧ areaFree ready 0x97FF = false ∧
    areaFree ready 0x9800 = true ∧ areaFree ready 0x9FFF = false := by decide +kernel

/-- After a block reset the handles of the RX shadow are forgotten, and the platform can recover one (R331); before it
cannot. -/
theorem test_recover :
    ownerOf (moveBuffer 0x10 .pool 0 (blockReset ready)) 0x10 = .pool ∧
    (moveBuffer 0x10 .pool 0 (blockReset ready)).areas = [(0x11, 0xA000), (0x20, 0xB000)] ∧
    moveBuffer 0x10 .pool 0 ready = ready := by decide +kernel

/-- One raise, one signal, one `irq` event (R275). -/
theorem test_raise_signals :
    (devRaise { ready with dev := { ready.dev with regs := { ready.dev.regs with icr := 0x80 } } }).irqSignals = 1 ∧
    next (step (play [.irq] { ready with irqSignals := 1 })) (fun t => decide (t.irqSignals = 0 ∧ t.irqPend = true)) =
      true := by decide +kernel

/-- The device may store byte 13 of a TX slot it owns, and not byte 12 this way (R100, R103). -/
theorem test_device_byte :
    byteAt (devByte .tx none 13 0xAB
      { busySender with dev := { busySender.dev with regs := { busySender.dev.regs with tdt := 1 } } }).mem 0x8000100D =
      some 0xAB ∧
    devByte .tx none 12 0xAB
      { busySender with dev := { busySender.dev with regs := { busySender.dev.regs with tdt := 1 } } } =
      { busySender with dev := { busySender.dev with regs := { busySender.dev.regs with tdt := 1 } } } := by
  decide +kernel

/-! ### The invariant and the ownership hold in the small states -/

/-- `Inv` of a READY block, from what can be decided. -/
theorem inv_of_ready {s : State} (hm : s.mode = .ready)
    (h : (Memory.wf s.mem ∧ Rising s.owner ∧ Rising s.bufLen ∧ s.ports.length = s.cfg.p ∧
      s.txShadow.length = s.cfg.n ∧ s.rxShadow.length = s.cfg.n) ∧ s.fcause = .none ∧ s.ini.pc = .idle ∧
      ((s.tx.pc = .idle ∧ s.txLock = .free) ∨ (s.tx.pc ≠ .idle ∧ s.tx.pc ≠ .x1 ∧ s.txLock = .held (.port s.tx.p))) ∧
      ((s.rx.pc = .idle ∧ s.rxLock = .free) ∨
        (s.rx.pc ≠ .idle ∧ s.rx.pc ≠ .i1 ∧ s.rx.pc ≠ .d0 ∧ s.rxLock = .held s.rx.src)) ∧
      ((txHasSlot s.tx.pc = true → s.tx.i < s.cfg.n) ∧ (txOwnsSlot s.tx.pc = true → blockOwns s .tx s.tx.i = true) ∧
        (txOwnsSlot s.tx.pc = true → dd s.tx.s = true) ∧ (rxHasSlot s.rx.pc = true → s.rx.i < s.cfg.n) ∧
        (rxOwnsSlot s.rx.pc = true → blockOwns s .rx s.rx.i = true) ∧
        (rxOwnsSlot s.rx.pc = true → dd s.rx.s = true)) ∧
      paramsOk s.cfg = true ∧
      (∀ i < s.cfg.n, ∀ k < 16, (byteAt s.mem (field s.cfg .tx i k)).isSome = true) ∧
      (∀ i < s.cfg.n, ∀ k < 16, (byteAt s.mem (field s.cfg .rx i k)).isSome = true) ∧
      s.dev.regs.tdt.toNat < s.cfg.n ∧ s.dev.regs.rdt.toNat < s.cfg.n) : Inv s := by
  obtain ⟨⟨a1, a2, a3, a4, a5, a6⟩, h2, h3, h4, h5, ⟨b1, b2, b3, b4, b5, b6⟩, h7, h8, h9, h10, h11⟩ := h
  exact (inv_ready hm).mpr ⟨⟨a1, a2, a3, a4, a5, a6⟩, h2, h3, h4, h5, ⟨fun _ => b1, fun _ => b2, fun _ => b3,
    fun _ => b4, fun _ => b5, fun _ => b6⟩, h7, ⟨h8, h9, h10, h11⟩⟩

theorem waitingAt_none {s : State} (h : ∀ q ∈ s.ports, q.waiting = none) (p : Nat) : waitingAt s p = none := by
  unfold waitingAt
  cases hq : s.ports[p]? with
  | none => rfl
  | some q => exact h q (List.mem_of_getElem? hq)

theorem inv_fresh : Inv fresh := by
  refine ⟨⟨by decide +kernel, by decide +kernel, by decide +kernel, by decide +kernel, by decide +kernel, by decide +kernel⟩, ?_, ⟨?_, ?_, ?_, ?_, ?_, ?_⟩, ?_, ?_, ?_⟩
  · exact ⟨rfl, rfl, rfl, rfl, rfl, rfl, waitingAt_none (by decide +kernel)⟩
  all_goals (intro h; simp [fresh, with0, writePort, updatePort, State.resetWith] at h)

theorem inv_initing : Inv (initing .n2) := by
  refine ⟨⟨by decide +kernel, by decide +kernel, by decide +kernel, by decide +kernel, by decide +kernel, by decide +kernel⟩, ?_, ⟨?_, ?_, ?_, ?_, ?_, ?_⟩, ?_, fun _ => ⟨?_, ?_, ?_, ?_, ?_, ?_⟩, ?_⟩
  · exact ⟨rfl, rfl, rfl, by decide +kernel, by decide +kernel, rfl, rfl⟩
  · exact fun h => absurd h (by decide +kernel)
  · exact fun h => absurd h (by decide +kernel)
  · exact fun h => absurd h (by decide +kernel)
  · exact fun h => absurd h (by decide +kernel)
  · exact fun h => absurd h (by decide +kernel)
  · exact fun h => absurd h (by decide +kernel)
  · exact fun _ => by decide +kernel
  all_goals exact fun h => absurd h (by decide +kernel)

theorem inv_ready_state : Inv ready := inv_of_ready rfl (by decide +kernel)

theorem inv_sender : Inv sender := inv_of_ready rfl (by decide +kernel)

theorem inv_filled : Inv filled := inv_of_ready rfl (by decide +kernel)

theorem inv_halted : Inv halted :=
  inv_fatal rfl ⟨by decide +kernel, by decide +kernel, by decide +kernel, by decide +kernel, by decide +kernel, by decide +kernel⟩ (by decide +kernel)

/-- `Owned` of a block whose engines and ports are idle, from what can be decided. -/
theorem owned_of_idle {s : State} (ht : s.tx.pc = .idle) (hr : s.rx.pc = .idle) (hi : s.ini.pc = .idle)
    (hq : ∀ q ∈ s.ports, q.waiting = none)
    (h : (∀ i < s.cfg.n, txShadowAt s i ≠ 0 → ownerOf s (txShadowAt s i) = .txSlot i) ∧
      ∀ i < s.cfg.n, rxShadowAt s i ≠ 0 → ownerOf s (rxShadowAt s i) = .rxSlot i) : Owned s where
  txSlots := h.1
  rxSlots := h.2
  taken := by rw [hr]; rintro (h | h | h) <;> cases h
  fresh := by rw [hr]; rintro (h | h | h | h) <;> cases h
  initial := by rw [hi]; intro h; cases h
  sending := fun h => absurd ht h
  sender := fun h => absurd ht h
  receiver := fun h => absurd hr h
  starter := fun h => absurd hi h
  queued := fun p q len hd a h1 h2 => by rw [hq q (List.mem_of_getElem? h1)] at h2; cases h2
  queuedRx := fun p q i hd a h1 h2 => by rw [hq q (List.mem_of_getElem? h1)] at h2; cases h2

theorem allocReady_one {s : State} {h : Handle} {a : Addr} (hs : s.allocs = [some (h, a)])
    (hh : freshBuffer s h a) : AllocReady s [(h, a)] :=
  ⟨⟨[], by rw [hs]; rfl⟩, List.nodup_singleton h, List.pairwise_singleton _ _,
    fun b hb => by rw [List.mem_singleton.mp hb]; exact hh⟩

theorem allocReady_two {s : State} {h k : Handle} {a b : Addr} (hs : s.allocs = [some (h, a), some (k, b)]) (hk : h ≠ k)
    (hab : areasApart s.cfg a b = true) (hh : freshBuffer s h a) (hh' : freshBuffer s k b) :
    AllocReady s [(h, a), (k, b)] :=
  ⟨⟨[], by rw [hs]; rfl⟩, by simpa using hk, by simpa using hab, fun x hx => by
    rcases List.mem_cons.mp hx with rfl | hx
    · exact hh
    · rw [List.mem_singleton.mp hx]; exact hh'⟩

theorem owned_filled : Owned filled := owned_of_idle rfl rfl rfl (by decide +kernel) (by decide +kernel)

theorem owned_sender : Owned sender := owned_of_idle rfl rfl rfl (by decide +kernel) (by decide +kernel)

theorem next_exists {r : Result} (h : next r (fun _ => true) = true) : ∃ t, r = .next t := by
  cases r with
  | next s => exact ⟨s, rfl⟩
  | fault e => cases h
  | refused e => cases h

/-! ### Witnesses: for every statement with hypotheses, a case that meets them -/

theorem witness_DecodeOfEncode : (Instr.xmit 65535).wf = true := by decide +kernel

theorem witness_EncodeOfDecode : decode 0xFFFF0002 = .command (.xmit 65535) := by decide +kernel

theorem witness_DecodeIsTheTable :
    (∃ r ∈ opcodeRows, r.mnemonic = "XMIT" ∧ r.hasWord 0xFFFF0002 = true) ∧
    ∃ r ∈ opcodeRows, r.mnemonic = "DRAIN" ∧ r.hasWord 4 = true := by decide +kernel

theorem witness_IllegalWords :
    ((play [.call 0 5 0 0] ready).script = [.call 0 5 0 0] ∧ canIssue ready 0 = true ∧
      decode 5 = .illegal .opcode ∧ ready.mode ≠ .fatal) ∧
    ((play [.issue 1 0x10001 0 0] fresh).script = [.issue 1 0x10001 0 0] ∧ canIssue fresh 1 = true ∧
      decode 0x10001 = .illegal .lengthBits ∧ fresh.mode ≠ .fatal) := by decide +kernel

theorem witness_StepRunsCommand :
    (play [.call 1 0x00400002 0x20 0xB000] ready).script = [.call 1 0x00400002 0x20 0xB000] ∧
    canIssue (play [.call 1 0x00400002 0x20 0xB000] ready) 1 = true ∧ decode 0x00400002 = .command (.xmit 64) := by
  decide +kernel

theorem witness_FetchWordRuns :
    State.reset.ports[0]? = some Port.reset ∧ decodeTableWord 32 1 = some .init := by decide +kernel

theorem witness_StepTakesEvent :
    State.reset.script = [] ∧ (play [.tx] ready).script = .tx :: [] ∧ ∀ p cw a0 a1, Event.tx ≠ .call p cw a0 a1 :=
  ⟨rfl, rfl, fun _ _ _ _ h => by cases h⟩

theorem witness_ResetValues : (play [.reset] halted).script = .reset :: [] := rfl

theorem witness_ResetOutside : (play [.reset] filled).script = .reset :: [] := rfl

theorem witness_Rejections :
    ready.ports[ready.sel]? = some (port0 ready) ∧ ready.mode = .ready ∧ (port0 ready).a0 = 0 ∧
    (initing .n6).mode = .initing ∧ (initing .n6).ports[(initing .n6).sel]? = some (port0 (initing .n6)) ∧
    fresh.mode = .uninit ∧ fresh.ports[fresh.sel]? = some (port0 fresh) := by decide +kernel

theorem witness_RespondWrites : sender.ports[0]? = some (port0 sender) := by decide +kernel

/-- An XMIT waits at port 0, as `Issue(0)` leaves it. -/
def waiter : State :=
  { sender with ports := sender.ports.modify 0 (fun q =>
      { q with outstanding := true, waiting := some ⟨.xmit 64, 0x20, 0xB000⟩ }) }

/-- A DRAIN waits at port 0. -/
def drainWaiter : State :=
  { ready with ports := ready.ports.modify 0 (fun q => { q with cw := 4, outstanding := true, waiting := some ⟨.drain, 0, 0⟩ }) }

/-- An INTR waits at port 0. -/
def intrWaiter : State :=
  { ready with ports := ready.ports.modify 0 (fun q => { q with cw := 3, outstanding := true, waiting := some ⟨.intr, 0, 0⟩ }) }

theorem witness_HeldLockWaits_granted :
    (waiter.mode ≠ .fatal ∧ waiter.txLock = .free ∧ waitingAt waiter 0 = some ⟨.xmit 64, 0x20, 0xB000⟩) ∧
    (drainWaiter.mode ≠ .fatal ∧ drainWaiter.rxLock = .free ∧ waitingAt drainWaiter 0 = some ⟨.drain, 0, 0⟩) ∧
    (intrWaiter.mode ≠ .fatal ∧ intrWaiter.rxLock = .free ∧ waitingAt intrWaiter 0 = some ⟨.intr, 0, 0⟩) ∧
    { ready with irqPend := true }.mode = .ready ∧ { ready with irqPend := true }.rxLock = .free := by decide +kernel

theorem witness_HeldLockWaits :
    (atTx .x4 sender).ports[(atTx .x4 sender).sel]? = some (port0 sender) ∧ (atTx .x4 sender).mode = .ready ∧
    (atTx .x4 sender).txLock = .held (.port 0) ∧ (port0 sender).a0 ≠ 0 ∧
    (atRx .d4 sender).mode = .ready ∧ (atRx .d4 sender).rxLock = .held (.port 0) := by decide +kernel

theorem witness_FatalFrozen :
    halted.mode = .fatal ∧ engineMove .rx = true ∧ (play [.rx] halted).script = .rx :: [] ∧
    canIssue halted 0 = true ∧ canIssue halted 2 = false := by decide +kernel

theorem witness_ModeTransitions_fatal :
    Inv (play [.rx] halted) ∧ halted.mode = .fatal ∧ ∃ t, step (play [.rx] halted) = .next t :=
  ⟨inv_congr inv_halted rfl inv_halted.shaped.owner, rfl, next_exists (by decide +kernel)⟩

theorem witness_ModeTransitions_ready :
    Inv (play [.call 0 4 0 0] starved) ∧ starved.mode = .ready ∧
    next (step (play [.call 0 4 0 0] starved)) (fun t => decide (t.mode = .fatal)) = true :=
  ⟨inv_of_ready rfl (by decide +kernel), rfl, by decide +kernel⟩

theorem witness_ModeTransitions_initing :
    Inv (play [.init] (initing .n2)) ∧ (initing .n2).mode = .initing ∧ ∃ t, step (play [.init] (initing .n2)) = .next t :=
  ⟨inv_congr inv_initing rfl inv_initing.shaped.owner, rfl, next_exists (by decide +kernel)⟩

theorem witness_ModeTransitions_uninit :
    Inv (play [.issue 0 1 0x40000000 0] fresh) ∧ fresh.mode = .uninit ∧
    next (step (play [.issue 0 1 0x40000000 0] fresh)) (fun t => decide (t.mode = .initing)) = true :=
  ⟨inv_congr inv_fresh rfl inv_fresh.shaped.owner, rfl, by decide +kernel⟩

theorem witness_XmitSends :
    sender.ports[sender.sel]? = some (port0 sender) ∧ sender.mode = .ready ∧ (port0 sender).a0 ≠ 0 ∧
    sender.txLock = .free ∧ statusAt sender .tx (sender.dev.regs.tdt.toNat % sender.cfg.n) = some 1 ∧
    (1 : Byte).getLsbD 0 = true := by decide +kernel

theorem witness_XmitAccesses : ∃ t, exec (.xmit 64) sender = .next t := next_exists (by decide +kernel)

theorem witness_XmitBusy :
    busySender.ports[busySender.sel]? = some (port0 busySender) ∧ busySender.mode = .ready ∧
    (port0 busySender).a0 ≠ 0 ∧ busySender.txLock = .free ∧
    statusAt busySender .tx (busySender.dev.regs.tdt.toNat % busySender.cfg.n) = some 0 ∧
    (0 : Byte).getLsbD 0 = false := by decide +kernel

theorem witness_XmitFrame :
    sender.ports[sender.sel]? = some (port0 sender) ∧ (∃ t, exec (.xmit 64) sender = .next t) ∧
    ∃ t, exec (.xmit 64) busySender = .next t :=
  ⟨by decide +kernel, next_exists (by decide +kernel), next_exists (by decide +kernel)⟩

theorem witness_XmitReleases_reached :
    next (txTurn (atTx .x3 sender)) (fun t => decide (t.tx.pc = .x4 ∧ (atTx .x3 sender).tx.pc ≠ .x4)) = true := by
  decide +kernel

theorem witness_XmitReleases_releases :
    (atTx .x4 { sender with txShadow := [0x40, 0] }).mode ≠ .fatal ∧
    (atTx .x4 { sender with txShadow := [0x40, 0] }).tx.pc = .x4 ∧
    txShadowAt (atTx .x4 { sender with txShadow := [0x40, 0] }) 0 ≠ 0 ∧
    next (txTurn (atTx .x4 { sender with txShadow := [0x40, 0] })) (fun t => decide (t.trace = [.bufFree 0x40])) = true := by
  decide +kernel

theorem witness_XmitReleases_empty :
    (atTx .x4 sender).mode ≠ .fatal ∧ (atTx .x4 sender).tx.pc = .x4 ∧ txShadowAt (atTx .x4 sender) 0 = 0 := by decide +kernel

theorem witness_XmitProgramsSlot :
    ((atTx .x5a sender).mode ≠ .fatal ∧ (atTx .x5a sender).tx.pc = .x5a) ∧ (atTx .x5b sender).tx.pc = .x5b ∧
    (atTx .x5c sender).tx.pc = .x5c ∧ (atTx .x5d sender).tx.pc = .x5d := by decide +kernel

theorem witness_XmitAdvancesTail : (atTx .x7 sender).mode ≠ .fatal ∧ (atTx .x7 sender).tx.pc = .x7 := by decide +kernel

theorem witness_DrainEmpty :
    ready.ports[ready.sel]? = some (port0 ready) ∧ ready.mode = .ready ∧ ready.rxLock = .free ∧
    statusAt ready .rx (drainSlot ready 0) = some 0 ∧ (0 : Byte).getLsbD 0 = false ∧
    (atRx .d2 ready).mode ≠ .fatal ∧ (atRx .d2 ready).rx.pc = .d2 ∧
    statusAt (atRx .d2 ready) .rx (atRx .d2 ready).rx.i = some 0 := by decide +kernel

theorem witness_IntrSpurious :
    ready.ports[ready.sel]? = some (port0 ready) ∧ ready.mode = .ready ∧ ready.rxLock = .free ∧
    statusAt ready .rx (drainSlot ready 0) = some 0 ∧ (0 : Byte).getLsbD 0 = false := by decide +kernel

theorem witness_DrainMalformed :
    filled.ports[filled.sel]? = some (port0 filled) ∧ filled.mode = .ready ∧ filled.rxLock = .free ∧
    blockOwns { filled with rxShadow := [0, 0x11] } .rx (drainSlot filled 0) = true ∧
    rxShadowAt { filled with rxShadow := [0, 0x11] } (drainSlot filled 0) = 0 := by decide +kernel

theorem witness_DrainDelivers :
    Inv filled ∧ Owned filled ∧ filled.ports[filled.sel]? = some (port0 filled) ∧ filled.mode = .ready ∧
    filled.rxLock = .free ∧ AllocReady filled [(0x30, 0xC000)] ∧ Filled filled 1 ∧ 1 < filled.cfg.n ∧
    deviceOwns filled .rx (drainSlot filled 1) = true :=
  ⟨inv_filled, owned_filled, by decide +kernel, rfl, rfl, allocReady_one rfl (by decide +kernel),
    by unfold Filled; decide +kernel, by decide +kernel, by decide +kernel⟩

/-- Both slots filled: the drain goes round the whole ring (R183). -/
theorem witness_DrainDelivers_all :
    Filled (poke (field tiny .rx 1 12) 1 filled) 2 ∧ (poke (field tiny .rx 1 12) 1 filled).cfg.n = 2 ∧
    AllocReady { filled with allocs := [some (0x30, 0xC000), some (0x31, 0xD000)] } [(0x30, 0xC000), (0x31, 0xD000)] :=
  ⟨by unfold Filled; decide +kernel, rfl,
    allocReady_two rfl (by decide +kernel) (by decide +kernel) (by decide +kernel) (by decide +kernel)⟩

theorem witness_DrainFrame :
    Inv filled ∧ filled.ports[filled.sel]? = some (port0 filled) ∧ (∃ t, exec .drain filled = .next t) ∧
    ∃ t, exec .intr filled = .next t :=
  ⟨inv_filled, by decide +kernel, next_exists (by decide +kernel), next_exists (by decide +kernel)⟩

theorem witness_DrainNoBuffer :
    Inv starved ∧ starved.ports[starved.sel]? = some (port0 starved) ∧ starved.mode = .ready ∧ starved.rxLock = .free ∧
    Filled starved 1 ∧ starved.allocs.head? = some none :=
  ⟨inv_of_ready rfl (by decide +kernel), by decide +kernel, rfl, rfl, by unfold Filled; decide +kernel, rfl⟩

theorem witness_DrainNoBuffer_step :
    (atRx .d5 starved).mode ≠ .fatal ∧ (atRx .d5 starved).rx.pc = .d5 ∧ (atRx .d5 starved).allocs = none :: [] := by
  decide +kernel

theorem witness_DrainSelectsSlot : (atRx .d1 filled).mode ≠ .fatal ∧ (atRx .d1 filled).rx.pc = .d1 := by decide +kernel

theorem witness_DrainRefills :
    ((atRx .d6a filled).mode ≠ .fatal ∧ (atRx .d6a filled).rx.pc = .d6a) ∧ (atRx .d6b filled).rx.pc = .d6b ∧
    (atRx .d6c filled).rx.pc = .d6c ∧ (atRx .d6d filled).rx.pc = .d6d ∧ (atRx .d7 filled).rx.pc = .d7 := by decide +kernel

theorem witness_IntrAcknowledges :
    (filled.ports[filled.sel]? = some (port0 filled) ∧ filled.mode = .ready ∧ filled.rxLock = .free ∧
      ∃ t, exec .intr filled = .next t) ∧
    ({ filled with irqPend := true }.irqPend = true ∧ ∃ t, serveRx .irq { filled with irqPend := true } = .next t) :=
  ⟨⟨by decide +kernel, rfl, rfl, next_exists (by decide +kernel)⟩, rfl, next_exists (by decide +kernel)⟩

theorem witness_IntrAcknowledges_step :
    ((atRx .i2 filled).mode ≠ .fatal ∧ (atRx .i2 filled).rx.pc = .i2) ∧
    next (rxTurn (atRx .i2 filled)) (fun t => decide (t.trace = [.regWrite .icr 0xC0 0xFFFFFFFF])) = true ∧
    next (rxTurn { atRx .i1 filled with rxLock := .free }) (fun t => decide (t.rx.pc = .i2)) = true := by
  decide +kernel

theorem witness_IrqLatched :
    ((play [.irq] fresh).script = .irq :: [] ∧ fresh.mode ≠ .fatal) ∧ (initing .n6).mode ≠ .ready ∧
    ready.irqPend = false ∧ (atRx .d4 filled).rxLock = .held (.port 0) := by decide +kernel

theorem witness_IrqServed :
    (play [.serveIrq] { ready with irqPend := true }).script = .serveIrq :: [] ∧
    ready.mode = .ready ∧ ready.rxLock = .free ∧ statusAt ready .rx (drainSlot ready 0) = some 0 ∧
    (0 : Byte).getLsbD 0 = false := by decide +kernel

theorem witness_InitCompletes :
    Inv fresh ∧ fresh.mode = .uninit ∧ fresh.ports[fresh.sel]? = some (port0 fresh) ∧
    (port0 fresh).a0.toNat % 4 = 0 ∧ initAllowed fresh (port0 fresh).a0 = true ∧
    16 * fresh.cfg.n % fresh.cfg.ringLenMult = 0 ∧ fresh.cfg.txRingBase.toNat % fresh.cfg.descAlign = 0 ∧
    fresh.cfg.rxRingBase.toNat % fresh.cfg.descAlign = 0 ∧ AllocReady fresh [(0x10, 0x9000), (0x11, 0xA000)] ∧
    (∀ b ∈ [((0x10 : Handle), (0x9000 : Addr)), (0x11, 0xA000)],
      areaOffRegs fresh.cfg (port0 fresh).a0 b.2 fresh.cfg.rxBufSize = true) ∧
    [((0x10 : Handle), (0x9000 : Addr)), (0x11, 0xA000)].length = fresh.cfg.n :=
  ⟨inv_fresh, rfl, by decide +kernel, by decide +kernel, by decide +kernel, by decide +kernel, by decide +kernel, by decide +kernel,
    allocReady_two rfl (by decide +kernel) (by decide +kernel) (by decide +kernel) (by decide +kernel), by
      simp only [List.forall_mem_cons, List.not_mem_nil, false_implies, implies_true, and_true]
      decide +kernel, rfl⟩

theorem witness_InitFrame :
    Inv fresh ∧ fresh.ports[fresh.sel]? = some (port0 fresh) ∧ ∃ t, exec .init fresh = .next t :=
  ⟨inv_fresh, by decide +kernel, next_exists (by decide +kernel)⟩

theorem witness_InitRefused_misaligned :
    (with0 1 0x40000002 0 fresh).mode = .uninit ∧
    (with0 1 0x40000002 0 fresh).ports[fresh.sel]? = some (port0 (with0 1 0x40000002 0 fresh)) ∧
    (port0 (with0 1 0x40000002 0 fresh)).a0.toNat % 4 ≠ 0 := by decide +kernel

/-- The register block lies over the TX ring. -/
theorem witness_InitRefused_premise :
    (port0 (with0 1 0x80001000 0 fresh)).a0.toNat % 4 = 0 ∧
    initAllowed (with0 1 0x80001000 0 fresh) (port0 (with0 1 0x80001000 0 fresh)).a0 = false := by decide +kernel

/-- A live buffer lies over the register block. -/
theorem witness_InitRefused_area :
    initPremises tiny 0x40000000 = true ∧
    initAllowed { fresh with owner := [(0x40, .requester 0)], areas := [(0x40, 0x40000000)] } 0x40000000 = false := by
  decide +kernel

/-- N3v: four slots, `64 mod 128 != 0`; N2v: `0x80001008 mod 16 = 8`; and the check that passes. -/
theorem witness_InitChecks :
    ((initing .n7).mode ≠ .fatal ∧ (initing .n7).ini.pc = .n7) ∧ (initing .n10).ini.pc = .n10 ∧
    16 * { Config.hw with n := 4 }.n % { Config.hw with n := 4 }.ringLenMult ≠ 0 ∧
    (16 * { tiny with txRingBase := 0x80001008 }.n % { tiny with txRingBase := 0x80001008 }.ringLenMult = 0 ∧
      (ringBase { tiny with txRingBase := 0x80001008 } .tx).toNat % tiny.descAlign ≠ 0) ∧
    16 * tiny.n % tiny.ringLenMult = 0 ∧ (ringBase tiny .rx).toNat % tiny.descAlign = 0 := by decide +kernel

theorem witness_InitNoBuffer :
    { initing .n9 with allocs := [none] }.mode ≠ .fatal ∧ { initing .n9 with allocs := [none] }.ini.pc = .n9 ∧
    { initing .n9 with allocs := [none] }.ini.k = 0 ∧ { initing .n9 with allocs := [none] }.allocs = none :: [] := by
  decide +kernel

theorem witness_InitResetsDevice : (initing .n3a).mode ≠ .fatal ∧ (initing .n3a).ini.pc = .n3a := by decide +kernel

theorem witness_MaskOnlyByInit :
    (Inv (play [.call 0 4 0 0] filled) ∧ filled.mode = .ready ∧ ∃ t, step (play [.call 0 4 0 0] filled) = .next t) ∧
    Inv (play [.rx] halted) ∧ halted.mode = .fatal ∧ ∃ t, step (play [.rx] halted) = .next t :=
  ⟨⟨inv_of_ready rfl (by decide +kernel), rfl, next_exists (by decide +kernel)⟩,
    inv_congr inv_halted rfl inv_halted.shaped.owner, rfl, next_exists (by decide +kernel)⟩

theorem witness_TxLeavesRx :
    Inv (atTx .x5a sender) ∧ (atTx .x5a sender).mode = .ready ∧ ∃ t, txTurn (atTx .x5a sender) = .next t :=
  ⟨inv_of_ready rfl (by decide +kernel), rfl, next_exists (by decide +kernel)⟩

theorem witness_RxLeavesTx :
    Inv (atRx .d6a filled) ∧ (atRx .d6a filled).mode = .ready ∧ ∃ t, rxTurn (atRx .d6a filled) = .next t :=
  ⟨inv_of_ready rfl (by decide +kernel), rfl, next_exists (by decide +kernel)⟩

theorem witness_BlockRespectsDevice :
    Inv (play [.call 0 4 0 0] filled) ∧ filled.mode = .ready ∧ deviceMove (.call 0 4 0 0) = false ∧
    (∃ t, step (play [.call 0 4 0 0] filled) = .next t) ∧ deviceOwns filled .rx 1 = true :=
  ⟨inv_of_ready rfl (by decide +kernel), rfl, rfl, next_exists (by decide +kernel), by decide +kernel⟩

theorem witness_DeviceRespectsBlock :
    paramsOk tiny = true ∧ deviceMove (.devRxFill none [1, 2, 3] 0) = true ∧ ready.cfg = tiny ∧
    (∃ t, step (play [.devRxFill none [1, 2, 3] 0] ready) = .next t) ∧ blockOwns ready .tx 0 = true :=
  ⟨by decide +kernel, rfl, rfl, next_exists (by decide +kernel), by decide +kernel⟩

theorem witness_FreesOnlySentBuffers :
    Inv (play [.tx] (atTx .x4 { sender with txShadow := [0x40, 0] })) ∧
    next (step (play [.tx] (atTx .x4 { sender with txShadow := [0x40, 0] }))) (fun t => decide (t.trace = [.bufFree 0x40])) =
      true :=
  ⟨inv_of_ready rfl (by decide +kernel), by decide +kernel⟩

theorem witness_DeliversOnlyFilledSlots :
    Inv (play [.rx] (atRx .d4 filled)) ∧
    next (step (play [.rx] (atRx .d4 filled))) (fun t => decide (t.trace = [.netRx 0x10])) = true :=
  ⟨inv_of_ready rfl (by decide +kernel), by decide +kernel⟩

/-- A TX slot lent to the device, the tail past it. -/
def lent : State := { busySender with dev := { busySender.dev with regs := { busySender.dev.regs with tdt := 1 } } }

theorem witness_DeviceCompletesTx :
    lent.dev.txOn = true ∧ headOf lent .tx ≠ tailOf lent .tx ∧ deviceOwns lent .tx (headOf lent .tx) = true := by
  decide +kernel

theorem witness_DeviceFillsRx :
    paramsOk ready.cfg = true ∧ ready.dev.rxOn = true ∧ headOf ready .rx ≠ tailOf ready .rx ∧
    deviceOwns ready .rx (headOf ready .rx) = true ∧ bufferOf ready (headOf ready .rx) = some 0x9000 ∧
    [(1 : Byte), 2, 3].length ≤ ready.cfg.rxBufSize ∧ storeOk ready 0x9000 3 = true := by decide +kernel

/-- A cause is latched and unmasked. -/
def caused : State := { ready with dev := { ready.dev with regs := { ready.dev.regs with icr := 0x80 } } }

theorem witness_DeviceRaises :
    (caused.dev.rxOn = true ∧ caused.dev.irqOut = false ∧ caused.dev.regs.icr &&& caused.dev.regs.ims ≠ 0) ∧
    ready.dev.regs.icr &&& ready.dev.regs.ims = 0 ∧ ((atRx .i2 filled).mode ≠ .fatal ∧ (atRx .i2 filled).rx.pc = .i2) ∧
    (0x80 : Word) &&& (atRx .i2 filled).dev.regs.ims ≠ 0 := by decide +kernel

/-- A widened device with a TX ring lent whole. -/
def wide : State := { busySender with cfg := { tiny with device := .widened } }

theorem witness_FullRingLooksEmpty :
    headOf busySender .tx = tailOf busySender .tx ∧ wide.cfg.device = .widened ∧ wide.dev.txOn = true ∧ 0 < wide.cfg.n ∧
    deviceOwns wide .tx 0 = true := by decide +kernel

/-- The last address of the bus: the second byte is at address 0. -/
theorem witness_MemWriteLaw :
    byteAt (memWrite 0xFFFFFFFFFFFFFFFF 2 0x0201 ready).mem 0xFFFFFFFFFFFFFFFF = some 1 ∧
    byteAt (memWrite 0xFFFFFFFFFFFFFFFF 2 0x0201 ready).mem 0 = some 2 := by decide +kernel

theorem witness_MemReadLaw :
    (∀ k < 8, (byteAt ready.mem (field tiny .tx 0 8 + BitVec.ofNat 64 k)).isSome = true) ∧
    readBytes ready.mem (field tiny .tx 0 8) 8 = some 0x0000000100000000 := by decide +kernel

theorem witness_InvKept :
    Inv (play [.call 0 4 0 0] filled) ∧ ∃ t, step (play [.call 0 4 0 0] filled) = .next t :=
  ⟨inv_of_ready rfl (by decide +kernel), next_exists (by decide +kernel)⟩

theorem witness_NeverFaults : Inv filled ∧ Inv fresh ∧ Inv halted ∧ Inv (initing .n2) :=
  ⟨inv_filled, inv_fresh, inv_halted, inv_initing⟩

theorem witness_OwnedKept :
    Inv (play [.call 0 0x00400002 0x20 0xB000] ready) ∧ Owned (play [.call 0 0x00400002 0x20 0xB000] ready) ∧
    RequesterDuty (play [.call 0 0x00400002 0x20 0xB000] ready) ∧
    ∃ t, step (play [.call 0 0x00400002 0x20 0xB000] ready) = .next t :=
  ⟨inv_of_ready rfl (by decide +kernel), owned_of_idle rfl rfl rfl (by decide +kernel) (by decide +kernel), by
    intro p cw a0 a1 len rest h _
    rcases h with h | h
    · simp [play] at h
    · simp only [play, List.cons.injEq, Event.call.injEq] at h
      obtain ⟨⟨rfl, _, rfl, _⟩, _⟩ := h
      decide, next_exists (by decide +kernel)⟩

theorem witness_NoBufferShared : Owned filled ∧ rxShadowAt filled 0 ≠ 0 := ⟨owned_filled, by decide +kernel⟩

theorem witness_PortsApart :
    (play [.call 1 4 0 0] filled).script = .call 1 4 0 0 :: [] ∧ ∃ t, step (play [.call 1 4 0 0] filled) = .next t :=
  ⟨rfl, next_exists (by decide +kernel)⟩

/-! ### A run for the statements about areas and about fairness -/

/-- `AreasOk` from what can be decided: the buffers with an area are the ones with an owner. -/
theorem areasOk_of_keys {s : State} (hk : s.areas.map Prod.fst = s.owner.map Prod.fst)
    (h : (∀ e ∈ s.owner, e.2 ≠ .pool) ∧ Rising s.areas ∧ (∀ e ∈ s.areas, areaOk s.cfg e.2 s.cfg.rxBufSize = true) ∧
      (∀ e ∈ s.areas, regsClear s e.2 s.cfg.rxBufSize = true) ∧
      s.areas.Pairwise (fun x y => areasApart s.cfg x.2 y.2 = true)) : AreasOk s where
  live x := by
    rw [lookup_isSome_iff, hk, ← lookup_isSome_iff, ownerOf]
    cases hl : lookup x.toNat s.owner with
    | none => simp
    | some o => simpa using h.1 _ (mem_of_lookup hl)
  rising := h.2.1
  rings := h.2.2.1
  regs := h.2.2.2.1
  apart := h.2.2.2.2

theorem orderly_ready : Orderly ready :=
  ⟨inv_ready_state, owned_of_idle rfl rfl rfl (by decide +kernel) (by decide +kernel), areasOk_of_keys rfl (by decide +kernel)⟩

theorem witness_AreasKept :
    Orderly (play [.call 0 0x00400002 0x20 0xB000] ready) ∧
    RequesterDuty (play [.call 0 0x00400002 0x20 0xB000] ready) ∧
    ∃ t, step (play [.call 0 0x00400002 0x20 0xB000] ready) = .next t :=
  ⟨orderly_stable.script _ _ orderly_ready, witness_OwnedKept.2.2.1, witness_OwnedKept.2.2.2⟩

/-- The device raises its interrupt, one XMIT waits at port 0 and one DRAIN at port 1, each is granted its lock, the drain
ends, and the interrupt is delivered and served. -/
def fairEvents : Nat → Event
  | 0 => .devRaise
  | 1 => .issue 0 0x00400002 0x20 0xB000
  | 2 => .issue 1 4 0 0
  | 3 => .grantTx 0
  | 4 => .grantRx (.port 1)
  | 5 => .rx
  | 6 => .rx
  | 7 => .rx
  | 8 => .irq
  | _ => .serveIrq

/-- The next state, or the same where there is none. -/
def follow (e : Event) (s : State) : State :=
  match step { s with script := [e] } with
  | .next t => t
  | .fault _ => s
  | .refused _ => s

def fairRun : Nat → State
  | 0 => caused
  | n + 1 => follow (fairEvents n) (fairRun n)

theorem follow_next {e : Event} {s : State} (h : next (step { s with script := [e] }) (fun _ => true) = true) :
    step { s with script := [e] } = .next (follow e s) := by
  unfold follow
  obtain ⟨t, ht⟩ := next_exists h
  rw [ht]

theorem fairRun_ends : fairRun 11 = fairRun 10 := by decide +kernel

theorem fairRun_rest : ∀ k, fairRun (10 + k) = fairRun 10
  | 0 => rfl
  | 1 => fairRun_ends
  | k + 2 => by
    rw [show fairRun (10 + (k + 2)) = follow (fairEvents (10 + (k + 1))) (fairRun (10 + (k + 1))) from rfl,
      fairRun_rest (k + 1), show 10 + (k + 1) = k + 2 + 9 by omega]
    exact fairRun_ends

theorem fairRun_late {n : Nat} (h : 10 ≤ n) : fairRun n = fairRun 10 := by
  obtain ⟨k, rfl⟩ := Nat.exists_eq_add_of_le h
  exact fairRun_rest k

/-- Each event up to the interrupt's service is taken. -/
theorem fairRun_begins :
    ∀ n < 10, next (step { fairRun n with script := [fairEvents n] }) (fun _ => true) = true := by decide +kernel

theorem fairRun_follows : Follows fairRun fairEvents := by
  intro n
  refine follow_next ?_
  by_cases h : 10 ≤ n
  · obtain ⟨k, rfl⟩ := Nat.exists_eq_add_of_le h
    rw [fairRun_rest, show fairEvents (10 + k) = .serveIrq by rw [Nat.add_comm]; rfl]
    decide +kernel
  · exact fairRun_begins n (Nat.lt_of_not_le h)

theorem fairRun_orderly : ∀ n, Orderly (fairRun n)
  | 0 => ⟨inv_of_ready rfl (by decide +kernel), owned_of_idle rfl rfl rfl (by decide +kernel) (by decide +kernel),
      areasOk_of_keys rfl (by decide +kernel)⟩
  | n + 1 => by
    have ih := fairRun_orderly n
    have duty : ∀ p cw a0 a1 rest, [fairEvents n] = .issue p cw a0 a1 :: rest ∨ [fairEvents n] = .call p cw a0 a1 :: rest →
        ∀ len, decode cw = .command (.xmit len) → ownerOf (fairRun n) a0 = .requester p := by
      intro p cw a0 a1 rest h len hd
      match n, h with
      | 1, h =>
        simp only [fairEvents, List.cons.injEq, Event.issue.injEq, reduceCtorEq, false_and, or_false] at h
        obtain ⟨⟨rfl, _, rfl, _⟩, _⟩ := h
        decide
      | 2, h =>
        simp only [fairEvents, List.cons.injEq, Event.issue.injEq, reduceCtorEq, false_and, or_false] at h
        obtain ⟨⟨_, rfl, _⟩, _⟩ := h
        rw [show decode (4 : Word) = .command .drain by decide] at hd
        cases hd
      | 0, h | 3, h | 4, h | 5, h | 6, h | 7, h | 8, h | n + 9, h => simp [fairEvents] at h
    refine orderly_stable.step_of_issue (orderly_stable.script _ [fairEvents n] ih) ?_ (fairRun_follows n)
    intro p cw a0 a1 rest hs u hu
    exact orderly_issue (orderly_stable.script _ rest ih) (duty p cw a0 a1 rest hs) hu

theorem fairRun_quiet : ¬TxWaiting (fairRun 10) ∧ ¬RxWaiting (fairRun 10) := by
  constructor
  · rintro ⟨p, h⟩
    cases hq : txWaiter (fairRun 10) p with
    | none => rw [hq] at h; cases h
    | some w => exact absurd (txWaiter_some (len := w.1) (h := w.2.1) (a := w.2.2) hq).2.1 (by decide +kernel)
  · rintro ⟨src, h⟩
    cases hq : rxWaiter (fairRun 10) src with
    | none => rw [hq] at h; cases h
    | some w =>
      have h3 := (rxWaiter_some hq).2.2
      cases src with
      | irq => exact absurd (rxRequest_irq h3).2.1 (by decide +kernel)
      | port p =>
        unfold rxRequest at h3
        simp only [waitingAt_none (show ∀ q ∈ (fairRun 10).ports, q.waiting = none by decide +kernel)] at h3
        cases h3

theorem witness_FairGrants :
    (Follows fairRun fairEvents ∧ ∀ m, Inv (fairRun m) ∧ Owned (fairRun m)) ∧ WeaklyFair fairRun fairEvents ∧
    TxWaiting (fairRun 3) ∧ RxWaiting (fairRun 3) ∧ DrainsEnd fairRun ∧ (fairRun 3).mode = .ready ∧
    waitingAt (fairRun 3) 1 = some ⟨.drain, 0, 0⟩ ∧ DeviceFair fairRun fairEvents ∧ CanRaise (fairRun 0) ∧
    DispatcherFair fairRun fairEvents ∧ 0 < (fairRun 3).irqSignals := by
  have late : ∀ n, n ≤ n + 10 ∧ fairRun (n + 10) = fairRun 10 := fun n => ⟨by omega, fairRun_late (by omega)⟩
  refine ⟨⟨fairRun_follows, fun m => ⟨(fairRun_orderly m).inv, (fairRun_orderly m).owned⟩⟩, fun n => ⟨fun h => ?_, fun h => ?_⟩,
    ⟨0, by decide +kernel⟩, ⟨.port 1, by decide +kernel⟩, fun n => ⟨n + 10, by omega, .inl ?_⟩, by decide +kernel, by decide +kernel,
    fun n h => ?_, ⟨by decide +kernel, by decide +kernel, by decide +kernel⟩, fun n h => ?_, by decide +kernel⟩
  · exact absurd ((late n).2 ▸ h _ (late n).1) fairRun_quiet.1
  · exact absurd ((late n).2 ▸ h _ (late n).1) fairRun_quiet.2
  · rw [(late n).2]; decide +kernel
  · exact absurd ((late n).2 ▸ h _ (late n).1).1 (by decide +kernel)
  · exact absurd ((late n).2 ▸ h _ (late n).1) (by decide +kernel)

end Sys2Proof.Tests
end

section
/-! The statements of 00_scope.md: what a step takes from the schedule, that the data areas stay disjoint, and that no step
faults. -/

namespace Sys2Proof.Machine

/-! ### What a step takes from the schedule (R12, R14) -/

theorem step_of_script_nil {s : State} (h : s.script = []) : step s = .next s := by
  unfold step
  rw [h]

theorem step_of_call {s : State} {p : Nat} {cw : Word} {a0 a1 : BitVec 64} {rest : List Event}
    (h : s.script = .call p cw a0 a1 :: rest) : step s = callEvent p cw a0 a1 { s with script := rest } := by
  unfold step
  rw [h]

/-- Every event but a command line is its agent's move. -/
theorem step_of_agentEvent {s : State} {e : Event} {rest : List Event} (h : s.script = e :: rest)
    (hne : ∀ p cw a0 a1, e ≠ .call p cw a0 a1) : step s = agentEvent e { s with script := rest } := by
  unfold step
  rw [h]
  cases e with
  | call p cw a0 a1 => exact absurd rfl (hne p cw a0 a1)
  | _ => rfl

/-- Settles O8: the two cases of the schedule. -/
theorem stepTakesEvent : Obligations.StepTakesEvent :=
  ⟨fun _ h => step_of_script_nil h, fun _ _ _ h hne => step_of_agentEvent h hne⟩

/-! ### The data areas (R9, R270) -/

/-- A step whose requester owns the buffer it submits keeps the invariant, the ownership and the areas together. -/
theorem orderly_step {s t : State} (hs : Orderly s) (duty : RequesterDuty s) (ht : step s = .next t) : Orderly t := by
  refine orderly_stable.step_of_issue hs (fun p cw a0 a1 rest hscript u hu => ?_) ht
  exact orderly_issue (orderly_stable.script s rest hs) (fun len => duty p cw a0 a1 len rest hscript) hu

/-- Settles O59, as a part of what every step keeps together. -/
theorem areasKept : Obligations.AreasKept :=
  fun _ _ hinv howned hareas duty ht => (orderly_step ⟨hinv, howned, hareas⟩ duty ht).areas

/-! ### Where a step may stop (R9, R69, R270) -/

/-- The refusals that name a premise the environment has broken. -/
def Refusal.onPremise : Refusal → Bool
  | .notModelled _ => false
  | .misalignedRegsBase => true
  | .brokenPremise => true
  | .regionsOverlap => true
  | .badAllocation => true

/-- An answer that is no fault, and a refusal only where the environment has broken a premise. -/
def Answers : Result → Prop
  | .next _ => True
  | .fault _ => False
  | .refused e => e.onPremise = true

@[simp] theorem answers_next (s : State) : Answers (.next s) := trivial

@[simp] theorem answers_refused (e : Refusal) : Answers (.refused e) ↔ e.onPremise = true := Iff.rfl

theorem answers_iff {r : Result} :
    Answers r ↔ (∃ t, r = .next t) ∨ r = .refused .misalignedRegsBase ∨ r = .refused .brokenPremise ∨
      r = .refused .regionsOverlap ∨ r = .refused .badAllocation := by
  cases r with
  | next t => simp
  | fault e => simp [Answers]
  | refused e => cases e <;> simp [Refusal.onPremise]

theorem answers_of_eq_next {r : Result} {t : State} (h : r = .next t) : Answers r := h ▸ trivial

/-- A sequence answers when its first part does, and the second does from where the first ends. -/
theorem Answers.andThen {r : Result} {f : State → Result} (hr : Answers r) (hf : ∀ u, r = .next u → Answers (f u)) :
    Answers (andThen r f) := by
  cases r with
  | next u => exact hf u rfl
  | fault e => exact hr
  | refused e => exact hr

/-! ### Reads and allocations -/

/-- The block reads the status byte of a slot whose ring is written. -/
theorem answers_rdStatus {s : State} {r : Ring} {i : Nat} {k : Byte → State → Result}
    (hw : RingWritten s r s.cfg.n) (hi : i < s.cfg.n) (hk : ∀ b u, Answers (k b u)) : Answers (rdStatus r i s k) := by
  obtain ⟨b, hb⟩ := statusAt_isSome hw hi
  rw [rdStatus_eq, hb]
  exact hk _ _

/-- The block reads the length of a slot whose ring is written. -/
theorem answers_rdLength {s : State} {r : Ring} {i : Nat} {k : Len → State → Result}
    (hw : RingWritten s r s.cfg.n) (hi : i < s.cfg.n) (hk : ∀ l u, Answers (k l u)) : Answers (rdLength r i s k) := by
  have hread : (readBytes s.mem (field s.cfg r i offLen) 2).isSome = true := by
    refine readBytes_isSome 2 _ _ (fun j hj => ?_)
    rw [field_add]
    exact hw i hi _ (show 8 + j < 16 by omega)
  obtain ⟨v, hv⟩ := Option.isSome_iff_exists.mp hread
  unfold rdLength memRead
  rw [hv]
  exact hk _ _

/-- `BufAlloc` stops only on an answer R270 rules out. -/
theorem answers_bufAlloc {s : State} {k : AllocAnswer → State → Result} (hk : ∀ ans u, Answers (k ans u)) :
    Answers (bufAlloc s k) := by
  unfold bufAlloc
  split
  · exact hk _ _
  · exact hk _ _
  · split
    · exact hk _ _
    · rfl

/-! ### The engines' turns -/

theorem answers_stepX1 (s : State) : Answers (stepX1 s) := by
  unfold stepX1
  split <;> trivial

theorem answers_stepD0 (s : State) : Answers (stepD0 s) := by
  unfold stepD0
  split <;> trivial

theorem answers_stepI1 (s : State) : Answers (stepI1 s) := by
  unfold stepI1
  split
  · split <;> trivial
  · trivial
  · trivial

/-- The TX engine reads at `X3` only, in a `READY` block, whose TX ring INIT has written. -/
theorem answers_txTurn {s : State} (hs : Inv s) : Answers (txTurn s) := by
  unfold txTurn
  split
  · trivial
  · rename_i hm
    unfold txStep
    cases hp : s.tx.pc with
    | x1 => exact answers_stepX1 s
    | x3 =>
      have hr : s.mode = .ready := tx_mode hs hm (by simp [hp])
      refine answers_rdStatus (hs.rings hr).txDone (hs.slots.txIndex hr (by rw [hp]; rfl)) (fun b u => ?_)
      split <;> trivial
    | x4 => exact answers_of_eq_next (stepX4_eq s)
    | _ => trivial

/-- The RX engine reads at `D2` and `D3b` only, in a `READY` block, whose RX ring INIT has written. -/
theorem answers_rxTurn {s : State} (hs : Inv s) : Answers (rxTurn s) := by
  unfold rxTurn
  split
  · trivial
  · rename_i hm
    have ready : s.rx.pc ≠ .idle → s.mode = .ready := rx_mode hs hm
    unfold rxStep
    cases hp : s.rx.pc with
    | i1 => exact answers_stepI1 s
    | d0 => exact answers_stepD0 s
    | d2 =>
      have hr := ready (by simp [hp])
      exact answers_rdStatus (hs.rings hr).rxDone (hs.slots.rxIndex hr (by rw [hp]; rfl)) (fun _ _ => trivial)
    | d3a => exact answers_of_eq_next (stepD3a_eq s)
    | d3b =>
      have hr := ready (by simp [hp])
      exact answers_rdLength (hs.rings hr).rxDone (hs.slots.rxIndex hr (by rw [hp]; rfl)) (fun _ _ => trivial)
    | d5 => exact answers_bufAlloc (fun ans _ => by cases ans <;> trivial)
    | _ => trivial

theorem answers_stepN9 (s : State) : Answers (stepN9 s) := by
  unfold stepN9
  split
  · exact answers_bufAlloc (fun ans _ => by cases ans <;> trivial)
  · trivial
  · trivial

/-- The sequencer reads no memory at all: only its allocations can stop it. -/
theorem answers_initTurn (s : State) : Answers (initTurn s) := by
  unfold initTurn
  split
  · trivial
  · unfold initStep
    cases s.ini.pc with
    | n6 => exact answers_of_eq_next (stepN6_eq s)
    | n7 => exact answers_of_eq_next (ringCheck_eq .tx .n8a s)
    | n9 => exact answers_stepN9 s
    | n10 => exact answers_of_eq_next (ringCheck_eq .rx .n11a s)
    | n12b => exact answers_of_eq_next (stepN12b_eq s)
    | _ => trivial

/-! ### Grants and runs -/

theorem answers_grantTx (p : Nat) (s : State) : Answers (grantTx p s) := by
  unfold grantTx
  split
  · exact answers_stepX1 _
  · trivial

theorem answers_grantRx (src : Source) (s : State) : Answers (grantRx src s) := by
  unfold grantRx
  split
  · rename_i kind _
    cases kind with
    | intr => exact answers_stepI1 _
    | drain => exact answers_stepD0 _
  · trivial

theorem answers_runTx : ∀ (k : Nat) {s : State}, Inv s → Answers (runTx k s)
  | 0, _, _ => trivial
  | k + 1, s, hs => by
    rw [runTx]
    split
    · trivial
    · exact (answers_txTurn hs).andThen (fun u hu => answers_runTx k (inv_tx s u hs hu))

theorem answers_runRx : ∀ (k : Nat) {s : State}, Inv s → Answers (runRx k s)
  | 0, _, _ => trivial
  | k + 1, s, hs => by
    rw [runRx]
    split
    · trivial
    · exact (answers_rxTurn hs).andThen (fun u hu => answers_runRx k (inv_rx s u hs hu))

theorem answers_runInit : ∀ (k : Nat) (s : State), Answers (runInit k s)
  | 0, _ => trivial
  | k + 1, s => by
    rw [runInit]
    split
    · trivial
    · exact (answers_initTurn s).andThen (fun u _ => answers_runInit k u)

theorem answers_serveTx (p : Nat) {s : State} (hs : Inv s) : Answers (serveTx p s) := by
  unfold serveTx
  split
  · exact (answers_grantTx p s).andThen (fun u hu => answers_runTx _ (inv_grantTx p s u hs hu))
  · trivial

theorem answers_serveRx (src : Source) {s : State} (hs : Inv s) : Answers (serveRx src s) := by
  unfold serveRx
  split
  · exact (answers_grantRx src s).andThen (fun u hu => answers_runRx _ (inv_grantRx src s u hs hu))
  · trivial

theorem answers_serveInit (accepted : Bool) (s : State) : Answers (serveInit accepted s) := by
  unfold serveInit
  split
  · exact answers_runInit _ s
  · trivial

/-! ### Acceptance -/

/-- The acceptor turns to a port that exists, so a command there is decided (R21, R232). -/
theorem answers_issueCommand {i : Instr} {start : Port → State → Result} {s : State} {q : Port}
    (hq : s.ports[s.sel]? = some q) (hstart : ∀ u, Answers (start q u)) : Answers (issueCommand i start s) := by
  unfold issueCommand
  rw [hq]
  dsimp only
  split
  · trivial
  · trivial
  · exact hstart _

/-- An accepted INIT stops only on a broken premise of R9 or R69. -/
theorem answers_startInit (q : Port) (s : State) : Answers (startInit q s) := by
  unfold startInit
  split
  · split
    · trivial
    · rfl
  · rfl

theorem answers_issueBy (i : Instr) {s : State} {q : Port} (hq : s.ports[s.sel]? = some q) : Answers (issueBy i s) := by
  cases i with
  | init => exact answers_issueCommand hq (answers_startInit q)
  | xmit len => exact answers_issueCommand hq (fun _ => trivial)
  | intr => exact answers_issueCommand hq (fun _ => trivial)
  | drain => exact answers_issueCommand hq (fun _ => trivial)

/-- The port of an enabled `Issue(p)`, with the command presented (R231). -/
theorem exists_present_port {s : State} {p : Nat} (hc : canIssue s p = true) (cw : Word) (a0 a1 : BitVec 64) :
    ∃ q, (present p cw a0 a1 s).ports[p]? = some q ∧ q.cw = cw := by
  obtain ⟨q, hq, _⟩ := canIssue_iff.mp hc
  exact ⟨_, present_port hq cw a0 a1, rfl⟩

/-- What is sampled at an enabled port is the word presented there (R231). -/
theorem fetch_present {s : State} {p : Nat} (hc : canIssue s p = true) (cw : Word) (a0 a1 : BitVec 64) :
    fetch (present p cw a0 a1 s) = some (decode cw) := by
  obtain ⟨q, hq, hcw⟩ := exists_present_port hc cw a0 a1
  unfold fetch
  rw [show (present p cw a0 a1 s).sel = p from rfl, hq, ← hcw]

/-- `Issue(p)` of a legal word is the acceptance of its command. -/
theorem issueEvent_of_command {s : State} {p : Nat} {cw : Word} {i : Instr} (hc : canIssue s p = true)
    (hd : decode cw = .command i) (a0 a1 : BitVec 64) :
    issueEvent p cw a0 a1 s = issueBy i (present p cw a0 a1 s) := by
  rw [issueEvent, if_pos hc, fetch_present hc, hd]

theorem answers_issueEvent (p : Nat) (cw : Word) (a0 a1 : BitVec 64) (s : State) :
    Answers (issueEvent p cw a0 a1 s) := by
  by_cases hc : canIssue s p = true
  · cases hd : decode cw with
    | illegal why =>
      rw [issueEvent, if_pos hc, fetch_present hc, hd]
      trivial
    | command i =>
      obtain ⟨q, hq, _⟩ := exists_present_port hc cw a0 a1
      rw [issueEvent_of_command hc hd]
      exact answers_issueBy i hq
  · rw [issueEvent, if_neg hc]
    trivial

/-- A command is its acceptance and then the run of its engine, from a state with the invariant again. -/
theorem answers_exec {i : Instr} {s : State} (hi : Answers (issueBy i s)) (hinv : ∀ u, issueBy i s = .next u → Inv u) :
    Answers (exec i s) := by
  cases i with
  | init => exact hi.andThen (fun u _ => answers_serveInit _ u)
  | xmit len => exact hi.andThen (fun u hu => answers_serveTx _ (hinv u hu))
  | intr => exact hi.andThen (fun u hu => answers_serveRx _ (hinv u hu))
  | drain => exact hi.andThen (fun u hu => answers_serveRx _ (hinv u hu))

theorem answers_callEvent (p : Nat) (cw : Word) (a0 a1 : BitVec 64) {s : State} (hs : Inv s) :
    Answers (callEvent p cw a0 a1 s) := by
  by_cases hc : canIssue s p = true
  · rw [callEvent, if_pos hc, fetch_present hc]
    cases hd : decode cw with
    | illegal why => trivial
    | command i =>
      have hissue := issueEvent_of_command hc hd a0 a1
      exact answers_exec (hissue ▸ answers_issueEvent p cw a0 a1 s)
        (fun u hu => inv_issue p cw a0 a1 s u hs (hissue.trans hu))
  · rw [callEvent, if_neg hc]
    trivial

/-! ### The device and every step -/

/-- A store of the device that fits its buffer stops only where it would lie over a ring or the register block (R9). -/
theorem answers_guardedStore {fits clear : Prop} [Decidable fits] [Decidable clear] (s t : State) :
    Answers (if fits then if clear then .next t else .refused .regionsOverlap else .next s) := by
  split
  · split
    · trivial
    · rfl
  · trivial

theorem answers_devRxFill (at_ : Option Nat) (frame : List Byte) (st : Byte) (s : State) :
    Answers (devRxFill at_ frame st s) := by
  unfold devRxFill
  split
  · trivial
  · split
    · trivial
    · exact answers_guardedStore s _

theorem answers_devRxData (at_ : Option Nat) (k : Nat) (b : Byte) (s : State) : Answers (devRxData at_ k b s) := by
  unfold devRxData
  split
  · trivial
  · split
    · trivial
    · exact answers_guardedStore s _

theorem answers_agentEvent (e : Event) {s : State} (hs : Inv s) : Answers (agentEvent e s) := by
  cases e with
  | issue p cw a0 a1 => exact answers_issueEvent p cw a0 a1 s
  | grantTx p => exact answers_grantTx p s
  | grantRx src => exact answers_grantRx src s
  | tx => exact answers_txTurn hs
  | rx => exact answers_rxTurn hs
  | init => exact answers_initTurn s
  | serveIrq => exact answers_serveRx .irq hs
  | devRxFill at_ frame st => exact answers_devRxFill at_ frame st s
  | devRxData at_ k b => exact answers_devRxData at_ k b s
  | _ => trivial

theorem answers_step {s : State} (hs : Inv s) : Answers (step s) := by
  cases hscript : s.script with
  | nil => exact answers_of_eq_next (step_of_script_nil hscript)
  | cons e rest =>
    have hs' : Inv { s with script := rest } := inv_congr hs rfl hs.shaped.owner
    by_cases hcall : ∃ p cw a0 a1, e = .call p cw a0 a1
    · obtain ⟨p, cw, a0, a1, rfl⟩ := hcall
      rw [step_of_call hscript]
      exact answers_callEvent p cw a0 a1 hs'
    · rw [step_of_agentEvent hscript (fun p cw a0 a1 he => hcall ⟨p, cw, a0, a1, he⟩)]
      exact answers_agentEvent e hs'

/-- Settles O55: the block reads slots of written rings only, and each refusal names its premise. -/
theorem neverFaults : Obligations.NeverFaults :=
  fun _ hs => answers_iff.mp (answers_step hs)

end Sys2Proof.Machine
end

section
/-! The statements of 10_state.md: the values after block reset, the invariants at reset and along every step, the legal
changes of mode, and what a command of one port leaves alone. -/

namespace Sys2Proof.Machine

/-! ### The invariant and the ownership along every step (R53, R136) -/

theorem inv_stable : Stable Inv where
  script _ _ h := inv_congr h rfl h.shaped.owner
  grantTx := inv_grantTx
  grantRx := inv_grantRx
  tx := inv_tx
  rx := inv_rx
  init := inv_init
  irq := inv_irq
  alloc _ _ h := inv_congr h rfl h.shaped.owner
  txDone at_ st cause s h := (devMove_txDone at_ st cause s).inv h
  rxFill _ _ _ _ _ h ht := (devMove_rxFill ht).inv h
  devByte r at_ off b s h := (devMove_byte r at_ off b s).inv h
  rxData _ _ _ _ _ h ht := (devMove_rxData ht).inv h
  raise s h := (devMove_raise s).inv h
  own := inv_own
  reset := inv_reset

theorem inv_step {s t : State} (hs : Inv s) (ht : step s = .next t) : Inv t := inv_stable.step inv_issue hs ht

/-- Settles O54: every micro-step, every move of the environment and every `Issue` keeps the invariant. -/
theorem invKept : Obligations.InvKept := fun _ _ => inv_step

/-- The invariant and the ownership together, as each move keeps the ownership only in a state of the machine. -/
structure Accounted (s : State) : Prop where
  inv   : Inv s
  owned : Owned s

theorem DevMove.accounted {s t : State} (h : DevMove s t) (hs : Accounted s) : Accounted t :=
  ⟨h.inv hs.inv, h.owned hs.owned⟩

theorem owned_irq {s : State} (h : Owned s) : Owned (latchIrq (deliverSignal s)) := by
  unfold latchIrq
  split <;> exact owned_rest h rfl

theorem accounted_stable : Stable Accounted where
  script s l h := ⟨inv_stable.script s l h.inv, owned_rest h.owned rfl⟩
  grantTx p s t h ht := ⟨inv_grantTx p s t h.inv ht, owned_grantTx h.inv h.owned ht⟩
  grantRx src s t h ht := ⟨inv_grantRx src s t h.inv ht, owned_grantRx h.inv h.owned ht⟩
  tx s t h ht := ⟨inv_tx s t h.inv ht, owned_tx h.inv h.owned ht⟩
  rx s t h ht := ⟨inv_rx s t h.inv ht, owned_rx h.inv h.owned ht⟩
  init s t h ht := ⟨inv_init s t h.inv ht, owned_init h.inv h.owned ht⟩
  irq s h := ⟨inv_irq s h.inv, owned_irq h.owned⟩
  alloc ans s h := ⟨inv_stable.alloc ans s h.inv, owned_rest h.owned rfl⟩
  txDone at_ st cause s h := (devMove_txDone at_ st cause s).accounted h
  rxFill _ _ _ _ _ h ht := (devMove_rxFill ht).accounted h
  devByte r at_ off b s h := (devMove_byte r at_ off b s).accounted h
  rxData _ _ _ _ _ h ht := (devMove_rxData ht).accounted h
  raise s h := (devMove_raise s).accounted h
  own x o a s h := ⟨inv_own x o a s h.inv, owned_own x o a h.inv h.owned⟩
  reset s h := ⟨inv_reset s h.inv, owned_reset s⟩

/-- A step whose requester owns the buffer it submits (R276 (b)) keeps the invariant and the ownership. -/
theorem accounted_step {s t : State} (hs : Accounted s) (duty : RequesterDuty s) (ht : step s = .next t) :
    Accounted t := by
  refine accounted_stable.step_of_issue hs (fun p cw a0 a1 rest hscript u hu => ?_) ht
  have hs' := accounted_stable.script s rest hs
  exact ⟨inv_issue p cw a0 a1 _ u hs'.inv hu,
    owned_issue hs'.inv hs'.owned (fun len => duty p cw a0 a1 len rest hscript) hu⟩

/-- Settles O56, as a part of what every step keeps together. -/
theorem ownedKept : Obligations.OwnedKept :=
  fun _ _ hinv howned duty ht => (accounted_step ⟨hinv, howned⟩ duty ht).owned

/-! ### Reset (R54, R55) -/

theorem txShadowAt_blockReset (s : State) (i : Nat) : txShadowAt (blockReset s) i = 0 := by
  simp [txShadowAt, blockReset]

theorem rxShadowAt_blockReset (s : State) (i : Nat) : rxShadowAt (blockReset s) i = 0 := by
  simp [rxShadowAt, blockReset]

/-- Settles O9: the event is the block reset itself. -/
theorem resetValues : Obligations.ResetValues := by
  intro s rest hscript
  refine ⟨blockReset { s with script := rest }, step_of_agentEvent hscript (by simp), rfl, rfl, rfl, rfl, rfl,
    fun i => ⟨txShadowAt_blockReset _ i, rxShadowAt_blockReset _ i⟩, List.length_replicate, List.length_replicate,
    rfl, rfl, rfl, List.length_replicate, fun q hq => ?_⟩
  obtain rfl : q = Port.reset := List.eq_of_mem_replicate hq
  exact ⟨rfl, rfl, rfl⟩

/-- The machine of `State.resetWith` as it would stand after a fatal halt: a block reset brings it back. -/
def haltedAtReset (c : Config) : State := { State.resetWith c with mode := .fatal, fcause := .nobufInit }

theorem blockReset_haltedAtReset (c : Config) : blockReset (haltedAtReset c) = State.resetWith c := rfl

theorem shaped_haltedAtReset (c : Config) : Shaped (haltedAtReset c) where
  mem := ⟨.nil, by simp [haltedAtReset, State.resetWith]⟩
  owner := .nil
  bufLen := .nil
  ports := List.length_replicate
  txShadow := List.length_replicate
  rxShadow := List.length_replicate

theorem inv_resetWith (c : Config) : Inv (State.resetWith c) :=
  blockReset_haltedAtReset c ▸ inv_reset (haltedAtReset c)
    (inv_fatal rfl (shaped_haltedAtReset c) (by simp [haltedAtReset]))

/-- No buffer is live at reset, so no area is (log entry 25). -/
theorem areas_resetWith (c : Config) : AreasOk (State.resetWith c) where
  live h := by simp [State.resetWith, ownerOf, lookup]
  rising := .nil
  rings := by simp [State.resetWith]
  regs := by simp [State.resetWith]
  apart := .nil

/-- Settles O53: the machine after reset is a block reset of a halted machine, with no buffer out of the pool. -/
theorem invAtReset : Obligations.InvAtReset :=
  ⟨fun c => ⟨inv_resetWith c, blockReset_haltedAtReset c ▸ owned_reset (haltedAtReset c), areas_resetWith c⟩,
    inv_resetWith Config.hw⟩

/-! ### The device's reset (R44, R203) -/

theorem initTurn_n3a {s : State} (hm : s.mode ≠ .fatal) (hp : s.ini.pc = .n3a) : initTurn s = .next (afterN3a s) := by
  rw [initTurn, if_neg hm, initStep, hp]
  rfl

theorem initTurn_n3b {s : State} (hm : s.mode ≠ .fatal) (hp : s.ini.pc = .n3b) :
    initTurn s = .next (goInit .n4 (regWrite .ctrl (s.ini.c ||| s.cfg.ctrlRst) s)) := by
  rw [initTurn, if_neg hm, initStep, hp]
  rfl

/-- Settles O39: `N3a` latches the word it reads, and `N3b` writes that latch back with `CTRL_RST` set. -/
theorem initResetsDevice : Obligations.InitResetsDevice := by
  intro s hm hp
  exact ⟨afterN3a s, _, Config.freeWord s.draws, initTurn_n3a hm hp, initTurn_n3b (s := afterN3a s) hm rfl,
    rfl, rfl, rfl, rfl, rfl⟩

/-! ### The ports of other sources (R22, R240) -/

/-- Every port but the one of this source is as it was. -/
def PortsKept (src : Source) (s t : State) : Prop := ∀ j, src ≠ .port j → t.ports[j]? = s.ports[j]?

theorem PortsKept.of_eq {src : Source} {s t : State} (h : t.ports = s.ports) : PortsKept src s t :=
  fun j _ => by rw [h]

theorem PortsKept.trans {src : Source} {s t u : State} (h1 : PortsKept src s t) (h2 : PortsKept src t u) :
    PortsKept src s u := fun j hj => (h2 j hj).trans (h1 j hj)

theorem portsKept_updatePort (p : Nat) (f : Port → Port) (s : State) : PortsKept (.port p) s (updatePort p f s) := by
  intro j hj
  rw [updatePort_getElem, if_neg (fun he => hj (congrArg Source.port he))]

theorem portsKept_respond (src : Source) (r : Reason) (s : State) : PortsKept src s (respond src r s) := by
  cases src with
  | port p => exact portsKept_updatePort p _ s
  | irq => exact .of_eq rfl

/-- An answer to the source, from ports and to ports that are otherwise the same. -/
theorem PortsKept.answered {src : Source} {s t : State} (r : Reason) (u : State) (hu : u.ports = s.ports)
    (ht : t.ports = (respond src r u).ports) : PortsKept src s t :=
  ((PortsKept.of_eq hu).trans (portsKept_respond src r u)).trans (.of_eq ht)

theorem portsKept_unqueueSource (src : Source) (s : State) : PortsKept src s (unqueueSource src s) := by
  cases src with
  | port p => exact portsKept_updatePort p _ s
  | irq => exact .of_eq rfl

theorem portsKept_raised (p : Nat) (cw : Word) (a0 a1 : BitVec 64) (s : State) :
    PortsKept (.port p) s (raiseRequest p (present p cw a0 a1 s)) :=
  PortsKept.trans (t := present p cw a0 a1 s) (portsKept_updatePort p _ s) (portsKept_updatePort p _ _)

/-! ### What a turn of each engine leaves -/

/-- The TX engine answers at its own command's port only, and keeps that port. -/
theorem txTurn_port {s t : State} (h : txTurn s = .next t) : t.tx.p = s.tx.p ∧ PortsKept (.port s.tx.p) s t := by
  rcases txTurn_cases h with rfl | ⟨_, hc⟩
  · exact ⟨rfl, .of_eq rfl⟩
  rcases hc with ⟨_, _, rfl⟩ | ⟨_, rfl⟩ | ⟨_, b, _, rfl⟩ | ⟨_, rfl⟩ | ⟨_, rfl⟩ | ⟨_, rfl⟩ | ⟨_, rfl⟩ | ⟨_, rfl⟩ |
    ⟨_, rfl⟩ | ⟨_, rfl⟩ | ⟨_, rfl⟩
  · exact ⟨rfl, .of_eq rfl⟩
  · exact ⟨rfl, .of_eq rfl⟩
  · unfold afterX3
    split
    · exact ⟨rfl, .of_eq rfl⟩
    · exact ⟨rfl, .answered .busy (freeTx s) rfl rfl⟩
  · unfold afterX4
    split <;> exact ⟨by simp [goTx], .of_eq (by simp)⟩
  · exact ⟨rfl, .of_eq rfl⟩
  · exact ⟨rfl, .of_eq rfl⟩
  · exact ⟨rfl, .of_eq rfl⟩
  · exact ⟨rfl, .of_eq rfl⟩
  · exact ⟨rfl, .of_eq rfl⟩
  · exact ⟨rfl, .of_eq rfl⟩
  · exact ⟨rfl, .answered .ok (freeTx s) rfl rfl⟩

/-- The RX engine answers its own command's source only, and keeps that source. -/
theorem rxTurn_port {s t : State} (h : rxTurn s = .next t) : t.rx.src = s.rx.src ∧ PortsKept s.rx.src s t := by
  rcases rxTurn_cases h with rfl | ⟨_, hc⟩
  · exact ⟨rfl, .of_eq rfl⟩
  rcases hc with ⟨_, _, _, rfl⟩ | ⟨_, rfl⟩ | ⟨_, _, rfl⟩ | ⟨_, rfl⟩ | ⟨_, b, _, rfl⟩ | ⟨_, rfl⟩ | ⟨_, v, _, rfl⟩ |
    ⟨_, rfl⟩ | ⟨_, rfl⟩ | ⟨_, rest, _, rfl⟩ | ⟨_, hd, a, rest, _, _, rfl⟩ | ⟨_, rfl⟩ | ⟨_, rfl⟩ | ⟨_, rfl⟩ | ⟨_, rfl⟩ |
    ⟨_, rfl⟩ | ⟨_, rfl⟩
  · unfold afterI1
    split <;> exact ⟨rfl, .of_eq rfl⟩
  · exact ⟨rfl, .of_eq rfl⟩
  · exact ⟨rfl, .of_eq rfl⟩
  · exact ⟨rfl, .of_eq rfl⟩
  · exact ⟨rfl, .of_eq rfl⟩
  · unfold afterD3a
    split <;> exact ⟨rfl, .of_eq rfl⟩
  · exact ⟨rfl, .of_eq rfl⟩
  · exact ⟨rfl, .of_eq rfl⟩
  · exact ⟨rfl, .of_eq rfl⟩
  · exact ⟨rfl, .of_eq rfl⟩
  · rw [afterD5_eq]
    exact ⟨rfl, .of_eq rfl⟩
  · exact ⟨rfl, .of_eq rfl⟩
  · exact ⟨rfl, .of_eq rfl⟩
  · exact ⟨rfl, .of_eq rfl⟩
  · exact ⟨rfl, .of_eq rfl⟩
  · exact ⟨rfl, .of_eq rfl⟩
  · exact ⟨by simp, .answered .ok (freeRx s) rfl rfl⟩

/-- What the INIT sequencer leaves: the configuration, its command's port, and every other port. Beside halting the block
it changes the mode at its end only, to `READY` (R28). -/
structure InitMove (s t : State) : Prop where
  cfg   : t.cfg = s.cfg
  port  : t.ini.p = s.ini.p
  ports : PortsKept (.port s.ini.p) s t
  mode  : t.mode = s.mode ∧ t.fcause = s.fcause ∨
    s.mode ≠ .fatal ∧ s.ini.pc ≠ .idle ∧ (t.mode = .fatal ∨ t.mode = .ready ∧ t.fcause = s.fcause)

theorem InitMove.of_eq {s t : State} (cfg : t.cfg = s.cfg) (port : t.ini.p = s.ini.p) (ports : t.ports = s.ports)
    (mode : t.mode = s.mode) (fcause : t.fcause = s.fcause) : InitMove s t :=
  ⟨cfg, port, .of_eq ports, .inl ⟨mode, fcause⟩⟩

/-- A fatal halt of the sequencer (R296). -/
theorem InitMove.of_halt {s t : State} (hm : s.mode ≠ .fatal) (hp : s.ini.pc ≠ .idle) (cfg : t.cfg = s.cfg)
    (port : t.ini.p = s.ini.p) (ports : t.ports = s.ports) (mode : t.mode = .fatal) : InitMove s t :=
  ⟨cfg, port, .of_eq ports, .inr ⟨hm, hp, .inl mode⟩⟩

/-- The end of a loop's round moves the sequencer only. -/
theorem InitMove.nextRound {s t : State} (h : InitMove s t) (count : Nat) (after : InitPc) :
    InitMove s (nextRound count after t) := by
  unfold Machine.nextRound
  split <;> exact ⟨h.cfg, h.port, h.ports, h.mode⟩

/-- A device register write changes the device only. -/
theorem initMove_regWrite (r : Reg) (v : Word) (s : State) : InitMove s (regWrite r v s) :=
  .of_eq (by simp) (by simp) (by simp) (by simp) (by simp)

theorem initMove_check (r : Ring) (next : InitPc) {s : State} (hm : s.mode ≠ .fatal) (hp : s.ini.pc ≠ .idle) :
    InitMove s (afterCheck r next s) := by
  unfold afterCheck
  split
  · split
    · exact .of_eq rfl rfl rfl rfl rfl
    · exact .of_halt hm hp rfl rfl rfl rfl
  · exact .of_halt hm hp rfl rfl rfl rfl

theorem initMove_turn {s t : State} (h : initTurn s = .next t) : InitMove s t := by
  rcases initTurn_cases h with rfl | ⟨hm, hc⟩
  · exact .of_eq rfl rfl rfl rfl rfl
  rcases hc with ⟨r, v, n, _, rfl⟩ | ⟨_, rfl⟩ | ⟨_, rfl⟩ | ⟨_, rfl⟩ | ⟨hp, rfl⟩ | ⟨_, rfl⟩ | ⟨_, rfl⟩ | ⟨hp, hst⟩ |
    ⟨hp, rfl⟩ | ⟨_, rfl⟩ | ⟨_, rfl⟩ | ⟨_, rfl⟩ | ⟨hp, rfl⟩
  · exact .of_eq (by simp) (by simp [goInit]) (by simp) (by simp) (by simp)
  · exact .of_eq rfl rfl rfl rfl rfl
  · exact .of_eq rfl rfl rfl rfl rfl
  · unfold afterN6
    split
    · exact .of_eq rfl rfl rfl rfl rfl
    · exact .of_eq rfl rfl rfl rfl rfl
    · exact InitMove.nextRound (.of_eq (by simp) (by simp) (by simp) (by simp) (by simp)) _ _
  · exact initMove_check _ _ hm (by simp [hp])
  · exact .of_eq rfl rfl rfl rfl rfl
  · exact .of_eq rfl rfl rfl rfl rfl
  · rcases stepN9_next hst with ⟨_, rest, _, rfl⟩ | ⟨_, hd, a, rest, _, _, rfl⟩ | ⟨_, rfl⟩ | ⟨_, rfl⟩
    · exact .of_halt hm (by simp [hp]) rfl rfl rfl rfl
    · rw [afterN9_eq]
      exact .of_eq rfl rfl rfl rfl rfl
    · exact .of_eq rfl rfl rfl rfl rfl
    · unfold lentN9
      exact InitMove.nextRound (.of_eq (by simp) (by simp) (by simp) (by simp) (by simp)) _ _
  · exact initMove_check _ _ hm (by simp [hp])
  · exact .of_eq rfl rfl rfl rfl rfl
  · unfold afterN12b
    split <;> exact .of_eq rfl rfl rfl rfl rfl
  · exact (initMove_regWrite _ _ s).nextRound _ _
  · exact ⟨rfl, rfl, .answered .ok (freeRx (freeTx s)) rfl rfl, .inr ⟨hm, by simp [hp], .inr ⟨rfl, rfl⟩⟩⟩

/-- What `Issue(p)` leaves: the configuration and every other port, and the mode and cause unless it is the INIT an
`UNINIT` block accepts (R22, R202, R232). -/
structure IssueMove (p : Nat) (cw : Word) (s t : State) : Prop where
  cfg   : t.cfg = s.cfg
  ports : PortsKept (.port p) s t
  mode  : t.mode = s.mode ∧ t.fcause = s.fcause ∨ s.mode = .uninit ∧ decode cw = .command .init

theorem IssueMove.of_eq {p : Nat} {cw : Word} {s t : State} (ports : PortsKept (.port p) s t) (cfg : t.cfg = s.cfg)
    (mode : t.mode = s.mode) (fcause : t.fcause = s.fcause) : IssueMove p cw s t :=
  ⟨cfg, ports, .inl ⟨mode, fcause⟩⟩

theorem issueMove_event {p : Nat} {cw : Word} {a0 a1 : BitVec 64} {s t : State}
    (h : issueEvent p cw a0 a1 s = .next t) : IssueMove p cw s t := by
  have raised := portsKept_raised p cw a0 a1 s
  have answered : ∀ r, PortsKept (.port p) s (respond (.port p) r (raiseRequest p (present p cw a0 a1 s))) :=
    fun r => raised.trans (portsKept_respond _ r _)
  rcases issueEvent_cases h with ⟨rfl, _⟩ | ⟨q, _, _, ⟨why, _, rfl⟩ | ⟨i, hd, ⟨_, rfl⟩ | ⟨r, _, rfl⟩ |
    ⟨hacc, ⟨rfl, _, _, rfl⟩ | ⟨_, rfl⟩⟩⟩⟩
  · exact .of_eq (.of_eq rfl) rfl rfl rfl
  · unfold issueIllegal
    split
    · exact .of_eq raised rfl rfl rfl
    · exact .of_eq (answered _) rfl rfl rfl
  · exact .of_eq raised rfl rfl rfl
  · exact .of_eq (answered r) rfl rfl rfl
  · exact ⟨rfl, raised.trans (.of_eq rfl), .inr ⟨decideOn_init_accept hacc, hd⟩⟩
  · exact .of_eq (raised.trans (portsKept_updatePort p _ _)) rfl rfl rfl

/-! ### The configuration (R14) -/

theorem DevMove.cfg_eq {s t : State} (h : DevMove s t) : t.cfg = s.cfg := by rw [h.rest]

theorem cfg_moveBuffer (h : Handle) (o : Owner) (a : Addr) (s : State) : (moveBuffer h o a s).cfg = s.cfg := by
  rcases moveBuffer_cases h o a s with he | ⟨_, _, _, ⟨_, he⟩ | ⟨_, _, he⟩ | ⟨_, _, he⟩⟩ <;> rw [he] <;> rfl

theorem cfg_latchIrq (s : State) : (latchIrq s).cfg = s.cfg := by
  unfold latchIrq
  split <;> rfl

theorem cfg_stable (c : Config) : Stable (fun s => s.cfg = c) where
  script _ _ h := h
  grantTx _ _ _ h ht := (show _ = _ by rw [(txMove_grant ht).rest]).trans h
  grantRx _ _ _ h ht := (show _ = _ by rw [(rxMove_grant ht).rest]).trans h
  tx _ _ h ht := (show _ = _ by rw [(txMove_turn ht).rest]).trans h
  rx _ _ h ht := (show _ = _ by rw [(rxMove_turn ht).rest]).trans h
  init _ _ h ht := (initMove_turn ht).cfg.trans h
  irq s h := (cfg_latchIrq (deliverSignal s)).trans h
  alloc _ _ h := h
  txDone at_ st cause s h := (devMove_txDone at_ st cause s).cfg_eq.trans h
  rxFill _ _ _ _ _ h ht := (devMove_rxFill ht).cfg_eq.trans h
  devByte r at_ off b s h := (devMove_byte r at_ off b s).cfg_eq.trans h
  rxData _ _ _ _ _ h ht := (devMove_rxData ht).cfg_eq.trans h
  raise s h := (devMove_raise s).cfg_eq.trans h
  own x o a s h := (cfg_moveBuffer x o a s).trans h
  reset _ h := h

theorem cfg_step {s t : State} (h : step s = .next t) : t.cfg = s.cfg :=
  (cfg_stable s.cfg).step (fun _ _ _ _ _ _ hs hu => (issueMove_event hu).cfg.trans hs) rfl h

/-! ### A command line (R22) -/

/-- The run of a port's XMIT leaves every other port. -/
theorem portsKept_serveTx {p : Nat} {s t : State} (h : serveTx p s = .next t) : PortsKept (.port p) s t := by
  unfold serveTx at h
  split at h
  case h_2 => cases h; exact .of_eq rfl
  case h_1 w hw =>
    obtain ⟨u, hu, ht⟩ := andThen_eq_next.mp h
    have hgrant : u.tx.p = p ∧ PortsKept (.port p) s u := by
      rcases grantTx_cases hu with ⟨hn, _⟩ | ⟨len, hd, a, _, _, _, _, rfl⟩
      · rw [hn] at hw; cases hw
      · exact ⟨rfl, portsKept_updatePort p _ s⟩
    refine (Keeps.runTx (P := fun v => v.tx.p = p ∧ PortsKept (.port p) s v) ?_ _ u t hgrant ht).2
    rintro v w ⟨rfl, hv⟩ hvw
    obtain ⟨hp, hports⟩ := txTurn_port hvw
    exact ⟨hp, hv.trans hports⟩

/-- The run of a source's DRAIN or INTR leaves every port but the source's. -/
theorem portsKept_serveRx {src : Source} {s t : State} (h : serveRx src s = .next t) : PortsKept src s t := by
  unfold serveRx at h
  split at h
  case h_2 => cases h; exact .of_eq rfl
  case h_1 k hk =>
    obtain ⟨u, hu, ht⟩ := andThen_eq_next.mp h
    have hgrant : u.rx.src = src ∧ PortsKept src s u := by
      rcases grantRx_cases hu with ⟨hn, _⟩ | ⟨kind, _, _, _, _, rfl⟩
      · rw [hn] at hk; cases hk
      · have hports := portsKept_unqueueSource src s
        cases kind with
        | drain => exact ⟨rfl, hports⟩
        | intr => cases src <;> exact ⟨rfl, hports⟩
    refine (Keeps.runRx (P := fun v => v.rx.src = src ∧ PortsKept src s v) ?_ _ u t hgrant ht).2
    rintro v w ⟨rfl, hv⟩ hvw
    obtain ⟨hp, hports⟩ := rxTurn_port hvw
    exact ⟨hp, hv.trans hports⟩

/-- The run of the INIT sequencer leaves every port but its command's. -/
theorem portsKept_runInit {k : Nat} {s t : State} (h : runInit k s = .next t) : PortsKept (.port s.ini.p) s t := by
  refine (Keeps.runInit (P := fun v => v.ini.p = s.ini.p ∧ PortsKept (.port s.ini.p) s v) ?_ k s t
    ⟨rfl, .of_eq rfl⟩ h).2
  rintro v w ⟨hp, hv⟩ hvw
  have hmove := initMove_turn hvw
  exact ⟨hmove.port.trans hp, hv.trans (hp ▸ hmove.ports)⟩

/-- The sequencer runs in the event of an INIT's command line only where that INIT was accepted (R232, R233). -/
theorem callEvent_init {p : Nat} {cw : Word} {a0 a1 : BitVec 64} {s t : State} (hc : canIssue s p = true)
    (hd : decode cw = .command .init) (h : callEvent p cw a0 a1 s = .next t) :
    ∃ u, issueEvent p cw a0 a1 s = .next u ∧
      (t = u ∨ decideOn s.mode .init a0 = .accept ∧ runInit (initFuel u.cfg) u = .next t) := by
  rw [callEvent, if_pos hc, fetch_present hc, hd] at h
  obtain ⟨u, hu, ht⟩ := andThen_eq_next.mp h
  refine ⟨u, (issueEvent_of_command hc hd a0 a1).trans hu, ?_⟩
  obtain ⟨q, hq, _⟩ := canIssue_iff.mp hc
  have hdec : decisionAt .init (present p cw a0 a1 s) = decideOn s.mode .init a0 := by
    unfold decisionAt
    rw [show (present p cw a0 a1 s).sel = p from rfl, present_port hq]
    rfl
  rw [hdec] at ht
  unfold serveInit at ht
  split at ht
  case isTrue hacc => exact .inr ⟨of_decide_eq_true hacc, ht⟩
  case isFalse => cases ht; exact .inl rfl

/-- An accepted INIT has made its port the sequencer's. -/
theorem issueEvent_init_port {p : Nat} {cw : Word} {a0 a1 : BitVec 64} {s u : State}
    (hd : decode cw = .command .init) (hacc : decideOn s.mode .init a0 = .accept) (hc : canIssue s p = true)
    (h : issueEvent p cw a0 a1 s = .next u) : u.ini.p = p := by
  rcases issueEvent_cases h with ⟨_, hn⟩ | ⟨q, _, _, ⟨why, hd', _⟩ | ⟨i, hd', hi⟩⟩
  · rw [hc] at hn; cases hn
  · rw [hd] at hd'; cases hd'
  · obtain rfl : .init = i := by rw [hd] at hd'; exact Decoded.command.inj hd'
    rw [hacc] at hi
    rcases hi with ⟨hn, _⟩ | ⟨r, hn, _⟩ | ⟨_, ⟨_, _, _, rfl⟩ | ⟨hn, _⟩⟩
    · cases hn
    · cases hn
    · rfl
    · exact absurd rfl hn

theorem portsKept_callEvent {p : Nat} {cw : Word} {a0 a1 : BitVec 64} {s t : State}
    (h : callEvent p cw a0 a1 s = .next t) : PortsKept (.port p) s t := by
  rcases callEvent_eq h with hissue | ⟨i, u, hc, hd, hu, hserved⟩
  · exact (issueMove_event hissue).ports
  · have hports := (issueMove_event hu).ports
    cases i with
    | init =>
      obtain ⟨v, hv, rfl | ⟨hacc, hrun⟩⟩ := callEvent_init hc hd h
      · exact (issueMove_event hv).ports
      · have hp := issueEvent_init_port hd hacc hc hv
        exact (issueMove_event hv).ports.trans (hp ▸ portsKept_runInit hrun)
    | xmit len => exact hports.trans (portsKept_serveTx hserved)
    | intr => exact hports.trans (portsKept_serveRx hserved)
    | drain => exact hports.trans (portsKept_serveRx hserved)

/-- Settles O58: a command line's own run answers at its own port, and no move writes the configuration. -/
theorem portsApart : Obligations.PortsApart := by
  refine ⟨fun s t p cw a0 a1 rest hscript ht j hj => ?_, fun _ _ => cfg_step⟩
  rw [step_of_call hscript] at ht
  exact portsKept_callEvent ht j (fun he => hj (Source.port.inj he).symm)

/-! ### The mode (R28, R241, R310) -/

/-- The RX engine moves in a `READY` block only (R237). -/
theorem rxTurn_of_not_ready {s t : State} (hs : Inv s) (hm : s.mode ≠ .ready) (h : rxTurn s = .next t) : t = s := by
  by_cases hf : s.mode = .fatal
  · rw [rxTurn, if_pos hf] at h
    cases h; rfl
  · have hidle : s.rx.pc = .idle := not_not.mp (fun hp => hm (rx_mode hs hf hp))
    rw [rxTurn, if_neg hf, rxStep, hidle] at h
    cases h; rfl

/-- A grant does one micro-step that cannot halt the block. -/
theorem grantRx_mode {src : Source} {s t : State} (h : grantRx src s = .next t) :
    t.mode = s.mode ∧ t.fcause = s.fcause := by
  rcases grantRx_cases h with ⟨_, rfl⟩ | ⟨kind, _, _, _, _, rfl⟩
  · exact ⟨rfl, rfl⟩
  · cases kind <;> cases src <;> exact ⟨rfl, rfl⟩

/-- A condition on the mode and the cause that survives the two changes of a running block: INIT's end, and a fatal halt of
INIT or of a drain (R28, R296, R310). -/
structure Survives (A : Mode → FatalCause → Prop) : Prop where
  begins     : ∀ c, A .initing c → A .ready c
  initHalts  : ∀ c c', A .initing c → A .fatal c'
  drainHalts : ∀ c c', A .ready c → A .fatal c'

theorem DevMove.mode_eq {s t : State} (h : DevMove s t) : t.mode = s.mode ∧ t.fcause = s.fcause := by
  rw [h.rest]
  exact ⟨rfl, rfl⟩

theorem mode_moveBuffer (h : Handle) (o : Owner) (a : Addr) (s : State) :
    (moveBuffer h o a s).mode = s.mode ∧ (moveBuffer h o a s).fcause = s.fcause := by
  rcases moveBuffer_cases h o a s with he | ⟨_, _, _, ⟨_, he⟩ | ⟨_, _, he⟩ | ⟨_, _, he⟩⟩ <;> rw [he] <;> exact ⟨rfl, rfl⟩

theorem mode_latchIrq (s : State) : (latchIrq s).mode = s.mode ∧ (latchIrq s).fcause = s.fcause := by
  unfold latchIrq
  split <;> exact ⟨rfl, rfl⟩

/-- A state of the machine whose mode and cause meet a condition. -/
structure ModeMeets (A : Mode → FatalCause → Prop) (s : State) : Prop where
  inv  : Inv s
  mode : A s.mode s.fcause

theorem ModeMeets.same {A : Mode → FatalCause → Prop} {s t : State} (hs : ModeMeets A s) (ht : Inv t)
    (h : t.mode = s.mode ∧ t.fcause = s.fcause) : ModeMeets A t :=
  ⟨ht, by rw [h.1, h.2]; exact hs.mode⟩

theorem ModeMeets.rxTurn {A : Mode → FatalCause → Prop} (hA : Survives A) : Keeps (ModeMeets A) rxTurn := by
  intro s t hs ht
  by_cases hm : s.mode = .ready
  · rcases (rxMove_turn ht).mode with hsame | ⟨hfatal, _⟩
    · exact hs.same (inv_rx s t hs.inv ht) hsame
    · exact ⟨inv_rx s t hs.inv ht, hfatal ▸ hA.drainHalts s.fcause t.fcause (hm ▸ hs.mode)⟩
  · exact rxTurn_of_not_ready hs.inv hm ht ▸ hs

theorem ModeMeets.initTurn {A : Mode → FatalCause → Prop} (hA : Survives A) : Keeps (ModeMeets A) initTurn := by
  intro s t hs ht
  refine ⟨inv_init s t hs.inv ht, ?_⟩
  rcases (initMove_turn ht).mode with ⟨hmode, hcause⟩ | ⟨hm, hp, hend⟩
  · rw [hmode, hcause]
    exact hs.mode
  · have hinit : s.mode = .initing := ini_mode hs.inv hm hp
    rcases hend with hfatal | ⟨hready, hcause⟩
    · rw [hfatal]
      exact hA.initHalts s.fcause t.fcause (hinit ▸ hs.mode)
    · rw [hready, hcause]
      exact hA.begins s.fcause (hinit ▸ hs.mode)

theorem modeMeets_stableMoves {A : Mode → FatalCause → Prop} (hA : Survives A) : StableMoves (ModeMeets A) where
  script s l h := h.same (inv_stable.script s l h.inv) ⟨rfl, rfl⟩
  grantTx p s t h ht := h.same (inv_grantTx p s t h.inv ht) (by rw [(txMove_grant ht).rest]; exact ⟨rfl, rfl⟩)
  grantRx src s t h ht := h.same (inv_grantRx src s t h.inv ht) (grantRx_mode ht)
  tx s t h ht := h.same (inv_tx s t h.inv ht) (by rw [(txMove_turn ht).rest]; exact ⟨rfl, rfl⟩)
  rx := ModeMeets.rxTurn hA
  init := ModeMeets.initTurn hA
  irq s h := h.same (inv_irq s h.inv) (mode_latchIrq (deliverSignal s))
  alloc ans s h := h.same (inv_stable.alloc ans s h.inv) ⟨rfl, rfl⟩
  txDone at_ st cause s h := h.same ((devMove_txDone at_ st cause s).inv h.inv) (devMove_txDone at_ st cause s).mode_eq
  rxFill _ _ _ _ _ h ht := h.same ((devMove_rxFill ht).inv h.inv) (devMove_rxFill ht).mode_eq
  devByte r at_ off b s h := h.same ((devMove_byte r at_ off b s).inv h.inv) (devMove_byte r at_ off b s).mode_eq
  rxData _ _ _ _ _ h ht := h.same ((devMove_rxData ht).inv h.inv) (devMove_rxData ht).mode_eq
  raise s h := h.same ((devMove_raise s).inv h.inv) (devMove_raise s).mode_eq
  own x o a s h := h.same (inv_own x o a s h.inv) (mode_moveBuffer x o a s)

/-- The event issues an INIT: the one event that moves an `UNINIT` block on (R202). -/
def IssuesInit (e : Event) : Prop :=
  ∃ p cw a0 a1, (e = .call p cw a0 a1 ∨ e = .issue p cw a0 a1) ∧ decode cw = .command .init

/-- Such a condition is kept by a step that is no block reset, and, from `UNINIT`, issues no INIT. -/
theorem modeMeets_step {A : Mode → FatalCause → Prop} (hA : Survives A) {s t : State} {e : Event} {rest : List Event}
    (hs : ModeMeets A s) (hscript : s.script = e :: rest) (hreset : e ≠ .reset)
    (hinit : s.mode = .uninit → ¬ IssuesInit e) (ht : step s = .next t) : ModeMeets A t := by
  refine (modeMeets_stableMoves hA).step_of_issue hs (fun p cw a0 a1 l hl u hu => ?_) (fun l hl => ?_) ht
  · have hs' := (modeMeets_stableMoves hA).script s l hs
    refine hs'.same (inv_issue p cw a0 a1 _ u hs'.inv hu) ?_
    refine (issueMove_event hu).mode.resolve_right (fun ⟨huninit, hd⟩ => hinit huninit ⟨p, cw, a0, a1, ?_, hd⟩)
    rw [hscript] at hl
    exact hl.symm.imp (fun h => (List.cons.inj h).1) (fun h => (List.cons.inj h).1)
  · rw [hscript] at hl
    exact absurd (List.cons.inj hl).1 hreset

/-- Settles O15: one condition on mode and cause for each mode, each kept by the step. -/
theorem modeTransitions : Obligations.ModeTransitions := by
  intro s t e rest hs hscript ht hreset
  have kept : ∀ A : Mode → FatalCause → Prop, Survives A → A s.mode s.fcause →
      (s.mode = .uninit → ¬ IssuesInit e) → A t.mode t.fcause :=
    fun A hA hmode hinit => (modeMeets_step hA ⟨hs, hmode⟩ hscript hreset hinit ht).mode
  refine ⟨fun hm => ?_, fun hm => ?_, fun hm => ?_, fun hm hleft => ?_⟩
  · exact kept (fun m c => m = .fatal ∧ c = s.fcause) ⟨by simp, by simp, by simp⟩ ⟨hm, rfl⟩ (by simp [hm])
  · exact kept (fun m _ => m = .ready ∨ m = .fatal) ⟨by simp, by simp, by simp⟩ (.inl hm) (by simp [hm])
  · have hleft : t.mode ≠ .uninit :=
      kept (fun m _ => m ≠ .uninit) ⟨by simp, by simp, by simp⟩ (by simp [hm]) (by simp [hm])
    cases hmt : t.mode <;> simp_all
  · by_contra hno
    exact hleft (kept (fun m _ => m = .uninit) ⟨by simp, by simp, by simp⟩ hm (fun _ => hno))

end Sys2Proof.Machine
end

section
/-! The statements of 20_memory.md: what one access reads and writes, the accesses of a sending XMIT in their order, that
neither engine touches the other's ring, and the register blocks an INIT is refused with. -/

namespace Sys2Proof.Machine

/-! ### One access (R63, R66) -/

/-- The bytes of a value above the width of the write are ignored (R66). -/
theorem writeBytes_mod (n : Nat) : ∀ (m : Memory) (a : Addr) (v : Nat),
    writeBytes m a n (v % 256 ^ n) = writeBytes m a n v := by
  induction n with
  | zero => intro m a v; rfl
  | succ n ih =>
    intro m a v
    have hlow : BitVec.ofNat 8 (v % 256 ^ (n + 1)) = BitVec.ofNat 8 v := by
      apply BitVec.eq_of_toNat_eq
      simp only [BitVec.toNat_ofNat]
      exact Nat.mod_mod_of_dvd v (Dvd.intro_left (256 ^ n) rfl)
    have hhigh : v % 256 ^ (n + 1) / 256 = v / 256 % 256 ^ n := by
      rw [pow_succ', Nat.mod_mul_right_div_self]
    rw [writeBytes, writeBytes, hlow, hhigh, ih]

/-- Settles O51, by the laws of a written byte, of the bytes beside it, and of the value's width. -/
theorem memWriteLaw : Obligations.MemWriteLaw := by
  intro s a n v hn
  refine ⟨fun k hk => ?_, writeBytes_mod n s.mem a v, fun x hx => ?_, rfl⟩
  · exact byteAt_writeBytes_inside n s.mem a v k (by omega) hk
  · exact byteAt_writeBytes_outside n s.mem a x v hx

/-- A read of one byte more: the lowest byte, and the value of those above it (R63). -/
theorem readBytes_succ_eq_some {m : Memory} {a : Addr} {n v : Nat} :
    readBytes m a (n + 1) = some v ↔
      ∃ b w, byteAt m a = some b ∧ readBytes m (a + 1#64) n = some w ∧ b.toNat + 256 * w = v := by
  rw [readBytes]
  cases byteAt m a <;> cases readBytes m (a + 1#64) n <;> simp

/-- The value read fits the access, and its byte `k` is the byte at the address plus `k` (R63). -/
theorem readBytes_bytes (n : Nat) : ∀ {m : Memory} {a : Addr} {v : Nat}, readBytes m a n = some v →
    v < 256 ^ n ∧ ∀ k < n, byteAt m (a + BitVec.ofNat 64 k) = some (BitVec.ofNat 8 (v / 256 ^ k)) := by
  induction n with
  | zero =>
    intro m a v h
    cases h
    exact ⟨by decide, fun k hk => absurd hk k.not_lt_zero⟩
  | succ n ih =>
    intro m a v h
    obtain ⟨b, w, hb, hw, rfl⟩ := readBytes_succ_eq_some.mp h
    obtain ⟨hlt, hbytes⟩ := ih hw
    have hbt := b.isLt
    refine ⟨by rw [pow_succ]; omega, fun k hk => ?_⟩
    cases k with
    | zero =>
      have hlow : BitVec.ofNat 8 ((b.toNat + 256 * w) / 256 ^ 0) = b := by
        apply BitVec.eq_of_toNat_eq
        simp only [BitVec.toNat_ofNat, pow_zero, Nat.div_one]
        omega
      rw [hlow, ← hb, BitVec.add_zero]
    | succ k =>
      have hhigh : (b.toNat + 256 * w) / 256 = w := by omega
      rw [addr_succ, hbytes k (by omega), pow_succ', ← Nat.div_div_eq_div_mul, hhigh]

/-- Settles O52: a read of written bytes answers, with the value its bytes fix. -/
theorem memReadLaw : Obligations.MemReadLaw := by
  intro s a n next _ hwritten
  obtain ⟨v, hv⟩ := Option.isSome_iff_exists.mp (readBytes_isSome n s.mem a hwritten)
  refine ⟨v, ?_, readBytes_bytes n hv⟩
  rw [memRead, hv]
  rfl

/-! ### The accesses of XMIT (R75, R131, R151) -/

/-- `X2` and `X3` of an XMIT that finds DD set, up to `X4` (R154). -/
theorem runTx_tested {s : State} {q : Port} {len k : Nat} {b : Byte} (hm : s.mode ≠ .fatal)
    (hb : statusAt s .tx (xmitSlot s) = some b) (hd : dd b = true) :
    runTx (k + 2) (xmitStart len q s) =
      runTx k (sending s q len b .x4 s.mem s.txShadow s.owner s.areas s.dev
        (.memRead (field s.cfg .tx (xmitSlot s) 12) 1 b.toNat :: .regRead .tdt (regAddr s .tdt) s.dev.regs.tdt ::
          s.trace)) := by
  have h2 : txStep (xmitStart len q s) = .next (afterX2 (xmitStart len q s)) := rfl
  have h3 : txStep (afterX2 (xmitStart len q s)) = .next (afterX3 b (afterX2 (xmitStart len q s))) :=
    stepX3_eq (s := afterX2 (xmitStart len q s)) hb
  rw [runTx_step (by show TxPc.x2 ≠ .idle; decide) (by exact hm) h2,
    runTx_step (by show TxPc.x3 ≠ .idle; decide) (by exact hm) h3, afterX3, if_pos hd]
  rfl

/-- A sending XMIT runs through to its answer (R151). -/
theorem execXmit_sends {s : State} {q : Port} {len : Nat} {b : Byte} (hq : s.ports[s.sel]? = some q)
    (hm : s.mode = .ready) (ha : q.a0 ≠ 0) (hl : s.txLock = .free) (hb : statusAt s .tx (xmitSlot s) = some b)
    (hd : dd b = true) : exec (.xmit len) s = .next (sent s q len b) := by
  have hf : s.mode ≠ .fatal := by simp [hm]
  rw [execXmit_start hq hm ha hl, runTx_tested hf hb hd, runTx_sent hf hl]

/-- Settles O17: the record of the state a sending XMIT ends in. -/
theorem xmitAccesses : Obligations.XmitAccesses := by
  intro s t q len b hq hm ha hl hb hd ht
  rw [execXmit_sends hq hm ha hl hb hd] at ht
  cases ht
  rfl

/-! ### The two engines (R61, R237) -/

/-- Settles O41: a turn and a grant of the TX engine are TX moves, and its slot is one of its own ring. -/
theorem txLeavesRx : Obligations.TxLeavesRx := by
  intro s t p hs ht
  have h : TxMove s t := ht.elim txMove_turn txMove_grant
  exact ⟨by rw [h.rest], by rw [h.rest], by rw [h.rest], by rw [h.rest], by rw [h.rest], by rw [h.dev], by rw [h.dev],
    fun hm => h.keeps (hs.params (.inr hm)) (hs.slots.txIndex hm)⟩

/-- Settles O42: a turn and a grant of the RX engine are RX moves, and its slot is one of its own ring. -/
theorem rxLeavesTx : Obligations.RxLeavesTx := by
  intro s t src hs ht
  have h : RxMove s t := ht.elim rxMove_turn rxMove_grant
  obtain ⟨hregs, _, _⟩ := h.dev
  exact ⟨by rw [h.rest], by rw [h.rest], by rw [h.rest], by rw [hregs],
    fun hm => h.keeps (hs.params (.inr hm)) (hs.slots.rxIndex hm)⟩

/-! ### The register block of INIT (R9, R69) -/

/-- An accepted command does what its own start does (R233). -/
theorem issueCommand_accept {i : Instr} {start : Port → State → Result} {s : State} {q : Port}
    (hq : s.ports[s.sel]? = some q) (hd : decideOn s.mode i q.a0 = .accept) :
    issueCommand i start s = start q (raiseRequest s.sel s) := by
  unfold issueCommand
  rw [hq]
  dsimp only
  rw [hd]

/-- `INIT` in `UNINIT` stops where its start is refused, before `N1` (R202). -/
theorem execInit_refused {s : State} {q : Port} {r : Refusal} (hm : s.mode = .uninit) (hq : s.ports[s.sel]? = some q)
    (hr : startInit q (raiseRequest s.sel s) = .refused r) : exec .init s = .refused r := by
  have hd : decideOn s.mode .init q.a0 = .accept := by rw [hm]; rfl
  show andThen (issueCommand .init startInit s) _ = _
  rw [issueCommand_accept hq hd, hr, andThen_refused]

theorem regsBaseAligned_iff {a : Addr} : regsBaseAligned a = true ↔ a.toNat % 4 = 0 := by
  rw [regsBaseAligned, decide_eq_true_iff]

theorem startInit_misaligned {q : Port} {s : State} (h : q.a0.toNat % 4 ≠ 0) :
    startInit q s = .refused .misalignedRegsBase := by
  rw [startInit, if_neg (mt regsBaseAligned_iff.mp h)]

theorem startInit_notAllowed {q : Port} {s : State} (h : q.a0.toNat % 4 = 0) (hp : initAllowed s q.a0 = false) :
    startInit q s = .refused .brokenPremise := by
  rw [startInit, if_pos (regsBaseAligned_iff.mpr h), if_neg (by simp [hp])]

/-- Settles O36: the acceptance of INIT checks its register block first, then the other premises. -/
theorem initRefused : Obligations.InitRefused := fun _ _ hm hq =>
  ⟨fun h => execInit_refused hm hq (startInit_misaligned h),
    fun h hp => execInit_refused hm hq (startInit_notAllowed h hp)⟩

end Sys2Proof.Machine
end

section
/-! The statements of 30_encoding.md: the decoder and the encoder invert each other, the decoder reads the opcode table, and
which words are illegal, with what the block does with one. -/

namespace Sys2Proof

/-! ### The fields of a command's word (R91, R93 to R97) -/

/-- Field `opc` of a command's word. -/
def Instr.opcField : Instr → BitVec 4
  | .init => 1
  | .xmit _ => 2
  | .intr => 3
  | .drain => 4

/-- Field `len` of a command's word: 0 where the command has none (R91). -/
def Instr.lenField : Instr → Nat
  | .xmit len => len
  | _ => 0

theorem encode_eq_assemble (i : Instr) : encode i = assemble (BitVec.ofNat 16 i.lenField) 0 i.opcField := by
  cases i <;> rfl

theorem wf_iff_lenField_lt (i : Instr) : i.wf = true ↔ i.lenField < 65536 := by
  cases i <;> simp [Instr.wf, Instr.lenField]

theorem withoutLen_eq_command_iff {i j : Instr} {w : Word} :
    withoutLen j w = .command i ↔ j = i ∧ lenOf w = 0 := by
  by_cases h : lenOf w = 0
  · rw [withoutLen, if_pos h, Decoded.command.injEq, and_iff_left h]
  · rw [withoutLen, if_neg h]
    exact iff_of_false nofun (fun hj => h hj.2)

theorem decode_of_rsv_ne_zero {w : Word} (h : rsvOf w ≠ 0) : decode w = .illegal .reservedBits := by
  rw [decode, if_neg h]

/-- A word decodes to a command exactly when its three fields are those of the command's word. -/
theorem decode_eq_command_iff {w : Word} {i : Instr} :
    decode w = .command i ↔ rsvOf w = 0 ∧ opcOf w = i.opcField ∧ (lenOf w).toNat = i.lenField := by
  constructor
  · intro h
    by_cases hrsv : rsvOf w = 0
    · refine ⟨hrsv, ?_⟩
      rw [decode, if_pos hrsv] at h
      split at h
      case h_2 hopc =>
        cases h
        exact ⟨BitVec.eq_of_toNat_eq hopc, rfl⟩
      case h_5 => cases h
      all_goals
        rename_i hopc
        obtain ⟨rfl, hlen⟩ := withoutLen_eq_command_iff.mp h
        exact ⟨BitVec.eq_of_toNat_eq hopc, congrArg BitVec.toNat hlen⟩
    · rw [decode_of_rsv_ne_zero hrsv] at h
      cases h
  · rintro ⟨hrsv, hopc, hlen⟩
    rw [decode, if_pos hrsv, hopc]
    cases i with
    | xmit len => exact congrArg (fun n => Decoded.command (.xmit n)) hlen
    | _ => exact withoutLen_eq_command_iff.mpr ⟨rfl, BitVec.eq_of_toNat_eq hlen⟩

/-- The words that decode are the words of the well-formed commands. -/
theorem decode_eq_command_iff_encode {w : Word} {i : Instr} :
    decode w = .command i ↔ encode i = w ∧ i.wf = true := by
  rw [decode_eq_command_iff, wf_iff_lenField_lt, encode_eq_assemble]
  constructor
  · rintro ⟨hrsv, hopc, hlen⟩
    have hlt := (lenOf w).isLt
    rw [← hlen, ← hopc, BitVec.ofNat_toNat, BitVec.setWidth_eq, ← hrsv, assemble_fields]
    exact ⟨rfl, hlt⟩
  · rintro ⟨rfl, hlt⟩
    refine ⟨rsvOf_assemble _ _ _, opcOf_assemble _ _ _, ?_⟩
    rw [lenOf_assemble, BitVec.toNat_ofNat, Nat.mod_eq_of_lt hlt]

/-- Settles O1, since a word that is a well-formed command's decodes to it. -/
theorem decodeOfEncode : Obligations.DecodeOfEncode :=
  fun _ hwf => decode_eq_command_iff_encode.mpr ⟨rfl, hwf⟩

/-- Settles O2, the other half of the same equivalence. -/
theorem encodeOfDecode : Obligations.EncodeOfDecode :=
  fun _ _ hd => decode_eq_command_iff_encode.mp hd

/-- Settles O4: each word is evaluated. -/
theorem wordsDecode : Obligations.WordsDecode := by
  refine ⟨?_, ?_, ?_, ?_⟩ <;> decide

/-! ### The opcode table (R92 to R96) -/

/-- The word of a well-formed command lies in the row of its mnemonic only. -/
theorem hasWord_encode_iff {i : Instr} (hwf : i.wf = true) {r : OpcodeRow} (hr : r ∈ opcodeRows) :
    r.hasWord (encode i) = true ↔ r.mnemonic = i.mnemonic := by
  have law : Laws.TableRow.Statement i := by
    cases i with
    | init => exact Laws.TableRow.init
    | xmit len => exact Laws.TableRow.xmit len
    | intr => exact Laws.TableRow.intr
    | drain => exact Laws.TableRow.drain
  rw [law hwf r hr, decide_eq_true_iff]

theorem exists_row_of_mnemonic (i : Instr) : ∃ r ∈ opcodeRows, r.mnemonic = i.mnemonic := by
  cases i <;> simp [opcodeRows, Instr.mnemonic]

theorem row_eq_of_mnemonic_eq : ∀ r ∈ opcodeRows, ∀ r' ∈ opcodeRows, r.mnemonic = r'.mnemonic → r = r' := by
  decide

/-- A word whose low half is 2 has the fields of an XMIT (R94). -/
theorem encode_xmit_of_lowHalf {w : Word} (h : w &&& 0x0000FFFF = 2) : encode (.xmit (lenOf w).toNat) = w := by
  have hlow : w.toNat % 2 ^ 16 = 2 := by
    rw [← Nat.and_two_pow_sub_one_eq_mod]
    exact congrArg BitVec.toNat h
  have hrsv : rsvOf w = 0 := by
    apply BitVec.eq_of_toNat_eq
    simp only [rsvOf, BitVec.extractLsb'_toNat, Nat.shiftRight_eq_div_pow, BitVec.ofNat_eq_ofNat, BitVec.toNat_ofNat]
    omega
  have hopc : opcOf w = 2 := by
    apply BitVec.eq_of_toNat_eq
    simp only [opcOf, BitVec.extractLsb'_toNat, Nat.shiftRight_zero, BitVec.ofNat_eq_ofNat, BitVec.toNat_ofNat]
    omega
  have hd : decode w = .command (.xmit (lenOf w).toNat) := decode_eq_command_iff.mpr ⟨hrsv, hopc, rfl⟩
  exact (decode_eq_command_iff_encode.mp hd).1

/-- A row holds only words of well-formed commands of its mnemonic. -/
theorem exists_instr_of_hasWord {r : OpcodeRow} (hr : r ∈ opcodeRows) {w : Word} (h : r.hasWord w = true) :
    ∃ i : Instr, i.mnemonic = r.mnemonic ∧ i.wf = true ∧ encode i = w := by
  have whole : w &&& 0xFFFFFFFF = w := BitVec.and_allOnes
  simp only [opcodeRows, List.mem_cons, List.not_mem_nil, or_false] at hr
  rw [OpcodeRow.hasWord, decide_eq_true_iff] at h
  rcases hr with rfl | rfl | rfl | rfl
  · exact ⟨.init, rfl, rfl, h.symm.trans whole⟩
  · exact ⟨.xmit (lenOf w).toNat, rfl, (wf_iff_lenField_lt _).mpr (lenOf w).isLt, encode_xmit_of_lowHalf h⟩
  · exact ⟨.intr, rfl, rfl, h.symm.trans whole⟩
  · exact ⟨.drain, rfl, rfl, h.symm.trans whole⟩

/-- Settles O3: the words of the rows are the words of the well-formed commands, and those are the words that decode. -/
theorem decodeIsTheTable : Obligations.DecodeIsTheTable := by
  refine ⟨fun w m => ⟨?_, ?_⟩, fun w r hr r' hr' h h' => ?_⟩
  · rintro ⟨i, hd, rfl⟩
    obtain ⟨rfl, hwf⟩ := decode_eq_command_iff_encode.mp hd
    obtain ⟨r, hr, hm⟩ := exists_row_of_mnemonic i
    exact ⟨r, hr, hm, (hasWord_encode_iff hwf hr).mpr hm⟩
  · rintro ⟨r, hr, rfl, h⟩
    obtain ⟨i, hm, hwf, henc⟩ := exists_instr_of_hasWord hr h
    exact ⟨i, decode_eq_command_iff_encode.mpr ⟨henc, hwf⟩, hm⟩
  · obtain ⟨i, hm, hwf, rfl⟩ := exists_instr_of_hasWord hr h
    exact row_eq_of_mnemonic_eq r hr r' hr' (hm.symm.trans ((hasWord_encode_iff hwf hr').mp h').symm)

/-! ### The illegal words (R98) -/

theorem exists_illegal_iff {w : Word} : (∃ why, decode w = .illegal why) ↔ ¬ ∃ i, decode w = .command i := by
  cases decode w <;> simp

/-- The words that decode, by their fields: no reserved bit, an opcode of the table, a length with XMIT only. -/
theorem exists_command_iff {w : Word} :
    (∃ i, decode w = .command i) ↔
      rsvOf w = 0 ∧ (0 < (opcOf w).toNat ∧ (opcOf w).toNat < 5) ∧ (opcOf w = 2 ∨ lenOf w = 0) := by
  simp only [decode_eq_command_iff]
  constructor
  · rintro ⟨i, hrsv, hopc, hlen⟩
    rw [hopc]
    refine ⟨hrsv, ?_, ?_⟩
    · cases i <;> simp [Instr.opcField]
    · cases i with
      | xmit len => exact .inl rfl
      | _ => exact .inr (BitVec.eq_of_toNat_eq hlen)
  · rintro ⟨hrsv, ⟨hpos, hlt⟩, hlen⟩
    by_cases h2 : opcOf w = 2
    · exact ⟨.xmit (lenOf w).toNat, hrsv, h2, rfl⟩
    · have hlen0 : (lenOf w).toNat = 0 := congrArg BitVec.toNat (hlen.resolve_left h2)
      have hne : (opcOf w).toNat ≠ 2 := fun h => h2 (BitVec.eq_of_toNat_eq h)
      have hopc : (opcOf w).toNat = 1 ∨ (opcOf w).toNat = 3 ∨ (opcOf w).toNat = 4 := by omega
      rcases hopc with h | h | h
      · exact ⟨.init, hrsv, BitVec.eq_of_toNat_eq h, hlen0⟩
      · exact ⟨.intr, hrsv, BitVec.eq_of_toNat_eq h, hlen0⟩
      · exact ⟨.drain, hrsv, BitVec.eq_of_toNat_eq h, hlen0⟩

/-- R98's three conditions. -/
theorem exists_illegal_iff_fields {w : Word} :
    (∃ why, decode w = .illegal why) ↔
      ((opcOf w).toNat = 0 ∨ 5 ≤ (opcOf w).toNat) ∨ rsvOf w ≠ 0 ∨ (opcOf w ≠ 2 ∧ lenOf w ≠ 0) := by
  have hopc : (opcOf w).toNat = 0 ∨ 5 ≤ (opcOf w).toNat ↔ ¬ (0 < (opcOf w).toNat ∧ (opcOf w).toNat < 5) := by omega
  rw [exists_illegal_iff, exists_command_iff, hopc]
  tauto

end Sys2Proof

namespace Sys2Proof.Machine

/-- `Issue(p)` of an illegal word (R98). -/
theorem issueEvent_of_illegal {s : State} {p : Nat} {cw : Word} {why : Illegal} (hc : canIssue s p = true)
    (hd : decode cw = .illegal why) (a0 a1 : BitVec 64) :
    issueEvent p cw a0 a1 s = .next (issueIllegal p (present p cw a0 a1 s)) := by
  rw [issueEvent, if_pos hc, fetch_present hc, hd]

/-- A command line with an illegal word runs no command (R98). -/
theorem callEvent_of_illegal {s : State} {p : Nat} {cw : Word} {why : Illegal} (hc : canIssue s p = true)
    (hd : decode cw = .illegal why) (a0 a1 : BitVec 64) :
    callEvent p cw a0 a1 s = .next (issueIllegal p (present p cw a0 a1 s)) := by
  rw [callEvent, if_pos hc, fetch_present hc, hd]

/-- The answer to an illegal word outside `FATAL` is its port's response (R98, R240). -/
theorem issueIllegal_present {s : State} (hm : s.mode ≠ .fatal) (p : Nat) (cw : Word) (a0 a1 : BitVec 64) :
    issueIllegal p (present p cw a0 a1 s) =
      { s with
        sel := p
        ports := s.ports.modify p (fun q =>
          { q with cw := cw, a0 := a0, a1 := a1, rv := 0xFFFFFFFF, rc := 4, outstanding := false, waiting := none }) } := by
  rw [issueIllegal, if_neg (by exact hm)]
  simp only [respond, raiseRequest, present, writePort, updatePort, modify_modify]
  rfl

/-- Settles O5: the decoder rejects by R98's conditions, and either event answers at its port. -/
theorem illegalWords : Obligations.IllegalWords := by
  refine ⟨fun w => exists_illegal_iff_fields, fun s p cw a0 a1 why rest hscript hc hd hm => ?_⟩
  have hmove : step s = .next (issueIllegal p (present p cw a0 a1 { s with script := rest })) := by
    rcases hscript with h | h
    · rw [step_of_call h]
      exact callEvent_of_illegal (s := { s with script := rest }) hc hd a0 a1
    · rw [step_of_agentEvent h (fun _ _ _ _ => Event.noConfusion)]
      exact issueEvent_of_illegal (s := { s with script := rest }) hc hd a0 a1
  rw [hmove]
  exact congrArg _ (issueIllegal_present (s := { s with script := rest }) hm p cw a0 a1)

end Sys2Proof.Machine
end

section
/-! The statements of 40_ring_and_ownership.md: no buffer is in two places, the block parts with a buffer only of a slot it
has found done, and it leaves the slots of the device alone. -/

namespace Sys2Proof.Machine

/-! ### No buffer in two places (R53, R136 (b)) -/

/-- Settles O57: a handle in two shadow entries would have two ghost owners. -/
theorem noBufferShared : Obligations.NoBufferShared := by
  intro s hs
  refine ⟨fun i hi j hj hne heq => ?_, fun i hi j hj hne heq => ?_, fun i hi j hj hne heq => ?_⟩
  · have howner := hs.txSlots j hj (heq ▸ hne)
    rw [← heq, hs.txSlots i hi hne] at howner
    exact Owner.txSlot.inj howner
  · have howner := hs.rxSlots j hj (heq ▸ hne)
    rw [← heq, hs.rxSlots i hi hne] at howner
    exact Owner.rxSlot.inj howner
  · have howner := hs.rxSlots j hj (heq ▸ hne)
    rw [← heq, hs.txSlots i hi hne] at howner
    cases howner

/-! ### Where the block parts with a buffer (R136 (d), (e)) -/

/-- The calls by which the block gives a buffer away (R271, R273). -/
def Act.givesAway : Act → Bool
  | .bufFree _ => true
  | .netRx _ => true
  | .memRead _ _ _ => false
  | .memWrite _ _ _ => false
  | .regRead _ _ _ => false
  | .regWrite _ _ _ => false
  | .fence => false
  | .bufAlloc _ => false
  | .bufSetLen _ _ => false

/-- A move puts nothing on the record, or one act that gives no buffer away. -/
def KeepsBuffers (s t : State) : Prop := t.trace = s.trace ∨ ∃ a, a.givesAway = false ∧ t.trace = a :: s.trace

theorem KeepsBuffers.silent {s t : State} (h : t.trace = s.trace) : KeepsBuffers s t := .inl h

theorem KeepsBuffers.of_act {s t : State} (a : Act) (ha : a.givesAway = false) (h : t.trace = a :: s.trace) :
    KeepsBuffers s t := .inr ⟨a, ha, h⟩

/-- Such a move does not record a buffer given away. -/
theorem KeepsBuffers.trace_ne {s t : State} (h : KeepsBuffers s t) {a : Act} (ha : a.givesAway = true) :
    t.trace ≠ a :: s.trace := by
  intro he
  rcases h with hsame | ⟨b, hb, hact⟩
  · exact List.cons_ne_self a s.trace (he.symm.trans hsame)
  · obtain rfl : a = b := (List.cons.inj (he.symm.trans hact)).1
    rw [ha] at hb
    cases hb

theorem KeepsBuffers.nextRound {s t : State} (h : KeepsBuffers s t) (count : Nat) (after : InitPc) :
    KeepsBuffers s (nextRound count after t) := by
  unfold Machine.nextRound
  split <;> exact h

/-- The TX engine gives a buffer away at `X4` only: the one of its slot, if there is one (R155). -/
theorem txTurn_givesAway {s t : State} (h : txTurn s = .next t) :
    KeepsBuffers s t ∨ s.mode ≠ .fatal ∧ s.tx.pc = .x4 ∧ txShadowAt s s.tx.i ≠ 0 ∧
      t.trace = .bufFree (txShadowAt s s.tx.i) :: s.trace := by
  rcases txTurn_cases h with rfl | ⟨hm, hc⟩
  · exact .inl (.silent rfl)
  rcases hc with ⟨_, _, rfl⟩ | ⟨_, rfl⟩ | ⟨_, b, _, rfl⟩ | ⟨hp, rfl⟩ | ⟨_, rfl⟩ | ⟨_, rfl⟩ | ⟨_, rfl⟩ | ⟨_, rfl⟩ |
    ⟨_, rfl⟩ | ⟨_, rfl⟩ | ⟨_, rfl⟩
  · exact .inl (.silent rfl)
  · exact .inl (.of_act _ rfl rfl)
  · unfold afterX3
    split <;> exact .inl (.of_act _ rfl rfl)
  · by_cases hz : txShadowAt s s.tx.i = 0
    · rw [afterX4, if_pos hz]
      exact .inl (.silent rfl)
    · rw [afterX4_eq hz]
      exact .inr ⟨hm, hp, hz, rfl⟩
  · exact .inl (.of_act _ rfl rfl)
  · exact .inl (.of_act _ rfl rfl)
  · exact .inl (.of_act _ rfl rfl)
  · exact .inl (.of_act _ rfl rfl)
  · exact .inl (.silent rfl)
  · exact .inl (.of_act _ rfl rfl)
  · exact .inl (.silent rfl)

/-- The RX engine gives a buffer away at `D4` only: the one the drain holds (R176). -/
theorem rxTurn_givesAway {s t : State} (h : rxTurn s = .next t) :
    KeepsBuffers s t ∨ s.mode ≠ .fatal ∧ s.rx.pc = .d4 ∧ t.trace = .netRx s.rx.b :: s.trace := by
  rcases rxTurn_cases h with rfl | ⟨hm, hc⟩
  · exact .inl (.silent rfl)
  rcases hc with ⟨_, _, _, rfl⟩ | ⟨_, rfl⟩ | ⟨_, _, rfl⟩ | ⟨_, rfl⟩ | ⟨_, b, _, rfl⟩ | ⟨_, rfl⟩ | ⟨_, v, _, rfl⟩ |
    ⟨_, rfl⟩ | ⟨hp, rfl⟩ | ⟨_, rest, _, rfl⟩ | ⟨_, hd, a, rest, _, _, rfl⟩ | ⟨_, rfl⟩ | ⟨_, rfl⟩ | ⟨_, rfl⟩ | ⟨_, rfl⟩ |
    ⟨_, rfl⟩ | ⟨_, rfl⟩
  · unfold afterI1
    split <;> exact .inl (.silent rfl)
  · exact .inl (.of_act _ rfl rfl)
  · exact .inl (.silent rfl)
  · exact .inl (.of_act _ rfl rfl)
  · exact .inl (.of_act _ rfl rfl)
  · unfold afterD3a
    split <;> exact .inl (.silent rfl)
  · exact .inl (.of_act _ rfl rfl)
  · exact .inl (.of_act _ rfl rfl)
  · exact .inr ⟨hm, hp, rfl⟩
  · exact .inl (.of_act _ rfl rfl)
  · rw [afterD5_eq]
    exact .inl (.of_act _ rfl rfl)
  · exact .inl (.of_act _ rfl rfl)
  · exact .inl (.of_act _ rfl rfl)
  · exact .inl (.of_act _ rfl rfl)
  · exact .inl (.silent rfl)
  · exact .inl (.of_act _ rfl rfl)
  · exact .inl (.silent (by simp))

theorem keepsBuffers_check (r : Ring) (next : InitPc) (s : State) : KeepsBuffers s (afterCheck r next s) := by
  unfold afterCheck
  split
  · split <;> exact .silent rfl
  · exact .silent rfl

/-- The INIT sequencer gives no buffer away. -/
theorem keepsBuffers_initTurn {s t : State} (h : initTurn s = .next t) : KeepsBuffers s t := by
  rcases initTurn_cases h with rfl | ⟨_, hc⟩
  · exact .silent rfl
  rcases hc with ⟨r, v, n, _, rfl⟩ | ⟨_, rfl⟩ | ⟨_, rfl⟩ | ⟨_, rfl⟩ | ⟨_, rfl⟩ | ⟨_, rfl⟩ | ⟨_, rfl⟩ | ⟨_, hst⟩ |
    ⟨_, rfl⟩ | ⟨_, rfl⟩ | ⟨_, rfl⟩ | ⟨_, rfl⟩ | ⟨_, rfl⟩
  · exact .of_act (.regWrite r (regAddr s r) v) rfl (by simp)
  · exact .of_act _ rfl rfl
  · exact .of_act _ rfl rfl
  · unfold afterN6
    split
    · exact .of_act _ rfl rfl
    · exact .of_act _ rfl rfl
    · exact KeepsBuffers.nextRound (.of_act _ rfl rfl) _ _
  · exact keepsBuffers_check _ _ s
  · exact .of_act _ rfl rfl
  · exact .of_act _ rfl rfl
  · rcases stepN9_next hst with ⟨_, rest, _, rfl⟩ | ⟨_, hd, a, rest, _, _, rfl⟩ | ⟨_, rfl⟩ | ⟨_, rfl⟩
    · exact .of_act _ rfl rfl
    · rw [afterN9_eq]
      exact .of_act _ rfl rfl
    · exact .of_act _ rfl rfl
    · exact KeepsBuffers.nextRound (.of_act _ rfl rfl) _ _
  · exact keepsBuffers_check _ _ s
  · exact .of_act _ rfl rfl
  · unfold afterN12b
    split <;> exact .of_act _ rfl rfl
  · exact KeepsBuffers.nextRound (.of_act _ rfl rfl) _ _
  · exact .silent rfl

theorem keepsBuffers_grantTx {p : Nat} {s t : State} (h : grantTx p s = .next t) : KeepsBuffers s t := by
  rcases grantTx_cases h with ⟨_, rfl⟩ | ⟨len, hd, a, _, _, _, _, rfl⟩ <;> exact .silent rfl

theorem keepsBuffers_grantRx {src : Source} {s t : State} (h : grantRx src s = .next t) : KeepsBuffers s t := by
  rcases grantRx_cases h with ⟨_, rfl⟩ | ⟨kind, _, _, _, _, rfl⟩
  · exact .silent rfl
  · cases kind <;> cases src <;> exact .silent rfl

/-- A grant or a micro-step that gives a buffer away is `X4` or `D4`. -/
theorem step_givesAway {s t : State} {e : Event} {rest : List Event} {a : Act} (hscript : s.script = e :: rest)
    (he : e = .tx ∨ e = .rx ∨ e = .init ∨ (∃ p, e = .grantTx p) ∨ (∃ src, e = .grantRx src)) (ht : step s = .next t)
    (ha : a.givesAway = true) (hact : t.trace = a :: s.trace) :
    e = .tx ∧ s.mode ≠ .fatal ∧ s.tx.pc = .x4 ∧ txShadowAt s s.tx.i ≠ 0 ∧ a = .bufFree (txShadowAt s s.tx.i) ∨
      e = .rx ∧ s.mode ≠ .fatal ∧ s.rx.pc = .d4 ∧ a = .netRx s.rx.b := by
  have no : ¬ KeepsBuffers { s with script := rest } t := fun h => h.trace_ne ha hact
  rw [step_event hscript] at ht
  rcases he with rfl | rfl | rfl | ⟨p, rfl⟩ | ⟨src, rfl⟩
  · obtain ⟨hm, hp, hne, htrace⟩ := (txTurn_givesAway ht).resolve_left no
    exact .inl ⟨rfl, hm, hp, hne, (List.cons.inj (hact.symm.trans htrace)).1⟩
  · obtain ⟨hm, hp, htrace⟩ := (rxTurn_givesAway ht).resolve_left no
    exact .inr ⟨rfl, hm, hp, (List.cons.inj (hact.symm.trans htrace)).1⟩
  · exact absurd (keepsBuffers_initTurn ht) no
  · exact absurd (keepsBuffers_grantTx ht) no
  · exact absurd (keepsBuffers_grantRx ht) no

/-- Settles O45: only `X4` frees a buffer, and there the invariant has the slot's DD read set and still set. -/
theorem freesOnlySentBuffers : Obligations.FreesOnlySentBuffers := by
  intro s t e rest h hs hscript he ht hact
  rcases step_givesAway hscript he ht rfl hact with ⟨rfl, hm, hp, hne, heq⟩ | ⟨_, _, _, heq⟩
  · obtain rfl := Act.bufFree.inj heq
    have hr : s.mode = .ready := tx_mode hs hm (by simp [hp])
    have howns : txOwnsSlot s.tx.pc = true := by rw [hp]; rfl
    exact ⟨rfl, hp, hs.slots.txIndex hr (by rw [hp]; rfl), hs.slots.txRead hr howns, hs.slots.txOwns hr howns, rfl, hne⟩
  · cases heq

/-- Settles O46: only `D4` delivers a buffer, and there the invariant has the slot's DD read set and still set. -/
theorem deliversOnlyFilledSlots : Obligations.DeliversOnlyFilledSlots := by
  intro s t e rest h hs hscript he ht hact
  rcases step_givesAway hscript he ht rfl hact with ⟨_, _, _, _, heq⟩ | ⟨rfl, hm, hp, heq⟩
  · cases heq
  · obtain rfl := Act.netRx.inj heq
    have hr : s.mode = .ready := rx_mode hs hm (by simp [hp])
    have howns : rxOwnsSlot s.rx.pc = true := by rw [hp]; rfl
    exact ⟨rfl, hp, hs.slots.rxIndex hr (by rw [hp]; rfl), hs.slots.rxRead hr howns, hs.slots.rxOwns hr howns, rfl⟩

/-! ### The slots of the device (R128, R130, R343) -/

/-- No byte of a descriptor the device owned has changed. -/
def DeviceSlotsKept (s t : State) : Prop :=
  ∀ r, ∀ i < s.cfg.n, deviceOwns s r i = true → ∀ k < 16,
    byteAt t.mem (field s.cfg r i k) = byteAt s.mem (field s.cfg r i k)

theorem DeviceSlotsKept.of_mem_eq {s t : State} (h : t.mem = s.mem) : DeviceSlotsKept s t :=
  fun _ _ _ _ _ _ => by rw [h]

/-- A store inside the descriptor of a slot the block owns. -/
theorem DeviceSlotsKept.of_write {s t : State} {r : Ring} {i off w v : Nat} (hp : paramsOk s.cfg = true)
    (hi : i < s.cfg.n) (hb : blockOwns s r i = true) (hw : off + w ≤ 16)
    (hm : t.mem = writeBytes s.mem (field s.cfg r i off) w v) : DeviceSlotsKept s t := by
  intro r' i' hi' hd k hk
  rw [hm]
  exact byteAt_write_field hp hi hi' hw hk (fun hr he => (slot_ne hd hb hr.symm he.symm).elim) _ _

/-- A slot whose bytes are kept is the device's as before. -/
theorem DeviceSlotsKept.deviceOwns {s t : State} (h : DeviceSlotsKept s t) (hc : t.cfg = s.cfg) {r : Ring} {i : Nat}
    (hi : i < s.cfg.n) (hd : deviceOwns s r i = true) : Machine.deviceOwns t r i = true := by
  have hstatus : statusAt t r i = statusAt s r i := by
    unfold statusAt
    rw [hc]
    exact h r i hi hd 12 (by decide)
  rw [← hd]
  unfold Machine.deviceOwns
  rw [hstatus]

theorem DeviceSlotsKept.trans {s t u : State} (h1 : DeviceSlotsKept s t) (h2 : DeviceSlotsKept t u)
    (hc : t.cfg = s.cfg) : DeviceSlotsKept s u := by
  intro r i hi hd k hk
  rw [← h1 r i hi hd k hk, ← hc]
  exact h2 r i (hc ▸ hi) (h1.deviceOwns hc hi hd) k hk

/-- The TX engine stores only from `X5a` to `X5d`, in a slot whose DD it has read set. -/
theorem deviceSlotsKept_txTurn {s t : State} (hs : Inv s) (h : txTurn s = .next t) : DeviceSlotsKept s t := by
  rcases txTurn_cases h with rfl | ⟨hm, hc⟩
  · exact .of_mem_eq rfl
  have store : ∀ {off w v : Nat}, txHasSlot s.tx.pc = true → txOwnsSlot s.tx.pc = true → off + w ≤ 16 →
      t.mem = writeBytes s.mem (field s.cfg .tx s.tx.i off) w v → DeviceSlotsKept s t := by
    intro off w v hslot howns hw hmem
    have hr : s.mode = .ready := tx_mode hs hm (fun hp => by rw [hp] at hslot; cases hslot)
    exact .of_write (hs.params (.inr hr)) (hs.slots.txIndex hr hslot) (hs.slots.txOwns hr howns) hw hmem
  rcases hc with ⟨_, _, rfl⟩ | ⟨_, rfl⟩ | ⟨_, b, _, rfl⟩ | ⟨_, rfl⟩ | ⟨hp, rfl⟩ | ⟨hp, rfl⟩ | ⟨hp, rfl⟩ | ⟨hp, rfl⟩ |
    ⟨_, rfl⟩ | ⟨_, rfl⟩ | ⟨_, rfl⟩
  · exact .of_mem_eq rfl
  · exact .of_mem_eq rfl
  · unfold afterX3
    split <;> exact .of_mem_eq rfl
  · unfold afterX4
    split <;> exact .of_mem_eq (by simp)
  · exact store (by rw [hp]; rfl) (by rw [hp]; rfl) (by decide) rfl
  · exact store (by rw [hp]; rfl) (by rw [hp]; rfl) (by decide) rfl
  · exact store (by rw [hp]; rfl) (by rw [hp]; rfl) (by decide) rfl
  · exact store (by rw [hp]; rfl) (by rw [hp]; rfl) (by decide) rfl
  · exact .of_mem_eq rfl
  · exact .of_mem_eq rfl
  · exact .of_mem_eq rfl

/-- The RX engine stores only from `D6a` to `D6c`, in a slot whose DD it has read set. -/
theorem deviceSlotsKept_rxTurn {s t : State} (hs : Inv s) (h : rxTurn s = .next t) : DeviceSlotsKept s t := by
  rcases rxTurn_cases h with rfl | ⟨hm, hc⟩
  · exact .of_mem_eq rfl
  have store : ∀ {off w v : Nat}, rxHasSlot s.rx.pc = true → rxOwnsSlot s.rx.pc = true → off + w ≤ 16 →
      t.mem = writeBytes s.mem (field s.cfg .rx s.rx.i off) w v → DeviceSlotsKept s t := by
    intro off w v hslot howns hw hmem
    have hr : s.mode = .ready := rx_mode hs hm (fun hp => by rw [hp] at hslot; cases hslot)
    exact .of_write (hs.params (.inr hr)) (hs.slots.rxIndex hr hslot) (hs.slots.rxOwns hr howns) hw hmem
  rcases hc with ⟨_, _, _, rfl⟩ | ⟨_, rfl⟩ | ⟨_, _, rfl⟩ | ⟨_, rfl⟩ | ⟨_, b, _, rfl⟩ | ⟨_, rfl⟩ | ⟨_, v, _, rfl⟩ |
    ⟨_, rfl⟩ | ⟨_, rfl⟩ | ⟨_, rest, _, rfl⟩ | ⟨_, hd, a, rest, _, _, rfl⟩ | ⟨hp, rfl⟩ | ⟨hp, rfl⟩ | ⟨hp, rfl⟩ | ⟨_, rfl⟩ |
    ⟨_, rfl⟩ | ⟨_, rfl⟩
  · unfold afterI1
    split <;> exact .of_mem_eq rfl
  · exact .of_mem_eq rfl
  · exact .of_mem_eq rfl
  · exact .of_mem_eq rfl
  · exact .of_mem_eq rfl
  · unfold afterD3a
    split <;> exact .of_mem_eq rfl
  · exact .of_mem_eq rfl
  · exact .of_mem_eq rfl
  · exact .of_mem_eq rfl
  · exact .of_mem_eq rfl
  · rw [afterD5_eq]
    exact .of_mem_eq rfl
  · exact store (by rw [hp]; rfl) (by rw [hp]; rfl) (by decide) rfl
  · exact store (by rw [hp]; rfl) (by rw [hp]; rfl) (by decide) rfl
  · exact store (by rw [hp]; rfl) (by rw [hp]; rfl) (by decide) rfl
  · exact .of_mem_eq rfl
  · exact .of_mem_eq rfl
  · exact .of_mem_eq (by simp)

theorem mem_grantTx {p : Nat} {s t : State} (h : grantTx p s = .next t) : t.mem = s.mem := by
  rcases grantTx_cases h with ⟨_, rfl⟩ | ⟨len, hd, a, _, _, _, _, rfl⟩ <;> rfl

theorem mem_grantRx {src : Source} {s t : State} (h : grantRx src s = .next t) : t.mem = s.mem := by
  rcases grantRx_cases h with ⟨_, rfl⟩ | ⟨kind, _, _, _, _, rfl⟩
  · rfl
  · cases kind <;> cases src <;> rfl

theorem mem_latchIrq (s : State) : (latchIrq s).mem = s.mem := by
  unfold latchIrq
  split <;> rfl

theorem mem_moveBuffer (h : Handle) (o : Owner) (a : Addr) (s : State) : (moveBuffer h o a s).mem = s.mem := by
  rcases moveBuffer_cases h o a s with he | ⟨_, _, _, ⟨_, he⟩ | ⟨_, _, he⟩ | ⟨_, _, he⟩⟩ <;> rw [he] <;> rfl

/-- The INIT sequencer rests once INIT has ended (R215). -/
theorem initTurn_of_begun {s t : State} (hs : Inv s) (hm : s.mode = .ready ∨ s.mode = .fatal)
    (h : initTurn s = .next t) : t = s := by
  rcases initTurn_cases h with rfl | ⟨hf, _⟩
  · rfl
  · have hr : s.mode = .ready := hm.resolve_right hf
    obtain ⟨_, _, hidle, _⟩ := (inv_ready hr).mp hs
    rw [initTurn, if_neg hf, initStep, hidle] at h
    cases h; rfl

/-- A state a `READY` block comes to from a state `s` by its own moves: it may have halted, and it has left the slots the
device owned in `s`. -/
structure Respecting (s u : State) : Prop where
  inv   : Inv u
  mode  : u.mode = .ready ∨ u.mode = .fatal
  cfg   : u.cfg = s.cfg
  slots : DeviceSlotsKept s u

theorem Respecting.move {s u v : State} (h : Respecting s u) (inv : Inv v) (mode : v.mode = .ready ∨ v.mode = .fatal)
    (cfg : v.cfg = u.cfg) (slots : DeviceSlotsKept u v) : Respecting s v :=
  ⟨inv, mode, cfg.trans h.cfg, h.slots.trans slots h.cfg⟩

theorem Respecting.txMove {s u v : State} (h : Respecting s u) (hmove : TxMove u v) (inv : Inv v)
    (slots : DeviceSlotsKept u v) : Respecting s v :=
  h.move inv (by rw [hmove.rest]; exact h.mode) (by rw [hmove.rest]) slots

theorem Respecting.rxMove {s u v : State} (h : Respecting s u) (hmove : RxMove u v) (inv : Inv v)
    (slots : DeviceSlotsKept u v) : Respecting s v :=
  h.move inv (hmove.mode_or h.mode) (by rw [hmove.rest]) slots

section
variable (s : State)

theorem respecting_txTurn : Keeps (Respecting s) txTurn := fun u v h hv =>
  h.txMove (txMove_turn hv) (inv_tx u v h.inv hv) (deviceSlotsKept_txTurn h.inv hv)

theorem respecting_rxTurn : Keeps (Respecting s) rxTurn := fun u v h hv =>
  h.rxMove (rxMove_turn hv) (inv_rx u v h.inv hv) (deviceSlotsKept_rxTurn h.inv hv)

theorem respecting_initTurn : Keeps (Respecting s) initTurn := fun _ _ h hv =>
  initTurn_of_begun h.inv h.mode hv ▸ h

theorem respecting_grantTx (p : Nat) : Keeps (Respecting s) (grantTx p) := fun u v h hv =>
  h.txMove (txMove_grant hv) (inv_grantTx p u v h.inv hv) (.of_mem_eq (mem_grantTx hv))

theorem respecting_grantRx (src : Source) : Keeps (Respecting s) (grantRx src) := fun u v h hv =>
  h.rxMove (rxMove_grant hv) (inv_grantRx src u v h.inv hv) (.of_mem_eq (mem_grantRx hv))

theorem respecting_served (p : Nat) (i : Instr) {u t : State} (h : Respecting s u) (ht : Served p i u t) :
    Respecting s t := by
  cases i with
  | init =>
    obtain ⟨accepted, ht⟩ := ht
    exact Keeps.serveInit (respecting_initTurn s) accepted u t h ht
  | xmit len => exact Keeps.serveTx (respecting_grantTx s) (respecting_txTurn s) p u t h ht
  | intr => exact Keeps.serveRx (respecting_grantRx s) (respecting_rxTurn s) (.port p) u t h ht
  | drain => exact Keeps.serveRx (respecting_grantRx s) (respecting_rxTurn s) (.port p) u t h ht

end

/-- `Issue` in `READY` changes ports only, so it goes on from the slots as they stand. -/
theorem respecting_issue {p : Nat} {cw : Word} {a0 a1 : BitVec 64} {s u : State} (hs : Inv s) (hm : s.mode = .ready)
    (hu : issueEvent p cw a0 a1 s = .next u) : Respecting s u := by
  have hrest := issue_leaves hm hu
  exact ⟨inv_issue p cw a0 a1 s u hs hu, .inl (by rw [hrest]; exact hm), by rw [hrest], .of_mem_eq (by rw [hrest])⟩

/-- A command line in `READY`: its `Issue`, and the run of its own command. -/
theorem respecting_callEvent {p : Nat} {cw : Word} {a0 a1 : BitVec 64} {s t : State} (hs : Inv s) (hm : s.mode = .ready)
    (ht : callEvent p cw a0 a1 s = .next t) : Respecting s t := by
  rcases callEvent_eq ht with hissue | ⟨i, u, _, _, hu, hserved⟩
  · exact respecting_issue hs hm hissue
  · exact respecting_served s p i (respecting_issue hs hm hu) hserved

/-- Settles O43: each event's own moves leave the slots of the device, a command line's one after the other. -/
theorem blockRespectsDevice : Obligations.BlockRespectsDevice := by
  intro s t e rest hs hm hscript hdev ht
  have hs' : Inv { s with script := rest } := inv_congr hs rfl hs.shaped.owner
  have start : Respecting { s with script := rest } { s with script := rest } :=
    ⟨hs', .inl hm, rfl, .of_mem_eq rfl⟩
  suffices h : DeviceSlotsKept { s with script := rest } t from h
  rw [step_event hscript] at ht
  cases e with
  | call p cw a0 a1 => exact (respecting_callEvent hs' hm ht).slots
  | issue p cw a0 a1 => exact (respecting_issue hs' hm ht).slots
  | grantTx p => exact .of_mem_eq (mem_grantTx ht)
  | grantRx src => exact .of_mem_eq (mem_grantRx ht)
  | tx => exact deviceSlotsKept_txTurn hs' ht
  | rx => exact deviceSlotsKept_rxTurn hs' ht
  | init => exact (respecting_initTurn _ _ t start ht).slots
  | serveIrq =>
    exact (Keeps.serveRx (respecting_grantRx _) (respecting_rxTurn _) .irq _ t start ht).slots
  | irq => cases ht; exact .of_mem_eq (mem_latchIrq _)
  | alloc ans => cases ht; exact .of_mem_eq rfl
  | own h o a => cases ht; exact .of_mem_eq (mem_moveBuffer h o a _)
  | reset => cases ht; exact .of_mem_eq rfl
  | _ => cases hdev

end Sys2Proof.Machine
end

section
/-! The statements of 41_tx_ring_scheduler.md: what a micro-step of XMIT does, what an XMIT that sends or is busy comes to,
and what XMIT leaves alone however it ends. -/

namespace Sys2Proof.Machine

/-! ### Single micro-steps (R154 to R156, R158) -/

theorem txTurn_of_ne_fatal {s : State} (hm : s.mode ≠ .fatal) : txTurn s = txStep s := if_neg hm

theorem txTurn_x4 {s : State} (hm : s.mode ≠ .fatal) (hp : s.tx.pc = .x4) : txTurn s = .next (afterX4 s) := by
  rw [txTurn_of_ne_fatal hm, txStep, hp]
  exact stepX4_eq s

/-- Clearing DD leaves bits 7:1 as read (R156). -/
theorem getLsbD_clearDD (b : Byte) {j : Nat} (hj : j < 8) :
    (clearDD b).getLsbD j = (decide (j ≠ 0) && b.getLsbD j) := by
  have hmask : (0xFE : Byte).getLsbD j = decide (j ≠ 0) := by
    revert j
    decide
  rw [clearDD, BitVec.getLsbD_and, hmask, Bool.and_comm]

/-- Settles O21: each of `X5a` to `X5d` is one write, by the equation of its micro-step. -/
theorem xmitProgramsSlot : Obligations.XmitProgramsSlot := by
  intro s hm
  rw [txTurn_of_ne_fatal hm, txStep]
  refine ⟨fun hp => ?_, fun hp => ?_, fun hp => ?_, fun hp => ?_, fun j hj => getLsbD_clearDD s.tx.s hj⟩ <;>
    (rw [hp]; rfl)

/-- Settles O22: `X7` is one register write, of the index after the one latched. -/
theorem xmitAdvancesTail : Obligations.XmitAdvancesTail := by
  intro s hm hp
  have hstep : txTurn s = .next (goTx .x8 (regWrite .tdt (indexWord (nextIndex s.cfg s.tx.i)) s)) := by
    rw [txTurn_of_ne_fatal hm, txStep, hp]
    rfl
  exact ⟨_, hstep, rfl, rfl, rfl, rfl⟩

/-- `X4` is reached from `X3` only, where it read DD set (R154, R155). -/
theorem txTurn_reaches_x4 {s t : State} (h : txTurn s = .next t) (ht : t.tx.pc = .x4) (hs : s.tx.pc ≠ .x4) :
    s.tx.pc = .x3 ∧ blockOwns s .tx s.tx.i = true := by
  rcases txTurn_cases h with rfl | ⟨_, hc⟩
  · exact absurd ht hs
  rcases hc with ⟨_, _, rfl⟩ | ⟨_, rfl⟩ | ⟨hp, b, hb, rfl⟩ | ⟨hp, _⟩ | ⟨_, rfl⟩ | ⟨_, rfl⟩ | ⟨_, rfl⟩ | ⟨_, rfl⟩ |
    ⟨_, rfl⟩ | ⟨_, rfl⟩ | ⟨_, rfl⟩
  · cases ht
  · cases ht
  · refine ⟨hp, ?_⟩
    rw [blockOwns, hb]
    by_contra hd
    rw [afterX3, if_neg hd] at ht
    cases ht
  · exact absurd hp hs
  all_goals cases ht

/-- Settles O20: `X3` leads to `X4` only with DD set, and of all the micro-steps only `X4` gives a buffer away. -/
theorem xmitReleases : Obligations.XmitReleases := by
  refine ⟨fun s t => txTurn_reaches_x4, fun s hm hp hne hi => ?_, fun s hm hp hz => ?_, fun s t h hturn htrace => ?_⟩
  · refine ⟨afterX4 s, txTurn_x4 hm hp, ?_⟩
    rw [afterX4_eq hne]
    refine ⟨rfl, rfl, ?_, ?_, lookup_drop_same _ _, rfl⟩
    · rw [txShadowAt_set (s := s) rfl, if_pos ⟨rfl, hi⟩]
    · simp [ownerOf]
  · rw [txTurn_x4 hm hp, afterX4, if_pos hz]
    rfl
  · rcases txTurn_givesAway hturn with hkeeps | ⟨_, hp, hne, hfree⟩
    · exact absurd htrace (hkeeps.trace_ne rfl)
    · obtain rfl : h = txShadowAt s s.tx.i := Act.bufFree.inj (List.cons.inj (htrace.symm.trans hfree)).1
      exact ⟨hp, rfl, hne⟩

/-! ### The descriptor a sending XMIT leaves (R156) -/

/-- Different bytes of one descriptor have different addresses, under any configuration. -/
theorem field_ne_field (c : Config) (r : Ring) (i : Nat) {k k' : Nat} (hk : k < 16) (hk' : k' < 16) (hne : k ≠ k') :
    field c r i k ≠ field c r i k' := by
  intro he
  have hoff := congrArg BitVec.toNat (add_left_cancel (a := desc c r i) he)
  rw [BitVec.toNat_ofNat, BitVec.toNat_ofNat] at hoff
  omega

/-- A write to one field of a descriptor leaves what is read of a field beside it. -/
theorem readBytes_write_beside {c : Config} {r : Ring} {i off w off' w' : Nat}
    (h : off + w ≤ 16 ∧ off' + w' ≤ 16 ∧ (off + w ≤ off' ∨ off' + w' ≤ off)) (m : Memory) (v : Nat) :
    readBytes (writeBytes m (field c r i off) w v) (field c r i off') w' = readBytes m (field c r i off') w' := by
  refine readBytes_congr w' _ _ _ fun j hj => byteAt_writeBytes_outside w m _ _ v fun k hk => ?_
  rw [field_add, field_add]
  exact field_ne_field c r i (by omega) (by omega) (by omega)

/-- A byte read is the one-byte access. -/
theorem byteAt_eq_of_readBytes {m : Memory} {a : Addr} {b : Byte} (h : readBytes m a 1 = some b.toNat) :
    byteAt m a = some b := by
  rw [readBytes_one, Option.map_eq_some_iff] at h
  obtain ⟨b', hb', heq⟩ := h
  rw [hb', BitVec.eq_of_toNat_eq heq]

theorem readBytes_sentMem_addr (s : State) (q : Port) (len : Nat) (b : Byte) :
    readBytes (sentMem s q len b) (field s.cfg .tx (xmitSlot s) 0) 8 = some q.a1.toNat := by
  have hlt := q.a1.isLt
  rw [sentMem, readBytes_write_beside (by decide), readBytes_write_beside (by decide),
    readBytes_write_beside (by decide), readBytes_writeBytes_same 8 _ _ _ (by decide), Nat.mod_eq_of_lt (by omega)]

theorem readBytes_sentMem_len (s : State) (q : Port) (len : Nat) (b : Byte) :
    readBytes (sentMem s q len b) (field s.cfg .tx (xmitSlot s) 8) 2 = some (len % 65536) := by
  rw [sentMem, readBytes_write_beside (by decide), readBytes_write_beside (by decide),
    readBytes_writeBytes_same 2 _ _ _ (by decide), BitVec.toNat_ofNat]
  exact congrArg some (Nat.mod_mod _ _)

theorem byteAt_sentMem_cmd (s : State) (q : Port) (len : Nat) (b : Byte) :
    byteAt (sentMem s q len b) (field s.cfg .tx (xmitSlot s) 11) = some (cmdXmit s.cfg) := by
  apply byteAt_eq_of_readBytes
  have hlt := (cmdXmit s.cfg).isLt
  rw [sentMem, readBytes_write_beside (by decide), readBytes_writeBytes_same 1 _ _ _ (by decide),
    Nat.mod_eq_of_lt (by omega)]

theorem byteAt_sentMem_status (s : State) (q : Port) (len : Nat) (b : Byte) :
    byteAt (sentMem s q len b) (field s.cfg .tx (xmitSlot s) 12) = some (clearDD b) := by
  apply byteAt_eq_of_readBytes
  have hlt := (clearDD b).isLt
  rw [sentMem, readBytes_writeBytes_same 1 _ _ _ (by decide), Nat.mod_eq_of_lt (by omega)]

/-- The slot's entry ends with the handle sent, cleared before or not (R155, R157). -/
theorem sentShadow_eq (s : State) (q : Port) : sentShadow s q = s.txShadow.set (xmitSlot s) q.a0 := by
  unfold sentShadow
  split
  · rfl
  · exact List.set_set ..

/-- Settles O16: the state a sending XMIT ends in, field by field. -/
theorem xmitSends : Obligations.XmitSends := by
  intro s q len b hq hm ha hl hb hd
  refine ⟨sent s q len b, execXmit_sends hq hm ha hl hb hd, readBytes_sentMem_addr s q len b,
    readBytes_sentMem_len s q len b, byteAt_sentMem_cmd s q len b, byteAt_sentMem_status s q len b, sentShadow_eq s q, ?_,
    rfl, rfl, hl, rfl⟩
  rw [ownerOf_store _ _ _ _ _ rfl, if_pos rfl]
  rfl

/-! ### Busy (R154, R160) -/

/-- The state a busy XMIT ends in: its answer, the engine's latches, and the record of its two reads. -/
def busyEnd (s : State) (q : Port) (len : Nat) (b : Byte) : State :=
  { s with
    ports := answeredPorts s.sel .busy s
    tx := { pc := .idle, p := s.sel, h := q.a0, a := q.a1, n := BitVec.ofNat 16 len, i := xmitSlot s, s := b }
    trace := .memRead (field s.cfg .tx (xmitSlot s) 12) 1 b.toNat :: .regRead .tdt (regAddr s .tdt) s.dev.regs.tdt ::
      s.trace }

/-- The first micro-step after the grant is `X2`, which cannot fail (R154). -/
theorem runTx_xmitStart {s : State} {q : Port} {len k : Nat} (hm : s.mode ≠ .fatal) :
    runTx (k + 1) (xmitStart len q s) = runTx k (afterX2 (xmitStart len q s)) :=
  runTx_step (by show TxPc.x2 ≠ .idle; decide) (by exact hm) rfl

/-- `X2` and the busy exit of `X3` (R154). -/
theorem runTx_busy {s : State} {q : Port} {len k : Nat} {b : Byte} (hm : s.mode ≠ .fatal) (hl : s.txLock = .free)
    (hb : statusAt s .tx (xmitSlot s) = some b) (hd : dd b = false) :
    runTx (k + 2) (xmitStart len q s) = .next (busyEnd s q len b) := by
  have h3 : txStep (afterX2 (xmitStart len q s)) = .next (afterX3 b (afterX2 (xmitStart len q s))) :=
    stepX3_eq (s := afterX2 (xmitStart len q s)) hb
  have hexit : afterX3 b (afterX2 (xmitStart len q s)) = busyEnd s q len b := by
    rw [afterX3, if_neg (by simp [hd]), busyEnd, ← answered_running, busyExit, freeTx, ← hl]
    rfl
  rw [runTx_xmitStart hm, runTx_step (by show TxPc.x3 ≠ .idle; decide) (by exact hm) h3, hexit, runTx_idle rfl]

/-- An XMIT that finds DD clear runs to its busy answer. -/
theorem execXmit_busy {s : State} {q : Port} {len : Nat} {b : Byte} (hq : s.ports[s.sel]? = some q)
    (hm : s.mode = .ready) (ha : q.a0 ≠ 0) (hl : s.txLock = .free) (hb : statusAt s .tx (xmitSlot s) = some b)
    (hd : dd b = false) : exec (.xmit len) s = .next (busyEnd s q len b) := by
  rw [execXmit_start hq hm ha hl, runTx_busy (by simp [hm]) hl hb hd]

/-- A port answered twice alike is answered once. -/
theorem answeredPorts_again {s t : State} {p : Nat} {r : Reason} (h : t.ports = answeredPorts p r s) :
    answeredPorts p r t = answeredPorts p r s := by
  unfold answeredPorts at h ⊢
  rw [h, modify_modify]
  rfl

/-- A busy XMIT repeated with the same operands adds the record of its two reads. -/
theorem busyEnd_again (s : State) (q q' : Port) (len : Nat) (b : Byte) (h0 : q'.a0 = q.a0) (h1 : q'.a1 = q.a1) :
    busyEnd (busyEnd s q len b) q' len b =
      { busyEnd s q len b with trace := (busyEnd (busyEnd s q len b) q' len b).trace } := by
  have hports : answeredPorts s.sel .busy (busyEnd s q len b) = answeredPorts s.sel .busy s := answeredPorts_again rfl
  unfold busyEnd at hports ⊢
  rw [hports, h0, h1]
  rfl

/-- Settles O18: the state a busy XMIT ends in, and that the same XMIT is busy again there. -/
theorem xmitBusy : Obligations.XmitBusy := by
  intro s q len b hq hm ha hl hb hd
  have hport : (busyEnd s q len b).ports[s.sel]? =
      some { q with rv := Reason.busy.rv, rc := Reason.busy.code, outstanding := false, waiting := none } := by
    show (answeredPorts s.sel .busy s)[s.sel]? = _
    rw [answeredPorts, List.getElem?_modify_eq, hq]
    rfl
  exact ⟨busyEnd s q len b, execXmit_busy hq hm ha hl hb hd, rfl, rfl, rfl, _,
    execXmit_busy hport hm ha hl hb hd, busyEnd_again s q _ len b rfl rfl⟩

/-! ### The frame of XMIT -/

/-- A change of a port that leaves its command and operand registers (R22). -/
def KeepsOperands (f : Port → Port) : Prop := ∀ q, (f q).cw = q.cw ∧ (f q).a0 = q.a0 ∧ (f q).a1 = q.a1

theorem waitingAt_raiseRequest (p : Nat) (s : State) : waitingAt (raiseRequest p s) p = none := by
  unfold waitingAt raiseRequest
  rw [updatePort_getElem, if_pos rfl]
  cases s.ports[p]? <;> rfl

/-- `Issue` of an XMIT changes its port only, and leaves it waiting only where the XMIT is accepted (R231 to R233). -/
theorem issueXmit_next {s u : State} {q : Port} {len : Nat} (hq : s.ports[s.sel]? = some q)
    (h : issueXmit len s = .next u) :
    (∃ f, KeepsOperands f ∧ u = { s with ports := s.ports.modify s.sel f }) ∧
      (waitingAt u s.sel = none ∨ decideOn s.mode (.xmit len) q.a0 = .accept) := by
  have hraise := waitingAt_raiseRequest s.sel s
  obtain ⟨q', hq', hcase⟩ := issueCommand_cases h
  obtain rfl : q = q' := Option.some.inj (hq.symm.trans hq')
  rcases hcase with ⟨_, rfl⟩ | ⟨r, _, rfl⟩ | ⟨hacc, hstart⟩
  · refine ⟨⟨_, ?_, rfl⟩, .inl hraise⟩
    exact fun _ => ⟨rfl, rfl, rfl⟩
  · refine ⟨⟨_, ?_, congrArg (fun l => { s with ports := l }) (modify_modify ..)⟩, .inl ?_⟩
    · exact fun _ => ⟨rfl, rfl, rfl⟩
    · rw [waitingAt_respond, hraise]
  · cases hstart
    refine ⟨⟨_, ?_, congrArg (fun l => { s with ports := l }) (modify_modify ..)⟩, .inr hacc⟩
    exact fun _ => ⟨rfl, rfl, rfl⟩

/-- A run of XMIT that ends has found its slot's status byte written. -/
theorem statusAt_of_runTx {s t : State} {q : Port} {len k : Nat} (hm : s.mode ≠ .fatal)
    (h : runTx (k + 2) (xmitStart len q s) = .next t) : ∃ b, statusAt s .tx (xmitSlot s) = some b := by
  rw [runTx_xmitStart hm, runTx, if_neg (by show TxPc.x3 ≠ .idle; decide)] at h
  obtain ⟨u, hu, _⟩ := andThen_eq_next.mp h
  rw [txTurn_of_ne_fatal (by exact hm)] at hu
  obtain ⟨b, hb, _⟩ := stepX3_next (s := afterX2 (xmitStart len q s)) hu
  exact ⟨b, hb⟩

/-- However XMIT ends: it changes its own port only, it is busy, or it sends. -/
theorem execXmit_cases {s t : State} {q : Port} {len : Nat} (hq : s.ports[s.sel]? = some q)
    (h : exec (.xmit len) s = .next t) :
    (∃ f, KeepsOperands f ∧ t = { s with ports := s.ports.modify s.sel f }) ∨
      (∃ b, t = busyEnd s q len b) ∨ ∃ b, t = sent s q len b := by
  by_cases hrun : decideOn s.mode (.xmit len) q.a0 = .accept ∧ s.txLock = .free
  · obtain ⟨hacc, hl⟩ := hrun
    obtain ⟨hm, ha⟩ := decideOn_xmit_accept hacc
    have hf : s.mode ≠ .fatal := by simp [hm]
    obtain ⟨b, hb⟩ := statusAt_of_runTx hf ((execXmit_start hq hm ha hl).symm.trans h)
    cases hd : dd b with
    | false => exact .inr (.inl ⟨b, Host.Outcome.next.inj (h.symm.trans (execXmit_busy hq hm ha hl hb hd))⟩)
    | true => exact .inr (.inr ⟨b, Host.Outcome.next.inj (h.symm.trans (execXmit_sends hq hm ha hl hb hd))⟩)
  · obtain ⟨u, hu, ht⟩ := andThen_eq_next.mp h
    obtain ⟨⟨f, hf, rfl⟩, hwait⟩ := issueXmit_next hq hu
    rcases serveTx_leaves ht with ⟨_, rfl⟩ | ⟨hw, _⟩
    · exact .inl ⟨f, hf, rfl⟩
    · obtain ⟨⟨len', hd, a⟩, hw⟩ := Option.isSome_iff_exists.mp hw
      obtain ⟨_, hl, hwaits⟩ := txWaiter_some hw
      rcases hwait with hnone | hacc
      · rw [hnone] at hwaits; cases hwaits
      · exact absurd ⟨hacc, hl⟩ hrun

/-- What an XMIT presented with the registers of `q` may change, beside its own port, the engine's latches and the
record: of the device `TDT`, and what stands at the one slot. -/
structure XmitFramed (s : State) (q : Port) (t : State) : Prop where
  rest   : t = { s with ports := t.ports, tx := t.tx, txShadow := t.txShadow, mem := t.mem, dev := t.dev,
                        owner := t.owner, areas := t.areas, trace := t.trace }
  dev    : t.dev = { s.dev with regs := { s.dev.regs with tdt := t.dev.regs.tdt } }
  ports  : ∃ f, KeepsOperands f ∧ t.ports = s.ports.modify s.sel f
  shadow : ∀ j, j ≠ xmitSlot s → txShadowAt t j = txShadowAt s j
  owner  : ∀ h, h ≠ q.a0 → h ≠ txShadowAt s (xmitSlot s) → ownerOf t h = ownerOf s h
  areas  : ∀ h : Handle, h ≠ txShadowAt s (xmitSlot s) → lookup h.toNat t.areas = lookup h.toNat s.areas
  mem    : ∀ a : Addr, (∀ off ∈ xmitBytes, a ≠ field s.cfg .tx (xmitSlot s) off) → byteAt t.mem a = byteAt s.mem a

/-- A change of the port, the latches and the record alone. -/
theorem XmitFramed.of_port {s t : State} {q : Port} {f : Port → Port} (hf : KeepsOperands f)
    (h : t = { s with ports := s.ports.modify s.sel f, tx := t.tx, trace := t.trace }) : XmitFramed s q t := by
  rw [h]
  exact ⟨rfl, rfl, ⟨f, hf, rfl⟩, fun _ _ => rfl, fun _ _ _ => rfl, fun _ _ => rfl, fun _ _ => rfl⟩

theorem keepsOperands_answered (r : Reason) :
    KeepsOperands (fun q => { q with rv := r.rv, rc := r.code, outstanding := false, waiting := none }) :=
  fun _ => ⟨rfl, rfl, rfl⟩

/-- The four writes of `X5a` to `X5d` touch the bytes of `xmitBytes` only (R156). -/
theorem byteAt_sentMem_outside (s : State) (q : Port) (len : Nat) (b : Byte) {a : Addr}
    (ha : ∀ off ∈ xmitBytes, a ≠ field s.cfg .tx (xmitSlot s) off) : byteAt (sentMem s q len b) a = byteAt s.mem a := by
  have beside : ∀ off w, (∀ k < w, off + k ∈ xmitBytes) → ∀ m v,
      byteAt (writeBytes m (field s.cfg .tx (xmitSlot s) off) w v) a = byteAt m a := by
    intro off w hin m v
    refine byteAt_writeBytes_outside w m _ a v fun k hk => ?_
    rw [field_add]
    exact ha _ (hin k hk)
  rw [sentMem, beside 12 1 (by decide), beside 11 1 (by decide), beside 8 2 (by decide), beside 0 8 (by decide)]

/-- `X4` frees no buffer but the slot's, and `X6` lends no buffer but the one sent (R155, R157). -/
theorem ownerOf_sent (s : State) (q : Port) (len : Nat) (b : Byte) {h : Handle} (hsent : h ≠ q.a0)
    (hslot : h ≠ txShadowAt s (xmitSlot s)) : ownerOf (sent s q len b) h = ownerOf s h := by
  rw [ownerOf_store _ _ _ _ _ rfl, if_neg hsent]
  split
  · rfl
  · rw [lookup_drop_ne fun he => hslot (BitVec.eq_of_toNat_eq he)]
    rfl

theorem lookup_sentAreas (s : State) {h : Handle} (hslot : h ≠ txShadowAt s (xmitSlot s)) :
    lookup h.toNat (sentAreas s) = lookup h.toNat s.areas := by
  unfold sentAreas
  split
  · rfl
  · exact lookup_drop_ne (fun he => hslot (BitVec.eq_of_toNat_eq he)) _

theorem xmitFramed_sent (s : State) (q : Port) (len : Nat) (b : Byte) : XmitFramed s q (sent s q len b) where
  rest := rfl
  dev := rfl
  ports := ⟨_, keepsOperands_answered .ok, rfl⟩
  shadow j hj := by rw [txShadowAt_set (sentShadow_eq s q), if_neg fun h => hj h.1.symm]
  owner _ := ownerOf_sent s q len b
  areas _ := lookup_sentAreas s
  mem _ := byteAt_sentMem_outside s q len b

theorem xmitFramed_exec {s t : State} {q : Port} {len : Nat} (hq : s.ports[s.sel]? = some q)
    (h : exec (.xmit len) s = .next t) : XmitFramed s q t := by
  rcases execXmit_cases hq h with ⟨f, hf, rfl⟩ | ⟨b, rfl⟩ | ⟨b, rfl⟩
  · exact .of_port hf rfl
  · exact .of_port (keepsOperands_answered .busy) rfl
  · exact xmitFramed_sent s q len b

/-- Settles O19, by the three ways XMIT can end. -/
theorem xmitFrame : Obligations.XmitFrame := by
  intro s t q len hq h
  obtain ⟨rest, dev, ⟨f, hf, hports⟩, shadow, owner, areas, mem⟩ := xmitFramed_exec hq h
  refine ⟨rest, dev, fun j hj => ?_, ⟨f q, ?_, hf q⟩, shadow, owner, areas, mem⟩
  · rw [hports, List.getElem?_modify_ne _ _ hj.symm]
  · rw [hports, List.getElem?_modify_eq, hq]
    rfl

end Sys2Proof.Machine
end

section
/-! The statements of 42_rx_ring_drainer.md: what a micro-step of the drain does, what a drain comes to with nothing to
deliver, without a buffer and where it delivers, and what DRAIN and INTR leave alone however they end. -/

namespace Sys2Proof.Machine

/-! ### Single micro-steps (R173, R174, R177 to R179) -/

theorem rxTurn_of_ne_fatal {s : State} (hm : s.mode ≠ .fatal) : rxTurn s = rxStep s := if_neg hm

/-- Settles O29, by the equation of `D1`. -/
theorem drainSelectsSlot : Obligations.DrainSelectsSlot := by
  intro s hm hp
  have hstep : rxTurn s = .next (afterD1 s) := by
    rw [rxTurn_of_ne_fatal hm, rxStep, hp]
    exact stepD1_eq s
  exact ⟨_, hstep, rfl, rfl, rfl, rfl⟩

theorem rxTurn_d6d {s : State} (hm : s.mode ≠ .fatal) (hp : s.rx.pc = .d6d) :
    rxTurn s = .next (goRx .d7 (setOwner s.rx.nh (.rxSlot s.rx.i) (setRxShadow s.rx.i s.rx.nh s))) := by
  rw [rxTurn_of_ne_fatal hm, rxStep, hp]
  rfl

theorem rxTurn_d7 {s : State} (hm : s.mode ≠ .fatal) (hp : s.rx.pc = .d7) :
    rxTurn s = .next (goRx .d1 (regWrite .rdt (indexWord s.rx.i) s)) := by
  rw [rxTurn_of_ne_fatal hm, rxStep, hp]
  rfl

/-- Settles O30: `D6a` to `D6c` are one write each, and `D6d` and `D7` follow by their own equations. -/
theorem drainRefills : Obligations.DrainRefills := by
  intro s hm
  refine ⟨fun hp => ?_, fun hp => ?_, fun hp => ?_, fun hp => ?_, fun hp => ?_⟩
  · rw [rxTurn_of_ne_fatal hm, rxStep, hp]; rfl
  · rw [rxTurn_of_ne_fatal hm, rxStep, hp]; rfl
  · rw [rxTurn_of_ne_fatal hm, rxStep, hp]; rfl
  · refine ⟨_, rxTurn_d6d hm hp, rfl, fun h => ?_⟩
    exact ownerOf_setOwner s.rx.nh (.rxSlot s.rx.i) (setRxShadow s.rx.i s.rx.nh s) h
  · exact ⟨_, rxTurn_d7 hm hp, rfl, rfl, rfl, rfl⟩

/-! ### A drain with nothing to deliver (R174, R175) -/

/-- An accepted DRAIN that finds the lock free goes on at `D1` (R172). -/
theorem execDrain_start {s : State} {q : Port} (hq : s.ports[s.sel]? = some q) (hm : s.mode = .ready)
    (hl : s.rxLock = .free) : exec .drain s = runRx (12 * s.cfg.n + 5) (rxStart .drain s) :=
  exec_rx (.inl rfl) hq hm hl

/-- The exit of a drain in a round that has read status byte `b` and found nothing to deliver (R174, R175): it answers
and frees the lock, and leaves its latches and the record of its two reads. -/
def drainExit (u : State) (b : Byte) : State :=
  goRx .idle (respond u.rx.src .ok (freeRx
    { u with rx := { u.rx with i := drainSlot u 0, s := b, pc := .dx }
             trace := .memRead (field u.cfg .rx (drainSlot u 0) 12) 1 b.toNat ::
               .regRead .rdt (regAddr u .rdt) u.dev.regs.rdt :: u.trace }))

/-- The exit leaves all but the answer, the lock, the latches and the record. -/
theorem drainExit_eq {s u : State} {p : Nat} {b : Byte} (hsrc : u.rx.src = .port p)
    (hports : u.ports = runningPorts p s) : drainExit u b =
      { u with ports := answeredPorts p .ok s, rx := (drainExit u b).rx, rxLock := .free,
               trace := .memRead (field u.cfg .rx (drainSlot u 0) 12) 1 b.toNat ::
                 .regRead .rdt (regAddr u .rdt) u.dev.regs.rdt :: u.trace } := by
  rw [← answered_running, ← hports, drainExit, hsrc]
  rfl

theorem drainExit_rxStart {s : State} (hl : s.rxLock = .free) (b : Byte) :
    drainExit (rxStart .drain s) b =
      { s with ports := answeredPorts s.sel .ok s, rx := (drainExit (rxStart .drain s) b).rx,
               trace := (drainExit (rxStart .drain s) b).trace } := by
  refine (drainExit_eq (u := rxStart .drain s) rfl rfl).trans ?_
  rw [← hl]
  rfl

/-- Settles O23: `D2` by its own equation, and the whole DRAIN by the run that ends at its first test. -/
theorem drainEmpty : Obligations.DrainEmpty := by
  refine ⟨fun s b hm hp hb => ?_, fun s q b hq hm hl hb hd => ?_⟩
  · rw [rxTurn_of_ne_fatal hm, rxStep, hp]
    exact stepD2_eq hb
  · have hrun : exec .drain s = .next (drainExit (rxStart .drain s) b) := by
      rw [execDrain_start hq hm hl]
      exact runRx_empty (by simp [rxStart, hm]) rfl hb hd
    exact ⟨_, hrun, drainExit_rxStart hl b, rfl, rfl⟩

/-- Settles O25, by the run that ends at `D3a`. -/
theorem drainMalformed : Obligations.DrainMalformed := by
  intro s q hq hm hl howns hz
  obtain ⟨b, hb, hd⟩ := owns_status howns
  have hrun : exec .drain s = .next (drainExit (rxStart .drain s) b) := by
    rw [execDrain_start hq hm hl]
    exact runRx_malformed (by simp [rxStart, hm]) rfl hb hd hz
  exact ⟨_, hrun, drainExit_rxStart hl b, rfl⟩

/-! ### A drain without a buffer (R178) -/

/-- `D5` where the allocator answers `NONE` halts the block (R178). -/
theorem stepD5_none {s : State} {rest : List AllocAnswer} (h : s.allocs = none :: rest) :
    stepD5 s = .next (failedD5 rest s) := by
  rw [stepD5, bufAlloc, h]
  rfl

theorem rxStep_d5_none {s : State} {rest : List AllocAnswer} (hp : s.rx.pc = .d5) (h : s.allocs = none :: rest) :
    rxStep s = .next (failedD5 rest s) := by
  rw [rxStep, hp]
  exact stepD5_none h

/-- The length of a slot of a written ring answers a read. -/
theorem exists_readBytes_len {s : State} {r : Ring} {i : Nat} (h : RingWritten s r s.cfg.n) (hi : i < s.cfg.n) :
    ∃ v, readBytes s.mem (field s.cfg r i 8) 2 = some v := by
  refine Option.isSome_iff_exists.mp (readBytes_isSome 2 _ _ fun k hk => ?_)
  rw [field_add]
  exact h i hi (8 + k) (by omega)

theorem drainSlot_lt {s : State} (hp : paramsOk s.cfg = true) (j : Nat) : drainSlot s j < s.cfg.n := mod_lt_n hp _

/-- A whole DRAIN that finds no buffer for its first slot halts at `D5` (R178). -/
theorem execDrain_noBuffer {s : State} {q : Port} {b : Byte} {v : Nat} {rest : List AllocAnswer}
    (hq : s.ports[s.sel]? = some q) (hm : s.mode = .ready) (hl : s.rxLock = .free) (hn : 0 < s.cfg.n)
    (hb : statusAt s .rx (drainSlot s 0) = some b) (hd : dd b = true) (hne : rxShadowAt s (drainSlot s 0) ≠ 0)
    (hv : readBytes s.mem (field s.cfg .rx (drainSlot s 0) 8) 2 = some v) (ha : s.allocs = none :: rest) :
    exec .drain s = .next (failedD5 rest (toAlloc (rxStart .drain s) b v)) := by
  have hf : (rxStart .drain s).mode ≠ .fatal := by simp [rxStart, hm]
  have hhalt : rxStep (toAlloc (rxStart .drain s) b v) = .next (failedD5 rest (toAlloc (rxStart .drain s) b v)) :=
    rxStep_d5_none rfl ha
  obtain ⟨k, hk⟩ : ∃ k, 12 * s.cfg.n + 5 = k + 1 + 6 := ⟨12 * s.cfg.n - 2, by omega⟩
  rw [execDrain_start hq hm hl, hk, runRx_toAlloc hf rfl hb hd hne hv,
    runRx_step (by show RxPc.d5 ≠ .idle; decide) (by exact hf) hhalt, runRx_halt (.inr rfl)]

/-- Settles O28: `D5` by its own equation, and the whole DRAIN by the run that ends there. -/
theorem drainNoBuffer : Obligations.DrainNoBuffer := by
  refine ⟨fun s rest hm hp ha => ?_, fun s q hs hq hm hl hfill ha => ?_⟩
  · rw [rxTurn_of_ne_fatal hm, rxStep_d5_none hp ha]
    rfl
  · have hparams := hs.params (.inr hm)
    obtain ⟨rest, ha⟩ := List.head?_eq_some_iff.mp ha
    obtain ⟨howns, hne⟩ := hfill 0 (by decide)
    obtain ⟨b, hb, hd⟩ := owns_status howns
    obtain ⟨v, hv⟩ := exists_readBytes_len (hs.rings hm).rxDone (drainSlot_lt hparams 0)
    have hn : 0 < s.cfg.n := Nat.zero_lt_of_lt (drainSlot_lt hparams 0)
    refine ⟨_, execDrain_noBuffer hq hm hl hn hb hd hne hv ha, rfl, rfl, rfl, rfl, rfl, rfl, rfl, rfl, rfl, ?_, rfl⟩
    rw [ownerOf_store _ _ _ _ _ rfl]
    exact if_pos rfl

/-! ### The frame of DRAIN and INTR (R171, R191) -/

/-- What DRAIN and INTR leave whole between two states: the TX side, the INIT sequencer, the configuration and the
block's surroundings. -/
def RxSideOnly (s t : State) : Prop :=
  t = { s with ports := t.ports, rx := t.rx, mode := t.mode, fcause := t.fcause, rxLock := t.rxLock,
               rxShadow := t.rxShadow, mem := t.mem, dev := t.dev, owner := t.owner, bufLen := t.bufLen,
               areas := t.areas, allocs := t.allocs, trace := t.trace }

theorem RxSideOnly.trans {s t u : State} (h1 : RxSideOnly s t) (h2 : RxSideOnly t u) : RxSideOnly s u :=
  Eq.trans h2 (congrArg (fun w : State =>
    { w with ports := u.ports, rx := u.rx, mode := u.mode, fcause := u.fcause, rxLock := u.rxLock,
             rxShadow := u.rxShadow, mem := u.mem, dev := u.dev, owner := u.owner, bufLen := u.bufLen,
             areas := u.areas, allocs := u.allocs, trace := u.trace }) h1)

theorem RxSideOnly.cfg_eq {s t : State} (h : RxSideOnly s t) : t.cfg = s.cfg := by rw [h]

theorem RxMove.rxSideOnly {s t : State} (h : RxMove s t) (hirq : t.irqPend = s.irqPend) : RxSideOnly s t := by
  have hrest := h.rest
  rw [hirq] at hrest
  exact hrest

/-- The positions of the drain from the test of DD to the last change of its slot's shadow entry (R175 to R177). -/
def rxEdits : RxPc → Bool
  | .d3a | .d3b | .d3c | .d4 | .d5 | .d6a | .d6b | .d6c | .d6d => true
  | .idle | .i1 | .i2 | .d0 | .d1 | .d2 | .d7 | .dx => false

theorem rxHasSlot_of_rxEdits {pc : RxPc} (h : rxEdits pc = true) : rxHasSlot pc = true := by
  revert h
  cases pc <;> decide

/-- What a turn of the RX engine changes after `I1`: it answers its own source, acknowledges at `I2` only, and edits the
slot it has latched, which it found done at `D2`. -/
structure RxEdit (s t : State) : Prop where
  irqPend : t.irqPend = s.irqPend
  ports   : t.ports = s.ports ∨ t.ports = (respond s.rx.src .ok s).ports
  ack     : s.rx.pc ≠ .i2 → t.rx.pc ≠ .i2 ∧ t.dev.regs.icr = s.dev.regs.icr ∧ t.dev.irqOut = s.dev.irqOut
  slot    : rxEdits t.rx.pc = true →
    t.rx.i = s.rx.i ∧ (rxEdits s.rx.pc = true ∨ s.rx.pc = .d2 ∧ blockOwns s .rx s.rx.i = true)
  shadow  : t.rxShadow = s.rxShadow ∨ rxEdits s.rx.pc = true ∧ ∃ h, t.rxShadow = s.rxShadow.set s.rx.i h
  mem     : t.mem = s.mem ∨ rxEdits s.rx.pc = true ∧ ∃ off w v, (∀ k < w, off + k ∈ drainBytes) ∧
    t.mem = writeBytes s.mem (field s.cfg .rx s.rx.i off) w v

theorem RxEdit.refl (s : State) : RxEdit s s :=
  ⟨rfl, .inl rfl, fun h => ⟨h, rfl, rfl⟩, fun h => ⟨rfl, .inl h⟩, .inl rfl, .inl rfl⟩

/-- A turn inside a round that changes the shadow table at most. -/
theorem RxEdit.of_round {s t : State} (irqPend : t.irqPend = s.irqPend) (ports : t.ports = s.ports)
    (hi : t.rx.pc ≠ .i2) (dev : t.dev = s.dev)
    (slot : rxEdits t.rx.pc = true →
      t.rx.i = s.rx.i ∧ (rxEdits s.rx.pc = true ∨ s.rx.pc = .d2 ∧ blockOwns s .rx s.rx.i = true))
    (shadow : t.rxShadow = s.rxShadow ∨ rxEdits s.rx.pc = true ∧ ∃ h, t.rxShadow = s.rxShadow.set s.rx.i h)
    (mem : t.mem = s.mem) : RxEdit s t :=
  ⟨irqPend, .inl ports, fun _ => ⟨hi, by rw [dev], by rw [dev]⟩, slot, shadow, .inl mem⟩

/-- The store of `D6a`, `D6b` or `D6c`. -/
theorem RxEdit.of_write {s : State} {pc : RxPc} {off w v : Nat} (hs : rxEdits s.rx.pc = true) (hpc : pc ≠ .i2)
    (hin : ∀ k < w, off + k ∈ drainBytes) : RxEdit s (goRx pc (memWrite (field s.cfg .rx s.rx.i off) w v s)) :=
  ⟨rfl, .inl rfl, fun _ => ⟨hpc, rfl, rfl⟩, fun _ => ⟨rfl, .inl hs⟩, .inl rfl, .inr ⟨hs, off, w, v, hin, rfl⟩⟩

theorem rxEdit_turn {s t : State} (hgranted : s.rx.pc ≠ .i1) (h : rxTurn s = .next t) : RxEdit s t := by
  rcases rxTurn_cases h with rfl | ⟨_, hc⟩
  · exact .refl _
  rcases hc with ⟨hp, _⟩ | ⟨hp, rfl⟩ | ⟨_, _, rfl⟩ | ⟨_, rfl⟩ | ⟨hp, b, hb, rfl⟩ | ⟨hp, rfl⟩ | ⟨hp, v, _, rfl⟩ |
    ⟨hp, rfl⟩ | ⟨hp, rfl⟩ | ⟨hp, rest, _, rfl⟩ | ⟨hp, hd, a, rest, _, _, rfl⟩ | ⟨hp, rfl⟩ | ⟨hp, rfl⟩ | ⟨hp, rfl⟩ |
    ⟨hp, rfl⟩ | ⟨_, rfl⟩ | ⟨_, rfl⟩
  · exact absurd hp hgranted
  · exact ⟨rfl, .inl rfl, (fun hne => absurd hp hne), (fun he => by cases he), .inl rfl, .inl rfl⟩
  · exact .of_round rfl rfl (by simp) rfl (fun he => by cases he) (.inl rfl) rfl
  · exact .of_round rfl rfl (by simp [afterD1]) rfl (fun he => by cases he) (.inl rfl) rfl
  · cases hdd : dd b with
    | false => exact .of_round rfl rfl (by simp [afterD2, hdd]) rfl (by simp [afterD2, hdd, rxEdits]) (.inl rfl) rfl
    | true =>
      refine .of_round rfl rfl (by simp [afterD2, hdd]) rfl (fun _ => ⟨rfl, .inr ⟨hp, ?_⟩⟩) (.inl rfl) rfl
      rw [blockOwns, hb]
      exact hdd
  · have hedit : rxEdits s.rx.pc = true := by rw [hp]; rfl
    unfold afterD3a
    split
    · exact .of_round rfl rfl (by simp) rfl (fun he => by cases he) (.inl rfl) rfl
    · exact .of_round rfl rfl (by simp) rfl (fun _ => ⟨rfl, .inl hedit⟩) (.inr ⟨hedit, 0, rfl⟩) rfl
  · exact .of_round rfl rfl (by simp [afterD3b]) rfl (fun _ => ⟨rfl, .inl (by rw [hp]; rfl)⟩) (.inl rfl) rfl
  · exact .of_round rfl rfl (by simp) rfl (fun _ => ⟨rfl, .inl (by rw [hp]; rfl)⟩) (.inl rfl) rfl
  · exact .of_round rfl rfl (by simp) rfl (fun _ => ⟨rfl, .inl (by rw [hp]; rfl)⟩) (.inl rfl) rfl
  · exact .of_round rfl rfl (by simp [failedD5, hp]) rfl (fun _ => ⟨rfl, .inl (by rw [hp]; rfl)⟩) (.inl rfl) rfl
  · rw [afterD5_eq]
    exact .of_round rfl rfl (by simp) rfl (fun _ => ⟨rfl, .inl (by rw [hp]; rfl)⟩) (.inl rfl) rfl
  · exact .of_write (by rw [hp]; rfl) (by decide) (by decide)
  · exact .of_write (by rw [hp]; rfl) (by decide) (by decide)
  · exact .of_write (by rw [hp]; rfl) (by decide) (by decide)
  · exact .of_round rfl rfl (by simp) rfl (fun he => by cases he) (.inr ⟨by rw [hp]; rfl, s.rx.nh, rfl⟩) rfl
  · exact ⟨rfl, .inl rfl, fun _ => ⟨by simp, rfl, rfl⟩, (fun he => by cases he), .inl rfl, .inl rfl⟩
  · refine ⟨by simp, .inr ?_, fun _ => ⟨by simp, by simp, by simp⟩, (fun he => by cases he), .inl (by simp),
      .inl (by simp)⟩
    cases s.rx.src <;> rfl

/-- What a DRAIN or INTR on the port of `s` has changed when it stands in `u`. -/
structure DrainFramed (i : Instr) (s u : State) : Prop where
  inv    : Inv u
  side   : RxSideOnly s u
  dev    : u.dev.regs = { s.dev.regs with rdt := u.dev.regs.rdt, icr := u.dev.regs.icr } ∧
    u.dev.txOn = s.dev.txOn ∧ u.dev.rxOn = s.dev.rxOn
  ack    : i = .drain → u.rx.pc ≠ .i2 ∧ u.dev.regs.icr = s.dev.regs.icr ∧ u.dev.irqOut = s.dev.irqOut
  src    : u.rx.src = .port s.sel
  ports  : ∃ f, KeepsOperands f ∧ u.ports = s.ports.modify s.sel f
  slot   : rxEdits u.rx.pc = true → blockOwns s .rx u.rx.i = true
  shadow : ∀ j, (∀ k < s.cfg.n, blockOwns s .rx k = true → j ≠ k) → rxShadowAt u j = rxShadowAt s j
  mem    : ∀ a : Addr, (∀ k < s.cfg.n, blockOwns s .rx k = true → ∀ off ∈ drainBytes, a ≠ field s.cfg .rx k off) →
    byteAt u.mem a = byteAt s.mem a

theorem lt_of_mem_drainBytes : ∀ {off : Nat}, off ∈ drainBytes → off < 16 := by decide

/-- A slot the block owns now it owned at the start: a drain writes no status byte of another (R130). -/
theorem DrainFramed.blockOwns_start {i : Instr} {s u : State} (h : DrainFramed i s u) (hp : paramsOk s.cfg = true)
    {j : Nat} (hj : j < s.cfg.n) (howns : blockOwns u .rx j = true) : blockOwns s .rx j = true := by
  by_contra hclear
  refine hclear ((blockOwns_congr ?_).symm.trans howns)
  unfold statusAt
  rw [h.side.cfg_eq]
  refine h.mem _ fun k hk hk' off hoff he => hclear ?_
  obtain ⟨_, rfl, _⟩ := field_inj hp hj hk (by decide) (lt_of_mem_drainBytes hoff) he
  exact hk'

/-- A running engine has been granted its lock, so it is past `I1` (R234). -/
theorem rx_past_grant {s : State} (hs : Inv s) (hm : s.mode ≠ .fatal) : s.rx.pc ≠ .i1 := by
  intro hp
  have hr : s.mode = .ready := rx_mode hs hm (by simp [hp])
  obtain ⟨_, _, _, _, hlock, _⟩ := (inv_ready hr).mp hs
  rcases hlock with ⟨hidle, _⟩ | ⟨_, hgranted, _⟩
  · rw [hp] at hidle; cases hidle
  · exact hgranted hp

/-- The answer a command's engine gives leaves every operand register (R22, R240). -/
theorem DrainFramed.ports_answered {i : Instr} {s u : State} (h : DrainFramed i s u) (r : Reason) :
    ∃ f, KeepsOperands f ∧ (respond u.rx.src r u).ports = s.ports.modify s.sel f := by
  obtain ⟨f, hf, hports⟩ := h.ports
  refine ⟨fun q => { f q with rv := r.rv, rc := r.code, outstanding := false }, fun q => hf q, ?_⟩
  rw [h.src]
  show u.ports.modify s.sel _ = _
  rw [hports, modify_modify]
  rfl

/-- A store to bytes of `drainBytes` leaves every address that is none of them in its slot (R177). -/
theorem byteAt_drain_write {s : State} {i off w v : Nat} {a : Addr} {m : Memory} (hin : ∀ k < w, off + k ∈ drainBytes)
    (ha : ∀ o ∈ drainBytes, a ≠ field s.cfg .rx i o) :
    byteAt (writeBytes m (field s.cfg .rx i off) w v) a = byteAt m a := by
  refine byteAt_writeBytes_outside w m _ a v fun k hk => ?_
  rw [field_add]
  exact ha _ (hin k hk)

theorem drainFramed_turn (i : Instr) (s : State) : Keeps (DrainFramed i s) rxTurn := by
  intro u t h ht
  by_cases hm : u.mode = .fatal
  · rw [rxTurn, if_pos hm] at ht
    cases ht
    exact h
  have hmove := rxMove_turn ht
  have hedit := rxEdit_turn (rx_past_grant h.inv hm) ht
  have hc : u.cfg = s.cfg := h.side.cfg_eq
  have index : rxHasSlot u.rx.pc = true → paramsOk s.cfg = true ∧ u.rx.i < s.cfg.n := by
    intro hslot
    have hr : u.mode = .ready := rx_mode h.inv hm (fun hp => by rw [hp] at hslot; cases hslot)
    rw [← hc]
    exact ⟨h.inv.params (.inr hr), h.inv.slots.rxIndex hr hslot⟩
  refine ⟨inv_rx u t h.inv ht, h.side.trans (hmove.rxSideOnly hedit.irqPend), ?_, fun hi => ?_, ?_, ?_, fun he => ?_,
    fun j hj => ?_, fun a ha => ?_⟩
  · obtain ⟨hregs, htx, hrx⟩ := hmove.dev
    obtain ⟨hregs', htx', hrx'⟩ := h.dev
    exact ⟨by rw [hregs, hregs'], htx.trans htx', hrx.trans hrx'⟩
  · obtain ⟨hpc, hicr, hout⟩ := h.ack hi
    obtain ⟨hpc', hicr', hout'⟩ := hedit.ack hpc
    exact ⟨hpc', hicr'.trans hicr, hout'.trans hout⟩
  · exact (rxTurn_port ht).1.trans h.src
  · rcases hedit.ports with hports | hports <;> rw [hports]
    · exact h.ports
    · exact h.ports_answered .ok
  · obtain ⟨hsame, hpc | ⟨hpc, howns⟩⟩ := hedit.slot he <;> rw [hsame]
    · exact h.slot hpc
    · obtain ⟨hparams, hlt⟩ := index (by rw [hpc]; rfl)
      exact h.blockOwns_start hparams hlt howns
  · rcases hedit.shadow with hsame | ⟨hpc, hd, hset⟩
    · rw [rxShadowAt, hsame]
      exact h.shadow j hj
    · obtain ⟨_, hlt⟩ := index (rxHasSlot_of_rxEdits hpc)
      rw [rxShadowAt_set hset, if_neg fun hij => hj _ hlt (h.slot hpc) hij.1.symm]
      exact h.shadow j hj
  · rcases hedit.mem with hsame | ⟨hpc, off, w, v, hin, hwrite⟩
    · rw [hsame]
      exact h.mem a ha
    · obtain ⟨_, hlt⟩ := index (rxHasSlot_of_rxEdits hpc)
      rw [hwrite, hc, byteAt_drain_write hin (ha _ hlt (h.slot hpc))]
      exact h.mem a ha

/-- `Issue` of a command that waits for a lock changes its port only, and leaves it waiting only where the command is
accepted (R231 to R233). -/
theorem issueQueued_next {s u : State} {q : Port} {i : Instr} (hq : s.ports[s.sel]? = some q)
    (h : issueCommand i (queueStart i) s = .next u) :
    (∃ f, KeepsOperands f ∧ u = { s with ports := s.ports.modify s.sel f }) ∧
      (waitingAt u s.sel = none ∨ decideOn s.mode i q.a0 = .accept) := by
  have hraise := waitingAt_raiseRequest s.sel s
  obtain ⟨q', hq', hcase⟩ := issueCommand_cases h
  obtain rfl : q = q' := Option.some.inj (hq.symm.trans hq')
  rcases hcase with ⟨_, rfl⟩ | ⟨r, _, rfl⟩ | ⟨hacc, hstart⟩
  · refine ⟨⟨_, ?_, rfl⟩, .inl hraise⟩
    exact fun _ => ⟨rfl, rfl, rfl⟩
  · refine ⟨⟨_, ?_, congrArg (fun l => { s with ports := l }) (modify_modify ..)⟩, .inl ?_⟩
    · exact fun _ => ⟨rfl, rfl, rfl⟩
    · rw [waitingAt_respond, hraise]
  · cases hstart
    refine ⟨⟨_, ?_, congrArg (fun l => { s with ports := l }) (modify_modify ..)⟩, .inr hacc⟩
    exact fun _ => ⟨rfl, rfl, rfl⟩

theorem exec_eq_issue_serve {i : Instr} (hi : i = .drain ∨ i = .intr) (s : State) :
    exec i s = andThen (issueCommand i (queueStart i) s) (serveRx (.port s.sel)) := by
  rcases hi with rfl | rfl <;> rfl

/-- However DRAIN and INTR end: they change their own port only, or they have run with the lock. -/
theorem exec_rx_cases {s t : State} {q : Port} {i : Instr} (hi : i = .drain ∨ i = .intr)
    (hq : s.ports[s.sel]? = some q) (h : exec i s = .next t) :
    (∃ f, KeepsOperands f ∧ t = { s with ports := s.ports.modify s.sel f }) ∨
      s.mode = .ready ∧ runRx (rxFuel s.cfg) (rxStart (kindOf i) s) = .next t := by
  by_cases hrun : decideOn s.mode i q.a0 = .accept ∧ s.rxLock = .free
  · obtain ⟨hacc, hl⟩ := hrun
    have hm : s.mode = .ready := decideOn_accept (by rcases hi with rfl | rfl <;> simp) hacc
    exact .inr ⟨hm, (exec_rx hi hq hm hl).symm.trans h⟩
  · rw [exec_eq_issue_serve hi] at h
    obtain ⟨u, hu, ht⟩ := andThen_eq_next.mp h
    obtain ⟨⟨f, hf, rfl⟩, hwait⟩ := issueQueued_next hq hu
    rw [serveRx] at ht
    split at ht
    · rename_i kind hw
      obtain ⟨_, hl, hreq⟩ := rxWaiter_some hw
      rcases hwait with hnone | hacc
      · rw [rxRequest, hnone] at hreq; cases hreq
      · exact absurd ⟨hacc, hl⟩ hrun
    · cases ht
      exact .inl ⟨f, hf, rfl⟩

/-- The grant keeps the invariant: the lock is held by the command the engine runs. -/
theorem inv_rxStart {s : State} (hs : Inv s) (hm : s.mode = .ready) (kind : RxKind) : Inv (rxStart kind s) := by
  obtain ⟨hshape, hcause, hini, htx, _, hslots, hparams, hrings⟩ := (inv_ready hm).mp hs
  refine (inv_ready (s := rxStart kind s) hm).mpr ⟨?_, hcause, hini, htx, .inr ?_, ?_, hparams, ?_⟩
  · exact shaped_mem hshape rfl hshape.mem hshape.owner rfl (List.length_modify ..) rfl rfl
  · cases kind <;> exact ⟨by simp [rxStart], by simp [rxStart], by simp [rxStart], rfl⟩
  · refine ⟨hslots.txIndex, hslots.txOwns, hslots.txRead, ?_, ?_, ?_⟩ <;>
      (cases kind <;> exact fun _ hpc => by cases hpc)
  · exact ⟨hrings.txDone, hrings.rxDone, hrings.tdt, hrings.rdt⟩

theorem drainFramed_rxStart {s : State} {i : Instr} (hi : i = .drain ∨ i = .intr) (hs : Inv s) (hm : s.mode = .ready) :
    DrainFramed i s (rxStart (kindOf i) s) where
  inv := inv_rxStart hs hm _
  side := rfl
  dev := ⟨rfl, rfl, rfl⟩
  ack hd := by subst hd; exact ⟨by simp [rxStart, kindOf], rfl, rfl⟩
  src := rfl
  ports := ⟨fun q => { q with outstanding := true, waiting := none }, fun _ => ⟨rfl, rfl, rfl⟩, rfl⟩
  slot he := by rcases hi with rfl | rfl <;> cases he
  shadow _ _ := rfl
  mem _ _ := rfl

/-- Settles O27: either only the port has changed, or the frame holds along the run. -/
theorem drainFrame : Obligations.DrainFrame := by
  intro s t q i hs hi hq h
  have port : ∀ {f : Port → Port}, t.ports = s.ports.modify s.sel f → KeepsOperands f →
      (∀ j, j ≠ s.sel → t.ports[j]? = s.ports[j]?) ∧
        ∃ q', t.ports[s.sel]? = some q' ∧ q'.cw = q.cw ∧ q'.a0 = q.a0 ∧ q'.a1 = q.a1 := by
    intro f hports hf
    refine ⟨fun j hj => ?_, f q, ?_, hf q⟩ <;> rw [hports]
    · exact List.getElem?_modify_ne _ _ hj.symm
    · rw [List.getElem?_modify_eq, hq]
      rfl
  rcases exec_rx_cases hi hq h with ⟨f, hf, rfl⟩ | ⟨hm, hrun⟩
  · obtain ⟨others, own⟩ := port rfl hf
    exact ⟨rfl, rfl, rfl, rfl, fun _ => ⟨rfl, rfl⟩, others, own, fun _ _ => rfl, fun _ _ => rfl⟩
  · have hframed := (drainFramed_turn i s).runRx _ _ t (drainFramed_rxStart hi hs hm) hrun
    obtain ⟨hregs, htx, hrx⟩ := hframed.dev
    obtain ⟨f, hf, hports⟩ := hframed.ports
    obtain ⟨others, own⟩ := port hports hf
    exact ⟨hframed.side, hregs, htx, hrx, fun hd => (hframed.ack hd).2, others, own, hframed.shadow, hframed.mem⟩

/-! ### One round of a drain (R173 to R179) -/

/-- Every buffer in the shadow table is lent to its own slot (R136 (c)). -/
def RxLent (u : State) : Prop := ∀ i < u.cfg.n, rxShadowAt u i ≠ 0 → ownerOf u (rxShadowAt u i) = .rxSlot i

/-- A slot stands in `u` as it stood in `s`: its descriptor and its shadow entry. -/
structure SlotKept (s u : State) (i : Nat) : Prop where
  shadow : rxShadowAt u i = rxShadowAt s i
  bytes  : ∀ k < 16, byteAt u.mem (field s.cfg .rx i k) = byteAt s.mem (field s.cfg .rx i k)

/-- Slot `i`, filled in `s`, has been delivered and refilled with the buffer `h` at `a` when the drain stands in `u`. -/
structure Rearmed (s u : State) (i : Nat) (h : Handle) (a : Addr) : Prop where
  shadow   : rxShadowAt u i = h
  lent     : ownerOf u h = .rxSlot i
  area     : lookup h.toNat u.areas = some a
  sunk     : ownerOf u (rxShadowAt s i) = .ingress
  reported : (lookup (rxShadowAt s i).toNat u.bufLen).map BitVec.toNat = readBytes s.mem (field s.cfg .rx i 8) 2
  addr     : readBytes u.mem (field s.cfg .rx i 0) 8 = some a.toNat
  cleared  : readBytes u.mem (field s.cfg .rx i 8) 2 = some 0
  status   : byteAt u.mem (field s.cfg .rx i 12) = some 0

theorem SlotKept.readBytes_len {s u : State} {i : Nat} (h : SlotKept s u i) :
    readBytes u.mem (field s.cfg .rx i 8) 2 = readBytes s.mem (field s.cfg .rx i 8) 2 := by
  refine readBytes_congr 2 _ _ _ fun k hk => ?_
  rw [field_add]
  exact h.bytes (8 + k) (by omega)

theorem SlotKept.statusAt_eq {s u : State} {i : Nat} (h : SlotKept s u i) (hc : u.cfg = s.cfg) :
    statusAt u .rx i = statusAt s .rx i := by
  unfold statusAt
  rw [hc]
  exact h.bytes 12 (by decide)

/-- Different handles have different keys in the tables. -/
theorem handle_toNat_ne {x y : Handle} (h : x ≠ y) : x.toNat ≠ y.toNat := fun he => h (BitVec.eq_of_toNat_eq he)

section Round

variable (u : State) (b : Byte) (v : Nat) (h : Handle) (a : Addr) (rest : List AllocAnswer)

/-- Owners after a round: the slot's old buffer has gone to the ingress sink, the fresh one to the slot (R176, R177). -/
theorem ownerOf_roundDone (x : Handle) :
    ownerOf (roundDone u b v h a rest) x =
      if x = h then .rxSlot (drainSlot u 0)
      else if x = rxShadowAt u (drainSlot u 0) then .ingress
      else ownerOf u x := by
  rw [ownerOf_store _ _ _ _ _ rfl]
  split
  · rfl
  · rename_i hx
    rw [lookup_store_ne (handle_toNat_ne hx), ← ownerOf, ownerOf_store _ _ _ _ _ rfl]
    split
    · rename_i hold
      exact (if_pos hold).symm
    · rename_i hold
      rw [lookup_store_ne (handle_toNat_ne hold)]
      exact (if_neg hold).symm

theorem rxShadowAt_roundDone {j : Nat} (hj : j < u.rxShadow.length) :
    rxShadowAt (roundDone u b v h a rest) j = if drainSlot u 0 = j then h else rxShadowAt u j := by
  have hset : (roundDone u b v h a rest).rxShadow = u.rxShadow.set (drainSlot u 0) h := List.set_set ..
  rw [rxShadowAt_set hset]
  simp only [hj, and_true]

/-- The three stores of a round leave every other descriptor alone. -/
theorem byteAt_roundDone_other (hp : paramsOk u.cfg = true) {j k : Nat} (hj : j < u.cfg.n) (hne : drainSlot u 0 ≠ j)
    (hk : k < 16) :
    byteAt (roundDone u b v h a rest).mem (field u.cfg .rx j k) = byteAt u.mem (field u.cfg .rx j k) := by
  have other : ∀ {off w : Nat} (m : Memory) (v : Nat), off + w ≤ 16 →
      byteAt (writeBytes m (field u.cfg .rx (drainSlot u 0) off) w v) (field u.cfg .rx j k) =
        byteAt m (field u.cfg .rx j k) :=
    fun m v hw => byteAt_write_field hp (drainSlot_lt hp 0) hj hw hk (fun _ he => absurd he hne) m v
  exact (other _ _ (by decide)).trans ((other _ _ (by decide)).trans (other _ _ (by decide)))

/-- The memory after a round, its three stores named. -/
theorem roundDone_mem : (roundDone u b v h a rest).mem =
    writeBytes (writeBytes (writeBytes u.mem (field u.cfg .rx (drainSlot u 0) 0) 8 a.toNat)
      (field u.cfg .rx (drainSlot u 0) 8) 2 0) (field u.cfg .rx (drainSlot u 0) 12) 1 0 := rfl

theorem readBytes_roundDone_addr :
    readBytes (roundDone u b v h a rest).mem (field u.cfg .rx (drainSlot u 0) 0) 8 = some a.toNat := by
  have hlt := a.isLt
  rw [roundDone_mem, readBytes_write_beside (by decide), readBytes_write_beside (by decide),
    readBytes_writeBytes_same 8 _ _ _ (by decide), Nat.mod_eq_of_lt (by omega)]

theorem readBytes_roundDone_len :
    readBytes (roundDone u b v h a rest).mem (field u.cfg .rx (drainSlot u 0) 8) 2 = some 0 := by
  rw [roundDone_mem, readBytes_write_beside (by decide), readBytes_writeBytes_same 2 _ _ _ (by decide),
    Nat.zero_mod]

theorem byteAt_roundDone_status :
    byteAt (roundDone u b v h a rest).mem (field u.cfg .rx (drainSlot u 0) 12) = some 0 := by
  apply byteAt_eq_of_readBytes
  rw [roundDone_mem, readBytes_writeBytes_same 1 _ _ _ (by decide)]
  rfl

/-- What a round meets: its slot's buffer is lent to the slot, and the buffer it takes is a fresh one. -/
structure RoundReady : Prop where
  params : paramsOk u.cfg = true
  table  : u.rxShadow.length = u.cfg.n
  lent   : RxLent u
  filled : rxShadowAt u (drainSlot u 0) ≠ 0
  fresh  : ownerOf u h = .pool

variable {u b v h a rest} (hready : RoundReady u h)

include hready

theorem RoundReady.old_lent : ownerOf u (rxShadowAt u (drainSlot u 0)) = .rxSlot (drainSlot u 0) :=
  hready.lent _ (drainSlot_lt hready.params 0) hready.filled

theorem RoundReady.fresh_ne_old : h ≠ rxShadowAt u (drainSlot u 0) := by
  intro he
  have hlent := hready.old_lent
  rw [← he, hready.fresh] at hlent
  cases hlent

/-- A handle whose owner is neither the pool nor the slot keeps it. -/
theorem RoundReady.ownerOf_other {x : Handle} (hpool : ownerOf u x ≠ .pool)
    (hslot : ownerOf u x ≠ .rxSlot (drainSlot u 0)) :
    x ≠ h ∧ x ≠ rxShadowAt u (drainSlot u 0) ∧ ownerOf (roundDone u b v h a rest) x = ownerOf u x := by
  have hx : x ≠ h := fun he => hpool (he ▸ hready.fresh)
  have hold : x ≠ rxShadowAt u (drainSlot u 0) := fun he => hslot (he ▸ hready.old_lent)
  exact ⟨hx, hold, by rw [ownerOf_roundDone, if_neg hx, if_neg hold]⟩

theorem RoundReady.rxLent : RxLent (roundDone u b v h a rest) := by
  intro j hj hne
  have hlen : j < u.rxShadow.length := hready.table ▸ hj
  rw [rxShadowAt_roundDone u b v h a rest hlen] at hne ⊢
  by_cases hslot : drainSlot u 0 = j
  · rw [if_pos hslot, ownerOf_roundDone, if_pos rfl, hslot]
  · rw [if_neg hslot] at hne ⊢
    have howner := hready.lent j hj hne
    rw [(hready.ownerOf_other (by simp [howner]) (by simpa [howner] using Ne.symm hslot)).2.2, howner]

/-- A round leaves the slots it does not look at. -/
theorem RoundReady.slotKept {s : State} {j : Nat} (hc : u.cfg = s.cfg) (hj : j < u.cfg.n) (hne : drainSlot u 0 ≠ j)
    (hkept : SlotKept s u j) : SlotKept s (roundDone u b v h a rest) j where
  shadow := by
    rw [rxShadowAt_roundDone u b v h a rest (hready.table ▸ hj), if_neg hne]
    exact hkept.shadow
  bytes k hk := by
    rw [← hc, byteAt_roundDone_other u b v h a rest hready.params hj hne hk, hc]
    exact hkept.bytes k hk

/-- What an earlier round has delivered and refilled stays so. -/
theorem RoundReady.rearmed_other {s : State} {j : Nat} {h' : Handle} {a' : Addr} (hc : u.cfg = s.cfg)
    (hj : j < u.cfg.n) (hne : drainSlot u 0 ≠ j) (hdone : Rearmed s u j h' a') :
    Rearmed s (roundDone u b v h a rest) j h' a' := by
  obtain ⟨hfresh, _, hlent⟩ := hready.ownerOf_other (b := b) (v := v) (a := a) (rest := rest) (x := h')
    (by simp [hdone.lent]) (by simpa [hdone.lent] using Ne.symm hne)
  obtain ⟨_, hold, hsunk⟩ := hready.ownerOf_other (b := b) (v := v) (a := a) (rest := rest) (x := rxShadowAt s j)
    (by simp [hdone.sunk]) (by simp [hdone.sunk])
  have bytes : ∀ k < 16, byteAt (roundDone u b v h a rest).mem (field s.cfg .rx j k) =
      byteAt u.mem (field s.cfg .rx j k) := by
    intro k hk
    rw [← hc]
    exact byteAt_roundDone_other u b v h a rest hready.params hj hne hk
  have reads : ∀ off w, off + w ≤ 16 → readBytes (roundDone u b v h a rest).mem (field s.cfg .rx j off) w =
      readBytes u.mem (field s.cfg .rx j off) w := by
    intro off w hw
    refine readBytes_congr w _ _ _ fun k hk => ?_
    rw [field_add]
    exact bytes (off + k) (by omega)
  refine ⟨?_, hlent.trans hdone.lent, ?_, hsunk.trans hdone.sunk, ?_, ?_, ?_, ?_⟩
  · rw [rxShadowAt_roundDone u b v h a rest (hready.table ▸ hj), if_neg hne]
    exact hdone.shadow
  · exact (lookup_store_ne (handle_toNat_ne hfresh) _ _).trans hdone.area
  · rw [← hdone.reported]
    exact congrArg _ (lookup_store_ne (handle_toNat_ne hold) _ _)
  · exact (reads 0 8 (by decide)).trans hdone.addr
  · exact (reads 8 2 (by decide)).trans hdone.cleared
  · exact (bytes 12 (by decide)).trans hdone.status

/-- The slot of a round is delivered with the length the device reported, and refilled. -/
theorem RoundReady.rearmed_slot {s : State} (hc : u.cfg = s.cfg) (hkept : SlotKept s u (drainSlot u 0))
    (hv : readBytes u.mem (field u.cfg .rx (drainSlot u 0) 8) 2 = some v) :
    Rearmed s (roundDone u b v h a rest) (drainSlot u 0) h a := by
  have hlt : v < 65536 := (readBytes_bytes 2 hv).1
  refine ⟨?_, ?_, lookup_store_same _ _ _, ?_, ?_, ?_, ?_, ?_⟩
  · rw [rxShadowAt_roundDone u b v h a rest (hready.table ▸ drainSlot_lt hready.params 0), if_pos rfl]
  · rw [ownerOf_roundDone, if_pos rfl]
  · rw [← hkept.shadow, ownerOf_roundDone, if_neg hready.fresh_ne_old.symm, if_pos rfl]
  · rw [← hkept.readBytes_len, ← hkept.shadow, ← hc, hv]
    refine (congrArg _ (lookup_store_same _ _ _)).trans (congrArg some ?_)
    rw [BitVec.toNat_ofNat]
    exact Nat.mod_eq_of_lt hlt
  · rw [← hc]
    exact readBytes_roundDone_addr u b v h a rest
  · rw [← hc]
    exact readBytes_roundDone_len u b v h a rest
  · rw [← hc]
    exact byteAt_roundDone_status u b v h a rest

/-- The buffers the allocator has for the later rounds stay fresh (R270). -/
theorem RoundReady.allocReady {bufs : List (Handle × Addr)} (halloc : AllocReady u ((h, a) :: bufs))
    (hrest : u.allocs = some (h, a) :: rest) : AllocReady (roundDone u b v h a rest) bufs := by
  obtain ⟨⟨more, hqueue⟩, hnodup, hapart, hfresh⟩ := halloc
  obtain ⟨hnotin, hnodup⟩ := List.nodup_cons.mp hnodup
  obtain ⟨hfirst, hapart⟩ := List.pairwise_cons.mp hapart
  refine ⟨⟨more, ?_⟩, hnodup, hapart, fun x hx => ?_⟩
  · exact (List.cons.inj (hrest.symm.trans hqueue)).2
  · obtain ⟨hne, hpool, harea⟩ := hfresh x (List.mem_cons_of_mem _ hx)
    obtain ⟨hrings, hregs, hothers⟩ := areaFree_iff.mp harea
    have hx1 : x.1 ≠ h := fun he => hnotin (List.mem_map.mpr ⟨x, hx, he⟩)
    have hold : x.1 ≠ rxShadowAt u (drainSlot u 0) := by
      intro he
      rw [he, hready.old_lent] at hpool
      cases hpool
    refine ⟨hne, ?_, areaFree_iff.mpr ⟨hrings, hregs, fun e he => ?_⟩⟩
    · rw [ownerOf_roundDone, if_neg hx1, if_neg hold, hpool]
    · rcases mem_store he with rfl | he
      · exact areasApart_symm (hfirst x hx)
      · exact hothers e he

end Round

/-! ### A drain of several rounds (R181 to R183) -/

/-- Where the loop of an accepted DRAIN or INTR begins: after `D0`, or after `I1` and the acknowledgment of `I2`. -/
def loopStart (i : Instr) (s : State) : State :=
  match i with
  | .intr => goRx .d1 (regWrite .icr 0xFFFFFFFF (rxStart .intr s))
  | _ => rxStart .drain s

/-- An accepted DRAIN or INTR has micro-steps for `N` rounds and the failing test from the start of its loop (R182). -/
theorem exec_loopStart {s : State} {q : Port} {i : Instr} (hi : i = .drain ∨ i = .intr)
    (hq : s.ports[s.sel]? = some q) (hm : s.mode = .ready) (hl : s.rxLock = .free) :
    ∃ k, exec i s = runRx (12 * s.cfg.n + (k + 3)) (loopStart i s) := by
  rw [exec_rx hi hq hm hl]
  rcases hi with rfl | rfl
  · exact ⟨2, rfl⟩
  · refine ⟨1, runRx_step (by show RxPc.i2 ≠ .idle; decide) ?_ rfl⟩
    show s.mode ≠ .fatal
    simp [hm]

theorem inv_loopStart {s : State} {i : Instr} (hi : i = .drain ∨ i = .intr) (hs : Inv s) (hm : s.mode = .ready) :
    Inv (loopStart i s) := by
  rcases hi with rfl | rfl
  · exact inv_rxStart hs hm .drain
  · refine inv_rx _ _ (inv_rxStart hs hm .intr) (rxTurn_of_ne_fatal ?_)
    show s.mode ≠ .fatal
    simp [hm]

/-- A DRAIN or INTR taken up in `s` stands in `u` at `D1` with its first `k` slots delivered and refilled. -/
structure Drained (i : Instr) (s : State) (bufs : List (Handle × Addr)) (k : Nat) (u : State) : Prop where
  inv     : Inv u
  lent    : RxLent u
  cfg     : u.cfg = s.cfg
  mode    : u.mode = .ready
  pc      : u.rx.pc = .d1
  src     : u.rx.src = .port s.sel
  ports   : u.ports = runningPorts s.sel s
  rdt     : u.dev.regs.rdt = indexWord ((s.dev.regs.rdt.toNat + k) % s.cfg.n)
  ack     : i = .intr → u.dev.regs.icr = 0 ∧ u.dev.irqOut = false
  allocs  : AllocReady u (bufs.drop k)
  trace   : delivered u.trace =
    ((List.range k).map (fun j => rxShadowAt s (drainSlot s j))).reverse ++ delivered s.trace
  done    : ∀ j < k, ∀ h a, bufs[j]? = some (h, a) → Rearmed s u (drainSlot s j) h a
  todo    : ∀ j < s.cfg.n, k ≤ j → SlotKept s u (drainSlot s j)

theorem drained_loopStart {s : State} {i : Instr} {bufs : List (Handle × Addr)} (hi : i = .drain ∨ i = .intr)
    (hs : Inv s) (hlent : RxLent s) (hm : s.mode = .ready) (halloc : AllocReady s bufs) :
    Drained i s bufs 0 (loopStart i s) := by
  have hrdt : s.dev.regs.rdt = indexWord ((s.dev.regs.rdt.toNat + 0) % s.cfg.n) := by
    have hlt := (hs.rings hm).rdt
    apply BitVec.eq_of_toNat_eq
    rw [Nat.add_zero, Nat.mod_eq_of_lt hlt, indexWord_toNat (hs.params (.inr hm)) hlt]
  have hinv := inv_loopStart hi hs hm
  rcases hi with rfl | rfl
  · exact ⟨hinv, hlent, rfl, hm, rfl, rfl, rfl, hrdt, (fun he => by cases he), halloc, rfl,
      (fun _ hj => absurd hj (Nat.not_lt_zero _)), fun _ _ _ => ⟨rfl, fun _ _ => rfl⟩⟩
  · exact ⟨hinv, hlent, rfl, hm, rfl, rfl, rfl, hrdt, (fun _ => ⟨rfl, rfl⟩), halloc, rfl,
      (fun _ hj => absurd hj (Nat.not_lt_zero _)), fun _ _ _ => ⟨rfl, fun _ _ => rfl⟩⟩

/-- The slots a drain looks at are different ones, up to the size of the ring (R182). -/
theorem drainSlot_inj {s : State} {j k : Nat} (hj : j < s.cfg.n) (hk : k < s.cfg.n)
    (h : drainSlot s j = drainSlot s k) : j = k :=
  Nat.ModEq.eq_of_lt_of_lt (Nat.ModEq.add_left_cancel' _ h) hj hk

section Drained

variable {i : Instr} {s u : State} {bufs : List (Handle × Addr)} {k : Nat} (hu : Drained i s bufs k u)

include hu

theorem Drained.params : paramsOk s.cfg = true := hu.cfg ▸ hu.inv.params (.inr hu.mode)

/-- The tail has moved by `k`, so the slot looked at next is the one `k` further on (R173, R179). -/
theorem Drained.drainSlot_eq (j : Nat) : drainSlot u j = drainSlot s (k + j) := by
  have hlt := mod_lt_n hu.params (s.dev.regs.rdt.toNat + k)
  rw [drainSlot, drainSlot, hu.cfg, hu.rdt, indexWord_toNat hu.params hlt, Nat.add_assoc, Nat.mod_add_mod]
  congr 1
  omega

theorem Drained.roundReady {h : Handle} {a : Addr} (hk : k < s.cfg.n) (hbuf : bufs[k]? = some (h, a))
    (hne : rxShadowAt s (drainSlot s k) ≠ 0) : RoundReady u h where
  params := hu.inv.params (.inr hu.mode)
  table := hu.inv.shaped.rxShadow
  lent := hu.lent
  filled := by
    rw [hu.drainSlot_eq 0, Nat.add_zero, (hu.todo k hk le_rfl).shadow]
    exact hne
  fresh := by
    obtain ⟨_, _, _, hfresh⟩ := hu.allocs
    exact (hfresh (h, a) (List.mem_of_getElem? (i := 0) (by simpa using hbuf))).2.1

/-- One more round (R181). -/
theorem Drained.round (hk : k < bufs.length) (hn : bufs.length ≤ s.cfg.n) (hfill : Filled s bufs.length) :
    ∃ t, Drained i s bufs (k + 1) t ∧ ∀ m, runRx (m + 12) u = runRx m t := by
  have hkn : k < s.cfg.n := by omega
  rcases hbuf : bufs[k] with ⟨h, a⟩
  have hget : bufs[k]? = some (h, a) := by rw [List.getElem?_eq_getElem hk, hbuf]
  obtain ⟨howns, hne⟩ := hfill k hk
  have hslot : drainSlot u 0 = drainSlot s k := hu.drainSlot_eq 0
  have hkept : SlotKept s u (drainSlot u 0) := hslot ▸ hu.todo k hkn le_rfl
  have hready := hu.roundReady hkn hget hne
  obtain ⟨b, hb, hd⟩ := owns_status howns
  have hb' : statusAt u .rx (drainSlot u 0) = some b := by rw [hkept.statusAt_eq hu.cfg, hslot, hb]
  obtain ⟨v, hv⟩ := exists_readBytes_len (hu.inv.rings hu.mode).rxDone (drainSlot_lt hready.params 0)
  have halloc : AllocReady u ((h, a) :: bufs.drop (k + 1)) := by
    rw [← hbuf, ← List.drop_eq_getElem_cons hk]
    exact hu.allocs
  have ⟨⟨more, hqueue⟩, _, _, hfresh⟩ := halloc
  have hrun : ∀ m, runRx (m + 12) u = runRx m (roundDone u b v h a ((bufs.drop (k + 1)).map some ++ more)) := by
    intro m
    exact runRx_round (by simp [hu.mode]) hu.pc hb' hd hready.filled hv hqueue (hfresh _ List.mem_cons_self)
      hready.fresh_ne_old
  have inv' : Inv (roundDone u b v h a ((bufs.drop (k + 1)).map some ++ more)) := inv_rx.runRx 12 u _ hu.inv (hrun 0)
  have hother : ∀ j < s.cfg.n, j ≠ k → drainSlot u 0 ≠ drainSlot s j := by
    intro j hj hjk he
    exact hjk (drainSlot_inj hj hkn (he.symm.trans hslot))
  refine ⟨_, ⟨inv', hready.rxLent, hu.cfg, hu.mode, rfl, hu.src, hu.ports, ?_, hu.ack, hready.allocReady halloc hqueue,
    ?_, fun j hj h' a' hj' => ?_, fun j hj hkj => ?_⟩, hrun⟩
  · show indexWord (drainSlot u 0) = _
    rw [hslot, drainSlot, Nat.add_right_comm, Nat.add_assoc]
  · show rxShadowAt u (drainSlot u 0) :: delivered u.trace = _
    rw [hu.trace, hkept.shadow, hslot, List.range_succ]
    simp
  · by_cases hjk : j = k
    · subst hjk
      obtain ⟨rfl, rfl⟩ := Prod.mk.inj (Option.some.inj (hget.symm.trans hj'))
      rw [← hslot]
      exact hready.rearmed_slot hu.cfg hkept hv
    · exact hready.rearmed_other hu.cfg (hu.cfg ▸ drainSlot_lt hu.params j) (hother j (by omega) hjk)
        (hu.done j (by omega) h' a' hj')
  · exact hready.slotKept hu.cfg (hu.cfg ▸ drainSlot_lt hu.params j) (hother j hj (by omega)) (hu.todo j hj (by omega))

/-- After the last round the drain meets a slot whose DD is clear: one the device owns, or the first one it has itself
refilled (R183). -/
theorem Drained.next_clear (hk : k = s.cfg.n ∧ bufs.length = s.cfg.n ∨
    k < s.cfg.n ∧ deviceOwns s .rx (drainSlot s k) = true) :
    ∃ b, statusAt u .rx (drainSlot u 0) = some b ∧ dd b = false := by
  have hslot : drainSlot u 0 = drainSlot s k := hu.drainSlot_eq 0
  rw [hslot]
  rcases hk with ⟨rfl, hall⟩ | ⟨hlt, howns⟩
  · have hn : 0 < s.cfg.n := Nat.zero_lt_of_lt (drainSlot_lt hu.params 0)
    have hround : drainSlot s s.cfg.n = drainSlot s 0 := Nat.add_mod_right _ _
    have hfirst := hu.done 0 hn bufs[0].1 bufs[0].2 (List.getElem?_eq_getElem (by omega))
    refine ⟨0, ?_, rfl⟩
    rw [hround, statusAt, hu.cfg]
    exact hfirst.status
  · rw [(hu.todo k hlt le_rfl).statusAt_eq hu.cfg]
    unfold deviceOwns at howns
    split at howns
    · rename_i b hb
      exact ⟨b, hb, by simpa using howns⟩
    · cases howns

end Drained

/-- `k` rounds of a drain whose first slots are filled and whose allocator has a buffer for each. -/
theorem exists_drained {i : Instr} {s : State} {bufs : List (Handle × Addr)}
    (hstart : Drained i s bufs 0 (loopStart i s)) (hn : bufs.length ≤ s.cfg.n) (hfill : Filled s bufs.length) :
    ∀ k ≤ bufs.length, ∃ u, Drained i s bufs k u ∧ ∀ m, runRx (12 * k + m) (loopStart i s) = runRx m u
  | 0, _ => ⟨_, hstart, fun m => by rw [Nat.mul_zero, Nat.zero_add]⟩
  | k + 1, hk => by
    obtain ⟨u, hu, hrun⟩ := exists_drained hstart hn hfill k (by omega)
    obtain ⟨t, ht, hround⟩ := hu.round hk hn hfill
    refine ⟨t, ht, fun m => ?_⟩
    rw [Nat.mul_succ, Nat.add_assoc, Nat.add_comm 12 m, hrun, hround]

/-- Settles O26: the rounds one after the other, and the failing test that ends them. -/
theorem drainDelivers : Obligations.DrainDelivers := by
  intro s q i bufs hs howned hi hq hm hl halloc hfill hend
  have hn : bufs.length ≤ s.cfg.n := by omega
  obtain ⟨fuel, hexec⟩ := exec_loopStart hi hq hm hl
  obtain ⟨u, hu, hrun⟩ := exists_drained (drained_loopStart hi hs howned.rxSlots hm halloc) hn hfill _ le_rfl
  obtain ⟨b, hb, hd⟩ := hu.next_clear (hend.imp (fun he => ⟨he, he⟩) id)
  have hexit : exec i s = .next (drainExit u b) := by
    obtain ⟨more, hmore⟩ := Nat.exists_eq_add_of_le hn
    rw [hexec, show 12 * s.cfg.n + (fuel + 3) = 12 * bufs.length + (12 * more + fuel + 3) by omega, hrun]
    exact runRx_empty (by simp [hu.mode]) hu.pc hb hd
  rw [drainExit_eq hu.src hu.ports] at hexit
  refine ⟨_, hexit, hu.mode, rfl, rfl, rfl, hu.rdt, hu.ack, hu.trace, fun j h a hj => ?_⟩
  have hj' : j < bufs.length := (List.getElem?_eq_some_iff.mp hj).1
  obtain ⟨hshadow, hlent, harea, hsunk, hreported, haddr, hcleared, hstatus⟩ := hu.done j hj' h a hj
  exact ⟨hshadow, hlent, harea, hsunk, hreported, haddr, hcleared, hstatus⟩

end Sys2Proof.Machine
end

section
/-! The statements of 43_interrupt_entry.md: that the acknowledgment is the one access an INTR makes to `ICR` and its
first, and what an INTR with nothing to drain comes to, on a port and on the interrupt port. -/

namespace Sys2Proof.Machine

/-! ### The acknowledgment (R192) -/

/-- The state after `I2`. -/
def afterI2 (s : State) : State := goRx .d1 (regWrite .icr 0xFFFFFFFF s)

theorem rxStep_i2 {s : State} (hp : s.rx.pc = .i2) : rxStep s = .next (afterI2 s) := by
  rw [rxStep, hp]
  rfl

theorem rxTurn_i2 {s : State} (hm : s.mode ≠ .fatal) (hp : s.rx.pc = .i2) : rxTurn s = .next (afterI2 s) :=
  (rxTurn_of_ne_fatal hm).trans (rxStep_i2 hp)

/-- An access to `ICR`. -/
def Act.onIcr : Act → Bool
  | .regRead r _ _ => r = .icr
  | .regWrite r _ _ => r = .icr
  | .memRead _ _ _ => false
  | .memWrite _ _ _ => false
  | .fence => false
  | .bufAlloc _ => false
  | .bufFree _ => false
  | .bufSetLen _ _ => false
  | .netRx _ => false

theorem Act.ne_of_onIcr {e : Act} (h : e.onIcr = false) (a : Addr) (v : Word) :
    e ≠ .regWrite .icr a v ∧ e ≠ .regRead .icr a v := by
  constructor <;> rintro rfl <;> cases h

/-- Between the two states the record has grown by accesses none of which is to `ICR`. -/
def LeavesIcr (s t : State) : Prop := ∃ l : List Act, t.trace = l ++ s.trace ∧ ∀ e ∈ l, e.onIcr = false

theorem LeavesIcr.silent {s t : State} (h : t.trace = s.trace) : LeavesIcr s t := ⟨[], h, by simp⟩

theorem LeavesIcr.of_act {s t : State} (a : Act) (ha : a.onIcr = false) (h : t.trace = a :: s.trace) : LeavesIcr s t :=
  ⟨[a], h, by simpa using ha⟩

theorem LeavesIcr.trans {s t u : State} (h1 : LeavesIcr s t) (h2 : LeavesIcr t u) : LeavesIcr s u := by
  obtain ⟨l1, e1, hl1⟩ := h1
  obtain ⟨l2, e2, hl2⟩ := h2
  exact ⟨l2 ++ l1, by rw [e2, e1, List.append_assoc], List.forall_mem_append.mpr ⟨hl2, hl1⟩⟩

/-- Such a move does not record an access to `ICR`. -/
theorem LeavesIcr.trace_ne {s t : State} (h : LeavesIcr s t) {a : Act} (ha : a.onIcr = true) :
    t.trace ≠ a :: s.trace := by
  obtain ⟨l, hl, hoff⟩ := h
  intro he
  obtain rfl : l = [a] := List.append_cancel_right (hl.symm.trans he)
  rw [hoff a List.mem_cons_self] at ha
  cases ha

/-- The positions from which an INTR has still to acknowledge (R191). -/
def awaitsAck : RxPc → Bool
  | .i1 | .i2 => true
  | .idle | .d0 | .d1 | .d2 | .d3a | .d3b | .d3c | .d4 | .d5 | .d6a | .d6b | .d6c | .d6d | .d7 | .dx => false

/-- Off `I2` a turn of the RX engine makes no access to `ICR`, and only from `I1` does it come to await one. -/
theorem rxTurn_leavesIcr {s t : State} (hack : s.rx.pc ≠ .i2) (h : rxTurn s = .next t) :
    LeavesIcr s t ∧ (awaitsAck t.rx.pc = true → s.rx.pc = .i1) := by
  rcases rxTurn_cases h with rfl | ⟨_, hc⟩
  · refine ⟨.silent rfl, fun hawaits => ?_⟩
    revert hack hawaits
    cases t.rx.pc <;> decide
  rcases hc with ⟨hp, _, _, rfl⟩ | ⟨hp, _⟩ | ⟨_, _, rfl⟩ | ⟨_, rfl⟩ | ⟨_, b, _, rfl⟩ | ⟨_, rfl⟩ | ⟨_, v, _, rfl⟩ |
    ⟨_, rfl⟩ | ⟨_, rfl⟩ | ⟨hp, rest, _, rfl⟩ | ⟨_, hd, a, rest, _, _, rfl⟩ | ⟨_, rfl⟩ | ⟨_, rfl⟩ | ⟨_, rfl⟩ | ⟨_, rfl⟩ |
    ⟨_, rfl⟩ | ⟨_, rfl⟩
  · refine ⟨.silent ?_, fun _ => hp⟩
    cases hsrc : s.rx.src <;> simp [afterI1, hsrc]
  · exact absurd hp hack
  · exact ⟨.silent rfl, nofun⟩
  · exact ⟨.of_act _ rfl rfl, nofun⟩
  · refine ⟨.of_act _ rfl rfl, ?_⟩
    cases hdd : dd b <;> simp [afterD2, hdd, awaitsAck]
  · unfold afterD3a
    split <;> exact ⟨.silent rfl, nofun⟩
  · exact ⟨.of_act _ rfl rfl, nofun⟩
  · exact ⟨.of_act _ rfl rfl, nofun⟩
  · exact ⟨.of_act _ rfl rfl, nofun⟩
  · exact ⟨.of_act _ rfl rfl, by simp [failedD5, hp, awaitsAck]⟩
  · rw [afterD5_eq]
    exact ⟨.of_act _ rfl rfl, nofun⟩
  · exact ⟨.of_act _ rfl rfl, nofun⟩
  · exact ⟨.of_act _ rfl rfl, nofun⟩
  · exact ⟨.of_act _ rfl rfl, nofun⟩
  · exact ⟨.silent rfl, nofun⟩
  · exact ⟨.of_act _ rfl rfl, nofun⟩
  · exact ⟨.silent (by simp), nofun⟩

/-- Past its acknowledgment an INTR stays past it, and makes no further access to `ICR`. -/
theorem leavesIcr_turn (s : State) : Keeps (fun u => LeavesIcr s u ∧ awaitsAck u.rx.pc = false) rxTurn := by
  rintro u t ⟨hleaves, hpast⟩ ht
  have hne : ∀ pc, awaitsAck pc = true → u.rx.pc ≠ pc := by
    rintro pc hawaits rfl
    rw [hpast] at hawaits
    cases hawaits
  obtain ⟨hturn, hawaits⟩ := rxTurn_leavesIcr (hne .i2 rfl) ht
  exact ⟨hleaves.trans hturn, Bool.eq_false_iff.mpr fun he => hne .i1 rfl (hawaits he)⟩

/-- An INTR that runs from `I2` acknowledges first and once (R192). -/
theorem runRx_acknowledges {u t : State} {k : Nat} (hm : u.mode ≠ .fatal) (hp : u.rx.pc = .i2)
    (h : runRx (k + 1) u = .next t) :
    ∃ l : List Act, t.trace = l ++ .regWrite .icr (regAddr u .icr) 0xFFFFFFFF :: u.trace ∧
      ∀ e ∈ l, ∀ a v, e ≠ .regWrite .icr a v ∧ e ≠ .regRead .icr a v := by
  rw [runRx_step (by simp [hp]) hm (rxStep_i2 hp)] at h
  obtain ⟨⟨l, htrace, hoff⟩, _⟩ := (leavesIcr_turn (afterI2 u)).runRx k _ t ⟨.silent rfl, rfl⟩ h
  exact ⟨l, htrace, fun e he => Act.ne_of_onIcr (hoff e he)⟩

/-- The state in which the interrupt port's INTR has taken `rx_lock` (R238). -/
def irqStart (s : State) : State :=
  { s with rx := { s.rx with pc := .i2, src := .irq, kind := .intr }, rxLock := .held .irq, irqPend := false }

/-- The interrupt port's INTR, where it is enabled, runs from its grant (R238). -/
theorem serveRx_irq {s : State} (hirq : s.irqPend = true) (hm : s.mode = .ready) (hl : s.rxLock = .free) :
    serveRx .irq s = runRx (rxFuel s.cfg) (irqStart s) := by
  have hw : rxWaiter s .irq = some .intr := by simp [rxWaiter, rxRequest, hirq, hm, hl]
  have hgrant : grantRx .irq s = .next (irqStart s) := by
    rw [grantRx, hw]
    exact stepI1_eq hl fun _ => hm
  rw [serveRx, hw, hgrant]
  rfl

/-- Settles O31: the run from `I2` for both sources, then the equation of `I2` and the case split of a turn. -/
theorem intrAcknowledges : Obligations.IntrAcknowledges := by
  refine ⟨fun s t q hq hm hl h => ?_, fun s hm hp => rxTurn_i2 hm hp, fun s t hm h => ?_⟩
  · have hlive : s.mode ≠ .fatal := by simp [hm]
    rcases h with hexec | ⟨hirq, hserve⟩
    · rw [exec_rx (.inr rfl) hq hm hl] at hexec
      exact runRx_acknowledges (u := rxStart .intr s) hlive rfl hexec
    · rw [serveRx_irq hirq hm hl] at hserve
      exact runRx_acknowledges (u := irqStart s) hlive rfl hserve
  · by_cases hp : s.rx.pc = .i2
    · rw [rxTurn_i2 hm hp] at h
      cases h
      exact ⟨fun _ _ _ => hp, nofun⟩
    · obtain ⟨hleaves, hawaits⟩ := rxTurn_leavesIcr hp h
      refine ⟨fun a v hact => ?_, fun hi => hawaits (by rw [hi]; rfl)⟩
      rcases hact with hact | hact <;> exact absurd hact (hleaves.trace_ne rfl)

/-! ### An INTR with nothing to drain (R191, R195) -/

/-- From `I2` with no slot done: the acknowledgment, and the exit at the first test. -/
theorem runRx_spurious {u : State} {b : Byte} {k : Nat} (hm : u.mode ≠ .fatal) (hp : u.rx.pc = .i2)
    (hb : statusAt u .rx (drainSlot u 0) = some b) (hd : dd b = false) :
    runRx (k + 4) u = .next (drainExit (afterI2 u) b) := by
  rw [runRx_step (by simp [hp]) hm (rxStep_i2 hp)]
  exact runRx_empty (u := afterI2 u) hm rfl hb hd

/-- Settles O24, by the run from `I2` of an INTR accepted on a port. -/
theorem intrSpurious : Obligations.IntrSpurious := by
  intro s q b hq hm hl hb hd
  have hrun : exec .intr s = .next (drainExit (afterI2 (rxStart .intr s)) b) := by
    rw [exec_rx (.inr rfl) hq hm hl]
    exact runRx_spurious (u := rxStart .intr s) (by simp [rxStart, hm]) rfl hb hd
  refine ⟨_, hrun, ?_, rfl, rfl⟩
  refine (drainExit_eq (u := afterI2 (rxStart .intr s)) rfl rfl).trans ?_
  rw [← hl]
  rfl

/-- The exit of the interrupt port's INTR leaves every port as it is (R240). -/
theorem drainExit_irq {u : State} (hsrc : u.rx.src = .irq) (b : Byte) : drainExit u b =
    { u with rx := (drainExit u b).rx, rxLock := .free,
             trace := .memRead (field u.cfg .rx (drainSlot u 0) 12) 1 b.toNat ::
               .regRead .rdt (regAddr u .rdt) u.dev.regs.rdt :: u.trace } := by
  rw [drainExit, hsrc]
  rfl

/-- Settles O33: the interrupt port's event is its INTR, run from the grant to an exit that answers no port. -/
theorem irqServed : Obligations.IrqServed := by
  intro s rest b hscript hirq hm hl hb hd
  have hrun : step s = .next (drainExit (afterI2 (irqStart { s with script := rest })) b) := by
    rw [step_of_agentEvent hscript nofun]
    refine (serveRx_irq (s := { s with script := rest }) hirq hm hl).trans ?_
    exact runRx_spurious (u := irqStart { s with script := rest }) (by simp [irqStart, hm]) rfl hb hd
  refine ⟨_, hrun, ?_, rfl, rfl⟩
  refine (drainExit_irq (u := afterI2 (irqStart { s with script := rest })) rfl b).trans ?_
  rw [← hl]
  rfl

end Sys2Proof.Machine
end

section
/-! The statements of 44_init.md: what the configuration checks and a failed allocation do, what INIT leaves, and the state
a completed INIT ends in. -/

namespace Sys2Proof.Machine

/-! ### Single micro-steps (R208, R209) -/

theorem initTurn_of_ne_fatal {s : State} (hm : s.mode ≠ .fatal) : initTurn s = initStep s := if_neg hm

theorem ringSizeOk_iff {c : Config} : ringSizeOk c = true ↔ 16 * c.n % c.ringLenMult = 0 := by
  rw [ringSizeOk, decide_eq_true_iff, ringBytes, descSize, Nat.mul_comm]

theorem ringAligned_iff {c : Config} {r : Ring} :
    ringAligned c r = true ↔ (ringBase c r).toNat % c.descAlign = 0 := by
  rw [ringAligned, decide_eq_true_iff]

/-- `N7` checks the TX ring and `N10` the RX ring. -/
theorem initStep_check {s : State} {r : Ring} {next : InitPc}
    (hp : (s.ini.pc = .n7 ∧ r = .tx ∧ next = .n8a) ∨ (s.ini.pc = .n10 ∧ r = .rx ∧ next = .n11a)) :
    initStep s = .next (afterCheck r next s) := by
  rw [← ringCheck_eq]
  rcases hp with ⟨hp, rfl, rfl⟩ | ⟨hp, rfl, rfl⟩ <;> rw [initStep, hp]

theorem afterCheck_badSize {r : Ring} {next : InitPc} {s : State} (h : 16 * s.cfg.n % s.cfg.ringLenMult ≠ 0) :
    afterCheck r next s = raiseFatal .cfgRingSize s := by
  rw [afterCheck, if_neg (mt ringSizeOk_iff.mp h)]

theorem afterCheck_badAlign {r : Ring} {next : InitPc} {s : State} (h : 16 * s.cfg.n % s.cfg.ringLenMult = 0)
    (ha : (ringBase s.cfg r).toNat % s.cfg.descAlign ≠ 0) :
    afterCheck r next s = raiseFatal .cfgRingAlign s := by
  rw [afterCheck, if_pos (ringSizeOk_iff.mpr h), if_neg (mt ringAligned_iff.mp ha)]

theorem afterCheck_passed {r : Ring} {next : InitPc} {s : State} (h : 16 * s.cfg.n % s.cfg.ringLenMult = 0)
    (ha : (ringBase s.cfg r).toNat % s.cfg.descAlign = 0) : afterCheck r next s = goInit next s := by
  rw [afterCheck, if_pos (ringSizeOk_iff.mpr h), if_pos (ringAligned_iff.mpr ha)]

/-- Settles O37, by the three ways a ring check ends. -/
theorem initChecks : Obligations.InitChecks := by
  intro s r next hm hp
  rw [initTurn_of_ne_fatal hm, initStep_check hp]
  refine ⟨fun h => ?_, fun h ha => ?_, fun h ha => ?_⟩
  · rw [afterCheck_badSize h]
    rfl
  · rw [afterCheck_badAlign h ha]
    rfl
  · rw [afterCheck_passed h ha]
    rfl

theorem initStep_n9 {s : State} (hp : s.ini.pc = .n9) : initStep s = stepN9 s := by
  rw [initStep, hp]

/-- `N9` where the allocator answers `NONE` halts the block (R209). -/
theorem stepN9_none {s : State} {rest : List AllocAnswer} (hk : s.ini.k = 0) (h : s.allocs = none :: rest) :
    stepN9 s = .next (failedN9 rest s) := by
  rw [stepN9, hk, bufAlloc, h]
  rfl

/-- Settles O38, by the failed allocation of `N9`. -/
theorem initNoBuffer : Obligations.InitNoBuffer := by
  intro s rest hm hp hk h
  rw [initTurn_of_ne_fatal hm, initStep_n9 hp, stepN9_none hk h]
  rfl

/-! ### The frame of INIT (R201, R214, R217) -/

/-- What INIT leaves whole between two states: both other engines, the interrupt latch, the configuration and the
block's surroundings. -/
def InitSideOnly (s t : State) : Prop :=
  t = { s with ports := t.ports, ini := t.ini, mode := t.mode, fcause := t.fcause, regsBase := t.regsBase,
               txLock := t.txLock, rxLock := t.rxLock, txShadow := t.txShadow, rxShadow := t.rxShadow, mem := t.mem,
               dev := t.dev, owner := t.owner, areas := t.areas, allocs := t.allocs, draws := t.draws,
               trace := t.trace }

theorem InitSideOnly.trans {s t u : State} (h1 : InitSideOnly s t) (h2 : InitSideOnly t u) : InitSideOnly s u :=
  Eq.trans h2 (congrArg (fun w : State =>
    { w with ports := u.ports, ini := u.ini, mode := u.mode, fcause := u.fcause, regsBase := u.regsBase,
             txLock := u.txLock, rxLock := u.rxLock, txShadow := u.txShadow, rxShadow := u.rxShadow, mem := u.mem,
             dev := u.dev, owner := u.owner, areas := u.areas, allocs := u.allocs, draws := u.draws,
             trace := u.trace }) h1)

/-- What a turn of the sequencer does to the ports and to memory: it answers its own command, and at `N6` and `N9` it
stores inside the descriptor of the slot its loop is at. -/
structure InitEdit (s t : State) : Prop where
  side  : InitSideOnly s t
  ports : t.ports = s.ports ∨ t.ports = (respond (.port s.ini.p) .ok s).ports
  mem   : t.mem = s.mem ∨ (s.ini.pc = .n6 ∨ s.ini.pc = .n9) ∧ ∃ r off w v, off + w ≤ 16 ∧
    t.mem = writeBytes s.mem (field s.cfg r s.ini.i off) w v

/-- A turn that neither answers nor stores. -/
theorem InitEdit.quiet {s t : State} (side : InitSideOnly s t) (ports : t.ports = s.ports) (mem : t.mem = s.mem) :
    InitEdit s t := ⟨side, .inl ports, .inl mem⟩

/-- A turn of the loops of `N6` and `N9` that stores. -/
theorem InitEdit.store {s t : State} (side : InitSideOnly s t) (ports : t.ports = s.ports)
    (hp : s.ini.pc = .n6 ∨ s.ini.pc = .n9) {r : Ring} {off w v : Nat} (hw : off + w ≤ 16)
    (hmem : t.mem = writeBytes s.mem (field s.cfg r s.ini.i off) w v) : InitEdit s t :=
  ⟨side, .inl ports, .inr ⟨hp, r, off, w, v, hw, hmem⟩⟩

theorem nextRound_eq (count : Nat) (after : InitPc) (s : State) :
    nextRound count after s = { s with ini := (nextRound count after s).ini } := by
  unfold nextRound
  split <;> rfl

theorem initSideOnly_regWrite (r : Reg) (v : Word) (s : State) : InitSideOnly s (regWrite r v s) := by
  cases r <;> rfl

theorem InitSideOnly.of_ini {s t : State} (h : InitSideOnly s t) (ini : InitSeq) : InitSideOnly s { t with ini := ini } :=
  h.trans rfl

theorem initEdit_regWrite (r : Reg) (v : Word) (s : State) (ini : InitSeq) :
    InitEdit s { regWrite r v s with ini := ini } :=
  .quiet ((initSideOnly_regWrite r v s).of_ini ini) (regWrite_ports r v s) (regWrite_mem r v s)

/-- The end of a loop's round moves the sequencer only. -/
theorem InitEdit.nextRound {s t : State} (h : InitEdit s t) (count : Nat) (after : InitPc) :
    InitEdit s (nextRound count after t) := by
  rw [nextRound_eq]
  exact ⟨h.side.of_ini _, h.ports, h.mem⟩

theorem initEdit_check (r : Ring) (next : InitPc) (s : State) : InitEdit s (afterCheck r next s) := by
  unfold afterCheck
  split
  · split <;> exact .quiet rfl rfl rfl
  · exact .quiet rfl rfl rfl

theorem initEdit_n6 {s : State} (hp : s.ini.pc = .n6) : InitEdit s (afterN6 s) := by
  unfold afterN6
  split
  · exact .store rfl rfl (.inl hp) (r := .tx) (off := 0) (w := 8) (by decide) rfl
  · exact .store rfl rfl (.inl hp) (r := .tx) (off := 8) (w := 8) (by decide) rfl
  · refine InitEdit.nextRound ?_ _ _
    exact .store rfl rfl (.inl hp) (r := .tx) (off := 12) (w := 1) (by decide) rfl

theorem initEdit_n9 {s t : State} (hp : s.ini.pc = .n9) (h : stepN9 s = .next t) : InitEdit s t := by
  rcases stepN9_next h with ⟨_, rest, _, rfl⟩ | ⟨_, hd, a, rest, _, _, rfl⟩ | ⟨_, rfl⟩ | ⟨_, rfl⟩
  · exact .quiet rfl rfl rfl
  · rw [afterN9_eq]
    exact .quiet rfl rfl rfl
  · exact .store rfl rfl (.inr hp) (r := .rx) (off := 0) (w := 8) (by decide) rfl
  · refine InitEdit.nextRound ?_ _ _
    exact .store rfl rfl (.inr hp) (r := .rx) (off := 8) (w := 8) (by decide) rfl

theorem initEdit_turn {s t : State} (h : initTurn s = .next t) : InitEdit s t := by
  rcases initTurn_cases h with rfl | ⟨_, hc⟩
  · exact .quiet rfl rfl rfl
  rcases hc with ⟨r, v, n, _, rfl⟩ | ⟨_, rfl⟩ | ⟨_, rfl⟩ | ⟨hp, rfl⟩ | ⟨_, rfl⟩ | ⟨_, rfl⟩ | ⟨_, rfl⟩ | ⟨hp, hst⟩ |
    ⟨_, rfl⟩ | ⟨_, rfl⟩ | ⟨_, rfl⟩ | ⟨_, rfl⟩ | ⟨_, rfl⟩
  · exact initEdit_regWrite r v s _
  · exact .quiet rfl rfl rfl
  · exact .quiet rfl rfl rfl
  · exact initEdit_n6 hp
  · exact initEdit_check .tx .n8a s
  · exact .quiet rfl rfl rfl
  · exact initEdit_regWrite .tdt 0 s _
  · exact initEdit_n9 hp hst
  · exact initEdit_check .rx .n11a s
  · exact .quiet rfl rfl rfl
  · unfold afterN12b
    split <;> exact initEdit_regWrite .ra1 _ s _
  · rw [nextRound_eq]
    exact initEdit_regWrite (.mta s.ini.i) 0 s _
  · exact ⟨rfl, .inr rfl, .inl rfl⟩

/-- What the INIT on the port of `s` has changed when it stands in `u`. -/
structure InitFramed (s u : State) : Prop where
  inv   : Inv u
  side  : InitSideOnly s u
  src   : u.ini.p = s.sel
  ports : ∃ f, KeepsOperands f ∧ u.ports = s.ports.modify s.sel f
  mem   : ∀ a : Addr, (∀ r, ∀ i < s.cfg.n, ∀ off < 16, a ≠ field s.cfg r i off) → byteAt u.mem a = byteAt s.mem a

/-- The loops of `N6` and `N9` are at a slot of their ring (R206, R209). -/
theorem initLoop_index_lt {s : State} (hs : Inv s) (hm : s.mode ≠ .fatal) (hp : s.ini.pc = .n6 ∨ s.ini.pc = .n9) :
    s.ini.i < s.cfg.n := by
  have hr : s.mode = .initing := ini_mode hs hm (by rcases hp with hp | hp <;> simp [hp])
  rcases hp with hp | hp
  · exact ((hs.progress hr).txLoop hp).1
  · exact ((hs.progress hr).rxLoop hp).1

/-- An answer leaves every operand register (R22, R240). -/
theorem keepsOperands_respond {p : Nat} {s u : State} (r : Reason)
    (h : ∃ f, KeepsOperands f ∧ u.ports = s.ports.modify p f) :
    ∃ f, KeepsOperands f ∧ (respond (.port p) r u).ports = s.ports.modify p f := by
  obtain ⟨f, hf, hports⟩ := h
  refine ⟨fun q => { f q with rv := r.rv, rc := r.code, outstanding := false }, fun q => hf q, ?_⟩
  show u.ports.modify p _ = _
  rw [hports, modify_modify]
  rfl

theorem initFramed_turn (s : State) : Keeps (InitFramed s) initTurn := by
  intro u t h ht
  by_cases hm : u.mode = .fatal
  · rw [initTurn, if_pos hm] at ht
    cases ht
    exact h
  have hedit := initEdit_turn ht
  have hc : u.cfg = s.cfg := by rw [h.side]
  refine ⟨inv_init u t h.inv ht, h.side.trans hedit.side, (initMove_turn ht).port.trans h.src, ?_, fun a ha => ?_⟩
  · rcases hedit.ports with hports | hports <;> rw [hports]
    · exact h.ports
    · rw [h.src]
      exact keepsOperands_respond .ok h.ports
  · rcases hedit.mem with hsame | ⟨hp, r, off, w, v, hw, hwrite⟩
    · rw [hsame]
      exact h.mem a ha
    · have hlt := initLoop_index_lt h.inv hm hp
      rw [hwrite, byteAt_writeBytes_outside]
      · exact h.mem a ha
      · intro k hk
        rw [field_add, hc]
        exact ha r _ (hc ▸ hlt) _ (by omega)

/-! ### INIT from its acceptance -/

/-- The state in which an accepted INIT has taken `N1` (R202). -/
def initStart (q : Port) (s : State) : State := stepN1 s.sel q.a0 (raiseRequest s.sel s)

theorem inv_raiseRequest {s : State} (hs : Inv s) (p : Nat) : Inv (raiseRequest p s) :=
  inv_ports hs rfl (List.length_modify ..)
    fun hm => waitingAt_none_updatePort (fun _ _ => rfl) (uninit_waiting hs hm)

theorem paramsOk_of_initAllowed {s : State} {base : Addr} (h : initAllowed s base = true) : paramsOk s.cfg = true := by
  simp only [initAllowed, initPremises, Bool.and_eq_true] at h
  exact h.1.1

/-- `N1` keeps the invariant: INIT alone runs, holding both locks. -/
theorem inv_initStart {s : State} {q : Port} (hs : Inv s) (hm : s.mode = .uninit) (hp : paramsOk s.cfg = true) :
    Inv (initStart q s) := by
  have hraised := inv_raiseRequest hs s.sel
  have hengines := hs.engines
  unfold EnginesOk at hengines
  rw [hm] at hengines
  obtain ⟨hcause, htx, hrx, _⟩ := hengines
  refine ⟨?_, ?_, ⟨nofun, nofun, nofun, nofun, nofun, nofun⟩, fun _ => hp, fun _ => ?_, nofun⟩
  · exact shaped_mem hraised.shaped rfl hraised.shaped.mem hraised.shaped.owner rfl rfl rfl rfl
  · exact ⟨hcause, htx, hrx, nofun, nofun, rfl, rfl⟩
  · exact ⟨nofun, nofun, nofun, nofun, nofun, nofun⟩

theorem initFramed_start {s : State} {q : Port} (hs : Inv s) (hm : s.mode = .uninit) (hp : paramsOk s.cfg = true) :
    InitFramed s (initStart q s) :=
  ⟨inv_initStart hs hm hp, rfl, rfl,
    ⟨fun q => { q with outstanding := true, waiting := none }, fun _ => ⟨rfl, rfl, rfl⟩, rfl⟩, fun _ _ => rfl⟩

theorem decisionAt_eq {i : Instr} {s : State} {q : Port} (hq : s.ports[s.sel]? = some q) :
    decisionAt i s = decideOn s.mode i q.a0 := by
  rw [decisionAt, hq]

/-- An INIT that is not accepted changes its port only (R232). -/
theorem execInit_notAccepted {s t : State} {q : Port} (hq : s.ports[s.sel]? = some q)
    (hd : decideOn s.mode .init q.a0 ≠ .accept) (h : exec .init s = .next t) :
    ∃ f, KeepsOperands f ∧ t = { s with ports := s.ports.modify s.sel f } := by
  obtain ⟨u, hu, ht⟩ := andThen_eq_next.mp h
  rw [decisionAt_eq hq, serveInit, if_neg (by simpa using hd)] at ht
  cases ht
  obtain ⟨q', hq', hcase⟩ := issueCommand_cases hu
  obtain rfl : q = q' := Option.some.inj (hq.symm.trans hq')
  rcases hcase with ⟨_, rfl⟩ | ⟨r, _, rfl⟩ | ⟨hacc, _⟩
  · refine ⟨_, ?_, rfl⟩
    exact fun _ => ⟨rfl, rfl, rfl⟩
  · refine ⟨_, ?_, congrArg (fun l => { s with ports := l }) (modify_modify ..)⟩
    exact fun _ => ⟨rfl, rfl, rfl⟩
  · exact absurd hacc hd

/-- An accepted INIT starts its sequencer, where the premises of R9 and R69 hold, and runs it. -/
theorem execInit_accepted {s : State} {q : Port} (hq : s.ports[s.sel]? = some q) (hm : s.mode = .uninit) :
    exec .init s = andThen (startInit q (raiseRequest s.sel s)) fun u => runInit (initFuel u.cfg) u := by
  have hd : decideOn s.mode .init q.a0 = .accept := by rw [hm]; rfl
  show andThen (issueCommand .init startInit s) (serveInit (decide (decisionAt .init s = .accept))) = _
  rw [issueCommand_accept hq hd, decisionAt_eq hq, hd]
  rfl

/-- However INIT ends: it changes its own port only, or it has run from `N2` on. -/
theorem execInit_cases {s t : State} {q : Port} (hq : s.ports[s.sel]? = some q) (h : exec .init s = .next t) :
    (∃ f, KeepsOperands f ∧ t = { s with ports := s.ports.modify s.sel f }) ∨
      s.mode = .uninit ∧ initAllowed s q.a0 = true ∧ runInit (initFuel s.cfg) (initStart q s) = .next t := by
  by_cases hd : decideOn s.mode .init q.a0 = .accept
  · have hm := decideOn_init_accept hd
    rw [execInit_accepted hq hm] at h
    obtain ⟨u, hu, ht⟩ := andThen_eq_next.mp h
    obtain ⟨_, hallowed, rfl⟩ := startInit_cases hu
    exact .inr ⟨hm, hallowed, ht⟩
  · exact .inl (execInit_notAccepted hq hd h)

/-- Of the ports such a change of one port leaves every other, and of this one the operand registers (R22). -/
theorem KeepsOperands.ports_modify {f : Port → Port} (hf : KeepsOperands f) {s t : State} {q : Port}
    (hq : s.ports[s.sel]? = some q) (h : t.ports = s.ports.modify s.sel f) :
    (∀ j, j ≠ s.sel → t.ports[j]? = s.ports[j]?) ∧
      ∃ q', t.ports[s.sel]? = some q' ∧ q'.cw = q.cw ∧ q'.a0 = q.a0 ∧ q'.a1 = q.a1 := by
  refine ⟨fun j hj => ?_, f q, ?_, hf q⟩ <;> rw [h]
  · exact List.getElem?_modify_ne _ _ hj.symm
  · rw [List.getElem?_modify_eq, hq]
    rfl

/-- Settles O35: either only the port has changed, or the frame holds along the run. -/
theorem initFrame : Obligations.InitFrame := by
  intro s t q hs hq h
  rcases execInit_cases hq h with ⟨f, hf, rfl⟩ | ⟨hm, hallowed, hrun⟩
  · obtain ⟨others, own⟩ := hf.ports_modify (t := { s with ports := s.ports.modify s.sel f }) hq rfl
    exact ⟨rfl, others, own, fun _ _ => rfl⟩
  · have hframed := (initFramed_turn s).runInit _ _ t
      (initFramed_start hs hm (paramsOk_of_initAllowed hallowed)) hrun
    obtain ⟨f, hf, hports⟩ := hframed.ports
    obtain ⟨others, own⟩ := hf.ports_modify hq hports
    exact ⟨hframed.side, others, own, hframed.mem⟩

/-! ### Runs of the sequencer (R201, R243) -/

/-- In `m` micro-steps the sequencer gets from `u` to `v`, whatever it has left to do there. -/
def InitReaches (m : Nat) (u v : State) : Prop := ∀ k, runInit (m + k) u = runInit k v

theorem InitReaches.refl (u : State) : InitReaches 0 u u := fun k => by rw [Nat.zero_add]

theorem InitReaches.trans {m n : Nat} {u v w : State} (h1 : InitReaches m u v) (h2 : InitReaches n v w) :
    InitReaches (m + n) u w := fun k => by rw [Nat.add_assoc, h1, h2]

theorem InitReaches.step {u v : State} (hm : u.mode = .initing) (hp : u.ini.pc ≠ .idle) (h : initStep u = .next v) :
    InitReaches 1 u v := fun k => by rw [Nat.add_comm, runInit_step hp (by simp [hm]) h]

/-- A loop of rounds of `m` micro-steps each that keeps `P` of the number of rounds done. -/
theorem exists_initLoop {P : Nat → State → Prop} {count m : Nat} {u : State} (hstart : P 0 u)
    (hround : ∀ j < count, ∀ v, P j v → ∃ w, InitReaches m v w ∧ P (j + 1) w) :
    ∀ j ≤ count, ∃ w, InitReaches (m * j) u w ∧ P j w
  | 0, _ => ⟨u, .refl u, hstart⟩
  | j + 1, hj => by
    obtain ⟨v, hreach, hv⟩ := exists_initLoop hstart hround j (by omega)
    obtain ⟨w, hstep, hw⟩ := hround j hj v hv
    exact ⟨w, hreach.trans hstep, hw⟩

/-- The sequencer stands at the first access of round `j` of a loop of `count` rounds, or past the loop. -/
def LoopAt (pc after : InitPc) (count j : Nat) (s : State) : Prop :=
  s.ini.pc = (if j < count then pc else after) ∧ (j < count → s.ini.i = j ∧ s.ini.k = 0)

theorem LoopAt.inside {pc after : InitPc} {count j : Nat} {s : State} (h : LoopAt pc after count j s) (hj : j < count) :
    s.ini.pc = pc ∧ s.ini.i = j ∧ s.ini.k = 0 := ⟨h.1.trans (if_pos hj), h.2 hj⟩

theorem LoopAt.past {pc after : InitPc} {count : Nat} {s : State} (h : LoopAt pc after count count s) :
    s.ini.pc = after := h.1.trans (if_neg (Nat.lt_irrefl _))

theorem loopAt_goLoop {pc after : InitPc} {count : Nat} (hn : 0 < count) (s : State) :
    LoopAt pc after count 0 (goLoop pc s) := ⟨(if_pos hn).symm, fun _ => ⟨rfl, rfl⟩⟩

theorem loopAt_nextRound {pc after : InitPc} {count j : Nat} {s : State} (hp : s.ini.pc = pc) (hi : s.ini.i = j) :
    LoopAt pc after count (j + 1) (nextRound count after s) := by
  unfold nextRound LoopAt
  rw [hi]
  split
  · exact ⟨hp, fun _ => ⟨rfl, rfl⟩⟩
  · rename_i hge
    exact ⟨rfl, fun hlt => absurd hlt hge⟩

theorem nextRound_port (count : Nat) (after : InitPc) (s : State) : (nextRound count after s).ini.p = s.ini.p := by
  unfold nextRound
  split <;> rfl

/-! ### The registers INIT writes (R203, R207, R210 to R213) -/

/-- What the device does with a register write other than its reset (R262, R264, R266, R267). -/
def Device.written (d : Device) (r : Reg) (v : Word) : Device :=
  match r with
  | .icr => { d with regs := putReg d.regs .icr 0, irqOut := false }
  | .tctl => { d with regs := putReg d.regs .tctl v, txOn := true }
  | .rctl => { d with regs := putReg d.regs .rctl v, rxOn := true }
  | r => { d with regs := putReg d.regs r v }

theorem regWrite_dev {r : Reg} (hr : r ≠ .ctrl) (v : Word) (s : State) :
    (regWrite r v s).dev = s.dev.written r v := by
  cases r with
  | ctrl => exact absurd rfl hr
  | _ => rfl

/-- From `u` to `v` INIT has changed the device, and beside it its own latches and the record only. -/
structure DeviceOnly (u v : State) : Prop where
  rest : v = { u with ini := v.ini, dev := v.dev, draws := v.draws, trace := v.trace }
  port : v.ini.p = u.ini.p

theorem DeviceOnly.trans {u v w : State} (h1 : DeviceOnly u v) (h2 : DeviceOnly v w) : DeviceOnly u w where
  rest := Eq.trans h2.rest (congrArg (fun x : State =>
    { x with ini := w.ini, dev := w.dev, draws := w.draws, trace := w.trace }) h1.rest)
  port := h2.port.trans h1.port

theorem DeviceOnly.cfg_eq {u v : State} (h : DeviceOnly u v) : v.cfg = u.cfg := by rw [h.rest]

theorem DeviceOnly.mode_eq {u v : State} (h : DeviceOnly u v) : v.mode = u.mode := by rw [h.rest]

theorem deviceOnly_regWrite (r : Reg) (v : Word) (s : State) {ini : InitSeq}
    (hp : ini.p = (regWrite r v s).ini.p) : DeviceOnly s { regWrite r v s with ini := ini } :=
  ⟨by cases r <;> rfl, hp.trans (by rw [regWrite_ini])⟩

theorem initStep_write {s : State} {r : Reg} {v : Word} {next : InitPc} (h : initWriteAt s = some (r, v, next)) :
    initStep s = .next (goInit next (regWrite r v s)) := by
  unfold initWriteAt at h
  unfold initStep
  split at h <;> cases h <;> rename_i hp <;> rw [hp] <;> rfl

/-- A micro-step that is one register write. -/
theorem InitReaches.write {u : State} {r : Reg} {v : Word} {next : InitPc} (hm : u.mode = .initing)
    (h : initWriteAt u = some (r, v, next)) : InitReaches 1 u (goInit next (regWrite r v u)) :=
  .step hm (fun hp => by rw [initWriteAt, hp] at h; cases h) (initStep_write h)

/-- From one position to another INIT makes these register writes one after the other, none of them the device's
reset; with each write stands the position after it. -/
def WritesUpTo (c : Config) (after : InitPc) : InitPc → List (Reg × Word × InitPc) → Prop
  | pc, [] => pc = after
  | pc, (r, v, next) :: rest =>
    r ≠ .ctrl ∧ (∀ s : State, s.cfg = c → s.ini.pc = pc → initWriteAt s = some (r, v, next)) ∧
      WritesUpTo c after next rest

/-- The device after such writes. -/
def Device.writtenAll (d : Device) : List (Reg × Word × InitPc) → Device
  | [] => d
  | (r, v, _) :: rest => (d.written r v).writtenAll rest

theorem exists_writtenAll {c : Config} {after : InitPc} : ∀ {l : List (Reg × Word × InitPc)} {pc : InitPc} {u : State},
    WritesUpTo c after pc l → u.cfg = c → u.mode = .initing → u.ini.pc = pc →
    ∃ v, InitReaches l.length u v ∧ DeviceOnly u v ∧ v.ini.pc = after ∧ v.dev = u.dev.writtenAll l
  | [], _, u, hw, _, _, hp => ⟨u, .refl u, ⟨rfl, rfl⟩, hp.trans hw, rfl⟩
  | (r, v, next) :: rest, _, u, hw, hc, hm, hp => by
    obtain ⟨hr, hat, hrest⟩ := hw
    have hmove : DeviceOnly u (goInit next (regWrite r v u)) := deviceOnly_regWrite r v u rfl
    obtain ⟨w, hreach, hmove', hpc, hdev⟩ :=
      exists_writtenAll hrest (hmove.cfg_eq.trans hc) (hmove.mode_eq.trans hm) rfl
    refine ⟨w, ?_, hmove.trans hmove', hpc, ?_⟩
    · rw [List.length_cons, Nat.add_comm]
      exact (InitReaches.write hm (hat u hc hp)).trans hreach
    · rw [hdev, Device.writtenAll, ← regWrite_dev hr v u]
      rfl

/-! ### The parts of INIT without a loop (R203 to R205, R207, R208, R210 to R212) -/

theorem initStep_n3a {s : State} (hp : s.ini.pc = .n3a) : initStep s = .next (afterN3a s) := by
  rw [initStep, hp]
  rfl

/-- `N3` (R203): whatever the device's registers held, they hold free values now, and its engines are off. -/
theorem exists_deviceReset {u : State} (hm : u.mode = .initing) (hp : u.ini.pc = .n3a) :
    ∃ v k, InitReaches 2 u v ∧ DeviceOnly u v ∧ v.ini.pc = .n4 ∧
      v.dev = { regs := freeRegs u.cfg k, txOn := false, rxOn := false, irqOut := false } := by
  have hread : InitReaches 1 u (afterN3a u) := .step hm (by simp [hp]) (initStep_n3a hp)
  have hmove : DeviceOnly u (afterN3a u) := ⟨rfl, rfl⟩
  have hpc : (afterN3a u).ini.pc = .n3b := rfl
  generalize afterN3a u = w at hread hmove hpc
  refine ⟨goInit .n4 (regWrite .ctrl (w.ini.c ||| w.cfg.ctrlRst) w), w.draws, ?_, ?_, rfl, ?_⟩
  · exact hread.trans (.write (hmove.mode_eq.trans hm) (by rw [initWriteAt, hpc]))
  · exact hmove.trans (deviceOnly_regWrite _ _ _ rfl)
  · rw [← hmove.cfg_eq]
    rfl

/-- `N2` to `N5`: the device is reset and its interrupt masked (R203 to R205). -/
theorem exists_deviceMasked {u : State} (hm : u.mode = .initing) (hp : u.ini.pc = .n2) (hn : 0 < u.cfg.n) :
    ∃ v k, InitReaches 5 u v ∧ DeviceOnly u v ∧ LoopAt .n6 .n7 u.cfg.n 0 v ∧
      v.dev = { regs := { freeRegs u.cfg k with ims := 0 }, txOn := false, rxOn := false, irqOut := false } := by
  have mask : ∀ {pc next : InitPc}, pc = .n2 ∧ next = .n3a ∨ pc = .n4 ∧ next = .n5 →
      WritesUpTo u.cfg next pc [(.ims, 0, next)] := by
    rintro pc next (⟨rfl, rfl⟩ | ⟨rfl, rfl⟩) <;> exact ⟨nofun, fun s _ hp => by rw [initWriteAt, hp], rfl⟩
  obtain ⟨v, hreach1, hmove1, hpv, _⟩ := exists_writtenAll (mask (.inl ⟨rfl, rfl⟩)) rfl hm hp
  obtain ⟨w, k, hreach2, hmove2, hpw, hdev⟩ := exists_deviceReset (hmove1.mode_eq.trans hm) hpv
  have hmove := hmove1.trans hmove2
  obtain ⟨x, hreach3, hmove3, hpx, hdev'⟩ :=
    exists_writtenAll (mask (.inr ⟨rfl, rfl⟩)) hmove.cfg_eq (hmove.mode_eq.trans hm) hpw
  refine ⟨goLoop .n6 (fence x), k, ?_, (hmove.trans hmove3).trans ⟨rfl, rfl⟩, loopAt_goLoop hn _, ?_⟩
  · exact ((hreach1.trans hreach2).trans hreach3).trans
      (.step ((hmove.trans hmove3).mode_eq.trans hm) (by simp [hpx]) (by rw [initStep, hpx]))
  · show x.dev = _
    rw [hdev', hdev, hmove1.cfg_eq]
    rfl

/-- `N7`, `N8a` and `N10`, `N11a`: a ring check that passes, and the fence after it. -/
theorem exists_checked {u : State} {r : Ring} {fenced after : InitPc} (hm : u.mode = .initing)
    (hp : (u.ini.pc = .n7 ∧ r = .tx ∧ fenced = .n8a ∧ after = .n8b) ∨
      (u.ini.pc = .n10 ∧ r = .rx ∧ fenced = .n11a ∧ after = .n11b))
    (hsize : 16 * u.cfg.n % u.cfg.ringLenMult = 0) (halign : (ringBase u.cfg r).toNat % u.cfg.descAlign = 0) :
    ∃ v, InitReaches 2 u v ∧ DeviceOnly u v ∧ v.ini.pc = after ∧ v.dev = u.dev := by
  have hcheck : initStep u = .next (goInit fenced u) := by
    rw [← afterCheck_passed hsize halign]
    rcases hp with ⟨hp, rfl, rfl, _⟩ | ⟨hp, rfl, rfl, _⟩
    · exact initStep_check (.inl ⟨hp, rfl, rfl⟩)
    · exact initStep_check (.inr ⟨hp, rfl, rfl⟩)
  have hfence : initStep (goInit fenced u) = .next (goInit after (fence (goInit fenced u))) := by
    rcases hp with ⟨_, _, rfl, rfl⟩ | ⟨_, _, rfl, rfl⟩ <;> rfl
  refine ⟨goInit after (fence (goInit fenced u)), ?_, ⟨rfl, rfl⟩, rfl, rfl⟩
  refine (InitReaches.step hm ?_ hcheck).trans (.step hm ?_ hfence)
  · rcases hp with ⟨hp, _⟩ | ⟨hp, _⟩ <;> simp [hp]
  · rcases hp with ⟨_, _, rfl, _⟩ | ⟨_, _, rfl, _⟩ <;> nofun

/-- The registers of the TX ring that `N8b` to `N8e` write, with the values of R45. -/
def txRingWrites (c : Config) : List (Reg × Word × InitPc) :=
  [(.tdbal, baseLow c.txRingBase, .n8c), (.tdbah, baseHigh c.txRingBase, .n8d),
   (.tdlen, BitVec.ofNat 32 (ringBytes c), .n8e), (.tdh, 0, .n8f)]

/-- The registers of the RX ring and the first of the address filter, with the values of R46 and R47. -/
def rxRingWrites (c : Config) : List (Reg × Word × InitPc) :=
  [(.rdbal, baseLow c.rxRingBase, .n11c), (.rdbah, baseHigh c.rxRingBase, .n11d),
   (.rdlen, BitVec.ofNat 32 (ringBytes c), .n11e), (.rdh, 0, .n11f), (.rdt, indexWord (c.n - 1), .n12a),
   (.ra0, macLow c, .n12b)]

/-- The registers that enable the device, with the values of R43 and R48 to R50. -/
def enableWrites (c : Config) : List (Reg × Word × InitPc) :=
  [(.tctl, c.tctlInit, .n13b), (.tipg, c.tipgInit, .n14), (.rctl, c.rctlInit, .n15a), (.rdtr, 0, .n15b),
   (.radv, 0, .n15c), (.ims, c.imsRxdw, .n16)]

theorem writesUpTo_txRing (c : Config) : WritesUpTo c .n8f .n8b (txRingWrites c) := by
  simp +contextual [WritesUpTo, txRingWrites, initWriteAt]

theorem writesUpTo_rxRing (c : Config) : WritesUpTo c .n12b .n11b (rxRingWrites c) := by
  simp +contextual [WritesUpTo, rxRingWrites, initWriteAt]

theorem writesUpTo_enable (c : Config) : WritesUpTo c .n16 .n13a (enableWrites c) := by
  simp +contextual [WritesUpTo, enableWrites, initWriteAt]

/-- `N7` and `N8`: the TX ring passes its check and is given to the device (R207, R208). -/
theorem exists_txProgrammed {u : State} (hm : u.mode = .initing) (hp : u.ini.pc = .n7) (hn : 0 < u.cfg.n)
    (hsize : 16 * u.cfg.n % u.cfg.ringLenMult = 0) (halign : u.cfg.txRingBase.toNat % u.cfg.descAlign = 0) :
    ∃ v, InitReaches 7 u v ∧ DeviceOnly u v ∧ LoopAt .n9 .n10 u.cfg.n 0 v ∧
      v.dev = (u.dev.writtenAll (txRingWrites u.cfg)).written .tdt 0 := by
  obtain ⟨v, hreach1, hmove1, hpv, hdev1⟩ := exists_checked hm (.inl ⟨hp, rfl, rfl, rfl⟩) hsize halign
  obtain ⟨w, hreach2, hmove2, hpw, hdev2⟩ :=
    exists_writtenAll (writesUpTo_txRing u.cfg) hmove1.cfg_eq (hmove1.mode_eq.trans hm) hpv
  have hmove := hmove1.trans hmove2
  refine ⟨goLoop .n9 (regWrite .tdt 0 w), ?_, hmove.trans (deviceOnly_regWrite .tdt 0 w rfl), loopAt_goLoop hn _, ?_⟩
  · exact (hreach1.trans hreach2).trans
      (.step (hmove.mode_eq.trans hm) (by simp [hpw]) (by rw [initStep, hpw]))
  · show (regWrite .tdt 0 w).dev = _
    rw [regWrite_dev (by decide), hdev2, hdev1]

/-- `N10` to `N12b`: the RX ring passes its check and is given to the device, and the address filter (R208, R210,
R211). -/
theorem exists_rxProgrammed {u : State} (hm : u.mode = .initing) (hp : u.ini.pc = .n10)
    (hsize : 16 * u.cfg.n % u.cfg.ringLenMult = 0) (halign : u.cfg.rxRingBase.toNat % u.cfg.descAlign = 0) :
    ∃ v, InitReaches 9 u v ∧ DeviceOnly u v ∧ LoopAt .n12c .n13a u.cfg.mtaEntries 0 v ∧
      v.dev = (u.dev.writtenAll (rxRingWrites u.cfg)).written .ra1 (macHigh u.cfg) := by
  obtain ⟨v, hreach1, hmove1, hpv, hdev1⟩ := exists_checked hm (.inr ⟨hp, rfl, rfl, rfl⟩) hsize halign
  obtain ⟨w, hreach2, hmove2, hpw, hdev2⟩ :=
    exists_writtenAll (writesUpTo_rxRing u.cfg) hmove1.cfg_eq (hmove1.mode_eq.trans hm) hpv
  have hmove := hmove1.trans hmove2
  have hstep : InitReaches 1 w (afterN12b w) :=
    .step (hmove.mode_eq.trans hm) (by simp [hpw]) (by rw [initStep, hpw]; exact stepN12b_eq w)
  have hdev : (regWrite .ra1 (macHigh u.cfg) w).dev =
      (u.dev.writtenAll (rxRingWrites u.cfg)).written .ra1 (macHigh u.cfg) := by
    rw [regWrite_dev (by decide), hdev2, hdev1]
  refine ⟨afterN12b w, (hreach1.trans hreach2).trans hstep, ?_⟩
  unfold afterN12b
  rw [hmove.cfg_eq]
  split
  · rename_i h0
    refine ⟨hmove.trans (deviceOnly_regWrite .ra1 _ w rfl), ?_, hdev⟩
    rw [h0]
    exact ⟨rfl, nofun⟩
  · rename_i h0
    exact ⟨hmove.trans (deviceOnly_regWrite .ra1 _ w rfl), loopAt_goLoop (Nat.pos_of_ne_zero h0) _, hdev⟩

/-- The state after `N16`. -/
def initAnswered (u : State) : State :=
  goInit .idle (respond (.port u.ini.p) .ok (freeRx (freeTx { u with mode := .ready })))

/-- `N13` to `N16`: the device is enabled and unmasked, and the INIT answered (R211 to R215). -/
theorem exists_initAnswered {u : State} (hm : u.mode = .initing) (hp : u.ini.pc = .n13a) :
    ∃ w, DeviceOnly u w ∧ w.dev = u.dev.writtenAll (enableWrites u.cfg) ∧ InitReaches 7 u (initAnswered w) := by
  obtain ⟨w, hreach, hmove, hpw, hdev⟩ := exists_writtenAll (writesUpTo_enable u.cfg) rfl hm hp
  exact ⟨w, hmove, hdev, hreach.trans
    (.step (hmove.mode_eq.trans hm) (by simp [hpw]) (by rw [initStep, hpw]; rfl))⟩

/-! ### The multicast loop (R211) -/

/-- The first `j` multicast registers have been cleared since `u`. -/
structure MtaCleared (u : State) (j : Nat) (v : State) : Prop where
  move    : DeviceOnly u v
  at_     : LoopAt .n12c .n13a u.cfg.mtaEntries j v
  dev     : v.dev = { u.dev with regs := { u.dev.regs with mta := v.dev.regs.mta } }
  cleared : ∀ i < j, getReg v.dev.regs (.mta i) = 0

theorem getD_set_zero (l : List Word) (i j : Nat) : (l.set j 0).getD i 0 = if i = j then 0 else l.getD i 0 := by
  by_cases h : i = j
  · subst h
    by_cases hlt : i < l.length <;> simp [hlt]
  · simp [h, List.getElem?_set_ne (Ne.symm h)]

theorem MtaCleared.round {u v : State} {j : Nat} (h : MtaCleared u j v) (hm : u.mode = .initing)
    (hj : j < u.cfg.mtaEntries) : ∃ w, InitReaches 1 v w ∧ MtaCleared u (j + 1) w := by
  obtain ⟨hp, hi, _⟩ := h.at_.inside hj
  have hdev : (regWrite (.mta j) 0 v).dev =
      { u.dev with regs := { u.dev.regs with mta := v.dev.regs.mta.set j 0 } } := by
    rw [regWrite_dev (r := .mta j) nofun, h.dev]
    rfl
  refine ⟨nextRound v.cfg.mtaEntries .n13a (regWrite (.mta j) 0 v), ?_, ?_⟩
  · refine .step (h.move.mode_eq.trans hm) (by simp [hp]) ?_
    rw [initStep, hp, ← hi]
    rfl
  · have hat := loopAt_nextRound (s := regWrite (.mta j) 0 v) (count := v.cfg.mtaEntries) (after := .n13a)
      (by simpa using hp) (by simpa using hi)
    have hport := nextRound_port v.cfg.mtaEntries .n13a (regWrite (.mta j) 0 v)
    rw [nextRound_eq] at hat hport ⊢
    refine ⟨h.move.trans (deviceOnly_regWrite _ _ _ hport), h.move.cfg_eq ▸ hat, ?_, fun i hlt => ?_⟩
    · rw [hdev]
    · rw [hdev]
      show (v.dev.regs.mta.set j 0).getD i 0 = 0
      rw [getD_set_zero]
      split
      · rfl
      · exact h.cleared i (by omega)

theorem exists_mtaCleared {u : State} (hm : u.mode = .initing) (hat : LoopAt .n12c .n13a u.cfg.mtaEntries 0 u) :
    ∃ v, InitReaches u.cfg.mtaEntries u v ∧ MtaCleared u u.cfg.mtaEntries v := by
  have hstart : MtaCleared u 0 u := ⟨⟨rfl, rfl⟩, hat, rfl, nofun⟩
  obtain ⟨v, hreach, hv⟩ := exists_initLoop hstart (fun j hj v hv => hv.round hm hj) _ le_rfl
  exact ⟨v, by rwa [Nat.one_mul] at hreach, hv⟩

/-! ### The TX ring (R206) -/

/-- What is read of a field of a descriptor rests on the descriptor's bytes. -/
theorem readBytes_field_congr {c : Config} {r : Ring} {i off w : Nat} {m m' : Memory} (hw : off + w ≤ 16)
    (h : ∀ k < 16, byteAt m (field c r i k) = byteAt m' (field c r i k)) :
    readBytes m (field c r i off) w = readBytes m' (field c r i off) w := by
  refine readBytes_congr w _ _ _ fun k hk => ?_
  rw [field_add]
  exact h (off + k) (by omega)

/-- TX slot `i` is empty and the block's: no buffer, address and length 0, DD set (R206, R214). -/
structure TxSlotEmpty (s : State) (i : Nat) : Prop where
  shadow : txShadowAt s i = 0
  addr   : readBytes s.mem (field s.cfg .tx i 0) 8 = some 0
  tail   : readBytes s.mem (field s.cfg .tx i 8) 8 = some 0x0000000100000000

theorem TxSlotEmpty.mono {s t : State} {i : Nat} (h : TxSlotEmpty s i) (hc : t.cfg = s.cfg)
    (hsh : txShadowAt t i = txShadowAt s i)
    (hmem : ∀ k < 16, byteAt t.mem (field s.cfg .tx i k) = byteAt s.mem (field s.cfg .tx i k)) : TxSlotEmpty t i where
  shadow := hsh.trans h.shadow
  addr := by rw [hc, readBytes_field_congr (by decide) hmem, h.addr]
  tail := by rw [hc, readBytes_field_congr (by decide) hmem, h.tail]

/-- A descriptor after the three writes of `N6`. -/
def emptiedMem (c : Config) (i : Nat) (m : Memory) : Memory :=
  writeBytes (writeBytes (writeBytes m (field c .tx i 0) 8 0) (field c .tx i 8) 8 0) (field c .tx i 12) 1 1

theorem readBytes_emptiedMem_addr (c : Config) (i : Nat) (m : Memory) :
    readBytes (emptiedMem c i m) (field c .tx i 0) 8 = some 0 := by
  rw [emptiedMem, readBytes_write_beside (by decide), readBytes_write_beside (by decide),
    readBytes_writeBytes_same 8 _ _ _ (by decide)]
  rfl

/-- The status byte is the fifth of the last eight, so DD stands at bit 32 of what is read there (R100). -/
theorem readBytes_emptiedMem_tail (c : Config) (i : Nat) (m : Memory) :
    readBytes (emptiedMem c i m) (field c .tx i 8) 8 = some 0x0000000100000000 := by
  have bytes : ∀ k < 8, k ≠ 4 → BitVec.ofNat 8 (0 / 256 ^ k) = BitVec.ofNat 8 (0x0000000100000000 / 256 ^ k) := by
    decide
  refine Eq.trans ?_ (readBytes_writeBytes_same 8 m (field c .tx i 8) 0x0000000100000000 (by decide))
  refine readBytes_congr 8 _ _ _ fun k hk => ?_
  rw [field_add, byteAt_write_field_same (by decide) hk, emptiedMem]
  by_cases hstatus : k = 4
  · subst hstatus
    exact byteAt_write_field_same (off := 12) (j := 0) (by decide) (by decide) _ _
  · rw [byteAt_writeBytes_outside 1 _ _ _ _ fun j hj => ?_, byteAt_write_field_same (by decide) hk]
    · exact congrArg some (bytes k hk hstatus)
    · rw [field_add]
      exact field_ne_field c .tx i (by omega) (by omega) (by omega)

/-- From `u` to `v` INIT has changed the TX ring and its shadow, and beside them its own latches and the record only. -/
structure TxRingOnly (u v : State) : Prop where
  rest : v = { u with ini := v.ini, txShadow := v.txShadow, mem := v.mem, trace := v.trace }
  port : v.ini.p = u.ini.p

theorem TxRingOnly.trans {u v w : State} (h1 : TxRingOnly u v) (h2 : TxRingOnly v w) : TxRingOnly u w where
  rest := Eq.trans h2.rest (congrArg (fun x : State =>
    { x with ini := w.ini, txShadow := w.txShadow, mem := w.mem, trace := w.trace }) h1.rest)
  port := h2.port.trans h1.port

theorem TxRingOnly.refl (u : State) : TxRingOnly u u := ⟨rfl, rfl⟩

theorem TxRingOnly.memWrite {u v : State} (h : TxRingOnly u v) (a : Addr) (n x : Nat) :
    TxRingOnly u (memWrite a n x v) := h.trans ⟨rfl, rfl⟩

theorem TxRingOnly.nextAccess {u v : State} (h : TxRingOnly u v) : TxRingOnly u (nextAccess v) := h.trans ⟨rfl, rfl⟩

theorem TxRingOnly.setTxShadow {u v : State} (h : TxRingOnly u v) (i : Nat) (x : Handle) :
    TxRingOnly u (setTxShadow i x v) := h.trans ⟨rfl, rfl⟩

theorem TxRingOnly.nextRound {u v : State} (h : TxRingOnly u v) (count : Nat) (after : InitPc) :
    TxRingOnly u (nextRound count after v) :=
  h.trans ⟨by rw [nextRound_eq], nextRound_port ..⟩

theorem TxRingOnly.cfg_eq {u v : State} (h : TxRingOnly u v) : v.cfg = u.cfg := by rw [h.rest]

theorem TxRingOnly.mode_eq {u v : State} (h : TxRingOnly u v) : v.mode = u.mode := by rw [h.rest]

/-- The loop of `N6` has emptied the first `j` slots since `u`. -/
structure TxEmptied (u : State) (j : Nat) (v : State) : Prop where
  move  : TxRingOnly u v
  at_   : LoopAt .n6 .n7 u.cfg.n j v
  table : v.txShadow.length = u.txShadow.length
  slots : ∀ i < j, TxSlotEmpty v i

theorem initStep_n6_addr {s : State} (hp : s.ini.pc = .n6) (hk : s.ini.k = 0) :
    initStep s = .next (nextAccess (memWrite (field s.cfg .tx s.ini.i 0) 8 0 s)) := by
  rw [initStep, hp]
  show stepN6 s = _
  rw [stepN6, hk]
  simp [offAddr]

theorem initStep_n6_tail {s : State} (hp : s.ini.pc = .n6) (hk : s.ini.k = 1) :
    initStep s = .next (nextAccess (memWrite (field s.cfg .tx s.ini.i 8) 8 0 s)) := by
  rw [initStep, hp]
  show stepN6 s = _
  rw [stepN6, hk]
  rfl

theorem initStep_n6_status {s : State} (hp : s.ini.pc = .n6) (hk : s.ini.k = 2) :
    initStep s =
      .next (nextRound s.cfg.n .n7 (setTxShadow s.ini.i 0 (memWrite (field s.cfg .tx s.ini.i 12) 1 1 s))) := by
  rw [initStep, hp]
  show stepN6 s = _
  rw [stepN6, hk]
  simp [offStatus]

/-- The state after the three micro-steps of a round of `N6`. -/
def afterTxRound (u : State) : State :=
  nextRound u.cfg.n .n7 (setTxShadow u.ini.i 0 (memWrite (field u.cfg .tx u.ini.i 12) 1 1
    (nextAccess (memWrite (field u.cfg .tx u.ini.i 8) 8 0 (nextAccess (memWrite (field u.cfg .tx u.ini.i 0) 8 0 u))))))

theorem txRingOnly_afterTxRound (u : State) : TxRingOnly u (afterTxRound u) :=
  (((((((TxRingOnly.refl u).memWrite ..).nextAccess).memWrite ..).nextAccess).memWrite ..).setTxShadow ..).nextRound ..

theorem afterTxRound_txShadow (u : State) : (afterTxRound u).txShadow = u.txShadow.set u.ini.i 0 := by
  rw [afterTxRound, nextRound_eq]
  simp

theorem afterTxRound_mem (u : State) : (afterTxRound u).mem = emptiedMem u.cfg u.ini.i u.mem := by
  rw [afterTxRound, nextRound_eq]
  simp [emptiedMem]

theorem reaches_afterTxRound {u : State} (hm : u.mode = .initing) (hp : u.ini.pc = .n6) (hk : u.ini.k = 0) :
    InitReaches 3 u (afterTxRound u) := by
  have hreach1 := InitReaches.step hm (by simp [hp]) (initStep_n6_addr hp hk)
  have hreach2 := InitReaches.step (u := nextAccess (memWrite (field u.cfg .tx u.ini.i 0) 8 0 u)) (by simp [hm])
    (by simp [hp]) (initStep_n6_tail (by simp [hp]) (by simp [hk]))
  have hreach3 := InitReaches.step (u := nextAccess (memWrite (field u.cfg .tx u.ini.i 8) 8 0
    (nextAccess (memWrite (field u.cfg .tx u.ini.i 0) 8 0 u)))) (by simp [hm]) (by simp [hp])
    (initStep_n6_status (by simp [hp]) (by simp [hk]))
  simp only [nextAccess_cfg, nextAccess_ini, memWrite_cfg, memWrite_ini] at hreach2 hreach3
  exact (hreach1.trans hreach2).trans hreach3

theorem TxEmptied.round {u v : State} {j : Nat} (h : TxEmptied u j v) (hm : u.mode = .initing)
    (hn : u.txShadow.length = u.cfg.n) (hparams : paramsOk u.cfg = true) (hj : j < u.cfg.n) :
    ∃ w, InitReaches 3 v w ∧ TxEmptied u (j + 1) w := by
  obtain ⟨hp, rfl, hk⟩ := h.at_.inside hj
  have hc := h.move.cfg_eq
  have hmem := afterTxRound_mem v
  have hsh := afterTxRound_txShadow v
  have hmove := txRingOnly_afterTxRound v
  have hcw := hmove.cfg_eq
  rw [hc] at hmem
  refine ⟨_, reaches_afterTxRound (h.move.mode_eq.trans hm) hp hk, h.move.trans hmove,
    hc ▸ loopAt_nextRound hp rfl, ?_, fun i hi => ?_⟩
  · rw [hsh, List.length_set, h.table]
  · by_cases hslot : i = v.ini.i
    · subst hslot
      refine ⟨?_, ?_, ?_⟩
      · rw [txShadowAt_set hsh, if_pos ⟨rfl, by rw [h.table, hn]; exact hj⟩]
      · rw [hcw, hc, hmem, readBytes_emptiedMem_addr]
      · rw [hcw, hc, hmem, readBytes_emptiedMem_tail]
    · refine (h.slots i (by omega)).mono hcw ?_ fun k hk => ?_
      · rw [txShadowAt_set hsh, if_neg fun he => hslot he.1.symm]
      · rw [hmem, hc]
        have other : ∀ {off w : Nat} (m : Memory) (x : Nat), off + w ≤ 16 →
            byteAt (writeBytes m (field u.cfg .tx v.ini.i off) w x) (field u.cfg .tx i k) =
              byteAt m (field u.cfg .tx i k) :=
          fun m x hw => byteAt_write_field hparams hj (by omega) hw hk (fun _ he => absurd he.symm hslot) m x
        exact (other _ _ (by decide)).trans ((other _ _ (by decide)).trans (other _ _ (by decide)))

theorem exists_txEmptied {u : State} (hm : u.mode = .initing) (hn : u.txShadow.length = u.cfg.n)
    (hparams : paramsOk u.cfg = true) (hat : LoopAt .n6 .n7 u.cfg.n 0 u) :
    ∃ v, InitReaches (3 * u.cfg.n) u v ∧ TxEmptied u u.cfg.n v :=
  exists_initLoop ⟨⟨rfl, rfl⟩, hat, rfl, nofun⟩ (fun _ hj _ hv => hv.round hm hn hparams hj) _ le_rfl

/-! ### The RX ring (R209) -/

/-- From `u` to `v` INIT has changed the RX ring, its shadow and the buffers, and beside them its own latches and the
record only. -/
structure RxRingOnly (u v : State) : Prop where
  rest : v = { u with ini := v.ini, rxShadow := v.rxShadow, mem := v.mem, owner := v.owner, areas := v.areas,
                      allocs := v.allocs, trace := v.trace }
  port : v.ini.p = u.ini.p

theorem RxRingOnly.trans {u v w : State} (h1 : RxRingOnly u v) (h2 : RxRingOnly v w) : RxRingOnly u w where
  rest := Eq.trans h2.rest (congrArg (fun x : State =>
    { x with ini := w.ini, rxShadow := w.rxShadow, mem := w.mem, owner := w.owner, areas := w.areas,
             allocs := w.allocs, trace := w.trace }) h1.rest)
  port := h2.port.trans h1.port

theorem RxRingOnly.memWrite {u v : State} (h : RxRingOnly u v) (a : Addr) (n x : Nat) :
    RxRingOnly u (memWrite a n x v) := h.trans ⟨rfl, rfl⟩

theorem RxRingOnly.nextAccess {u v : State} (h : RxRingOnly u v) : RxRingOnly u (nextAccess v) := h.trans ⟨rfl, rfl⟩

theorem RxRingOnly.setRxShadow {u v : State} (h : RxRingOnly u v) (i : Nat) (x : Handle) :
    RxRingOnly u (setRxShadow i x v) := h.trans ⟨rfl, rfl⟩

theorem RxRingOnly.setOwner {u v : State} (h : RxRingOnly u v) (x : Handle) (o : Owner) :
    RxRingOnly u (setOwner x o v) := h.trans ⟨rfl, rfl⟩

theorem RxRingOnly.nextRound {u v : State} (h : RxRingOnly u v) (count : Nat) (after : InitPc) :
    RxRingOnly u (nextRound count after v) :=
  h.trans ⟨by rw [nextRound_eq], nextRound_port ..⟩

theorem rxRingOnly_afterN9 (h : Handle) (a : Addr) (rest : List AllocAnswer) (u : State) :
    RxRingOnly u (afterN9 h a rest u) := by
  rw [afterN9_eq]
  exact ⟨rfl, rfl⟩

theorem RxRingOnly.cfg_eq {u v : State} (h : RxRingOnly u v) : v.cfg = u.cfg := by rw [h.rest]

theorem RxRingOnly.mode_eq {u v : State} (h : RxRingOnly u v) : v.mode = u.mode := by rw [h.rest]

theorem RxRingOnly.regsBase_eq {u v : State} (h : RxRingOnly u v) : v.regsBase = u.regsBase := by rw [h.rest]

theorem afterN9_ini (h : Handle) (a : Addr) (rest : List AllocAnswer) (u : State) :
    (afterN9 h a rest u).ini = { u.ini with h := h, a := a, k := u.ini.k + 1 } := rfl

theorem initStep_n9_alloc {s : State} {h : Handle} {a : Addr} {rest : List AllocAnswer} (hp : s.ini.pc = .n9)
    (hk : s.ini.k = 0) (hq : s.allocs = some (h, a) :: rest) (hf : freshBuffer s h a) :
    initStep s = .next (afterN9 h a rest s) := by
  rw [initStep_n9 hp, stepN9, hk]
  dsimp only
  rw [bufAlloc, hq]
  dsimp only
  rw [if_pos hf]
  rfl

theorem initStep_n9_addr {s : State} (hp : s.ini.pc = .n9) (hk : s.ini.k = 1) :
    initStep s = .next (nextAccess (memWrite (field s.cfg .rx s.ini.i 0) 8 s.ini.a.toNat s)) := by
  rw [initStep_n9 hp, stepN9, hk]
  rfl

theorem initStep_n9_lend {s : State} (hp : s.ini.pc = .n9) (hk : s.ini.k = 2) :
    initStep s = .next (nextRound s.cfg.n .n10 (setOwner s.ini.h (.rxSlot s.ini.i)
      (setRxShadow s.ini.i s.ini.h (memWrite (field s.cfg .rx s.ini.i 8) 8 0 s)))) := by
  rw [initStep_n9 hp, stepN9, hk]
  rfl

/-- The state after the three micro-steps of a round of `N9` that is given the buffer `h` at `a`. -/
def afterRxRound (h : Handle) (a : Addr) (rest : List AllocAnswer) (u : State) : State :=
  nextRound u.cfg.n .n10 (setOwner h (.rxSlot u.ini.i) (setRxShadow u.ini.i h
    (memWrite (field u.cfg .rx u.ini.i 8) 8 0
      (nextAccess (memWrite (field u.cfg .rx u.ini.i 0) 8 a.toNat (afterN9 h a rest u))))))

theorem reaches_afterRxRound {u : State} {h : Handle} {a : Addr} {rest : List AllocAnswer} (hm : u.mode = .initing)
    (hp : u.ini.pc = .n9) (hk : u.ini.k = 0) (hq : u.allocs = some (h, a) :: rest) (hf : freshBuffer u h a) :
    InitReaches 3 u (afterRxRound h a rest u) := by
  have hreach1 := InitReaches.step hm (by simp [hp]) (initStep_n9_alloc hp hk hq hf)
  have hmove := rxRingOnly_afterN9 h a rest u
  have hini := afterN9_ini h a rest u
  have hc := hmove.cfg_eq
  have hm1 := hmove.mode_eq.trans hm
  unfold afterRxRound
  generalize afterN9 h a rest u = v at *
  have hreach2 := InitReaches.step hm1 (by simp [hini, hp]) (initStep_n9_addr (by simp [hini, hp]) (by simp [hini, hk]))
  have hreach3 := InitReaches.step (u := nextAccess (memWrite (field v.cfg .rx v.ini.i 0) 8 v.ini.a.toNat v))
    (by simp [hm1]) (by simp [hini, hp]) (initStep_n9_lend (by simp [hini, hp]) (by simp [hini, hk]))
  simp only [nextAccess_cfg, nextAccess_ini, memWrite_cfg, memWrite_ini, hini, hc] at hreach2 hreach3
  exact (hreach1.trans hreach2).trans hreach3

section RxRound

variable (h : Handle) (a : Addr) (rest : List AllocAnswer) (u : State)

theorem rxRingOnly_afterRxRound : RxRingOnly u (afterRxRound h a rest u) :=
  ((((((rxRingOnly_afterN9 h a rest u).memWrite ..).nextAccess).memWrite ..).setRxShadow ..).setOwner ..).nextRound ..

theorem afterRxRound_rxShadow : (afterRxRound h a rest u).rxShadow = u.rxShadow.set u.ini.i h := by
  rw [afterRxRound, nextRound_eq, afterN9_eq]
  simp

theorem afterRxRound_areas : (afterRxRound h a rest u).areas = store h.toNat a u.areas := by
  rw [afterRxRound, nextRound_eq, afterN9_eq]
  simp

theorem afterRxRound_allocs : (afterRxRound h a rest u).allocs = rest := by
  rw [afterRxRound, nextRound_eq, afterN9_eq]
  simp

theorem afterRxRound_mem : (afterRxRound h a rest u).mem =
    writeBytes (writeBytes u.mem (field u.cfg .rx u.ini.i 0) 8 a.toNat) (field u.cfg .rx u.ini.i 8) 8 0 := by
  rw [afterRxRound, nextRound_eq, afterN9_eq]
  simp

/-- The buffer goes from the pool to the slot, and no other buffer changes hands. -/
theorem ownerOf_afterRxRound (x : Handle) :
    ownerOf (afterRxRound h a rest u) x = if x = h then .rxSlot u.ini.i else ownerOf u x := by
  have howner : (afterRxRound h a rest u).owner = (setOwner h (.rxSlot u.ini.i) (setOwner h .engine u)).owner := by
    rw [afterRxRound, nextRound_eq, afterN9_eq]
    simp [setOwner]
  rw [ownerOf_congr howner, ownerOf_setOwner, ownerOf_setOwner]
  split <;> rfl

end RxRound

/-- A buffer that is fresh stays so while nobody takes it and no live area comes to meet its own (R270). -/
theorem freshBuffer_mono {s t : State} {b : Handle × Addr} (hf : freshBuffer s b.1 b.2) (hc : t.cfg = s.cfg)
    (howner : ownerOf t b.1 = ownerOf s b.1) (hregs : regsClear t b.2 t.cfg.rxBufSize = true)
    (hareas : ∀ e ∈ t.areas, e ∈ s.areas ∨ areasApart s.cfg b.2 e.2 = true) : freshBuffer t b.1 b.2 := by
  obtain ⟨hne, hpool, hfree⟩ := hf
  obtain ⟨hrings, _, hothers⟩ := areaFree_iff.mp hfree
  refine ⟨hne, howner.trans hpool, areaFree_iff.mpr ⟨hc.symm ▸ hrings, hregs, fun e he => ?_⟩⟩
  rw [hc]
  exact (hareas e he).elim (hothers e) id

theorem AllocReady.congr {s t : State} {bufs : List (Handle × Addr)} (h : AllocReady s bufs) (hc : t.cfg = s.cfg)
    (howner : t.owner = s.owner) (hareas : t.areas = s.areas) (hallocs : t.allocs = s.allocs)
    (hregs : ∀ b ∈ bufs, regsClear t b.2 t.cfg.rxBufSize = true) : AllocReady t bufs := by
  obtain ⟨hqueue, hnodup, hapart, hfresh⟩ := h
  exact ⟨hallocs ▸ hqueue, hnodup, hc ▸ hapart, fun b hb =>
    freshBuffer_mono (hfresh b hb) hc (ownerOf_congr howner b.1) (hregs b hb) (fun e he => .inl (hareas ▸ he))⟩

/-- A round of `N9` takes the first of the buffers the allocator has and leaves the others fresh. -/
theorem AllocReady.afterRxRound {u : State} {h : Handle} {a : Addr} {rest : List AllocAnswer}
    {bufs : List (Handle × Addr)} (hready : AllocReady u ((h, a) :: bufs)) (hrest : u.allocs = some (h, a) :: rest) :
    AllocReady (afterRxRound h a rest u) bufs := by
  obtain ⟨⟨more, hqueue⟩, hnodup, hapart, hfresh⟩ := hready
  obtain ⟨hnotin, hnodup⟩ := List.nodup_cons.mp hnodup
  obtain ⟨hfirst, hapart⟩ := List.pairwise_cons.mp hapart
  have hmove := rxRingOnly_afterRxRound h a rest u
  refine ⟨⟨more, ?_⟩, hnodup, hmove.cfg_eq.symm ▸ hapart, fun b hb => ?_⟩
  · rw [afterRxRound_allocs]
    exact (List.cons.inj (hrest.symm.trans hqueue)).2
  · have hf := hfresh b (List.mem_cons_of_mem _ hb)
    have hne : b.1 ≠ h := fun he => hnotin (List.mem_map.mpr ⟨b, hb, he⟩)
    refine freshBuffer_mono hf hmove.cfg_eq (by rw [ownerOf_afterRxRound, if_neg hne]) ?_ fun e he => ?_
    · rw [hmove.cfg_eq]
      exact regsClear_congr hmove.cfg_eq hmove.regsBase_eq hmove.mode_eq.trans (areaFree_iff.mp hf.2.2).2.1
    · rw [afterRxRound_areas] at he
      rcases mem_store he with rfl | he
      · exact .inr (areasApart_symm (hfirst b hb))
      · exact .inl he

/-- RX slot `i` is the device's and holds the buffer `h` at `a`: address written, the rest of the descriptor clear
(R209, R214). -/
structure RxSlotStocked (s : State) (i : Nat) (h : Handle) (a : Addr) : Prop where
  shadow : rxShadowAt s i = h
  lent   : ownerOf s h = .rxSlot i
  area   : lookup h.toNat s.areas = some a
  addr   : readBytes s.mem (field s.cfg .rx i 0) 8 = some a.toNat
  tail   : readBytes s.mem (field s.cfg .rx i 8) 8 = some 0

/-- The slot of a round is stocked. -/
theorem rxSlotStocked_afterRxRound {u : State} (h : Handle) (a : Addr) (rest : List AllocAnswer)
    (hi : u.ini.i < u.rxShadow.length) : RxSlotStocked (afterRxRound h a rest u) u.ini.i h a := by
  have hc := (rxRingOnly_afterRxRound h a rest u).cfg_eq
  have hlt := a.isLt
  refine ⟨?_, ?_, ?_, ?_, ?_⟩
  · rw [rxShadowAt_set (afterRxRound_rxShadow h a rest u), if_pos ⟨rfl, hi⟩]
  · rw [ownerOf_afterRxRound, if_pos rfl]
  · rw [afterRxRound_areas, lookup_store_same]
  · rw [hc, afterRxRound_mem, readBytes_write_beside (by decide), readBytes_writeBytes_same 8 _ _ _ (by decide),
      Nat.mod_eq_of_lt (by omega)]
  · rw [hc, afterRxRound_mem, readBytes_writeBytes_same 8 _ _ _ (by decide), Nat.zero_mod]

/-- A round stores in its own descriptor only. -/
theorem byteAt_afterRxRound_other {u : State} (h : Handle) (a : Addr) (rest : List AllocAnswer) {r : Ring} {i k : Nat}
    (hparams : paramsOk u.cfg = true) (hslot : u.ini.i < u.cfg.n) (hi : i < u.cfg.n) (hk : k < 16)
    (hne : r = .rx → i ≠ u.ini.i) :
    byteAt (afterRxRound h a rest u).mem (field u.cfg r i k) = byteAt u.mem (field u.cfg r i k) := by
  have other : ∀ {off w : Nat} (m : Memory) (x : Nat), off + w ≤ 16 →
      byteAt (writeBytes m (field u.cfg .rx u.ini.i off) w x) (field u.cfg r i k) = byteAt m (field u.cfg r i k) :=
    fun m x hw => byteAt_write_field hparams hslot hi hw hk (fun hr he => absurd he.symm (hne hr.symm)) m x
  rw [afterRxRound_mem, other _ _ (by decide), other _ _ (by decide)]

/-- A round leaves the slots stocked before it. -/
theorem RxSlotStocked.afterRxRound {u : State} {h h' : Handle} {a a' : Addr} {rest : List AllocAnswer} {i : Nat}
    (hstocked : RxSlotStocked u i h' a') (hparams : paramsOk u.cfg = true) (hslot : u.ini.i < u.cfg.n)
    (hi : i < u.cfg.n) (hne : i ≠ u.ini.i) (hfresh : ownerOf u h = .pool) :
    RxSlotStocked (afterRxRound h a rest u) i h' a' := by
  have hc := (rxRingOnly_afterRxRound h a rest u).cfg_eq
  have hbuf : h' ≠ h := by
    rintro rfl
    have hlent := hstocked.lent
    rw [hfresh] at hlent
    cases hlent
  have bytes : ∀ k < 16, byteAt (Machine.afterRxRound h a rest u).mem (field u.cfg .rx i k) =
      byteAt u.mem (field u.cfg .rx i k) :=
    fun k hk => byteAt_afterRxRound_other h a rest hparams hslot hi hk fun _ => hne
  refine ⟨?_, ?_, ?_, ?_, ?_⟩
  · rw [rxShadowAt_set (afterRxRound_rxShadow h a rest u), if_neg fun he => hne he.1.symm, hstocked.shadow]
  · rw [ownerOf_afterRxRound, if_neg hbuf, hstocked.lent]
  · rw [afterRxRound_areas, lookup_store_ne (handle_toNat_ne hbuf), hstocked.area]
  · rw [hc, readBytes_field_congr (by decide) bytes, hstocked.addr]
  · rw [hc, readBytes_field_congr (by decide) bytes, hstocked.tail]

/-- The loop of `N9` has stocked the first `j` slots since `u`. -/
structure RxStocked (u : State) (bufs : List (Handle × Addr)) (j : Nat) (v : State) : Prop where
  move   : RxRingOnly u v
  at_    : LoopAt .n9 .n10 u.cfg.n j v
  table  : v.rxShadow.length = u.rxShadow.length
  allocs : AllocReady v (bufs.drop j)
  slots  : ∀ i < j, ∀ h a, bufs[i]? = some (h, a) → RxSlotStocked v i h a
  tx     : ∀ i < u.cfg.n, ∀ k < 16, byteAt v.mem (field u.cfg .tx i k) = byteAt u.mem (field u.cfg .tx i k)

theorem RxStocked.round {u v : State} {bufs : List (Handle × Addr)} {j : Nat} (hv : RxStocked u bufs j v)
    (hm : u.mode = .initing) (hn : u.rxShadow.length = u.cfg.n) (hparams : paramsOk u.cfg = true)
    (hbufs : bufs.length = u.cfg.n) (hj : j < u.cfg.n) :
    ∃ w, InitReaches 3 v w ∧ RxStocked u bufs (j + 1) w := by
  obtain ⟨hp, rfl, hk⟩ := hv.at_.inside hj
  rcases hbuf : bufs[v.ini.i]'(hbufs ▸ hj) with ⟨h, a⟩
  have hget : bufs[v.ini.i]? = some (h, a) := by rw [List.getElem?_eq_getElem (hbufs ▸ hj), hbuf]
  have halloc : AllocReady v ((h, a) :: bufs.drop (v.ini.i + 1)) := by
    rw [← hbuf, ← List.drop_eq_getElem_cons]
    exact hv.allocs
  have ⟨⟨more, hqueue⟩, _, _, hfresh⟩ := halloc
  have hf := hfresh (h, a) List.mem_cons_self
  have hc := hv.move.cfg_eq
  rw [← hc] at hparams hj
  have hmove := rxRingOnly_afterRxRound h a ((bufs.drop (v.ini.i + 1)).map some ++ more) v
  refine ⟨_, reaches_afterRxRound (hv.move.mode_eq.trans hm) hp hk hqueue hf, hv.move.trans hmove,
    hc ▸ loopAt_nextRound hp rfl, ?_, halloc.afterRxRound hqueue, fun i hi h' a' hi' => ?_, fun i hi k hk => ?_⟩
  · rw [afterRxRound_rxShadow, List.length_set, hv.table]
  · by_cases hslot : i = v.ini.i
    · subst hslot
      obtain ⟨rfl, rfl⟩ := Prod.mk.inj (Option.some.inj (hget.symm.trans hi'))
      exact rxSlotStocked_afterRxRound _ _ _ (by rw [hv.table, hn, ← hc]; exact hj)
    · exact (hv.slots i (by omega) h' a' hi').afterRxRound hparams hj (by omega) hslot hf.2.1
  · rw [← hv.tx i hi k hk, ← hc]
    exact byteAt_afterRxRound_other _ _ _ hparams hj (hc ▸ hi) hk nofun

theorem exists_rxStocked {u : State} {bufs : List (Handle × Addr)} (hm : u.mode = .initing)
    (hn : u.rxShadow.length = u.cfg.n) (hparams : paramsOk u.cfg = true) (hbufs : bufs.length = u.cfg.n)
    (halloc : AllocReady u bufs) (hat : LoopAt .n9 .n10 u.cfg.n 0 u) :
    ∃ v, InitReaches (3 * u.cfg.n) u v ∧ RxStocked u bufs u.cfg.n v :=
  exists_initLoop ⟨⟨rfl, rfl⟩, hat, rfl, halloc, nofun, fun _ _ _ _ => rfl⟩
    (fun _ hj _ hv => hv.round hm hn hparams hbufs hj) _ le_rfl

/-! ### INIT from `N1` to its answer (R201, R214) -/

/-- What INIT, accepted in `s` on the port `q`, holds fixed while it runs. -/
structure InitKept (q : Port) (s u : State) : Prop where
  cfg      : u.cfg = s.cfg
  mode     : u.mode = .initing
  fcause   : u.fcause = s.fcause
  regsBase : u.regsBase = q.a0
  ports    : u.ports = runningPorts s.sel s
  port     : u.ini.p = s.sel

theorem InitKept.mono {q : Port} {s u v : State} (h : InitKept q s u)
    (hrest : v = { u with ini := v.ini, txShadow := v.txShadow, rxShadow := v.rxShadow, mem := v.mem, dev := v.dev,
                          owner := v.owner, areas := v.areas, allocs := v.allocs, draws := v.draws, trace := v.trace })
    (hport : v.ini.p = u.ini.p) : InitKept q s v := by
  refine ⟨?_, ?_, ?_, ?_, ?_, hport.trans h.port⟩ <;> rw [hrest]
  · exact h.cfg
  · exact h.mode
  · exact h.fcause
  · exact h.regsBase
  · exact h.ports

theorem InitKept.device {q : Port} {s u v : State} (h : InitKept q s u) (hmove : DeviceOnly u v) : InitKept q s v :=
  h.mono (by rw [hmove.rest]) hmove.port

theorem InitKept.txRing {q : Port} {s u v : State} (h : InitKept q s u) (hmove : TxRingOnly u v) : InitKept q s v :=
  h.mono (by rw [hmove.rest]) hmove.port

theorem InitKept.rxRing {q : Port} {s u v : State} (h : InitKept q s u) (hmove : RxRingOnly u v) : InitKept q s v :=
  h.mono (by rw [hmove.rest]) hmove.port

/-- The device after `N8`: reset, masked and given the TX ring (R203 to R207). -/
def txDevice (c : Config) (k : Nat) : Device :=
  (Device.writtenAll { regs := { freeRegs c k with ims := 0 }, txOn := false, rxOn := false, irqOut := false }
    (txRingWrites c)).written .tdt 0

/-- INIT stands at `N9` with the TX ring built and given to the device, the RX side and the buffers as they were. -/
structure TxReady (q : Port) (s : State) (k : Nat) (u : State) : Prop where
  kept     : InitKept q s u
  at_      : LoopAt .n9 .n10 u.cfg.n 0 u
  tx       : ∀ i < s.cfg.n, TxSlotEmpty u i
  rxShadow : u.rxShadow = s.rxShadow
  owner    : u.owner = s.owner
  areas    : u.areas = s.areas
  allocs   : u.allocs = s.allocs
  dev      : u.dev = txDevice s.cfg k

theorem DeviceOnly.txSlotEmpty {u v : State} {i : Nat} (hmove : DeviceOnly u v) (h : TxSlotEmpty u i) :
    TxSlotEmpty v i := by
  rw [hmove.rest]
  exact ⟨h.shadow, h.addr, h.tail⟩

theorem DeviceOnly.rxSlotStocked {u v : State} {i : Nat} {x : Handle} {a : Addr} (hmove : DeviceOnly u v)
    (h : RxSlotStocked u i x a) : RxSlotStocked v i x a := by
  rw [hmove.rest]
  exact ⟨h.shadow, h.lent, h.area, h.addr, h.tail⟩

theorem exists_txReady {s : State} (q : Port) (hs : Inv s) (hparams : paramsOk s.cfg = true)
    (hsize : 16 * s.cfg.n % s.cfg.ringLenMult = 0) (htx : s.cfg.txRingBase.toNat % s.cfg.descAlign = 0) :
    ∃ u k, InitReaches (5 + 3 * s.cfg.n + 7) (initStart q s) u ∧ TxReady q s k u := by
  have hn : 0 < s.cfg.n := by have := (paramsOk_slots hparams).1; omega
  have hkept : InitKept q s (initStart q s) := ⟨rfl, rfl, rfl, rfl, rfl, rfl⟩
  obtain ⟨u, k, hreach1, hmove1, hat1, hdev1⟩ := exists_deviceMasked (u := initStart q s) rfl rfl hn
  have hkept1 := hkept.device hmove1
  have htable : u.txShadow.length = u.cfg.n := by
    rw [hmove1.rest]
    exact hs.shaped.txShadow
  obtain ⟨v, hreach2, hv⟩ := exists_txEmptied hkept1.mode htable (hkept1.cfg ▸ hparams) (hmove1.cfg_eq.symm ▸ hat1)
  have hkept2 := hkept1.txRing hv.move
  obtain ⟨w, hreach3, hmove3, hat3, hdev3⟩ := exists_txProgrammed hkept2.mode (hv.move.cfg_eq.symm ▸ hv.at_).past
    (hkept2.cfg ▸ hn) (hkept2.cfg ▸ hsize) (hkept2.cfg ▸ htx)
  have hsame : w.rxShadow = s.rxShadow ∧ w.owner = s.owner ∧ w.areas = s.areas ∧ w.allocs = s.allocs := by
    rw [hmove3.rest, hv.move.rest, hmove1.rest]
    exact ⟨rfl, rfl, rfl, rfl⟩
  obtain ⟨hshadow, howner, hareas, hallocs⟩ := hsame
  refine ⟨w, k, ?_, hkept2.device hmove3, hmove3.cfg_eq.symm ▸ hat3, fun i hi => ?_, hshadow, howner, hareas, hallocs,
    ?_⟩
  · rw [hkept1.cfg] at hreach2
    exact (hreach1.trans hreach2).trans hreach3
  · exact hmove3.txSlotEmpty (hv.slots i (hkept1.cfg.symm ▸ hi))
  · have hdev2 : v.dev = u.dev := by rw [hv.move.rest]
    rw [hdev3, hdev2, hdev1, hkept2.cfg]
    rfl

/-- INIT stands at `N10` with every RX slot stocked, and the device as `N8` left it. -/
structure RxReady (q : Port) (s : State) (bufs : List (Handle × Addr)) (k : Nat) (u : State) : Prop where
  kept : InitKept q s u
  pc   : u.ini.pc = .n10
  tx   : ∀ i < s.cfg.n, TxSlotEmpty u i
  rx   : ∀ (i : Nat) (h : Handle) (a : Addr), bufs[i]? = some (h, a) → RxSlotStocked u i h a
  dev  : u.dev = txDevice s.cfg k

theorem TxReady.allocReady {q : Port} {s u : State} {k : Nat} {bufs : List (Handle × Addr)} (hu : TxReady q s k u)
    (halloc : AllocReady s bufs) (hoff : ∀ b ∈ bufs, areaOffRegs s.cfg q.a0 b.2 s.cfg.rxBufSize = true) :
    AllocReady u bufs := by
  refine halloc.congr hu.kept.cfg hu.owner hu.areas hu.allocs fun b hb => ?_
  rw [regsClear, hu.kept.cfg, hu.kept.regsBase, hoff b hb, Bool.or_true]

theorem TxReady.exists_rxReady {q : Port} {s u : State} {k : Nat} {bufs : List (Handle × Addr)} (hu : TxReady q s k u)
    (hs : Inv s) (hparams : paramsOk s.cfg = true) (halloc : AllocReady u bufs) (hbufs : bufs.length = s.cfg.n) :
    ∃ v, InitReaches (3 * s.cfg.n) u v ∧ RxReady q s bufs k v := by
  have hc := hu.kept.cfg
  have htable : u.rxShadow.length = u.cfg.n := by
    rw [hu.rxShadow, hc]
    exact hs.shaped.rxShadow
  obtain ⟨v, hreach, hv⟩ := exists_rxStocked hu.kept.mode htable (hc ▸ hparams) (hc ▸ hbufs) halloc hu.at_
  refine ⟨v, hc ▸ hreach, hu.kept.rxRing hv.move, hv.at_.past, fun i hi => ?_, fun i h a hi => ?_, ?_⟩
  · refine (hu.tx i hi).mono hv.move.cfg_eq ?_ (hv.tx i (hc ▸ hi))
    rw [hv.move.rest]
    rfl
  · have hlt := (List.getElem?_eq_some_iff.mp hi).1
    exact hv.slots i (by rw [hc]; omega) h a hi
  · rw [hv.move.rest]
    exact hu.dev

/-- The device a completed INIT leaves (R214): every register it writes, and its engines enabled. -/
def initDevice (c : Config) (k : Nat) (mta : List Word) : Device where
  regs := { freeRegs c k with
    tdbal := baseLow c.txRingBase, tdbah := baseHigh c.txRingBase, tdlen := BitVec.ofNat 32 (ringBytes c), tdh := 0
    tdt := 0, rdbal := baseLow c.rxRingBase, rdbah := baseHigh c.rxRingBase, rdlen := BitVec.ofNat 32 (ringBytes c)
    rdh := 0, rdt := indexWord (c.n - 1), ra0 := macLow c, ra1 := macHigh c, mta := mta, tctl := c.tctlInit
    tipg := c.tipgInit, rctl := c.rctlInit, rdtr := 0, radv := 0, ims := c.imsRxdw }
  txOn := true
  rxOn := true
  irqOut := false

/-- INIT stands before `N16` with everything built, but for the release of the locks and the answer. -/
structure InitBuilt (q : Port) (s : State) (bufs : List (Handle × Addr)) (u : State) : Prop where
  kept : InitKept q s u
  tx   : ∀ i < s.cfg.n, TxSlotEmpty u i
  rx   : ∀ (i : Nat) (h : Handle) (a : Addr), bufs[i]? = some (h, a) → RxSlotStocked u i h a
  dev  : ∃ k mta, u.dev = initDevice s.cfg k mta
  mta  : ∀ j < s.cfg.mtaEntries, getReg u.dev.regs (.mta j) = 0

/-- The writes of `N13` to `N15` leave the multicast table. -/
theorem getReg_mta_enabled (d : Device) (c : Config) (j : Nat) :
    getReg (d.writtenAll (enableWrites c)).regs (.mta j) = getReg d.regs (.mta j) := rfl

theorem RxReady.exists_initBuilt {q : Port} {s u : State} {k : Nat} {bufs : List (Handle × Addr)}
    (hu : RxReady q s bufs k u) (hsize : 16 * s.cfg.n % s.cfg.ringLenMult = 0)
    (hrx : s.cfg.rxRingBase.toNat % s.cfg.descAlign = 0) :
    ∃ w, InitBuilt q s bufs w ∧ InitReaches (9 + s.cfg.mtaEntries + 7) u (initAnswered w) := by
  have hc := hu.kept.cfg
  obtain ⟨v1, hreach1, hmove1, hat1, hdev1⟩ := exists_rxProgrammed hu.kept.mode hu.pc (hc ▸ hsize) (hc ▸ hrx)
  have hkept1 := hu.kept.device hmove1
  obtain ⟨v2, hreach2, hv2⟩ := exists_mtaCleared hkept1.mode (hmove1.cfg_eq.symm ▸ hat1)
  have hkept2 := hkept1.device hv2.move
  obtain ⟨w, hmove3, hdev3, hreach3⟩ := exists_initAnswered hkept2.mode hv2.at_.past
  have hmove := (hmove1.trans hv2.move).trans hmove3
  refine ⟨w, ⟨hu.kept.device hmove, fun i hi => hmove.txSlotEmpty (hu.tx i hi),
    fun i h a hi => hmove.rxSlotStocked (hu.rx i h a hi), ⟨k, v2.dev.regs.mta, ?_⟩, fun j hj => ?_⟩, ?_⟩
  · rw [hdev3, hkept2.cfg, hv2.dev, hdev1, hc, hu.dev]
    rfl
  · rw [hdev3, getReg_mta_enabled]
    exact hv2.cleared j (hkept1.cfg.symm ▸ hj)
  · rw [hkept1.cfg] at hreach2
    exact (hreach1.trans hreach2).trans hreach3

theorem startInit_allowed {q : Port} {s : State} (h : q.a0.toNat % 4 = 0) (hp : initAllowed s q.a0 = true) :
    startInit q s = .next (stepN1 s.sel q.a0 s) := by
  rw [startInit, if_pos (regsBaseAligned_iff.mpr h), if_pos hp]

/-- An INIT whose premises hold runs its sequencer from `N2` on (R202, R233). -/
theorem execInit_run {s : State} {q : Port} (hq : s.ports[s.sel]? = some q) (hm : s.mode = .uninit)
    (hbase : q.a0.toNat % 4 = 0) (hallowed : initAllowed s q.a0 = true) :
    exec .init s = runInit (initFuel s.cfg) (initStart q s) := by
  rw [execInit_accepted hq hm, startInit_allowed (s := raiseRequest s.sel s) hbase hallowed, andThen_next]
  rfl

/-- An INIT whose premises hold, whose checks pass and whose allocations succeed runs through to its answer. -/
theorem execInit_completes {s : State} {q : Port} {bufs : List (Handle × Addr)} (hs : Inv s) (hm : s.mode = .uninit)
    (hq : s.ports[s.sel]? = some q) (hbase : q.a0.toNat % 4 = 0) (hallowed : initAllowed s q.a0 = true)
    (hsize : 16 * s.cfg.n % s.cfg.ringLenMult = 0) (htx : s.cfg.txRingBase.toNat % s.cfg.descAlign = 0)
    (hrx : s.cfg.rxRingBase.toNat % s.cfg.descAlign = 0) (halloc : AllocReady s bufs)
    (hoff : ∀ b ∈ bufs, areaOffRegs s.cfg q.a0 b.2 s.cfg.rxBufSize = true) (hbufs : bufs.length = s.cfg.n) :
    ∃ w, InitBuilt q s bufs w ∧ exec .init s = .next (initAnswered w) := by
  have hparams := paramsOk_of_initAllowed hallowed
  obtain ⟨u, k, hreach1, hu⟩ := exists_txReady q hs hparams hsize htx
  obtain ⟨v, hreach2, hv⟩ := hu.exists_rxReady hs hparams (hu.allocReady halloc hoff) hbufs
  obtain ⟨w, hw, hreach3⟩ := hv.exists_initBuilt hsize hrx
  refine ⟨w, hw, ?_⟩
  have hfuel : initFuel s.cfg = 5 + 3 * s.cfg.n + 7 + 3 * s.cfg.n + (9 + s.cfg.mtaEntries + 7) + 0 := by
    unfold initFuel
    omega
  rw [execInit_run hq hm hbase hallowed, hfuel]
  exact ((hreach1.trans hreach2).trans hreach3) 0

theorem ringBytes_eq (c : Config) : ringBytes c = 16 * c.n := Nat.mul_comm _ _

/-- Settles O34: the rings, the device and the answer of the run that reaches `N16`. -/
theorem initCompletes : Obligations.InitCompletes := by
  intro s q bufs hs hm hq hbase hallowed hsize htx hrx halloc hoff hbufs
  obtain ⟨w, hw, hexec⟩ := execInit_completes hs hm hq hbase hallowed hsize htx hrx halloc hoff hbufs
  obtain ⟨k, mta, hdev⟩ := hw.dev
  have hc := hw.kept.cfg
  have hcause : s.fcause = .none := by
    have hengines := hs.engines
    unfold EnginesOk at hengines
    rw [hm] at hengines
    exact hengines.1
  have hports : (respond (.port w.ini.p) .ok w).ports = answeredPorts s.sel .ok s := by
    rw [← answered_running, ← hw.kept.ports, hw.kept.port]
    rfl
  rw [← ringBytes_eq]
  refine ⟨_, hexec, rfl, hw.kept.fcause.trans hcause, hw.kept.regsBase, rfl, rfl, rfl, hports, fun i hi => ?_,
    fun i h a hi => ?_, ?_⟩
  · obtain ⟨hshadow, haddr, htail⟩ := hw.tx i hi
    exact ⟨hshadow, hc ▸ haddr, hc ▸ htail⟩
  · obtain ⟨hshadow, hlent, harea, haddr, htail⟩ := hw.rx i h a hi
    exact ⟨hshadow, hlent, harea, hc ▸ haddr, hc ▸ htail⟩
  · have hmta := hw.mta
    rw [show (initAnswered w).dev = initDevice s.cfg k mta from hdev]
    rw [hdev] at hmta
    exact ⟨rfl, rfl, rfl, rfl, rfl, rfl, rfl, rfl, rfl, rfl, rfl, rfl, hmta, rfl, rfl, rfl, rfl, rfl, rfl, rfl, rfl, rfl⟩

end Sys2Proof.Machine
end

section
/-! The statements of 45_arbiter.md: which word a step runs, what `Respond` and an `irq` event write, that a command waits
while its lock is held and what its grant does, that nothing moves in `FATAL`, and what fairness gives. -/

namespace Sys2Proof.Machine

/-! ### The word a step runs (R92, R231) -/

/-- A command line with a legal word runs its command. -/
theorem callEvent_of_command {s : State} {p : Nat} {cw : Word} {i : Instr} (hc : canIssue s p = true)
    (hd : decode cw = .command i) (a0 a1 : BitVec 64) :
    callEvent p cw a0 a1 s = exec i (present p cw a0 a1 s) := by
  rw [callEvent, if_pos hc, fetch_present hc, hd]

/-- Settles O6, by the equation of a command line. -/
theorem stepRunsCommand : Obligations.StepRunsCommand := by
  intro s p cw a0 a1 rest i hscript hc hd
  rw [step_of_call hscript]
  exact callEvent_of_command (s := { s with script := rest }) hc hd a0 a1

theorem decode_of_decodeTableWord {nbits w : Nat} {i : Instr} (h : decodeTableWord nbits w = some i) :
    decode (BitVec.ofNat 32 (w % 2 ^ nbits)) = .command i := by
  unfold decodeTableWord at h
  split at h
  · split at h
    · rename_i hd
      cases h
      exact hd
    · cases h
  · cases h

theorem operandsAt_of_port {s : State} {p : Nat} {q : Port} (hq : s.ports[p]? = some q) :
    operandsAt s p = (q.a0, q.a1) := by
  rw [operandsAt, hq]

theorem canIssue_clearRequest {s : State} {p : Nat} {q : Port} (hq : s.ports[p]? = some q) :
    canIssue (clearRequest p s) p = true := by
  refine canIssue_iff.mpr ⟨{ q with outstanding := false, waiting := none }, ?_, rfl⟩
  rw [clearRequest, updatePort_getElem, if_pos rfl, hq]
  rfl

/-- Settles O7: the word stands first in the schedule, on a port that can issue. -/
theorem fetchWordRuns : Obligations.FetchWordRuns := by
  intro s nbits w q i hq hw
  have hscript : (s.withFetchWord nbits w).script =
      .call 0 (BitVec.ofNat 32 (w % 2 ^ nbits)) q.a0 q.a1 :: s.script := by
    rw [State.withFetchWord, callOnPort0, operandsAt_of_port hq]
  exact stepRunsCommand _ _ _ _ _ _ _ hscript (canIssue_clearRequest hq) (decode_of_decodeTableWord hw)

/-! ### Responses (R105, R240, R291) -/

/-- Settles O12: the answer changes one port, and the numbers are read off their definitions. -/
theorem respondWrites : Obligations.RespondWrites := by
  refine ⟨fun s p r q hq => ⟨?_, fun j hj => ?_, rfl⟩, fun _ _ => rfl, by decide⟩
  · rw [respond, updatePort_getElem, if_pos rfl, hq]
    rfl
  · exact portsKept_respond (.port p) r s j fun he => hj (Source.port.inj he).symm

/-! ### Who can be granted a lock (R234, R238) -/

/-- A waiting XMIT that finds the lock free can be granted it. -/
theorem txWaiter_eq_some {s : State} {p len : Nat} {h : Handle} {a : Addr} (hm : s.mode ≠ .fatal)
    (hl : s.txLock = .free) (hw : waitingAt s p = some ⟨.xmit len, h, a⟩) : txWaiter s p = some (len, h, a) := by
  simp [txWaiter, hl, hw]

/-- A source that asks and finds the lock free can be granted it. -/
theorem rxWaiter_eq_some {s : State} {src : Source} {kind : RxKind} (hm : s.mode ≠ .fatal) (hl : s.rxLock = .free)
    (hr : rxRequest s src = some kind) : rxWaiter s src = some kind := by
  simp [rxWaiter, hl, hr]

/-- A port with a DRAIN or an INTR waiting asks for `rx_lock`. -/
theorem rxRequest_port {s : State} {p : Nat} {i : Instr} {h : Handle} {a : Addr} (hi : i = .drain ∨ i = .intr)
    (hw : waitingAt s p = some ⟨i, h, a⟩) : rxRequest s (.port p) = some (kindOf i) := by
  rcases hi with rfl | rfl <;> rw [rxRequest, hw] <;> rfl

theorem rxRequest_irq_pending {s : State} (hirq : s.irqPend = true) (hm : s.mode = .ready) :
    rxRequest s .irq = some .intr := if_pos ⟨hirq, hm⟩

/-- Nobody is granted `tx_lock` in a halted block, nor while it is held (R234, R241). -/
theorem txWaiter_eq_none {s : State} (h : s.mode = .fatal ∨ s.txLock ≠ .free) (p : Nat) : txWaiter s p = none := by
  refine Option.eq_none_iff_forall_ne_some.mpr fun w hw => ?_
  obtain ⟨hm, hl, _⟩ := txWaiter_some (len := w.1) (h := w.2.1) (a := w.2.2) hw
  exact h.elim hm fun hheld => hheld hl

/-- Nobody is granted `rx_lock` in a halted block, nor while it is held (R234, R241). -/
theorem rxWaiter_eq_none {s : State} (h : s.mode = .fatal ∨ s.rxLock ≠ .free) (src : Source) :
    rxWaiter s src = none := by
  refine Option.eq_none_iff_forall_ne_some.mpr fun kind hw => ?_
  obtain ⟨hm, hl, _⟩ := rxWaiter_some hw
  exact h.elim hm fun hheld => hheld hl

/-- The interrupt port waits until the mode is `READY` (R238). -/
theorem rxWaiter_irq_eq_none {s : State} (h : s.mode ≠ .ready ∨ s.irqPend = false ∨ s.rxLock ≠ .free) :
    rxWaiter s .irq = none := by
  refine Option.eq_none_iff_forall_ne_some.mpr fun kind hw => ?_
  obtain ⟨_, hl, hreq⟩ := rxWaiter_some hw
  obtain ⟨_, hirq, hm⟩ := rxRequest_irq hreq
  rcases h with h | h | h
  · exact h hm
  · rw [h] at hirq; cases hirq
  · exact h hl

theorem grantTx_of_none {s : State} {p : Nat} (h : txWaiter s p = none) : grantTx p s = .next s := by rw [grantTx, h]

theorem serveTx_of_none {s : State} {p : Nat} (h : txWaiter s p = none) : serveTx p s = .next s := by rw [serveTx, h]

theorem grantRx_of_none {s : State} {src : Source} (h : rxWaiter s src = none) : grantRx src s = .next s := by
  rw [grantRx, h]

theorem serveRx_of_none {s : State} {src : Source} (h : rxWaiter s src = none) : serveRx src s = .next s := by
  rw [serveRx, h]

/-- The grant of `tx_lock` is `X1` (R234). -/
theorem grantTx_of_some {s : State} {p len : Nat} {h : Handle} {a : Addr} (hw : txWaiter s p = some (len, h, a)) :
    grantTx p s = .next (grantedTx p len h a s) := by
  obtain ⟨_, hl, _⟩ := txWaiter_some hw
  rw [grantTx, hw]
  show stepX1 _ = _
  rw [stepX1, show (loadTx p h a (BitVec.ofNat 16 len) (unqueue p s)).txLock = .free from hl]
  rfl

/-- The grant of `rx_lock` is `D0` or `I1` (R234, R238). -/
theorem grantRx_of_some {s : State} {src : Source} {kind : RxKind} (hw : rxWaiter s src = some kind) :
    grantRx src s = .next (grantedRx src kind s) := by
  obtain ⟨_, hl, hreq⟩ := rxWaiter_some hw
  rw [grantRx, hw]
  cases kind with
  | drain => exact stepD0_eq (by simpa using hl)
  | intr =>
    refine stepI1_eq (by simpa using hl) fun hsrc => ?_
    obtain rfl : src = .irq := hsrc
    exact (rxRequest_irq hreq).2.2

/-! ### A command whose lock is held (R233) -/

theorem modify_congr {p : Nat} {l : List Port} {q : Port} {f g : Port → Port} (hq : l[p]? = some q) (h : f q = g q) :
    l.modify p f = l.modify p g := by
  simp [List.modify_eq_set_getElem?, hq, h]

/-- An accepted command that waits for its lock, as `Issue` leaves it (R231, R233). -/
def queued (i : Instr) (s : State) : State :=
  { s with ports := s.ports.modify s.sel fun q => { q with outstanding := true, waiting := some ⟨i, q.a0, q.a1⟩ } }

theorem issueCommand_queued {i : Instr} {s : State} {q : Port} (hq : s.ports[s.sel]? = some q)
    (hd : decideOn s.mode i q.a0 = .accept) : issueCommand i (queueStart i) s = .next (queued i s) := by
  rw [issueCommand_accept hq hd]
  refine congrArg (fun l => Host.Outcome.next { s with ports := l }) ?_
  exact (modify_modify ..).trans (modify_congr hq rfl)

theorem exec_xmit_held {s : State} {q : Port} (hq : s.ports[s.sel]? = some q) (hm : s.mode = .ready) (ha : q.a0 ≠ 0)
    (hl : s.txLock ≠ .free) (len : Nat) : exec (.xmit len) s = .next (queued (.xmit len) s) := by
  have hd : decideOn s.mode (.xmit len) q.a0 = .accept := by rw [hm]; exact if_neg ha
  show andThen (issueCommand _ (queueStart _) s) (serveTx s.sel) = _
  rw [issueCommand_queued hq hd]
  exact serveTx_of_none (txWaiter_eq_none (s := queued (.xmit len) s) (.inr hl) _)

theorem exec_rx_held {s : State} {q : Port} {i : Instr} (hi : i = .drain ∨ i = .intr) (hq : s.ports[s.sel]? = some q)
    (hm : s.mode = .ready) (hl : s.rxLock ≠ .free) : exec i s = .next (queued i s) := by
  have hd : decideOn s.mode i q.a0 = .accept := by rw [hm]; rcases hi with rfl | rfl <;> rfl
  rw [exec_eq_issue_serve hi, issueCommand_queued hq hd]
  exact serveRx_of_none (rxWaiter_eq_none (s := queued i s) (.inr hl) _)

theorem Lock.ne_free_of_held {l : Lock} {src : Source} (h : l = .held src) : l ≠ .free := by simp [h]

/-- Settles O13: nobody is a waiter for a held lock, and a waiter's grant is the engine's first micro-step. -/
theorem heldLockWaits : Obligations.HeldLockWaits := by
  refine ⟨fun s q src hq hm => ⟨fun hl ha len => ?_, fun hl i hi => ?_, fun hl p => ?_, fun hl src' => ?_⟩,
    fun s p h a hm => ⟨fun hl len hw => ?_, fun hl hw => ?_, fun hl hw => ?_, fun hl hready hirq => ?_⟩⟩
  · exact exec_xmit_held hq hm ha (Lock.ne_free_of_held hl) len
  · exact exec_rx_held hi hq hm (Lock.ne_free_of_held hl)
  · exact grantTx_of_none (txWaiter_eq_none (.inr (Lock.ne_free_of_held hl)) p)
  · exact grantRx_of_none (rxWaiter_eq_none (.inr (Lock.ne_free_of_held hl)) src')
  · exact grantTx_of_some (txWaiter_eq_some hm hl hw)
  · exact grantRx_of_some (rxWaiter_eq_some hm hl (rxRequest_port (.inl rfl) hw))
  · exact grantRx_of_some (rxWaiter_eq_some hm hl (rxRequest_port (.inr rfl) hw))
  · exact grantRx_of_some (rxWaiter_eq_some hm hl (rxRequest_irq_pending hirq hready))

/-! ### The interrupt latch (R238, R239) -/

/-- Settles O32: the event sets the latch, and the interrupt port waits until it is enabled. -/
theorem irqLatched : Obligations.IrqLatched := by
  refine ⟨fun s rest hscript hm => ?_, fun s h => ?_⟩
  · rw [step_of_agentEvent hscript nofun]
    exact congrArg Host.Outcome.next (if_neg hm)
  · have hnone : rxWaiter s .irq = none :=
      rxWaiter_irq_eq_none (h.imp_right (Or.imp_right fun ⟨_, hl⟩ => Lock.ne_free_of_held hl))
    exact ⟨grantRx_of_none hnone, serveRx_of_none hnone⟩

/-! ### The fatal halt (R241) -/

theorem engineMove_fatal {s : State} {e : Event} (hm : s.mode = .fatal) (he : engineMove e = true) :
    agentEvent e s = .next s := by
  cases e with
  | grantTx p => exact grantTx_of_none (txWaiter_eq_none (.inl hm) p)
  | grantRx src => exact grantRx_of_none (rxWaiter_eq_none (.inl hm) src)
  | tx => exact if_pos hm
  | rx => exact if_pos hm
  | init => exact if_pos hm
  | serveIrq => exact serveRx_of_none (rxWaiter_eq_none (.inl hm) .irq)
  | _ => cases he

/-- A command presented in `FATAL`: its registers are written and its flag is set, and it is decided on no further. -/
def ignored (p : Nat) (cw : Word) (a0 a1 : BitVec 64) (s : State) : State :=
  raiseRequest p (present p cw a0 a1 s)

theorem ignored_eq (p : Nat) (cw : Word) (a0 a1 : BitVec 64) (s : State) :
    ignored p cw a0 a1 s = { s with
      sel := p
      ports := s.ports.modify p fun q =>
        { q with cw := cw, a0 := a0, a1 := a1, outstanding := true, waiting := none } } :=
  congrArg (fun l => { s with sel := p, ports := l }) (modify_modify ..)

theorem issueCommand_fatal {s : State} {q : Port} (hq : s.ports[s.sel]? = some q) (hm : s.mode = .fatal) (i : Instr)
    (start : Port → State → Result) : issueCommand i start s = .next (raiseRequest s.sel s) := by
  rw [issueCommand, hq, hm]
  rfl

/-- `Issue` of a command in `FATAL` raises the port's request and decides nothing (R232). -/
theorem issueBy_fatal {s : State} {q : Port} (hq : s.ports[s.sel]? = some q) (hm : s.mode = .fatal) (i : Instr) :
    issueBy i s = .next (raiseRequest s.sel s) := by
  cases i <;> exact issueCommand_fatal hq hm _ _

/-- A command line in `FATAL` does no more than its `Issue`. -/
theorem exec_fatal {s : State} {q : Port} (hq : s.ports[s.sel]? = some q) (hm : s.mode = .fatal) (i : Instr) :
    exec i s = .next (raiseRequest s.sel s) := by
  have hraised : (raiseRequest s.sel s).mode = .fatal := hm
  have hrx : ∀ j, j = .drain ∨ j = .intr → exec j s = .next (raiseRequest s.sel s) := fun j hj => by
    rw [exec_eq_issue_serve hj, issueCommand_fatal hq hm]
    exact serveRx_of_none (rxWaiter_eq_none (.inl hraised) _)
  cases i with
  | init =>
    show andThen (issueCommand _ _ s) (serveInit _) = _
    rw [issueCommand_fatal hq hm, decisionAt_eq hq, hm]
    rfl
  | xmit len =>
    show andThen (issueCommand _ _ s) (serveTx _) = _
    rw [issueCommand_fatal hq hm]
    exact serveTx_of_none (txWaiter_eq_none (.inl hraised) _)
  | intr => exact hrx .intr (.inr rfl)
  | drain => exact hrx .drain (.inl rfl)

theorem issueIllegal_fatal {s : State} (hm : s.mode = .fatal) (p : Nat) : issueIllegal p s = raiseRequest p s := if_pos hm

/-- Both ways a command can be presented come to the same in `FATAL`, whatever its word. -/
theorem presented_fatal {s : State} {p : Nat} (hm : s.mode = .fatal) (hc : canIssue s p = true) (cw : Word)
    (a0 a1 : BitVec 64) :
    callEvent p cw a0 a1 s = .next (ignored p cw a0 a1 s) ∧ issueEvent p cw a0 a1 s = .next (ignored p cw a0 a1 s) := by
  have hm' : (present p cw a0 a1 s).mode = .fatal := hm
  cases hd : decode cw with
  | illegal why =>
    rw [callEvent_of_illegal hc hd, issueEvent_of_illegal hc hd, issueIllegal_fatal hm']
    exact ⟨rfl, rfl⟩
  | command i =>
    obtain ⟨q, hq, _⟩ := exists_present_port hc cw a0 a1
    rw [callEvent_of_command hc hd, issueEvent_of_command hc hd]
    exact ⟨exec_fatal hq hm' i, issueBy_fatal hq hm' i⟩

/-- A command presented at a port with one outstanding is no move (R231). -/
theorem presented_of_not_canIssue {s : State} {p : Nat} (hc : canIssue s p = false) (cw : Word) (a0 a1 : BitVec 64) :
    callEvent p cw a0 a1 s = .next s ∧ issueEvent p cw a0 a1 s = .next s :=
  ⟨if_neg (by simp [hc]), if_neg (by simp [hc])⟩

theorem step_of_presented {s : State} {p : Nat} {cw : Word} {a0 a1 : BitVec 64} {e : Event} {rest : List Event}
    {r : Result} (hscript : s.script = e :: rest) (he : e = .call p cw a0 a1 ∨ e = .issue p cw a0 a1)
    (h : callEvent p cw a0 a1 { s with script := rest } = r ∧ issueEvent p cw a0 a1 { s with script := rest } = r) :
    step s = r := by
  rcases he with rfl | rfl
  · exact (step_of_call hscript).trans h.1
  · exact (step_of_agentEvent hscript nofun).trans h.2

/-- Settles O14: in `FATAL` there is no waiter, no turn and no decision. -/
theorem fatalFrozen : Obligations.FatalFrozen := by
  intro s e rest hm hscript
  refine ⟨fun he => ?_, fun he => ?_, fun p cw a0 a1 he => ⟨fun hc => ?_, fun hc => ?_⟩⟩
  · rw [step_of_agentEvent hscript (by rintro p cw a0 a1 rfl; cases he)]
    exact engineMove_fatal (s := { s with script := rest }) hm he
  · subst he
    rw [step_of_agentEvent hscript nofun]
    exact congrArg Host.Outcome.next (if_pos hm)
  · exact step_of_presented hscript he (presented_of_not_canIssue (s := { s with script := rest }) hc cw a0 a1)
  · rw [step_of_presented hscript he (presented_fatal (s := { s with script := rest }) hm hc cw a0 a1), ignored_eq]

/-! ### What fairness gives (R182, R236, R265, R275) -/

/-- What stays until an end comes, and by fairness would not stay for ever, has an end. -/
theorem exists_end_of_fair {stays ends : Nat → Prop} {n : Nat} (hn : stays n)
    (hstep : ∀ m, n ≤ m → stays m → ¬ends m → stays (m + 1) ∨ ends (m + 1))
    (hfair : (∀ m, n ≤ m → stays m) → ∃ m, n ≤ m ∧ ends m) : ∃ m, n ≤ m ∧ ends m := by
  by_contra hno
  have hno' : ∀ m, n ≤ m → ¬ends m := fun m hm he => hno ⟨m, hm, he⟩
  refine hno (hfair fun m hm => ?_)
  induction m, hm using Nat.le_induction with
  | base => exact hn
  | succ m hm ih => exact (hstep m hm ih (hno' m hm)).resolve_right (hno' _ (Nat.le_succ_of_le hm))

/-- In `UNINIT` nobody waits, and INIT holds both locks: a waiter with its lock free stands in a `READY` block. -/
theorem ready_of_waiting {s : State} {p : Nat} {r : Request} (hs : Inv s) (hm : s.mode ≠ .fatal)
    (hw : waitingAt s p = some r) (hl : s.txLock = .free ∨ s.rxLock = .free) : s.mode = .ready := by
  cases hmode : s.mode with
  | uninit => rw [uninit_waiting hs hmode p] at hw; cases hw
  | initing =>
    have hengines := hs.engines
    unfold EnginesOk at hengines
    rw [hmode] at hengines
    obtain ⟨_, _, _, _, _, htx, hrx⟩ := hengines
    rcases hl with hl | hl
    · rw [htx] at hl; cases hl
    · rw [hrx] at hl; cases hl
  | ready => rfl
  | fatal => exact absurd hmode hm

/-- A port with a command in the queue has that command outstanding (R231). -/
theorem not_canIssue_of_waiting {s : State} {p : Nat} {i : Instr} {h : Handle} {a : Addr} (hs : Owned s)
    (hi : i ≠ .init) (hw : waitingAt s p = some ⟨i, h, a⟩) : canIssue s p = false := by
  unfold waitingAt at hw
  split at hw
  · rename_i q hq
    have hout : q.outstanding = true := by
      cases i with
      | init => exact absurd rfl hi
      | xmit len => exact (hs.queued p q len h a hq hw).1.1
      | intr => exact (hs.queuedRx p q .intr h a hq hw (.inr rfl)).1
      | drain => exact (hs.queuedRx p q .drain h a hq hw (.inl rfl)).1
    simp [canIssue, hq, hout]
  · cases hw

/-- What a port asks `rx_lock` for is its waiting DRAIN or INTR. -/
theorem waiting_of_rxRequest_port {s : State} {p : Nat} {kind : RxKind} (h : rxRequest s (.port p) = some kind) :
    ∃ i a0 a1, (i = .drain ∨ i = .intr) ∧ waitingAt s p = some ⟨i, a0, a1⟩ := by
  unfold rxRequest at h
  dsimp only at h
  split at h
  · rename_i a0 a1 hw; exact ⟨.intr, a0, a1, .inr rfl, hw⟩
  · rename_i a0 a1 hw; exact ⟨.drain, a0, a1, .inl rfl, hw⟩
  · cases h

/-- A port with an XMIT waiting asks for no `rx_lock`: a command waits for one lock. -/
theorem rxRequest_ne_of_xmit {s : State} {p len : Nat} {h : Handle} {a : Addr} {kind : RxKind}
    (hw : waitingAt s p = some ⟨.xmit len, h, a⟩) : rxRequest s (.port p) ≠ some kind := by
  rw [rxRequest, hw]
  exact nofun

/-- An XMIT waits in a `READY` block. -/
def XmitWaits (p : Nat) (s : State) : Prop := s.mode = .ready ∧ ∃ len h a, waitingAt s p = some ⟨.xmit len, h, a⟩

/-- A source asks for `rx_lock` in a `READY` block: a waiting DRAIN or INTR, or the latched interrupt (R238). -/
def RxAsks (src : Source) (s : State) : Prop := s.mode = .ready ∧ ∃ kind, rxRequest s src = some kind

theorem XmitWaits.txWaiting {p : Nat} {s : State} (h : XmitWaits p s) (hl : s.txLock = .free) : TxWaiting s := by
  obtain ⟨hm, len, hd, a, hw⟩ := h
  exact ⟨p, by rw [txWaiter_eq_some (by simp [hm]) hl hw]; rfl⟩

theorem RxAsks.rxWaiting {src : Source} {s : State} (h : RxAsks src s) (hl : s.rxLock = .free) : RxWaiting s := by
  obtain ⟨hm, kind, hreq⟩ := h
  exact ⟨src, by rw [rxWaiter_eq_some (by simp [hm]) hl hreq]; rfl⟩

/-- The waiter of a free `tx_lock` is an XMIT in the queue of a `READY` block. -/
theorem exists_xmitWaits {s : State} (hs : Inv s) (h : TxWaiting s) : s.txLock = .free ∧ ∃ p, XmitWaits p s := by
  obtain ⟨p, hp⟩ := h
  obtain ⟨⟨len, hd, a⟩, hw⟩ := Option.isSome_iff_exists.mp hp
  obtain ⟨hm, hl, hwait⟩ := txWaiter_some hw
  exact ⟨hl, p, ready_of_waiting hs hm hwait (.inl hl), len, hd, a, hwait⟩

/-- The waiter of a free `rx_lock` is a source that asks for it in a `READY` block. -/
theorem exists_rxAsks {s : State} (hs : Inv s) (h : RxWaiting s) : s.rxLock = .free ∧ ∃ src, RxAsks src s := by
  obtain ⟨src, hsrc⟩ := h
  obtain ⟨kind, hw⟩ := Option.isSome_iff_exists.mp hsrc
  obtain ⟨hm, hl, hreq⟩ := rxWaiter_some hw
  refine ⟨hl, src, ?_, kind, hreq⟩
  cases src with
  | port p =>
    obtain ⟨i, hd, a, _, hwait⟩ := waiting_of_rxRequest_port hreq
    exact ready_of_waiting hs hm hwait (.inr hl)
  | irq => exact (rxRequest_irq hreq).2.2

section Step
variable {s t : State} {e : Event}

/-- A `READY` block that takes a step, and what the step leaves of its locks. -/
theorem ready_leaves_event (hs : Inv s) (hready : s.mode = .ready) (ht : step { s with script := [e] } = .next t)
    (hr : e ≠ .reset) : Leaves s t (TxTaken s e) (RxTaken s e) :=
  have h := ready_leaves (s := { s with script := [e] }) (inv_stable.script s _ hs) hready rfl ht hr
  ⟨h.mode, h.tx, h.rx⟩

/-- A command waits on through a step that grants it nothing and is no reset (R233). -/
theorem waiting_kept_event {p : Nat} {i : Instr} {h : Handle} {a : Addr} (ho : Owned s) (hi : i ≠ .init)
    (hw : waitingAt s p = some ⟨i, h, a⟩) (ht : step { s with script := [e] } = .next t) (hr : e ≠ .reset)
    (htx : (txWaiter s p).isSome = true → e ≠ .grantTx p)
    (hrx : (rxWaiter s (.port p)).isSome = true → e ≠ .grantRx (.port p)) : waitingAt t p = some ⟨i, h, a⟩ := by
  have hout := not_canIssue_of_waiting ho hi hw
  refine (waiting_kept (s := { s with script := [e] }) rfl ht hout hr ?_ ?_).trans hw
  · exact fun he => Bool.eq_false_iff.mpr fun hsome => htx hsome he
  · exact fun he => Bool.eq_false_iff.mpr fun hsome => hrx hsome he

/-- An XMIT waits on through a step that takes no `tx_lock`, is no reset and does not halt the block. -/
theorem XmitWaits.step {p : Nat} (h : XmitWaits p s) (hs : Inv s) (ho : Owned s)
    (ht : Machine.step { s with script := [e] } = .next t) (htaken : ¬TxTaken s e) (hr : e ≠ .reset)
    (hm : t.mode ≠ .fatal) : XmitWaits p t := by
  obtain ⟨hready, len, hd, a, hw⟩ := h
  have hmode := (ready_leaves_event hs hready ht hr).mode
  refine ⟨hmode.resolve_right hm, len, hd, a, waiting_kept_event ho (by simp) hw ht hr ?_ fun hsome => ?_⟩
  · exact fun hsome he => htaken (.inl ⟨p, hsome, he⟩)
  · obtain ⟨kind, hkind⟩ := Option.isSome_iff_exists.mp hsome
    obtain ⟨_, _, hreq⟩ := rxWaiter_some hkind
    exact absurd hreq (rxRequest_ne_of_xmit hw)

/-- A source asks on through a step that takes no `rx_lock`, is no reset and does not halt the block; for the latched
interrupt while the lock is free, as the grant that takes the latch is then a taking of the lock. -/
theorem RxAsks.step {src : Source} (h : RxAsks src s) (hs : Inv s) (ho : Owned s)
    (ht : Machine.step { s with script := [e] } = .next t) (htaken : ¬RxTaken s e) (hr : e ≠ .reset)
    (hm : t.mode ≠ .fatal) (hl : src = .irq → s.rxLock = .free) : RxAsks src t := by
  obtain ⟨hready, kind, hreq⟩ := h
  have hleaves := ready_leaves_event hs hready ht hr
  have hready' := hleaves.mode.resolve_right hm
  refine ⟨hready', ?_⟩
  cases src with
  | irq =>
    have hirq := (hleaves.rx (hl rfl) htaken).2 (rxRequest_irq hreq).2.1
    exact ⟨.intr, rxRequest_irq_pending hirq hready'⟩
  | port p =>
    obtain ⟨i, hd, a, hi, hw⟩ := waiting_of_rxRequest_port hreq
    have hne : i ≠ .init := by rcases hi with rfl | rfl <;> simp
    refine ⟨kindOf i, rxRequest_port hi (waiting_kept_event ho hne hw ht hr (fun hsome => ?_) fun hsome he => ?_)⟩
    · obtain ⟨⟨len, hd', a'⟩, hxmit⟩ := Option.isSome_iff_exists.mp hsome
      obtain ⟨_, _, hw'⟩ := txWaiter_some hxmit
      exact absurd hreq (rxRequest_ne_of_xmit hw')
    · exact htaken (.inl ⟨.port p, hsome, .inl he⟩)

end Step

/-- The lock is taken at this instant, or an end is put to the waiting: a reset, or a halt. -/
def Concluded (taken : State → Event → Prop) (s : State) (e : Event) : Prop :=
  taken s e ∨ e = .reset ∨ s.mode = .fatal

section Run
variable {run : Nat → State} {sched : Nat → Event} {n : Nat}

/-- What waits on until it is concluded, and by fairness would not wait for ever, is concluded in the end. -/
theorem exists_concluded {taken : State → Event → Prop} {waits : State → Prop} (hn : waits (run n))
    (hstep : ∀ m, waits (run m) → ¬taken (run m) (sched m) → sched m ≠ .reset → (run (m + 1)).mode ≠ .fatal →
      waits (run (m + 1)))
    (hfair : (∀ m, n ≤ m → waits (run m)) → ∃ m, n ≤ m ∧ Concluded taken (run m) (sched m)) :
    ∃ m, n ≤ m ∧ Concluded taken (run m) (sched m) := by
  refine exists_end_of_fair (stays := fun m => waits (run m)) hn (fun m _ hwait hend => ?_) hfair
  by_cases hm : (run (m + 1)).mode = .fatal
  · exact .inr (.inr (.inr hm))
  · exact .inl (hstep m hwait (fun h => hend (.inl h)) (fun h => hend (.inr (.inl h))) hm)

variable (hrun : Follows run sched) (hinv : ∀ m, Inv (run m) ∧ Owned (run m))
include hrun hinv

/-- A free `tx_lock` with a waiter is taken in the end (R236). -/
theorem exists_txTaken (hfair : WeaklyFair run sched) (hn : TxWaiting (run n)) :
    ∃ m, n ≤ m ∧ Concluded TxTaken (run m) (sched m) := by
  obtain ⟨hfree, p, hp⟩ := exists_xmitWaits (hinv n).1 hn
  refine exists_concluded (waits := fun s => s.txLock = .free ∧ XmitWaits p s) ⟨hfree, hp⟩ ?_ fun hall => ?_
  · intro m hwait htaken hr hm
    obtain ⟨hs, ho⟩ := hinv m
    exact ⟨(ready_leaves_event hs hwait.2.1 (hrun m) hr).tx hwait.1 htaken,
      hwait.2.step hs ho (hrun m) htaken hr hm⟩
  · obtain ⟨m, hm, htaken⟩ := (hfair n).1 fun m hm => (hall m hm).2.txWaiting (hall m hm).1
    exact ⟨m, hm, .inl htaken⟩

/-- A free `rx_lock` with a waiter is taken in the end (R236). -/
theorem exists_rxTaken (hfair : WeaklyFair run sched) (hn : RxWaiting (run n)) :
    ∃ m, n ≤ m ∧ Concluded RxTaken (run m) (sched m) := by
  obtain ⟨hfree, src, hsrc⟩ := exists_rxAsks (hinv n).1 hn
  refine exists_concluded (waits := fun s => s.rxLock = .free ∧ RxAsks src s) ⟨hfree, hsrc⟩ ?_ fun hall => ?_
  · intro m hwait htaken hr hm
    obtain ⟨hs, ho⟩ := hinv m
    exact ⟨((ready_leaves_event hs hwait.2.1 (hrun m) hr).rx hwait.1 htaken).1,
      hwait.2.step hs ho (hrun m) htaken hr hm fun _ => hwait.1⟩
  · obtain ⟨m, hm, htaken⟩ := (hfair n).2 fun m hm => (hall m hm).2.rxWaiting (hall m hm).1
    exact ⟨m, hm, .inl htaken⟩

/-- Where every drain ends, `rx_lock` is taken in the end also if it is held while a port asks for it (R182, R236). -/
theorem exists_rxTaken_of_drainsEnd (hfair : WeaklyFair run sched) (hends : DrainsEnd run) {p : Nat}
    (hn : RxAsks (.port p) (run n)) : ∃ m, n ≤ m ∧ Concluded RxTaken (run m) (sched m) := by
  refine exists_concluded (waits := RxAsks (.port p)) hn (fun m hasks htaken hr hm => ?_) fun hall => ?_
  · exact hasks.step (hinv m).1 (hinv m).2 (hrun m) htaken hr hm nofun
  · obtain ⟨m, hm, hidle | hfatal⟩ := hends n
    · have hasks := hall m hm
      obtain ⟨_, _, _, _, hrx, _⟩ := (inv_ready hasks.1).mp (hinv m).1
      have hfree : (run m).rxLock = .free := (hrx.resolve_right fun hbusy => hbusy.1 hidle).2
      obtain ⟨k, hk, hend⟩ := exists_rxTaken hrun hinv hfair (hasks.rxWaiting hfree)
      exact ⟨k, hm.trans hk, hend⟩
    · exact ⟨m, hm, .inr (.inr hfatal)⟩

omit hinv

/-- A raise of a device that may raise gives the dispatcher one signal (R265). -/
theorem irqSignals_of_devRaise {m : Nat} (he : sched m = .devRaise) (h : CanRaise (run m)) :
    (run (m + 1)).irqSignals = (run m).irqSignals + 1 := by
  have hstep := hrun m
  rw [he, step_of_agentEvent (e := .devRaise) rfl nofun] at hstep
  have hraised : run (m + 1) = devRaise { run m with script := [] } := (Host.Outcome.next.inj hstep).symm
  rw [hraised, devRaise, if_pos (by exact h)]

/-- A fair device raises in the end, unless something else puts an end to its cause (R265). -/
theorem exists_raise (hfair : DeviceFair run sched) (hn : CanRaise (run n)) :
    ∃ m, n ≤ m ∧ CanRaise (run m) ∧
      (sched m = .devRaise ∧ (run (m + 1)).irqSignals = (run m).irqSignals + 1 ∨
        sched m ≠ .devRaise ∧ ¬CanRaise (run (m + 1))) := by
  refine exists_end_of_fair (stays := fun m => CanRaise (run m)) hn (fun m _ hcan hend => .inl ?_) fun hall => ?_
  · by_contra hgone
    refine hend ⟨hcan, ?_⟩
    by_cases he : sched m = .devRaise
    · exact .inl ⟨he, irqSignals_of_devRaise hrun he hcan⟩
    · exact .inr ⟨he, hgone⟩
  · obtain ⟨m, hm, he⟩ := hfair n hall
    exact ⟨m, hm, hall m hm, .inl ⟨he, irqSignals_of_devRaise hrun he (hall m hm)⟩⟩

/-- A fair dispatcher delivers a signal it holds in the end (R275). -/
theorem exists_irq (hfair : DispatcherFair run sched) (hn : 0 < (run n).irqSignals) :
    ∃ m, n ≤ m ∧ sched m = .irq ∧ 0 < (run m).irqSignals := by
  refine exists_end_of_fair (stays := fun m => 0 < (run m).irqSignals) hn (fun m _ hheld hend => .inl ?_) fun hall => ?_
  · exact hheld.trans_le (signals_kept (s := { run m with script := [sched m] }) rfl (hrun m)
      fun he => hend ⟨he, hheld⟩)
  · obtain ⟨m, hm, he⟩ := hfair n hall
    exact ⟨m, hm, he, hall m hm⟩

end Run

/-- Settles O60: what waits, may be raised or is held stays so until its end, which fairness brings. -/
theorem fairGrants : Obligations.FairGrants := by
  intro run sched hrun hinv n
  refine ⟨fun hfair => ⟨fun hn => ?_, fun hn => ?_, fun hends hm hn => ?_⟩, fun hfair hn => ?_, fun hfair hn => ?_⟩
  · exact exists_txTaken hrun hinv hfair hn
  · exact exists_rxTaken hrun hinv hfair hn
  · obtain ⟨p, h, a, hw⟩ := hn
    have hreq : ∃ kind, rxRequest (run n) (.port p) = some kind :=
      hw.elim (fun hw => ⟨_, rxRequest_port (.inl rfl) hw⟩) fun hw => ⟨_, rxRequest_port (.inr rfl) hw⟩
    exact exists_rxTaken_of_drainsEnd hrun hinv hfair hends ⟨hm, hreq⟩
  · exact exists_raise hrun hfair hn
  · exact exists_irq hrun hfair hn

end Sys2Proof.Machine
end

section
/-! The statements of 46_device_environment.md: what a move of the device leaves, what `DEV.TXDONE` and `DEV.RXFILL` store,
and when the device raises its interrupt. -/

namespace Sys2Proof.Machine

/-! ### What a move of the device leaves (R268) -/

/-- Each event of the device is a move of the device. -/
theorem devMove_agentEvent {e : Event} {s t : State} (he : deviceMove e = true) (h : agentEvent e s = .next t) :
    DevMove s t := by
  cases e with
  | devTxDone at_ st cause => cases h; exact devMove_txDone at_ st cause s
  | devRxFill at_ frame st => exact devMove_rxFill h
  | devByte r at_ off b => cases h; exact devMove_byte r at_ off b s
  | devRxData at_ k b => exact devMove_rxData h
  | devRaise => cases h; exact devMove_raise s
  | _ => cases he

/-- A command line is no move of the device. -/
theorem ne_call_of_deviceMove {e : Event} (he : deviceMove e = true) (p : Nat) (cw : Word) (a0 a1 : BitVec 64) :
    e ≠ .call p cw a0 a1 := by
  rintro rfl
  cases he

/-- A frame's stores change memory alone. -/
theorem storeFrame_eq (frame : List Byte) : ∀ (a : Addr) (s : State),
    storeFrame a frame s = { s with mem := (storeFrame a frame s).mem } := by
  induction frame with
  | nil => exact fun _ _ => rfl
  | cons b rest ih => exact fun a s => ih (a + 1#64) (devStore a 1 b.toNat s)

@[simp] theorem storeFrame_irqSignals (a : Addr) (frame : List Byte) (s : State) :
    (storeFrame a frame s).irqSignals = s.irqSignals := by
  rw [storeFrame_eq]

@[simp] theorem writeBack_irqSignals (at_ : Option Nat) (i n : Nat) (st : Byte) (s : State) :
    (writeBack at_ i n st s).irqSignals = s.irqSignals := by
  simp [writeBack]

theorem devTxDone_irqSignals (at_ : Option Nat) (st : Byte) (cause : Word) (s : State) :
    (devTxDone at_ st cause s).irqSignals = s.irqSignals := by
  unfold devTxDone
  split <;> simp

theorem devByte_irqSignals (r : Ring) (at_ : Option Nat) (off : Nat) (b : Byte) (s : State) :
    (devByte r at_ off b s).irqSignals = s.irqSignals := by
  unfold devByte
  split
  · rfl
  · split <;> rfl

/-- A fill does nothing, or stores the frame and ends with its write-back. -/
theorem devRxFill_cases {at_ : Option Nat} {frame : List Byte} {st : Byte} {s t : State}
    (h : devRxFill at_ frame st s = .next t) :
    t = s ∨ ∃ i a, t = writeBack at_ i frame.length st (storeFrame a frame s) := by
  unfold devRxFill at h
  split at h
  · cases h; exact .inl rfl
  · split at h
    · cases h; exact .inl rfl
    · split at h
      · split at h
        · cases h; exact .inr ⟨_, _, rfl⟩
        · cases h
      · cases h; exact .inl rfl

/-- A byte of frame data is stored, or nothing is. -/
theorem devRxData_cases {at_ : Option Nat} {k : Nat} {b : Byte} {s t : State} (h : devRxData at_ k b s = .next t) :
    t = s ∨ ∃ a, t = devStore a 1 b.toNat s := by
  unfold devRxData at h
  split at h
  · cases h; exact .inl rfl
  · split at h
    · cases h; exact .inl rfl
    · split at h
      · split at h
        · cases h; exact .inr ⟨_, rfl⟩
        · cases h
      · cases h; exact .inl rfl

/-- Only a raise signals the dispatcher (R265, R275). -/
theorem irqSignals_agentEvent {e : Event} {s t : State} (he : deviceMove e = true) (hne : e ≠ .devRaise)
    (h : agentEvent e s = .next t) : t.irqSignals = s.irqSignals := by
  cases e with
  | devTxDone at_ st cause => cases h; exact devTxDone_irqSignals at_ st cause s
  | devRxFill at_ frame st => obtain rfl | ⟨i, a, rfl⟩ := devRxFill_cases h <;> simp
  | devByte r at_ off b => cases h; exact devByte_irqSignals r at_ off b s
  | devRxData at_ k b => obtain rfl | ⟨a, rfl⟩ := devRxData_cases h <;> rfl
  | devRaise => exact absurd rfl hne
  | _ => cases he

/-- Settles O44: every event of the device is one of its moves, and only a raise signals. -/
theorem deviceRespectsBlock : Obligations.DeviceRespectsBlock := by
  intro s t e rest hp hscript he ht
  rw [step_of_agentEvent hscript (ne_call_of_deviceMove he)] at ht
  have hmove := devMove_agentEvent he ht
  have hsignals := fun hne => irqSignals_agentEvent he hne ht
  exact ⟨hmove.rest, hsignals, hmove.regs,
    fun r i hi hb => ⟨hmove.blockOwns hp hi hb, hmove.keeps hp r i hi hb⟩⟩

/-! ### The slot at the head and its status byte (R262, R263) -/

/-- With the window not empty and the slot at the head the device's, the in-order device works there (R263). -/
theorem deviceSlot_head {s : State} {r : Ring} (hon : engineOn s r = true) (hwin : headOf s r ≠ tailOf s r)
    (hd : deviceOwns s r (headOf s r) = true) : deviceSlot s r none = some (headOf s r) := by
  simp [deviceSlot, hon, hwin, hd]

/-- The status byte drawn, with DD set: bits 7:1 are as drawn. -/
theorem setDD_getLsbD (st : Byte) {j : Nat} (hj : 1 ≤ j) : (setDD st).getLsbD j = st.getLsbD j := by
  simp [setDD, BitVec.getLsbD_one, show j ≠ 0 by omega]

theorem dd_setDD (st : Byte) : dd (setDD st) = true := by
  simp [dd, setDD]

/-- One byte stored by a one-byte write: that address holds it, every other is as before. -/
theorem byteAt_writeByte (m : Memory) (a x : Addr) (b : Byte) :
    byteAt (writeBytes m a 1 b.toNat) x = if x = a then some b else byteAt m x := by
  rw [← byteAt_store, writeBytes, writeBytes, BitVec.ofNat_toNat, BitVec.setWidth_eq]

/-- Settles O47: the status write at the head is the one store, and the head moves after it. -/
theorem deviceCompletesTx : Obligations.DeviceCompletesTx := by
  intro s st cause hon hwin hd
  refine ⟨_, rfl, ?_⟩
  rw [devTxDone, deviceSlot_head (r := .tx) hon hwin hd]
  refine ⟨⟨setDD st, ?_, dd_setDD st, fun j hj _ => setDD_getLsbD st hj⟩, rfl, fun a ha => ?_, rfl⟩
  · exact (byteAt_writeByte _ _ _ _).trans (if_pos rfl)
  · exact (byteAt_writeByte _ _ _ _).trans (if_neg ha)

/-! ### The frame in the slot's buffer (R264) -/

/-- A frame's stores leave every byte outside the frame. -/
theorem byteAt_storeFrame_outside (frame : List Byte) : ∀ (a x : Addr) (s : State),
    (∀ k < frame.length, x ≠ a + BitVec.ofNat 64 k) → byteAt (storeFrame a frame s).mem x = byteAt s.mem x := by
  induction frame with
  | nil => exact fun _ _ _ _ => rfl
  | cons b rest ih =>
    intro a x s hout
    have hhead : x ≠ a := by simpa using hout 0 (Nat.succ_pos _)
    rw [storeFrame, ih (a + 1#64) x _ fun k hk => addr_succ a k ▸ hout (k + 1) (Nat.succ_lt_succ hk)]
    exact (byteAt_writeByte _ _ _ _).trans (if_neg hhead)

/-- Byte `k` of a frame that does not wrap onto itself stands at the address plus `k`. -/
theorem byteAt_storeFrame (frame : List Byte) : ∀ (a : Addr) (s : State) (k : Nat) (b : Byte), frame.length ≤ 2 ^ 64 →
    frame[k]? = some b → byteAt (storeFrame a frame s).mem (a + BitVec.ofNat 64 k) = some b := by
  induction frame with
  | nil => exact fun _ _ _ _ _ hb => nomatch hb
  | cons b rest ih =>
    intro a s k b' hlen hb
    rw [List.length_cons] at hlen
    cases k with
    | zero =>
      cases hb
      have hbehind : ∀ j < rest.length, a + BitVec.ofNat 64 0 ≠ a + 1#64 + BitVec.ofNat 64 j := by
        intro j hj he
        rw [← addr_succ] at he
        have hoff := congrArg BitVec.toNat (add_left_cancel he)
        rw [BitVec.toNat_ofNat, BitVec.toNat_ofNat] at hoff
        omega
      rw [storeFrame, byteAt_storeFrame_outside rest _ _ _ hbehind, BitVec.add_zero]
      exact (byteAt_writeByte _ _ _ _).trans (if_pos rfl)
    | succ k =>
      rw [addr_succ]
      exact ih (a + 1#64) _ k b' (by omega) hb

/-! ### The write-back (R264) -/

theorem writeBack_cfg (at_ : Option Nat) (i n : Nat) (st : Byte) (s : State) : (writeBack at_ i n st s).cfg = s.cfg := by
  simp [writeBack]

/-- The two stores of a write-back: `length`, then the status byte. -/
theorem writeBack_mem (at_ : Option Nat) (i n : Nat) (st : Byte) (s : State) : (writeBack at_ i n st s).mem =
    writeBytes (writeBytes s.mem (field s.cfg .rx i 8) 2 n) (field s.cfg .rx i 12) 1 (setDD st).toNat := by
  cases at_ <;> rfl

/-- The slot holds the length, as long as it fits. -/
theorem readBytes_writeBack_len (at_ : Option Nat) (i : Nat) {n : Nat} (hn : n < 65536) (st : Byte) (s : State) :
    readBytes (writeBack at_ i n st s).mem (field s.cfg .rx i 8) 2 = some n := by
  rw [writeBack_mem, readBytes_write_beside (by decide), readBytes_writeBytes_same 2 _ _ _ (by decide)]
  exact congrArg some (Nat.mod_eq_of_lt hn)

/-- The slot is the block's: its DD is set. -/
theorem blockOwns_writeBack (at_ : Option Nat) (i n : Nat) (st : Byte) (s : State) :
    blockOwns (writeBack at_ i n st s) .rx i = true := by
  have hstatus : statusAt (writeBack at_ i n st s) .rx i = some (setDD st) := by
    rw [statusAt, writeBack_mem, writeBack_cfg]
    exact (byteAt_writeByte _ _ _ _).trans (if_pos rfl)
  rw [blockOwns, hstatus]
  exact dd_setDD st

/-- A write-back stores inside its descriptor, so it leaves every byte of a data area. -/
theorem byteAt_writeBack_area {s : State} {a : Addr} {len i k : Nat} (hp : paramsOk s.cfg = true)
    (ha : areaOk s.cfg a len = true) (hi : i < s.cfg.n) (hk : k < len) (at_ : Option Nat) (n : Nat) (st : Byte) :
    byteAt (writeBack at_ i n st s).mem (a + BitVec.ofNat 64 k) = byteAt s.mem (a + BitVec.ofNat 64 k) := by
  have hstore : ∀ {off w : Nat} (m : Memory) (v : Nat), off + w ≤ 16 →
      byteAt (writeBytes m (field s.cfg .rx i off) w v) (a + BitVec.ofNat 64 k) = byteAt m (a + BitVec.ofNat 64 k) := by
    intro off w m v hw
    refine byteAt_writeBytes_outside w m _ _ v fun j hj => ?_
    rw [field_add]
    exact area_ne_field hp ha hk .rx hi (by omega)
  rw [writeBack_mem, hstore _ _ (by decide), hstore _ _ (by decide)]

/-- A fill whose slot, buffer and frame allow it. -/
theorem devRxFill_eq {at_ : Option Nat} {frame : List Byte} {s : State} {i : Nat} {a : Addr}
    (hslot : deviceSlot s .rx at_ = some i) (hbuf : bufferOf s i = some a) (hlen : frame.length ≤ s.cfg.rxBufSize)
    (hok : storeOk s a frame.length = true) (st : Byte) :
    devRxFill at_ frame st s = .next (writeBack at_ i frame.length st (storeFrame a frame s)) := by
  rw [devRxFill, hslot]
  dsimp only
  rw [hbuf]
  dsimp only
  rw [if_pos hlen, if_pos hok]

/-- Settles O48: the frame's stores miss the rings, and the write-back's stores miss the frame. -/
theorem deviceFillsRx : Obligations.DeviceFillsRx := by
  intro s frame st a hp hon hwin hd hbuf hlen hshort hok
  have hslot := deviceSlot_head (r := .rx) hon hwin hd
  refine ⟨_, devRxFill_eq hslot hbuf hlen hok st, ?_⟩
  have hcfg := cfg_storeFrame frame a s
  have hi : headOf s .rx < s.cfg.n := (deviceSlot_some hslot).2.2 hp
  refine ⟨?_, blockOwns_writeBack .., fun k b hb => ?_, ?_, ?_, ?_⟩
  · rw [← hcfg]
    exact readBytes_writeBack_len none _ hshort st _
  · obtain ⟨hk, _⟩ := List.getElem?_eq_some_iff.mp hb
    have harea := areaOk_of_storeOk hok
    rw [← hcfg] at hp harea hi
    rw [byteAt_writeBack_area hp harea hi hk]
    exact byteAt_storeFrame frame a s k b (by omega) hb
  -- The head, the cause and the rest of the state: the frame's stores have changed memory alone.
  all_goals
    rw [storeFrame_eq]
    rfl

/-! ### The interrupt (R265, R266) -/

/-- A raise that is enabled: the output goes out, and the dispatcher has one more signal. -/
theorem devRaise_of_enabled {s : State} (hon : s.dev.rxOn = true) (hout : s.dev.irqOut = false)
    (hcause : s.dev.regs.icr &&& s.dev.regs.ims ≠ 0) :
    devRaise s = { s with dev := { s.dev with irqOut := true }, irqSignals := s.irqSignals + 1 } :=
  if_pos ⟨hcause, hout, hon⟩

/-- With an interrupt out, or no unmasked cause, nothing is raised. -/
theorem devRaise_of_not_enabled {s : State} (h : s.dev.irqOut = true ∨ s.dev.regs.icr &&& s.dev.regs.ims = 0) :
    devRaise s = s := by
  refine if_neg fun ⟨hcause, hout, _⟩ => ?_
  rcases h with h | h
  · rw [h] at hout; cases hout
  · exact hcause h

/-- The acknowledgment leaves no cause and no interrupt out (R266). -/
theorem afterI2_dev (s : State) :
    (afterI2 s).dev = { s.dev with regs := { s.dev.regs with icr := 0 }, irqOut := false } := rfl

/-- Settles O49: the two cases of the raise, and the raise of a cause added to the acknowledged device. -/
theorem deviceRaises : Obligations.DeviceRaises := by
  refine ⟨fun s => devRaise_of_enabled, fun s => devRaise_of_not_enabled, fun s c hm hpc => ?_⟩
  refine ⟨afterI2 s, rxTurn_i2 hm hpc, by rw [afterI2_dev], by rw [afterI2_dev], fun hon hcause => ?_⟩
  have hadded : (addCause c (afterI2 s)).dev.regs.icr = c := BitVec.zero_or
  rw [devRaise_of_enabled (s := addCause c (afterI2 s)) hon rfl (by rw [hadded]; exact hcause)]

end Sys2Proof.Machine
end

section
/-! The statements of 60_exceptions.md and 70_reset_and_hazards.md: what a rejection and a block reset leave, that only INIT
writes the interrupt mask, and that a full TX ring looks empty to the in-order device. -/

namespace Sys2Proof.Machine

/-! ### The mask (R301) -/

/-- In a block that is not `UNINIT`, `Issue(p)` changes the ports only: it starts no INIT (R202, R232). -/
theorem issueEvent_changes_ports {p : Nat} {cw : Word} {a0 a1 : BitVec 64} {s t : State} (hm : s.mode ≠ .uninit)
    (h : issueEvent p cw a0 a1 s = .next t) : t = { s with ports := t.ports, sel := t.sel } := by
  rcases issueEvent_cases h with ⟨rfl, _⟩ | ⟨q, _, _, ⟨why, _, rfl⟩ | ⟨i, _, ⟨_, rfl⟩ | ⟨r, _, rfl⟩ |
    ⟨hacc, ⟨rfl, _⟩ | ⟨_, rfl⟩⟩⟩⟩
  · rfl
  · unfold issueIllegal
    split <;> rfl
  · rfl
  · rfl
  · exact absurd (decideOn_init_accept hacc) hm
  · rfl

/-- The mask has a value, and no micro-step of INIT can follow: the sequencer is idle, or the block has halted. -/
structure MaskFixed (v : Word) (s : State) : Prop where
  mask : s.dev.regs.ims = v
  rest : s.ini.pc = .idle ∨ s.mode = .fatal

/-- The moves that leave the mask and the sequencer alone keep it; they may halt the block. -/
theorem MaskFixed.of_move {v : Word} {s t : State} (h : MaskFixed v s) (mask : t.dev.regs.ims = s.dev.regs.ims)
    (ini : t.ini = s.ini) (mode : t.mode = s.mode ∨ t.mode = .fatal) : MaskFixed v t where
  mask := mask.trans h.mask
  rest := h.rest.elim (fun hidle => .inl (ini ▸ hidle)) fun hfatal => .inr (mode.elim (·.trans hfatal) id)

theorem MaskFixed.tx {v : Word} {s t : State} (h : MaskFixed v s) (hmove : TxMove s t) : MaskFixed v t :=
  h.of_move (by rw [hmove.dev]) (by rw [hmove.rest]) (.inl (by rw [hmove.rest]))

theorem MaskFixed.rx {v : Word} {s t : State} (h : MaskFixed v s) (hmove : RxMove s t) : MaskFixed v t :=
  h.of_move (by rw [hmove.dev.1]) (by rw [hmove.rest]) (hmove.mode.imp And.left And.left)

theorem MaskFixed.dev {v : Word} {s t : State} (h : MaskFixed v s) (hmove : DevMove s t) : MaskFixed v t :=
  h.of_move (by rw [hmove.regs]) (by rw [hmove.rest]) (.inl (by rw [hmove.rest]))

/-- An idle sequencer makes no move, nor does any in a halted block (R296). -/
theorem initTurn_of_rest {s : State} (h : s.ini.pc = .idle ∨ s.mode = .fatal) : initTurn s = .next s := by
  unfold initTurn
  split
  · rfl
  · rename_i hm
    rw [initStep, h.resolve_right hm]

theorem MaskFixed.initTurn (v : Word) : Keeps (MaskFixed v) initTurn := by
  intro s t h ht
  rw [initTurn_of_rest h.rest] at ht
  cases ht
  exact h

theorem MaskFixed.latchIrq {v : Word} {s : State} (h : MaskFixed v s) : MaskFixed v (latchIrq s) := by
  unfold Machine.latchIrq
  split
  · exact h
  · exact h.of_move rfl rfl (.inl rfl)

/-- A buffer that changes hands outside the block is no matter of the device or the block (R53). -/
theorem MaskFixed.moveBuffer {v : Word} {s : State} (h : MaskFixed v s) (x : Handle) (o : Owner) (a : Addr) :
    MaskFixed v (moveBuffer x o a s) := by
  rcases moveBuffer_cases x o a s with he | ⟨_, _, _, ⟨_, he⟩ | ⟨_, _, he⟩ | ⟨_, _, he⟩⟩ <;> rw [he]
  · exact h
  all_goals exact h.of_move rfl rfl (.inl rfl)

theorem maskFixed_stable (v : Word) : Stable (MaskFixed v) where
  script _ _ h := h.of_move rfl rfl (.inl rfl)
  grantTx _ _ _ h ht := h.tx (txMove_grant ht)
  grantRx _ _ _ h ht := h.rx (rxMove_grant ht)
  tx _ _ h ht := h.tx (txMove_turn ht)
  rx _ _ h ht := h.rx (rxMove_turn ht)
  init := MaskFixed.initTurn v
  irq s h := (h.of_move (t := deliverSignal s) rfl rfl (.inl rfl)).latchIrq
  alloc _ _ h := h.of_move rfl rfl (.inl rfl)
  txDone at_ st cause s h := h.dev (devMove_txDone at_ st cause s)
  rxFill _ _ _ _ _ h ht := h.dev (devMove_rxFill ht)
  devByte r at_ off b s h := h.dev (devMove_byte r at_ off b s)
  rxData _ _ _ _ _ h ht := h.dev (devMove_rxData ht)
  raise s h := h.dev (devMove_raise s)
  own x o a _ h := h.moveBuffer x o a
  reset _ h := ⟨h.mask, .inl rfl⟩

/-- Settles O40: the sequencer, which alone writes the mask, is at rest, and `Issue` does not start it. -/
theorem maskOnlyByInit : Obligations.MaskOnlyByInit := by
  intro s t hs hm ht
  have hfixed : MaskFixed s.dev.regs.ims s := ⟨rfl, hm.imp_left (ini_idle_ready hs)⟩
  have hstarted : s.mode ≠ .uninit := by rcases hm with hm | hm <;> simp [hm]
  refine ((maskFixed_stable _).step_of_issue hfixed (fun p cw a0 a1 rest _ u hu => ?_) ht).mask
  have hports := issueEvent_changes_ports (s := { s with script := rest }) hstarted hu
  exact hfixed.of_move (by rw [hports]) (by rw [hports]) (.inl (by rw [hports]))

/-! ### The rejections (R293) -/

/-- An answer to a command that has just been presented: its port's response, its queue empty (R240). -/
theorem respond_raised (p : Nat) (r : Reason) (s : State) :
    respond (.port p) r (raiseRequest p s) = { s with ports := answeredPorts p r s } :=
  congrArg (fun l => { s with ports := l }) (answered_running p r s)

theorem issueCommand_reject {i : Instr} {start : Port → State → Result} {s : State} {q : Port} {r : Reason}
    (hq : s.ports[s.sel]? = some q) (hd : decideOn s.mode i q.a0 = .reject r) :
    issueCommand i start s = .next { s with ports := answeredPorts s.sel r s } := by
  unfold issueCommand
  rw [hq]
  dsimp only
  rw [hd, ← respond_raised]

theorem waitingAt_answered (p : Nat) (r : Reason) (s : State) :
    waitingAt { s with ports := answeredPorts p r s } p = none := by
  rw [← respond_raised, waitingAt_respond, waitingAt_raiseRequest]

/-- A port with nothing waiting asks for neither lock. -/
theorem serveTx_of_not_waiting {s : State} {p : Nat} (h : waitingAt s p = none) : serveTx p s = .next s := by
  refine serveTx_of_none (Option.eq_none_iff_forall_ne_some.mpr fun w hw => ?_)
  have hreq := (txWaiter_some (len := w.1) (h := w.2.1) (a := w.2.2) hw).2.2
  rw [h] at hreq
  cases hreq

theorem serveRx_of_not_waiting {s : State} {p : Nat} (h : waitingAt s p = none) : serveRx (.port p) s = .next s := by
  refine serveRx_of_none (Option.eq_none_iff_forall_ne_some.mpr fun kind hw => ?_)
  have hreq := (rxWaiter_some hw).2.2
  rw [rxRequest, h] at hreq
  cases hreq

/-- A command that is rejected is answered and runs nothing (R232, R293). -/
theorem exec_reject {i : Instr} {s : State} {q : Port} {r : Reason} (hq : s.ports[s.sel]? = some q)
    (hd : decideOn s.mode i q.a0 = .reject r) : exec i s = .next { s with ports := answeredPorts s.sel r s } := by
  have hwait := waitingAt_answered s.sel r s
  have hrx : ∀ j, j = .drain ∨ j = .intr → decideOn s.mode j q.a0 = .reject r →
      exec j s = .next { s with ports := answeredPorts s.sel r s } := fun j hj hd => by
    rw [exec_eq_issue_serve hj, issueCommand_reject hq hd]
    exact serveRx_of_not_waiting hwait
  cases i with
  | init =>
    show andThen (issueCommand _ _ s) (serveInit (decide (decisionAt .init s = .accept))) = _
    rw [issueCommand_reject hq hd, decisionAt_eq hq, hd]
    rfl
  | xmit len =>
    show andThen (issueCommand _ _ s) (serveTx s.sel) = _
    rw [issueCommand_reject hq hd]
    exact serveTx_of_not_waiting hwait
  | intr => exact hrx .intr (.inr rfl) hd
  | drain => exact hrx .drain (.inl rfl) hd

/-- INIT once begun (R232). -/
theorem decideOn_init_again {m : Mode} (hm : m = .initing ∨ m = .ready) (a : Handle) :
    decideOn m .init a = .reject .alreadyInit := by
  rcases hm with rfl | rfl <;> rfl

/-- Every other command before INIT is done (R232). -/
theorem decideOn_early {m : Mode} {i : Instr} (hm : m = .uninit ∨ m = .initing) (hi : i ≠ .init) (a : Handle) :
    decideOn m i a = .reject .notReady := by
  cases i with
  | init => exact absurd rfl hi
  | _ => rcases hm with rfl | rfl <;> rfl

theorem decideOn_xmit_null {m : Mode} (hm : m = .ready) (len : Nat) : decideOn m (.xmit len) 0 = .reject .badOperand := by
  rw [hm]
  rfl

/-- `RC` tells the outcomes apart (R291). -/
theorem Reason.code_injective : Function.Injective Reason.code := by
  intro r r' h
  cases r <;> cases r' <;> simp [Reason.code] at h ⊢

/-- Settles O11: each rejection is the decision of R232 in its case. -/
theorem rejections : Obligations.Rejections := by
  refine ⟨fun s q hq => ⟨fun hm => ?_, fun hm => ?_, fun hm ha len => ?_, fun hm => ?_⟩, fun r hr => ?_,
    fun _ _ h => Reason.code_injective h⟩
  · exact exec_reject hq (decideOn_init_again hm q.a0)
  · have hearly : ∀ i, i ≠ .init → exec i s = .next { s with ports := answeredPorts s.sel .notReady s } :=
      fun i hi => exec_reject hq (decideOn_early hm hi q.a0)
    exact ⟨hearly .drain nofun, hearly .intr nofun, fun len => hearly (.xmit len) nofun⟩
  · exact exec_reject hq (ha ▸ decideOn_xmit_null hm len)
  · rw [issueIllegal, if_neg hm, respond_raised]
  · cases r with
    | ok => exact absurd rfl hr
    | _ => rfl

/-! ### Block reset (R330, R331) -/

/-- After a block reset the block has no buffer: its shadow tables are empty and its engines idle. -/
theorem blockHolds_blockReset {h : Handle} (hne : h ≠ 0) (s : State) : blockHolds (blockReset s) h = false := by
  simp [blockHolds, blockReset, RxEngine.reset, InitSeq.reset, show ¬ h = 0#64 from hne]

/-- After a block reset no port has a command outstanding. -/
theorem pledged_blockReset (s : State) (h : Handle) : pledged (blockReset s) h = false := by
  have hport : ∀ q ∈ (blockReset s).ports, q.outstanding = false := fun q hq => by
    rw [List.eq_of_mem_replicate hq]
    rfl
  exact List.any_eq_false.mpr fun q hq => by simp [hport q hq]

/-- The platform recovers any buffer the block has forgotten (R331). -/
theorem moveBuffer_blockReset {h : Handle} (hne : h ≠ 0) (a : Addr) (s : State) :
    moveBuffer h .pool a (blockReset s) = dropArea h (setOwner h .pool (blockReset s)) := by
  have hmovable : movable (blockReset s) h = true := by simp [movable, blockHolds_blockReset hne]
  rw [moveBuffer, if_pos ⟨hmovable, rfl, pledged_blockReset s h⟩]
  rfl

/-- Settles O10: the event writes the block's own fields, and the platform's move is then a return to the pool. -/
theorem resetOutside : Obligations.ResetOutside := by
  intro s rest hscript
  refine ⟨blockReset { s with script := rest }, step_of_agentEvent hscript nofun, rfl, rfl, rfl, rfl, rfl, rfl, rfl, rfl,
    rfl, fun h a hne => ?_⟩
  rw [moveBuffer_blockReset hne]
  refine ⟨?_, lookup_drop_same ..⟩
  exact (ownerOf_setOwner h .pool _ h).trans (if_pos rfl)

/-! ### A full TX ring (R278, R347) -/

/-- With its head and its tail equal a ring's window is empty: the in-order device works on no slot (R263). -/
theorem deviceSlot_of_window_empty {s : State} {r : Ring} (h : headOf s r = tailOf s r) :
    deviceSlot s r none = none := by
  cases hon : engineOn s r with
  | false => simp [deviceSlot, hon]
  | true => simp [deviceSlot, hon, h]

/-- The widened device works on any slot it owns, whatever the head and the tail (R278). -/
theorem deviceSlot_widened {s : State} {r : Ring} {i : Nat} (hw : s.cfg.device = .widened) (hon : engineOn s r = true)
    (hi : i < s.cfg.n) (hd : deviceOwns s r i = true) : deviceSlot s r (some i) = some i := by
  simp [deviceSlot, hon, hw, hi, hd]

/-- A completion that is enabled makes its slot the block's (R262). -/
theorem blockOwns_devTxDone {s : State} {at_ : Option Nat} {i : Nat} (h : deviceSlot s .tx at_ = some i) (st : Byte)
    (cause : Word) : blockOwns (devTxDone at_ st cause s) .tx i = true := by
  have hstatus : statusAt (devTxDone at_ st cause s) .tx i = some (setDD st) := by
    rw [devTxDone, h]
    cases at_ <;> exact (byteAt_writeByte ..).trans (if_pos rfl)
  rw [blockOwns, hstatus]
  exact dd_setDD st

/-- Settles O50: the window of a full ring is empty, and the widened device asks for none. -/
theorem fullRingLooksEmpty : Obligations.FullRingLooksEmpty := by
  refine ⟨fun s st cause hwin => ?_, fun s i st cause hw hon hi hd => ?_⟩
  · rw [devTxDone, deviceSlot_of_window_empty hwin]
  · exact blockOwns_devTxDone (deviceSlot_widened (r := .tx) hw hon hi hd) st cause

end Sys2Proof.Machine
end
